-- ==== Sys2Proof/Word.lean ====
section
/-! DEFINITION. Words of the SG-2400: bytes of frames, wrapping counters, addresses, stamps and tags. -/

namespace Sys2Proof

/-- One byte of a frame or of a result page (R192). -/
abbrev Byte := BitVec 8

/-- A 32-bit wrapping number: an entry length counter, a weld length counter or an arrival number (R12, R30). -/
abbrev Word32 := BitVec 32

/-- A 48-bit Ethernet address as on the wire (Fig. 11.1). -/
abbrev Address := BitVec 48

/-- A reading of the plant clock: a 64-bit count of milliseconds that wraps (00 section 0.9.4, R185). -/
abbrev Stamp := BitVec 64

/-- The 8-bit wrapping generation kept with a reusable record (00 section 0.7). -/
abbrev Gen := BitVec 8

/-- A coil tag: 16 characters, one a byte, padded with spaces on the right (00 section 0.9.6, Fig. 11.1). -/
abbrev Tag := List Byte

/-- A line slot, 0 to 7. -/
abbrev LineId := Fin 8

/-- A channel number, 0 to 255. -/
abbrev ChanId := Fin 256

/-- A query context number, 0 to 15. -/
abbrev CtxId := Fin 16

end Sys2Proof
end

