-- ==== Sys2Proof/Config.lean ====
section
/-! DEFINITION. What the part fixes: capacities, region bases, the records its memory holds, and the free values the manual leaves open. -/

namespace Sys2Proof

/-! ### Records of the attached DRAM (06 Figs. 6.1, 6.2; 05 Figs. 5.2, 5.6; 04 Fig. 4.3) -/

/-- A piece reference: index 1 to 65,535 and generation; index 0 means "no piece" (00 section 0.9.5). -/
structure PieceRef where
  idx : Nat
  gen : Gen
deriving DecidableEq, Repr, Inhabited

/-- The reference that names no piece. -/
def PieceRef.noPiece : PieceRef := ⟨0, 0⟩

/-- SAME or REVERSED: how a piece lies on a line it is fed into (R37, R91). -/
inductive Direction where
  | same
  | reversed
deriving DecidableEq, Repr, Inhabited

/-- The kinds of piece (Fig. 5.2). -/
inductive PieceKind where
  | coil
  | scrap
  | sample
  | external
deriving DecidableEq, Repr, Inhabited

/-- The stored flags of a piece (Fig. 5.4); DAMAGED is reported and not stored. -/
structure PieceFlags where
  incomplete : Bool := false
  estimated : Bool := false
  duplicateTag : Bool := false
  unindexed : Bool := false
deriving DecidableEq, Repr, Inhabited

/-- The birth span of a piece; `stop` is absent while the piece is OPEN (Fig. 5.2). -/
structure BirthSpan where
  line : LineId
  strand : Nat
  start : Nat
  stop : Option Nat
  est : Bool
deriving DecidableEq, Repr, Inhabited

/-- A use span of a piece; it is FEEDING while `stop` is absent and FED afterwards (Fig. 5.2). -/
structure UseSpan where
  line : LineId
  start : Nat
  stop : Option Nat
  dir : Direction
  est : Bool
deriving DecidableEq, Repr, Inhabited

/-- A parent-link or child-link list: number of its groups, first and last group number (Fig. 5.2). -/
structure LinkList where
  count : Nat := 0
  first : Nat := 0
  last : Nat := 0
deriving DecidableEq, Repr, Inhabited

/-- PARENT or CHILD: the kind of a link list (R97). -/
inductive ListKind where
  | parent
  | child
deriving DecidableEq, Repr, Inhabited

/-- A segment record (Fig. 5.6). -/
structure Segment where
  child : PieceRef
  parent : PieceRef
  line : LineId
  strand : Nat
  start : Nat
  stop : Nat
  est : Bool
deriving DecidableEq, Repr, Inhabited

/-- A link group (R97). `slots` lists the slots filled so far, at most four: a segment number, or nothing where a
retirement emptied the slot. Slots past the end of the list have not been filled (DEDUCED, log 17). -/
structure Group where
  owner : PieceRef
  kind : ListKind
  pos : Nat
  next : Option Nat
  slots : List (Option Nat)
deriving DecidableEq, Repr, Inhabited

/-- A quality set (Fig. 4.3, R73). -/
structure Quality where
  estimated : Bool := false
  gap : Bool := false
  clipped : Bool := false
  damaged : Bool := false
deriving DecidableEq, Repr, Inhabited

/-- A bin record without its bin number (Figs. 4.3, 6.2). -/
structure BinRec where
  min : Int := 0
  max : Int := 0
  sum : Int := 0
  count : Nat := 0
  first : Int := 0
  last : Int := 0
  offset : Nat := 0
  quality : Quality := {}
deriving DecidableEq, Repr, Inhabited

/-- The header of a trend block (Fig. 6.2); `isSealed` tells SEALED from FILLING. -/
structure BlockHeader where
  line : LineId
  channel : ChanId
  gen : Gen
  pitch : Nat
  firstBin : Nat
  stamp : Stamp
  isSealed : Bool
deriving DecidableEq, Repr, Inhabited

/-- The directory entry of a trend block (R110). -/
structure DirEntry where
  firstAxis : Nat
  line : LineId
  pitch : Nat
deriving DecidableEq, Repr, Inhabited

/-- Unit 0 of a piece record (log 9). -/
structure PieceId where
  ref : PieceRef
  tag : Tag
  kind : PieceKind
  flags : PieceFlags
  opened : Stamp
deriving DecidableEq, Repr, Inhabited

/-- Unit 1 of a piece record: the unit that holds the birth span and the closed stamp (06 section 6.11, log 9). -/
structure PieceBirth where
  length : Option Nat
  birth : Option BirthSpan
  closed : Option Stamp
deriving DecidableEq, Repr, Inhabited

/-- What one addressed cell of the DRAM holds: a 32-byte unit, or an 8-byte directory entry (Fig. 6.1, log 8).
`cleared` is what the format writes: an empty header or slot, a cleared record, segment, group or entry, an EMPTY
Tag Index slot, zeros (R106). `poisoned` is a unit whose check bits were forced to fail (R125). -/
inductive Cell where
  | cleared
  | header (h : BlockHeader)
  | bin (b : BinRec)
  | pieceId (p : PieceId)
  | pieceBirth (p : PieceBirth)
  | pieceUses (a b : Option UseSpan)
  | pieceLinks (parents children : LinkList)
  | segment (g : Segment)
  | group (g : Group)
  | tagUsed (tag : Tag) (ref : PieceRef)
  | tagTombstone
  | dirEntry (e : DirEntry)
  | poisoned
deriving DecidableEq, Repr, Inhabited

/-- How the check bits judge a word with three or more wrong bits. R123 gives the outcome of one wrong bit and of
those the check detects; which this is, is open (log 11). -/
inductive EccVerdict where
  | uncorrectable
  | looksClean
  | looksCorrected
deriving DecidableEq, Repr, Inhabited

namespace Config

/-! ### Free values: constants without a body; nothing can be proved of what they are -/

/-- Free value: how a word with three or more wrong bits is judged (R123, log 11). -/
opaque manyBitVerdict (word : Nat) (bits : List Nat) : EccVerdict

/-- Free value: what a unit reads as when a word of three or more wrong bits is taken for a good one (R123, log 11). -/
opaque garbledCell (word : Nat) (bits : List Nat) (c : Cell) : Cell

/-- Free value: whether a scrub step read a word at its start or at its end, where the two differ (R127, R128, log 12). -/
opaque scrubReadEarly (fresh word : Nat) : Bool

/-- Free value: whether the format had already written a word that went wrong while it ran (R106, log 12). -/
opaque formatWrittenEarly (fresh word : Nat) : Bool

/-- Free value: the channel generation of bins read from a block whose header fails (R126, log 13). -/
opaque lostGeneration (block : Nat) : Gen

/-- Free value: the direction byte of an EDGE whose parent reads DAMAGED (R146, log 13). -/
opaque lostDirection (child parent : PieceRef) : Direction

/-- Free value: the 40 bits that stand for an axis position or bin number outside 40 unsigned bits, which Fig. 11.1 gives no encoding
(R18, R38, R168, log 13). -/
opaque strayAxis (x : Int) : BitVec 40

/-- Free value: the 32 bits that stand for a piece position outside 32 unsigned bits, which Fig. 11.1 gives no encoding (R154, R166, R193,
log 13). -/
opaque strayPosition (x : Int) : BitVec 32

/-! ### Capacities and fixed values -/

/-- The management EtherType (R1). -/
def managementType : BitVec 16 := 0x88B6

/-- The process EtherType after a cold reset (R6). -/
def defaultProcessType : BitVec 16 := 0x88B5

/-- Frames a transmit queue holds (R2). -/
def txCapacity : Nat := 32

/-- Events a line input queue holds (R12). -/
def queueCapacity : Nat := 64

/-- Joints a strip chain holds (R35). -/
def chainCapacity : Nat := 32

/-- Entries the store write queue holds (R120). -/
def writeCapacity : Nat := 256

/-- Requests the request queue holds (R170). -/
def requestCapacity : Nat := 8

/-- Entries the Segment Cache holds (R160). -/
def cacheCapacity : Nat := 32

/-- Result pages in result memory, bytes of a page, pages one context may hold (R138). -/
def pageCount : Nat := 1024
def pageBytes : Nat := 1024
def pagesPerContext : Nat := 256

/-- Segments one walk may read (R145, R158). -/
def walkBudget : Nat := 256

/-- The largest axis value, 2^40 - 1 (R30). -/
def axisMax : Nat := 1099511627775

/-- The largest holdback gap, 2^41 - 1 (Fig. 3.1). -/
def gapMax : Nat := 2199023255551

/-- The cap of the reverse debt, mm (R32). -/
def debtMax : Nat := 1000000

/-- The largest piece length, mm (00 section 0.9.2, R6). -/
def lengthMax : Nat := 33554431

/-- The largest station content, mm (R17). -/
def contentMax : Nat := 2000000

/-- Pieces, segments, link groups, trend blocks, Tag Index slots (Fig. 0.4). -/
def pieceCount : Nat := 65535
def segmentCount : Nat := 524288
def groupCount : Nat := 262144
def blockCount : Nat := 786432
def tagSlotCount : Nat := 131072

/-- Bins of a trend block (06 section 6.2). -/
def binsPerBlock : Nat := 120

/-- Byte offsets of the DRAM regions (Fig. 6.1). -/
def blockBase : Nat := 0x00000000
def recordBase : Nat := 0xC0000000
def segmentBase : Nat := 0xC1000000
def groupBase : Nat := 0xC2000000
def tagBase : Nat := 0xC2800000
def directoryBase : Nat := 0xC2C00000
def spareBase : Nat := 0xC3200000
def dramEnd : Nat := 0x100000000

/-- 8-byte words of the DRAM (R105, R127). -/
def wordCount : Nat := 536870912

/-- Words one scrub step reads (R127). -/
def scrubWords : Nat := 8192

end Config

end Sys2Proof
end

