-- ==== Sys2Proof/Syntax.lean ====
section
/-! DEFINITION. The commands of the SG-2400: one constructor per row of spec/opcode_table.json. -/

namespace Sys2Proof

/-- The two Ethernet ports. -/
inductive PortId where
  | A
  | B
deriving DecidableEq, Repr, Inhabited

/-- An Ethernet frame less its frame check sequence: addresses, the two type bytes and what follows them (11, opening). -/
structure Frame where
  dst : Address
  src : Address
  etype : BitVec 16
  payload : List Byte
deriving DecidableEq, Repr, Inhabited

/-- The commands, in the order of the table. A command that takes an item already held by the part (the oldest frame
copy, the head of a line's input queue, the head of the request queue) carries no copy of it. -/
inductive Instr where
  /-- COLD_RESET (R4). -/
  | coldReset
  /-- FORMAT_COMPLETE (R106). -/
  | formatComplete
  /-- LINK_DOWN (R3). -/
  | linkDown (p : PortId)
  /-- LINK_UP (R3). -/
  | linkUp (p : PortId)
  /-- FRAME_RECEIVED (R1): `ok` says that the frame check sequence is right. -/
  | frameReceived (p : PortId) (ok : Bool) (f : Frame)
  /-- FRAME_TRANSMITTED (R2). -/
  | frameTransmitted (p : PortId)
  /-- PROCESS_FRAME_CLASSIFY (R9). -/
  | processFrameClassify
  /-- LENGTH_EVENT (R30). -/
  | lengthEvent (l : LineId)
  /-- SAMPLE_EVENT (R65). -/
  | sampleEvent (l : LineId)
  /-- WELD_EVENT (R36). -/
  | weldEvent (l : LineId)
  /-- CUT_EVENT (R38). -/
  | cutEvent (l : LineId)
  /-- STATE_STOP_EVENT (R25). -/
  | stateStopEvent (l : LineId)
  /-- STATE_RUN_EVENT (R26). -/
  | stateRunEvent (l : LineId)
  /-- BASE_TICK (R185). -/
  | baseTick
  /-- RECKON_EXPIRY (R46). -/
  | reckonExpiry
  /-- HOLD_EXPIRY (R141). -/
  | holdExpiry
  /-- SWEEP_EXPIRY (R189). -/
  | sweepExpiry
  /-- SCRUB_STEP_COMPLETE (R127). -/
  | scrubStepComplete
  /-- WRITE_COMPLETE (R120). -/
  | writeComplete
  /-- GLU_WRITE_RESUMED (R81). -/
  | gluWriteResumed
  /-- RELOAD_SEAL_QUEUED (R108). -/
  | reloadSealQueued
  /-- ASSEMBLY_START (R136). -/
  | assemblyStart
  /-- STORE_READ_COMPLETE (R137). -/
  | storeReadComplete
  /-- UNKNOWN_REQUEST (R171). -/
  | unknownRequest
  /-- LOAD_ORIGIN_ENTRY (R8). -/
  | loadOriginEntry
  /-- LOAD_LINE_ENTRY (R15). -/
  | loadLineEntry
  /-- LOAD_STATION_ENTRY (R17). -/
  | loadStationEntry
  /-- LOAD_CHANNEL_ENTRY (R60). -/
  | loadChannelEntry
  /-- LOAD_ACCESS_ENTRY (R172). -/
  | loadAccessEntry
  /-- LOAD_STORE_ENTRY (R119). -/
  | loadStoreEntry
  /-- LOAD_TICK_ENTRY (R186). -/
  | loadTickEntry
  /-- LOAD_ALERT_ENTRY (R175). -/
  | loadAlertEntry
  /-- LOAD_PROCESS_ETHERTYPE (R6). -/
  | loadProcessEthertype
  /-- READ_ENTRY (R174). -/
  | readEntry
  /-- ACTIVATE (R22). -/
  | activate
  /-- DEACTIVATE (R27). -/
  | deactivate
  /-- RESET_LINE (R28). -/
  | resetLine
  /-- ACK_DEGRADED (R55). -/
  | ackDegraded
  /-- QUERY_TREND (R132). -/
  | queryTrend
  /-- QUERY_GENEALOGY (R132). -/
  | queryGenealogy
  /-- FETCH (R142). -/
  | fetch
  /-- RELEASE (R143). -/
  | release
  /-- PIN (R98). -/
  | pin
  /-- UNPIN (R98). -/
  | unpin
  /-- RETIRE (R99). -/
  | retire
  /-- SET_TIME (R177). -/
  | setTime
  /-- STATUS (R178). -/
  | status
  /-- CLEAR_FAULT (R182). -/
  | clearFault
  /-- RESTART (R179). -/
  | restart
  /-- WARM_RESET_CLEAR (R122). -/
  | warmResetClear
  /-- DRAM_WORD_WRONG_BITS (R123): word `word` of the DRAM comes to hold wrong bits at the positions `bits`. -/
  | dramWordWrongBits (word : Nat) (bits : List Nat)
deriving DecidableEq, Repr

end Sys2Proof
end

