-- ==== Sys2Proof/WellFormed.lean ====
section
/-! DEFINITION. Which commands are well formed: operands that the table's rows can carry. -/

namespace Sys2Proof

/-- The named word lies in the 4 GiB of the DRAM (R105, Fig. 6.1). -/
def Instr.wordInDram : Instr → Bool
  | .dramWordWrongBits w _ => w < Config.wordCount
  | _ => true

/-- DRAM_WORD_WRONG_BITS names one or more wrong bits (table row, R123). -/
def Instr.someBitWrong : Instr → Bool
  | .dramWordWrongBits _ bits => !bits.isEmpty
  | _ => true

/-- No bit position is named twice. -/
def Instr.bitsDistinct : Instr → Bool
  | .dramWordWrongBits _ bits => decide bits.Nodup
  | _ => true

/-- The checks together. -/
def Instr.wf (i : Instr) : Bool :=
  i.wordInDram && i.someBitWrong && i.bitsDistinct

end Sys2Proof
end

