-- ==== Sys2Proof/Machine/State.lean ====
section
/-! DEFINITION. The state of the SG-2400, block by block as in 00 Fig. 0.1, and its value right after a cold reset. Plain data. -/

namespace Sys2Proof.Machine

/-- Why a command stops the machine. -/
inductive Fault where
  /-- Raised by DRAM_WORD_WRONG_BITS for a word number outside the 4 GiB of the DRAM, which R105 says does not exist. Safe. -/
  | noSuchWord (word : Nat)
deriving DecidableEq, Repr

/-- Why a command has no meaning. -/
inductive Refusal where
  /-- A command without a meaning, by its mnemonic in the table; used by no arm of exec. Safe. -/
  | notModelled (mnemonic : String)
deriving DecidableEq, Repr

/-- A LIFO list of numbers, written as the numbers pushed, top first, followed by `next, next + 1, …, limit - 1`. -/
structure FreeList where
  pushed : List Nat := []
  next : Nat
  limit : Nat
deriving DecidableEq, Repr

/-- Sparse data by number: keys strictly rising, no value equal to the default. -/
abbrev Sparse (α : Type) := List (Nat × α)

/-! ### PRL and FCL (chapter 1) -/

/-- The state of a link (R3). -/
inductive Link where
  | up
  | down
deriving DecidableEq, Repr

/-- One port: its physical layer, its link state, its transmit queue and its counters (R2, R3, R14). -/
structure Port where
  phys : Link := .up
  link : Link := .up
  txq : List Frame := []
  rxError : Nat := 0
  txDrop : Nat := 0
  linkDrop : Nat := 0
deriving DecidableEq, Repr

/-- Whether the part runs, is in a cold reset, or is in a phase of a warm reset (R4, R5). -/
inductive Phase where
  | running
  | coldReset
  | warmDrain
  | warmClear
deriving DecidableEq, Repr

structure PRL where
  portA : Port := {}
  portB : Port := {}
  processType : BitVec 16 := Config.defaultProcessType
deriving DecidableEq, Repr

/-- Permitted kinds of an origin (R8). -/
structure Kinds where
  length : Bool := false
  sample : Bool := false
  joint : Bool := false
  state : Bool := false
deriving DecidableEq, Repr

/-- An Origin Table entry (R8). -/
structure Origin where
  valid : Bool := false
  code : BitVec 16 := 0
  line : Nat := 0
  kinds : Kinds := {}
  checked : Bool := false
  lastSeq : BitVec 16 := 0
deriving DecidableEq, Repr

structure FCL where
  copies : List (List Byte) := []
  origins : Vector Origin 32 := Vector.replicate 32 {}
  malformed : Nat := 0
  unknownOrigin : Nat := 0
deriving DecidableEq, Repr

/-! ### LTK (chapters 2 and 3) -/

/-- The kinds of cut (R6, Fig. 1.3). -/
inductive CutKind where
  | coil
  | scrap
  | sample
deriving DecidableEq, Repr

/-- The body of a process event (Fig. 1.3). -/
inductive Body where
  | length (counter : Word32) (speed : Nat)
  | sample (station : Fin 12) (pairs : List (Nat × Int))
  | weld (counter : Word32) (declared : Nat) (tag : Tag)
  | cut (kind : CutKind) (finished : Nat) (tags : List Tag)
  | stop
  | run
deriving DecidableEq, Repr

/-- An event of a line's input queue (R7, R12). -/
structure Event where
  body : Body
  origin : BitVec 16
  arrival : Word32
  gap : Bool
deriving DecidableEq, Repr

/-- The line states (Fig. 2.2). -/
inductive LineState where
  | vacant
  | idle
  | settling
  | running
  | parked
  | reckoning
  | holdback
  | suspended
deriving DecidableEq, Repr

/-- HEAD_FIRST or TAIL_FIRST (Fig. 2.1). -/
inductive Payoff where
  | headFirst
  | tailFirst
deriving DecidableEq, Repr

/-- A Line Table entry (Fig. 2.1). -/
structure LineEntry where
  valid : Bool := false
  shear : Nat := 0
  strands : Nat := 1
  payoff : Payoff := .headFirst
  settleCount : Nat := 4
  maxStep : Nat := 50000
  maxSpeed : Nat := 25000
  silenceLimit : Nat := 32
  gracePeriod : Nat := 6000
deriving DecidableEq, Repr

/-- A pending content (R18). -/
structure Pending where
  content : Nat
  watch : Int
  trigger : Option Nat
deriving DecidableEq, Repr

/-- A Station Table entry (R17). -/
structure Station where
  valid : Bool := false
  content : Nat := 0
  pending : Option Pending := none
deriving DecidableEq, Repr

/-- A joint of a strip chain; its kind is always WELD (R35). -/
structure Joint where
  axis : Nat
  piece : PieceRef
  est : Bool
deriving DecidableEq, Repr

/-- An entry of a feed list (R88). -/
structure FeedEntry where
  piece : PieceRef
  start : Nat
  stop : Option Nat
  est : Bool
deriving DecidableEq, Repr

/-- The counters of a line slot (Figs. 1.5, 2.6, 3.2, 4.5). -/
structure LineCounters where
  lineOff : Nat := 0
  duplicate : Nat := 0
  gap : Nat := 0
  stale : Nat := 0
  kindRefused : Nat := 0
  badTag : Nat := 0
  overrun : Nat := 0
  queueDiscard : Nat := 0
  welds : Nat := 0
  cuts : Nat := 0
  chainFull : Nat := 0
  cutOrder : Nat := 0
  badStrands : Nat := 0
  jump : Nat := 0
  reverseOver : Nat := 0
  binDiscard : Nat := 0
  lengthLost : Nat := 0
  holdbackDrop : Nat := 0
  lineSuspended : Nat := 0
  accepted : Nat := 0
  unmapped : Nat := 0
  preHead : Nat := 0
  behind : Nat := 0
  outOfRange : Nat := 0
  binsHanded : Nat := 0
  binLost : Nat := 0
deriving DecidableEq, Repr

/-- The state of length supervision (Fig. 3.1). -/
structure Supervision where
  silence : Nat := 0
  reckonSpeed : Nat := 0
  remainder : Nat := 0
  anchor : Int := 0
  gap : Nat := 0
  grace : Nat := 0
  acked : Bool := false
deriving DecidableEq, Repr

/-- A line slot (chapters 1, 2, 3; the feed list is GLU's, R88). -/
structure Line where
  entry : LineEntry := {}
  stations : Vector Station 12 := Vector.replicate 12 {}
  state : LineState := .vacant
  axis : Nat := 0
  lengthRef : Word32 := 0
  lastSpeed : Nat := 0
  headMark : Nat := 0
  settlingRun : Nat := 0
  lengthTaken : Bool := false
  reverseDebt : Nat := 0
  reverseOver : Bool := false
  refMissing : Bool := false
  parkedLength : Bool := false
  parkedFrom : LineState := .running
  sup : Supervision := {}
  chain : List Joint := []
  boundary : Option Nat := none
  outputs : List PieceRef := []
  lastWeld : Option Nat := none
  feeding : Option PieceRef := none
  queue : List Event := []
  newest : Word32 := 0
  lastTaken : Word32 := 0
  gapPending : Bool := false
  feed : List FeedEntry := []
  counters : LineCounters := {}
deriving DecidableEq, Repr

/-! ### BAC (chapter 4) -/

/-- A Channel Table entry (Fig. 4.2). -/
structure ChannelEntry where
  valid : Bool := false
  line : Nat := 0
  station : Nat := 0
  point : Nat := 0
  pitch : Nat := 10
  low : Int := -2147483648
  high : Int := 2147483647
deriving DecidableEq, Repr

/-- An open bin: its bin number and its record (Fig. 4.3). -/
structure OpenBin where
  num : Nat
  data : BinRec
deriving DecidableEq, Repr

/-- What BAC holds for a channel (Fig. 4.1). -/
structure Channel where
  entry : ChannelEntry := {}
  gen : Gen := 0
  openBin : Option OpenBin := none
  frontier : Option Nat := none
  lastHanded : Option Nat := none
deriving DecidableEq, Repr

/-! ### GLU (chapter 5) -/

/-- Piece states (R79). -/
inductive PieceState where
  | opened
  | closed
  | retired
deriving DecidableEq, Repr

/-- A Piece Table directory entry (R79). -/
structure PieceDir where
  state : PieceState := .retired
  gen : Gen := 0
  pins : Nat := 0
deriving DecidableEq, Repr

/-- The counters of GLU (Fig. 5.12). -/
structure GluCounters where
  tagIndexFull : Nat := 0
  tagOpen : Nat := 0
  useLimit : Nat := 0
  pieceTableFull : Nat := 0
  segmentFull : Nat := 0
  linkFull : Nat := 0
  pieceTableLow : Nat := 0
  autoRetired : Nat := 0
  retired : Nat := 0
deriving DecidableEq, Repr

/-- One write of GLU: the unit's address and its new content (Fig. 6.4). -/
structure UnitWrite where
  addr : Nat
  cell : Cell
deriving DecidableEq, Repr

/-- A call that closes the outputs of a line (R93, R94). -/
structure CloseCall where
  line : LineId
  start : Nat
  stop : Nat
  finished : Nat
  est : Bool
  incomplete : Bool
deriving DecidableEq, Repr

/-- A call of LTK or PBK on GLU, as the caller makes it; one that reaches GLU while a write of its own waits is kept so (R81, R82). -/
inductive GluCall where
  /-- the end of the feeding of a line that leaves recording, at an axis (R94, first step) -/
  | endFeeding (l : LineId) (axis : Nat) (est : Bool)
  /-- the close of the outputs of a line that leaves recording (R94, second step) -/
  | closeOutputs (k : CloseCall) (outputs : List PieceRef)
  /-- GLU's part of an accepted weld (R37, R89 to R91) -/
  | weld (l : LineId) (axis : Nat) (est : Bool) (tag : Tag) (declared : Nat) (dir : Direction)
  /-- the close of the open outputs at an accepted cut (R39 step 1, R93) -/
  | closeCut (k : CloseCall) (outputs : List PieceRef)
  /-- the opening of the outputs of an accepted cut (R39 step 3, R92) -/
  | openOutputs (l : LineId) (kind : CutKind) (tags : List Tag) (axis : Nat) (est : Bool)
  /-- the release of a counted implicit pin (R98, R139) -/
  | releasePin (r : PieceRef)
deriving DecidableEq, Repr

/-- Where a line that leaves the active states goes: to IDLE (R27, R28, R29), or to SUSPENDED (R56). -/
inductive Leaving where
  | idle
  | suspended
deriving DecidableEq, Repr

/-- What waits behind the waiting writes of GLU: a call not yet taken; the completion of one taken, for which a line holds
its input queue or MGT holds a reply (R81, R171); the steps of a line that leaves the active states which follow its two closes (R27,
R56); a RECKON expiry, with the period it carries, that LTK takes for a line once the line's call is complete (R47); or the request MGT
has passed on, which GLU takes in its turn, or LTK once the call of the line it names is complete (R81, R82, R171). -/
inductive GluWait where
  | call (c : GluCall)
  | line (l : LineId)
  | leave (l : LineId) (k : Leaving)
  | reply
  | reckon (l : LineId) (period : Nat)
  | request (l : Option LineId)
deriving DecidableEq, Repr

structure GLU where
  dir : Sparse PieceDir := []
  freePieces : FreeList := { next := 1, limit := Config.pieceCount + 1 }
  closeList : List Nat := []
  freeSegments : FreeList := { next := 0, limit := Config.segmentCount }
  freeGroups : FreeList := { next := 0, limit := Config.groupCount }
  /-- writes offered while the write queue had no room, oldest first (R81) -/
  waiting : List UnitWrite := []
  /-- calls, lines, the last steps of lines that leave, replies, RECKON expiries and a request that wait for those writes, in the order they are taken (R81, R82) -/
  waits : List GluWait := []
  counters : GluCounters := {}
deriving DecidableEq, Repr

/-! ### STC (chapter 6) -/

/-- An entry of the store write queue (Fig. 6.4). -/
inductive WriteEntry where
  | binWrite (block slot : Nat) (b : BinRec)
  | allocation (block : Nat) (h : BlockHeader) (e : DirEntry)
  | sealing (block : Nat) (h : BlockHeader)
  | unit (w : UnitWrite)
deriving DecidableEq, Repr

/-- A bin write offered to the store (R77). -/
structure BinOffer where
  chan : ChanId
  gen : Gen
  line : LineId
  pitch : Nat
  num : Nat
  data : BinRec
deriving DecidableEq, Repr

/-- Trend block states (R107). -/
inductive BlockState where
  | free
  | filling
  | sealed
deriving DecidableEq, Repr

/-- What STC holds for a trend block: its state and, while it is not FREE, its first bin number and whether it is unreadable (R107, R112,
R118, R126). -/
structure BlockInfo where
  state : BlockState := .free
  firstBin : Nat := 0
  unreadable : Bool := false
deriving DecidableEq, Repr

/-- What STC holds for a channel: its block directory, oldest first, and its current block with the header written (R108, R110). -/
structure ChannelStore where
  dir : List Nat := []
  current : Option (Nat × BlockHeader) := none
deriving DecidableEq, Repr

/-- Who waits for room on the write queue (R120). -/
inductive Waiter where
  | glu
  | reload
deriving DecidableEq, Repr

/-- A scrub step in progress: the words of its span that were not clean when it started (wrong bits, or none where the
unit was poisoned), and the byte ranges of the units written to since (R127, R128, log 12). -/
structure ScrubStep where
  words : List (Nat × Option (List Nat))
  touched : List (Nat × Nat)
deriving DecidableEq, Repr

/-- The Store table (R119). -/
structure StoreEntry where
  lowWater : Nat := 1024
  scanLength : Nat := 64
  holdCount : Nat := 50
deriving DecidableEq, Repr

/-- The counters of STC (Fig. 6.5). -/
structure StcCounters where
  allocated : Nat := 0
  storeFull : Nat := 0
  blocksReclaimed : Nat := 0
  reclaimBlocked : Nat := 0
  corrected : Nat := 0
  uncorrectable : Nat := 0
  poisoned : Nat := 0
  scrubCorrected : Nat := 0
  scrubUncorrectable : Nat := 0
  scrubSteps : Nat := 0
  scrubPasses : Nat := 0
deriving DecidableEq, Repr

structure STC where
  /-- the DRAM, by byte address of the unit or directory entry -/
  dram : Sparse Cell := []
  /-- the positions of the wrong bits of each word, by word number -/
  wrongBits : Sparse (List Nat) := []
  blocks : Sparse BlockInfo := []
  freeBlocks : FreeList := { next := 0, limit := Config.blockCount }
  ageQueue : List Nat := []
  chans : Vector ChannelStore 256 := Vector.replicate 256 {}
  writeQueue : List WriteEntry := []
  greatest : Nat := 0
  /-- who waits for room, first come first (R120) -/
  waiters : List Waiter := []
  /-- the reload seal that waits (R108) -/
  waitingSeal : Option WriteEntry := none
  /-- bin offers held behind a waiting reload seal (R120) -/
  heldOffers : List BinOffer := []
  entry : StoreEntry := {}
  scrubPointer : BitVec 16 := 0
  scrub : Option ScrubStep := none
  counters : StcCounters := {}
deriving DecidableEq, Repr

/-! ### PBK (chapters 7 and 8) -/

/-- The channel selection of a trend query (R132). -/
inductive Selection where
  | channels (cs : List ChanId)
  | lines (ls : List LineId)
deriving DecidableEq, Repr

/-- The request a context works on (R132). -/
inductive Query where
  | trend (x0 x1 : Nat) (sel : Selection) (depth resolution : Nat)
  | genealogy (ancestors : Bool) (depth : Nat)
deriving DecidableEq, Repr

/-- A piece named by tag or by reference (R132, Fig. 11.4). -/
inductive PieceName where
  | byTag (t : Tag)
  | byRef (r : PieceRef)
deriving DecidableEq, Repr

/-- Context states (R130). -/
inductive CtxState where
  | free
  | draining
  | assembling
  | ready
  | failed
deriving DecidableEq, Repr

/-- The reason a FAILED context holds (R130, R133). -/
inductive Failure where
  | noPiece
  | damagedRecord
deriving DecidableEq, Repr

/-- A query context (Fig. 7.2). -/
structure Context where
  state : CtxState := .free
  gen : Gen := 0
  source : Address := 0
  port : PortId := .A
  name : Option PieceName := none
  query : Option Query := none
  piece : PieceRef := .noPiece
  pinCounted : Bool := false
  marks : Vector (Option Word32) 8 := Vector.replicate 8 none
  walkPos : Nat := 0
  pages : List Nat := []
  truncated : Bool := false
  openSpan : Bool := false
  failure : Failure := .noPiece
  hold : Nat := 0
deriving DecidableEq, Repr

/-- A Segment Cache entry (R160): key and value. -/
structure CacheEntry where
  owner : PieceRef
  kind : ListKind
  pos : Nat
  num : Nat
  slots : List (Option Nat)
  next : Option Nat
deriving DecidableEq, Repr

/-- A linear map between a line's axis and a piece's coordinate through one span (R152 to R154). `near` and `far` are
the span's ends, `len` the length used for the piece, `turned` a REVERSED use span, `isOpen` a span still open. -/
structure SpanMap where
  line : LineId
  near : Int
  far : Int
  len : Int
  turned : Bool
  isOpen : Bool
  est : Bool
deriving DecidableEq, Repr

/-- One link of the chain back to the queried piece: the parent's use span and the child's birth span (R155). -/
structure ChainLink where
  useMap : SpanMap
  birthMap : SpanMap
deriving DecidableEq, Repr

/-- A piece range (Fig. 8.1), with the maps of the spans it is visited through (R151). -/
structure Range where
  piece : PieceRef
  p0 : Int
  p1 : Int
  q0 : Int
  q1 : Int
  turned : Bool
  chain : List ChainLink
  est : Bool
  openSpan : Bool
  birth : Option SpanMap
  uses : List SpanMap
deriving DecidableEq, Repr

/-- Marker kinds (Fig. 11.8). -/
inductive MarkerKind where
  | orphan
  | retired
  | external
  | damagedRecord
  | linkStale
  | reclaimed
  | damaged
deriving DecidableEq, Repr

/-- A MARKER record (Fig. 11.7). -/
structure Marker where
  kind : MarkerKind
  depth : Nat
  line : Option LineId := none
  channel : Option ChanId := none
  strand : Option Nat := none
  list : Option ListKind := none
  ref : Option PieceRef := none
  range : Option (Int × Int) := none
deriving DecidableEq, Repr

/-- A piece range or walk marker in its place in a depth (R156, R157). -/
inductive Item where
  | range (r : Range)
  | marker (m : Marker)
deriving DecidableEq, Repr

/-- A visit (Fig. 8.2): a piece range read on one line through one span, with its axis range and the run's direction. -/
structure Visit where
  range : Range
  span : SpanMap
  a0 : Int
  a1 : Int
  turned : Bool
deriving DecidableEq, Repr

/-- A piece whose list a genealogy walk walks: the spans its ends map through and its depth (R145, R146). -/
structure Node where
  ref : PieceRef
  birth : Option SpanMap
  uses : List SpanMap
  useSpans : List UseSpan
  depth : Nat
deriving DecidableEq, Repr

/-- What a list is walked for: the piece range of a trend walk with its axis range, or a node of a genealogy walk. -/
inductive Goal where
  | trend (r : Range) (birth : SpanMap) (a0 a1 : Int)
  | genealogy (n : Node)
deriving DecidableEq, Repr

/-- A list being walked (R161). -/
structure ListWalk where
  owner : PieceRef
  kind : ListKind
  goal : Goal
deriving DecidableEq, Repr

/-- What one slot of a group gave: a segment, a bad reference, with the segment read through it where its unit holds one, or a segment in
use that reads uncorrectable (R124, R146, R161). -/
inductive Got where
  | seg (g : Segment)
  | bad (g : Option Segment)
  | unread
deriving DecidableEq, Repr

/-- A link group whose slots are being read: its value, how it was come by and whether a drop reached it (R161, R162). -/
structure GroupWalk where
  walk : ListWalk
  pos : Nat
  num : Nat
  slots : List (Option Nat)
  next : Option Nat
  second : Bool
  cached : Bool
  dropped : Bool
deriving DecidableEq, Repr

/-- Work the assembly engine has still to do, in order. The tasks named `ask…` are reads asked of STC: the engine stops
in front of one until STORE_READ_COMPLETE answers it (R137). -/
inductive Task where
  /-- read the queried piece's record (R150, R145) -/
  | askQueried
  /-- turn to the next channel of a visit, `cs` being those of the selection not yet turned to (R164) -/
  | channels (v : Visit) (cs : List ChanId)
  /-- emit the records of a piece range, or a walk marker (R166) -/
  | emit (i : Item)
  /-- ask for a channel's horizon and search its directory (R164) -/
  | askChannel (v : Visit) (c : ChanId)
  /-- emit an in-run marker (R165) -/
  | runMarker (m : Marker)
  /-- read one trend block (R118) -/
  | askBlock (v : Visit) (c : ChanId) (block first : Nat) (e : DirEntry)
  /-- read the record of a piece range whose list is to be walked (R156) -/
  | askRange (r : Range)
  /-- read the record of a node whose list is to be walked (R145) -/
  | askNode (ref : PieceRef) (depth : Nat)
  /-- look a link group up in the Segment Cache (R161) -/
  | group (w : ListWalk) (pos num : Nat)
  /-- read a link group (R161) -/
  | askGroup (w : ListWalk) (pos num : Nat) (second dropped : Bool)
  /-- go through the slots of a group, `todo` still to be read, `got` read (R161) -/
  | slots (g : GroupWalk) (todo : List (Option Nat)) (got : List Got)
  /-- read one segment of a group (R161) -/
  | askSegment (g : GroupWalk) (seg : Nat) (todo : List (Option Nat)) (got : List Got)
  /-- use one slot's outcome (R156, R146) -/
  | take (w : ListWalk) (x : Got)
  /-- read the record of the piece at the far end of a segment (R156, R146) -/
  | askFar (w : ListWalk) (g : Segment)
  /-- read the record of the piece that a bad reference's segment names as child (R146) -/
  | askChild (w : ListWalk) (n : Node) (g : Segment)
  /-- turn to the next depth (R150, R145) -/
  | nextDepth
deriving DecidableEq, Repr

/-- A read asked of STC, with what its answer depends on: a piece's record, a channel's horizon for a line with its directory, a trend block
on a visit, with the pitch its directory entry gives, or one link group or segment (R118, R137, log 16). -/
inductive StoreRead where
  | record (r : PieceRef)
  | channel (l : LineId) (c : ChanId)
  | block (v : Visit) (c : ChanId) (block first pitch : Nat)
  | cell (a : Nat)
deriving DecidableEq, Repr

/-- The last RUN record written, kept so that a run may be joined to it or its end lowered (R166, R167). -/
structure RunInfo where
  page : Nat
  offset : Nat
  line : LineId
  chan : ChanId
  depth : Nat
  turned : Bool
  source : PieceRef
  lastSource : PieceRef
  q0 : Int
  q1 : Int
  a0 : Int
  a1 : Int
  est : Bool
  openSpan : Bool
  joined : Bool
deriving DecidableEq, Repr

/-- The output bin held open at a resolution above 0 (R168). `low` and `high` are the result positions its first and
last value came from; they are absent while every source had count 0. -/
structure HeldBin where
  num : Int
  data : BinRec
  low : Option Int
  high : Option Int
  gen : Gen
deriving DecidableEq, Repr

/-- The assembly engine at work on a context (R136). -/
structure Engine where
  ctx : CtxId
  tasks : List Task
  depth : Nat := 0
  /-- channels of the selection, ascending, fixed when assembly began (R150) -/
  chans : List ChanId := []
  /-- items of the depth being built, in the order made (R156) -/
  built : List Item := []
  /-- nodes emitted, with their depths (R145) -/
  nodes : List (PieceRef × Nat) := []
  /-- bytes used in the last page (R138) -/
  fill : Nat := 0
  lastRun : Option RunInfo := none
  /-- whether a run just emitted may still be joined (R167) -/
  joinable : Bool := false
  held : Option HeldBin := none
  /-- the walk budget has ended the walk (R158) -/
  budgetOut : Bool := false
deriving DecidableEq, Repr

/-- The counters of PBK (Fig. 7.5, R163). -/
structure PbkCounters where
  accepted : Nat := 0
  failed : Nat := 0
  busy : Nat := 0
  truncated : Nat := 0
  fetched : Nat := 0
  released : Nat := 0
  holdExpired : Nat := 0
  cacheHits : Nat := 0
  cacheMisses : Nat := 0
  cacheRefetches : Nat := 0
deriving DecidableEq, Repr

structure PBK where
  contexts : Vector Context 16 := Vector.replicate 16 {}
  /-- result memory by byte address, an unlisted byte being 0 -/
  pages : List Host.Cell := []
  freePages : FreeList := { next := 0, limit := Config.pageCount }
  asmQueue : List CtxId := []
  engine : Option Engine := none
  /-- the reads asked of STC by walks since abandoned, oldest first, each to be discarded when it is answered (R143) -/
  discarded : List StoreRead := []
  /-- the Segment Cache, least recently used first -/
  cache : List CacheEntry := []
  /-- the last taken number of each line as R135 counts it: of the last event taken whole, or of the last emptying -/
  taken : Vector Word32 8 := Vector.replicate 8 0
  /-- the arrival number of each line's first event with a bin held behind the reload seal that waits (R120, R135) -/
  behindSeal : Vector (Option Word32) 8 := Vector.replicate 8 none
  counters : PbkCounters := {}
deriving DecidableEq, Repr

/-! ### MGT (chapter 9) -/

/-- An entry of the request queue (R170). -/
structure Request where
  src : Address
  port : PortId
  version : Byte
  code : Byte
  tag : BitVec 16
  body : List Byte
deriving DecidableEq, Repr

/-- Roles (R172). -/
inductive Role where
  | view
  | engineer
deriving DecidableEq, Repr

/-- An Access Table entry (R172). -/
structure AccessEntry where
  enabled : Bool := false
  role : Role := .view
  addr : Address := 0
deriving DecidableEq, Repr

/-- Fault codes (Fig. 9.6). -/
inductive FaultCode where
  | lengthLost
  | lineSuspended
  | jump
  | chainFull
  | cutOrder
  | badStrands
  | tagOpen
  | useLimit
  | pieceTableFull
  | segmentFull
  | linkFull
  | storeFull
  | reclaimBlocked
  | writeQueueFull
  | recordPoisoned
deriving DecidableEq, Repr

/-- A filled fault record less its lost count (R180, Fig. 11.6). -/
structure FaultRecord where
  code : FaultCode
  line : Option LineId
  piece : Option PieceRef
  axis : Option Int
  stamp : Stamp
deriving DecidableEq, Repr

/-- Reason codes (Fig. 9.2). -/
inductive Reason where
  | ok
  | unknownRequest
  | notPermitted
  | badIndex
  | badValue
  | lineActive
  | badState
  | duplicatePoint
  | busy
  | unknownTicket
  | notReady
  | pageRange
  | noPiece
  | damagedRecord
  | pinned
  | pinLimit
deriving DecidableEq, Repr

/-- A reply less its header: the reason and the contents (Fig. 11.3). -/
structure Reply where
  reason : Reason
  contents : List Byte := []
deriving DecidableEq, Repr

/-- The counters of MGT (Fig. 9.7). -/
structure MgtCounters where
  requestsTaken : Nat := 0
  requestDrop : Nat := 0
  requestMalformed : Nat := 0
  accessDrop : Nat := 0
  unknownRequest : Nat := 0
  notPermitted : Nat := 0
  refused : Nat := 0
  loadsAccepted : Nat := 0
  faultsRaised : Nat := 0
  alertsSent : Nat := 0
  restarts : Nat := 0
deriving DecidableEq, Repr

structure MGT where
  requests : List Request := []
  /-- a request taken and passed on, whose owner has not yet taken it, with the FREE context a query is to have (R132, R171) -/
  passed : Option (Request × Option CtxId) := none
  /-- a request taken whose reply waits for room on the write queue (R171) -/
  heldReply : Option (Request × Reply) := none
  access : Vector AccessEntry 16 := Vector.replicate 16 {}
  alertLoaded : Bool := false
  alertAddr : Address := 0
  alertPort : Option PortId := none
  fault : Option FaultRecord := none
  lost : Nat := 0
  counters : MgtCounters := {}
deriving DecidableEq, Repr

/-! ### TKU (chapter 10) -/

/-- SWEEP modes (R186). -/
inductive TickMode where
  | oneShot
  | reload
deriving DecidableEq, Repr

/-- A down-counter with its Tick table entry (Fig. 10.1). RECKON and HOLD keep mode RELOAD and cascade false (R186). -/
structure Counter where
  count : Nat
  period : Nat
  loaded : Nat
  running : Bool := true
  mode : TickMode := .reload
  cascade : Bool := false
  loadedMode : TickMode := .reload
  loadedCascade : Bool := false
deriving DecidableEq, Repr

structure TKU where
  clock : Stamp := 0
  reckon : Counter := { count := 10, period := 10, loaded := 10 }
  hold : Counter := { count := 100, period := 100, loaded := 100 }
  sweep : Counter := { count := 1000, period := 1000, loaded := 1000 }
  sweepDue : Bool := false
  sweepLag : Nat := 0
deriving DecidableEq, Repr

/-! ### The whole -/

/-- The state of the part, with the queue of commands that wait for it. -/
structure State where
  phase : Phase := .running
  station : Address := 0x020000002400
  prl : PRL := {}
  fcl : FCL := {}
  lines : Vector Line 8 := Vector.replicate 8 {}
  channels : Vector Channel 256 := Vector.replicate 256 {}
  glu : GLU := {}
  stc : STC := {}
  pbk : PBK := {}
  mgt : MGT := {}
  tku : TKU := {}
  /-- the model's own counter of free values used (log 11) -/
  fresh : Nat := 0
  /-- the model's own queue of waiting commands, first in first out -/
  pending : List Instr := []
deriving DecidableEq, Repr

/-- The part right after a cold reset has ended. Every field that has a default above holds it: the value the rules give
for a cold reset, or the value a log entry names (logs 3 to 8). -/
def State.reset : State := {}

end Sys2Proof.Machine
end

