-- ==== Sys2Proof/Machine/Ops.lean ====
section
/-! DEFINITION. Named operations over the shared shapes of the state: sparse data, LIFO lists, memory, tables by index. -/

namespace Sys2Proof.Machine

/-! ### Sparse data in canonical form -/

/-- The value at key `i`, the default `d` where `i` is not listed. -/
def Sparse.get {α : Type} (d : α) : Sparse α → Nat → α
  | [], _ => d
  | (k, v) :: m, i => if i < k then d else if i = k then v else Sparse.get d m i

/-- Writes `v` at key `i`; writing the default removes the entry. -/
def Sparse.put {α : Type} [DecidableEq α] (d : α) : Sparse α → Nat → α → Sparse α
  | [], i, v => if v = d then [] else [(i, v)]
  | (k, w) :: m, i, v =>
    if i < k then (if v = d then (k, w) :: m else (i, v) :: (k, w) :: m)
    else if i = k then (if v = d then m else (i, v) :: m)
    else (k, w) :: Sparse.put d m i v

/-- Removes every entry whose key lies from `lo` to `hi`, `hi` excluded. -/
def Sparse.clearRange {α : Type} (lo hi : Nat) (m : Sparse α) : Sparse α :=
  m.filter fun e => !(decide (lo ≤ e.1) && decide (e.1 < hi))

/-- The canonical form: keys strictly rising and no value equal to the default. -/
def Sparse.wf {α : Type} [DecidableEq α] (d : α) : Sparse α → Bool
  | [] => true
  | [(_, v)] => decide (v ≠ d)
  | (k, v) :: (j, w) :: m => decide (v ≠ d) && decide (k < j) && Sparse.wf d ((j, w) :: m)

/-! ### Memories (06 section 6.1, R138) -/

/-- The canonical form of the two addressed memories: the DRAM with its wrong bits, and the result memory. -/
def Memory.wf (s : State) : Bool :=
  Sparse.wf Cell.cleared s.stc.dram && Sparse.wf [] s.stc.wrongBits && Sparse.wf (0 : Byte) s.pbk.pages

/-- The content the DRAM holds at a byte address, before any check of its words. -/
def State.cellAt (s : State) (addr : Nat) : Cell :=
  Sparse.get .cleared s.stc.dram addr

/-- The byte of result memory at a byte address. -/
def State.pageByte (s : State) (addr : Nat) : Byte :=
  Sparse.get 0 s.pbk.pages addr

/-- Writes consecutive bytes of result memory from `addr`. -/
def putBytes : List Host.Cell → Nat → List Byte → List Host.Cell
  | m, _, [] => m
  | m, addr, b :: bs => putBytes (Sparse.put 0 m addr b) (addr + 1) bs

/-- Reads `n` bytes of result memory from `addr`. -/
def State.pageBytes (s : State) (addr : Nat) : Nat → List Byte
  | 0 => []
  | n + 1 => s.pageByte addr :: s.pageBytes (addr + 1) n

/-! ### LIFO lists (R79, R95, R97, R109, R138) -/

/-- How many numbers the list holds. -/
def FreeList.length (f : FreeList) : Nat := f.pushed.length + (f.limit - f.next)

/-- Takes the number on top. -/
def FreeList.pop (f : FreeList) : Option (Nat × FreeList) :=
  match f.pushed with
  | n :: rest => some (n, { f with pushed := rest })
  | [] => if f.next < f.limit then some (f.next, { f with next := f.next + 1 }) else none

/-- Puts a number on top. -/
def FreeList.push (f : FreeList) (n : Nat) : FreeList :=
  if f.pushed = [] ∧ n + 1 = f.next then { f with next := n } else { f with pushed := n :: f.pushed }

/-- Puts numbers on top one after the other, the first first. -/
def FreeList.pushAll (f : FreeList) (ns : List Nat) : FreeList := ns.foldl FreeList.push f

/-- Whether a number is on the list. -/
def FreeList.holds (f : FreeList) (n : Nat) : Bool :=
  f.pushed.contains n || (decide (f.next ≤ n) && decide (n < f.limit))

/-- Puts a number in its place in a rising list, once. -/
def insertOnce (n : Nat) : List Nat → List Nat
  | [] => [n]
  | m :: ms => if n < m then n :: m :: ms else if n = m then m :: ms else m :: insertOnce n ms

/-- The numbers of a list, rising, each once. -/
def rising (ns : List Nat) : List Nat := ns.foldl (fun ms n => insertOnce n ms) []

/-! ### Tables by index -/

/-- The number `n` as a line slot, if it is one. -/
def lineId? (n : Nat) : Option LineId := if h : n < 8 then some ⟨n, h⟩ else none

/-- The number `n` as a channel number, if it is one. -/
def chanId? (n : Nat) : Option ChanId := if h : n < 256 then some ⟨n, h⟩ else none

/-- The number `n` as a context number, if it is one. -/
def ctxId? (n : Nat) : Option CtxId := if h : n < 16 then some ⟨n, h⟩ else none

/-- All line slots, channels, stations and contexts, ascending. -/
def allLines : List LineId := List.finRange 8
def allChans : List ChanId := List.finRange 256
def allStations : List (Fin 12) := List.finRange 12
def allContexts : List CtxId := List.finRange 16

def State.line (s : State) (l : LineId) : Line := s.lines[l]
def State.chan (s : State) (c : ChanId) : Channel := s.channels[c]
def State.chanStore (s : State) (c : ChanId) : ChannelStore := s.stc.chans[c]
def State.context (s : State) (c : CtxId) : Context := s.pbk.contexts[c]

/-- Changes the state of one line slot. -/
def State.updLine (s : State) (l : LineId) (f : Line → Line) : State :=
  { s with lines := s.lines.set l (f s.lines[l]) }

/-- Changes what BAC holds for one channel. -/
def State.updChan (s : State) (c : ChanId) (f : Channel → Channel) : State :=
  { s with channels := s.channels.set c (f s.channels[c]) }

/-- Changes what STC holds for one channel. -/
def State.updChanStore (s : State) (c : ChanId) (f : ChannelStore → ChannelStore) : State :=
  { s with stc := { s.stc with chans := s.stc.chans.set c (f s.stc.chans[c]) } }

/-- Changes one query context. -/
def State.updContext (s : State) (c : CtxId) (f : Context → Context) : State :=
  { s with pbk := { s.pbk with contexts := s.pbk.contexts.set c (f s.pbk.contexts[c]) } }

def State.updPrl (s : State) (f : PRL → PRL) : State := { s with prl := f s.prl }
def State.updFcl (s : State) (f : FCL → FCL) : State := { s with fcl := f s.fcl }
def State.updGlu (s : State) (f : GLU → GLU) : State := { s with glu := f s.glu }
def State.updStc (s : State) (f : STC → STC) : State := { s with stc := f s.stc }
def State.updPbk (s : State) (f : PBK → PBK) : State := { s with pbk := f s.pbk }
def State.updMgt (s : State) (f : MGT → MGT) : State := { s with mgt := f s.mgt }
def State.updTku (s : State) (f : TKU → TKU) : State := { s with tku := f s.tku }

/-- Applies a change to the state for each item of a list, in order. -/
def State.forEach {α : Type} (s : State) (xs : List α) (f : State → α → State) : State := xs.foldl f s

/-- The next free value's number; the counter moves on (log 11). -/
def State.takeFresh (s : State) : Nat × State := (s.fresh, { s with fresh := s.fresh + 1 })

/-! ### Phases (R4, R5) -/

/-- Whether the part is in a cold reset, its ports joined by the bypass path. -/
def State.inColdReset (s : State) : Bool := s.phase == .coldReset

/-- Whether the part is in one of the phases of a warm reset. -/
def State.inWarmReset (s : State) : Bool := s.phase == .warmDrain || s.phase == .warmClear

/-- Whether the part is in no reset. -/
def State.isRunning (s : State) : Bool := s.phase == .running

end Sys2Proof.Machine
end

