-- ==== Sys2Proof/Machine/Operands.lean ====
section
/-! DEFINITION. Reading and writing the fields of frames, entries and records by the encodings of R192 (Fig. 11.1). -/

namespace Sys2Proof.Machine

/-! ### Reading, most significant byte first -/

/-- The byte at an offset. -/
def byteAt (bs : List Byte) (off : Nat) : Byte := bs.getD off 0

/-- The unsigned number in the `n` bytes from an offset. -/
def beAt (bs : List Byte) (off : Nat) : Nat → Nat
  | 0 => 0
  | n + 1 => beAt bs off n * 256 + (byteAt bs (off + n)).toNat

def u8At (bs : List Byte) (off : Nat) : Nat := (byteAt bs off).toNat
def u16At (bs : List Byte) (off : Nat) : Nat := beAt bs off 2
def u32At (bs : List Byte) (off : Nat) : Nat := beAt bs off 4

/-- The signed 32-bit number at an offset, two's complement. -/
def i32At (bs : List Byte) (off : Nat) : Int := (BitVec.ofNat 32 (beAt bs off 4)).toInt

/-- The 48-bit address at an offset. -/
def addrAt (bs : List Byte) (off : Nat) : Address := BitVec.ofNat 48 (beAt bs off 6)

/-- The 16 characters of the tag at an offset. -/
def tagAt (bs : List Byte) (off : Nat) : Tag := (bs.drop off).take 16

/-- The piece reference at an offset. -/
def refAt (bs : List Byte) (off : Nat) : PieceRef := ⟨u16At bs off, byteAt bs (off + 2)⟩

/-- A truth value at an offset, where the byte is one (R192). -/
def boolAt (bs : List Byte) (off : Nat) : Option Bool :=
  match u8At bs off with
  | 0 => some false
  | 1 => some true
  | _ => none

/-! ### Writing -/

/-- A number in `n` bytes, most significant first; higher bits are dropped. -/
def be : Nat → Nat → List Byte
  | 0, _ => []
  | n + 1, x => BitVec.ofNat 8 (x / 256 ^ n) :: be n x

/-- A signed number in `n` bytes, two's complement. -/
def beInt (n : Nat) (x : Int) : List Byte := be n (x % (256 ^ n : Nat)).toNat

def encBool (b : Bool) : List Byte := [if b then 1 else 0]
def encRef (r : PieceRef) : List Byte := be 2 r.idx ++ [r.gen]
def encAddr (a : Address) : List Byte := be 6 a.toNat
def encStamp (t : Stamp) : List Byte := be 8 t.toNat
def encLine (l : LineId) : List Byte := be 1 l.val

/-- An axis position, 5 bytes. A position below 0 or of more than 40 bits has no encoding in Fig. 11.1; its bits are a free value
(log 13). -/
def encAxis (x : Int) : List Byte :=
  if x < 0 ∨ 1099511627776 ≤ x then be 5 (Config.strayAxis x).toNat else be 5 x.toNat

/-- A port: 0 none, 1 A, 2 B. -/
def encPort : Option PortId → List Byte
  | none => [0]
  | some .A => [1]
  | some .B => [2]

/-- An optional field of `n` bytes: a presence byte, then the bytes, zeros when absent (R192). -/
def encOpt {α : Type} (n : Nat) (enc : α → List Byte) : Option α → List Byte
  | none => 0 :: List.replicate n 0
  | some x => 1 :: enc x

/-! ### Codes of chapter 11 -/

def LineState.code : LineState → Byte
  | .vacant => 0 | .idle => 1 | .settling => 2 | .running => 3
  | .parked => 4 | .reckoning => 5 | .holdback => 6 | .suspended => 7

def CtxState.code : CtxState → Byte
  | .free => 0 | .draining => 1 | .assembling => 2 | .ready => 3 | .failed => 4

def Reason.code : Reason → Byte
  | .ok => 0 | .unknownRequest => 1 | .notPermitted => 2 | .badIndex => 3 | .badValue => 4 | .lineActive => 5
  | .badState => 6 | .duplicatePoint => 7 | .busy => 8 | .unknownTicket => 9 | .notReady => 10 | .pageRange => 11
  | .noPiece => 12 | .damagedRecord => 13 | .pinned => 14 | .pinLimit => 15

def FaultCode.code : FaultCode → Byte
  | .lengthLost => 1 | .lineSuspended => 2 | .jump => 3 | .chainFull => 4 | .cutOrder => 5 | .badStrands => 6
  | .tagOpen => 7 | .useLimit => 8 | .pieceTableFull => 9 | .segmentFull => 10 | .linkFull => 11 | .storeFull => 12
  | .reclaimBlocked => 13 | .writeQueueFull => 14 | .recordPoisoned => 15

def MarkerKind.code : MarkerKind → Byte
  | .orphan => 1 | .retired => 2 | .external => 3 | .damagedRecord => 4 | .linkStale => 5 | .reclaimed => 6 | .damaged => 7

def directionCode : Direction → Byte
  | .same => 1
  | .reversed => 2

def listKindCode : ListKind → Byte
  | .parent => 1
  | .child => 2

def encPieceKind : PieceKind → Byte
  | .coil => 1 | .scrap => 2 | .sample => 3 | .external => 4

def PieceState.code : PieceState → Byte
  | .opened => 1 | .closed => 2 | .retired => 3

def Payoff.code : Payoff → Byte
  | .headFirst => 1
  | .tailFirst => 2

def Role.code : Role → Byte
  | .view => 1
  | .engineer => 2

def TickMode.code : TickMode → Byte
  | .oneShot => 1
  | .reload => 2

def Link.code : Link → Byte
  | .down => 0
  | .up => 1

/-- A bit set as a byte: the sum of the values of the members. -/
def bitByte (bs : List (Bool × Nat)) : Byte :=
  BitVec.ofNat 8 (bs.foldl (fun n b => if b.1 then n + b.2 else n) 0)

def Kinds.code (k : Kinds) : Byte := bitByte [(k.length, 1), (k.sample, 2), (k.joint, 4), (k.state, 8)]

def qualityCode (q : Quality) : Byte := bitByte [(q.estimated, 1), (q.gap, 2), (q.clipped, 4), (q.damaged, 8)]

/-- Piece flags as reported; `damaged` for a record that reads DAMAGED (Fig. 11.8). -/
def encPieceFlags (f : PieceFlags) (damaged : Bool) : Byte :=
  bitByte [(f.incomplete, 1), (f.estimated, 2), (f.duplicateTag, 4), (f.unindexed, 8), (damaged, 16)]

/-- Context flags (Fig. 11.8). -/
def Context.flagByte (c : Context) : Byte := bitByte [(c.truncated, 1), (c.openSpan, 2)]

/-- The fault record of Fig. 11.6, 24 bytes. An empty record has every byte 0. -/
def encFault (f : Option FaultRecord) (lost : Nat) : List Byte :=
  match f with
  | none => List.replicate 24 0
  | some r =>
    [1, r.code.code] ++ encOpt 1 encLine r.line ++ encOpt 3 encRef r.piece ++ encOpt 5 encAxis r.axis
      ++ encStamp r.stamp ++ be 1 lost ++ [0]

/-! ### Coil tags (00 section 0.9.6) -/

/-- A character of a tag: a digit, a capital letter or the hyphen. -/
def isTagChar (b : Byte) : Bool :=
  (0x30 ≤ b.toNat && b.toNat ≤ 0x39) || (0x41 ≤ b.toNat && b.toNat ≤ 0x5A) || b.toNat == 0x2D

/-- The padding space. -/
def space : Byte := 0x20

/-- The tag of 16 spaces. -/
def blankTag : Tag := List.replicate 16 space

/-- Tag characters followed by nothing but spaces: every character is in the tag set and none follows a space. -/
def tagCharsOk : Tag → Bool
  | [] => true
  | b :: bs => if b = space then bs.all (· == space) else isTagChar b && tagCharsOk bs

/-- A bad tag of a WELD or CUT frame: a character outside the set and the space, a space before another character, or
nothing but spaces (R11). -/
def badTag (t : Tag) : Bool := !tagCharsOk t || t.all (· == space)

/-- The value of a character in a tag's base-38 number (R83). -/
def tagDigit (b : Byte) : Nat :=
  if b.toNat = 0x2D then 37
  else if 0x30 ≤ b.toNat ∧ b.toNat ≤ 0x39 then b.toNat - 0x30 + 1
  else if 0x41 ≤ b.toNat ∧ b.toNat ≤ 0x5A then b.toNat - 0x41 + 11
  else 0

/-- The home slot of a tag in the Tag Index (R83). -/
def homeSlot (t : Tag) : Nat := t.foldl (fun n b => n * 38 + tagDigit b) 0 % Config.tagSlotCount

end Sys2Proof.Machine
end

