-- ==== Sys2Proof/Machine/Flags.lean ====
section
/-! DEFINITION. Counters, the fault record and ALERT, and the transmit queues the ALERT joins (R2, R3, R14, R180, R181). -/

namespace Sys2Proof.Machine

/-! ### Counters -/

/-- A 32-bit counter raised by `k`: it saturates at 4,294,967,295 (00 section 0.9.3, R14). -/
def sat (n k : Nat) : Nat := min (n + k) 4294967295

/-- Counts on a line. -/
def State.countLine (s : State) (l : LineId) (f : LineCounters → LineCounters) : State :=
  s.updLine l fun x => { x with counters := f x.counters }

/-- Counts in GLU, STC, PBK or MGT. -/
def State.countGlu (s : State) (f : GluCounters → GluCounters) : State :=
  s.updGlu fun g => { g with counters := f g.counters }
def State.countStc (s : State) (f : StcCounters → StcCounters) : State :=
  s.updStc fun g => { g with counters := f g.counters }
def State.countPbk (s : State) (f : PbkCounters → PbkCounters) : State :=
  s.updPbk fun g => { g with counters := f g.counters }
def State.countMgt (s : State) (f : MgtCounters → MgtCounters) : State :=
  s.updMgt fun g => { g with counters := f g.counters }

/-! ### Ports -/

def State.port (s : State) : PortId → Port
  | .A => s.prl.portA
  | .B => s.prl.portB

def State.updPort (s : State) (p : PortId) (f : Port → Port) : State :=
  match p with
  | .A => s.updPrl fun r => { r with portA := f r.portA }
  | .B => s.updPrl fun r => { r with portB := f r.portB }

/-- A frame ready for a port: it joins the transmit queue, or is counted LINK_DROP on a DOWN port (R3) or TX_DROP where
the queue holds 32 frames (R2). -/
def Port.accept (q : Port) (f : Frame) : Port :=
  if q.link = .down then { q with linkDrop := sat q.linkDrop 1 }
  else if Config.txCapacity ≤ q.txq.length then { q with txDrop := sat q.txDrop 1 }
  else { q with txq := q.txq ++ [f] }

def State.transmit (s : State) (p : PortId) (f : Frame) : State := s.updPort p fun q => q.accept f

/-- A frame of the part's own: station address as source, management EtherType (R2), zero bytes up to the 64-byte minimum
(11, opening), taken to count the check sequence, so that the payload has 46 (PRESUMED, log 19). -/
def State.ownFrame (s : State) (dst : Address) (payload : List Byte) : Frame :=
  { dst := dst, src := s.station, etype := Config.managementType,
    payload := payload ++ List.replicate (46 - payload.length) 0 }

/-! ### The fault record -/

/-- The body of the ALERT frame for a fault that fills the record (R181, Fig. 11.3). -/
def alertPayload (f : FaultRecord) (raised : Nat) : List Byte :=
  [1, 0x80, 0, 0] ++ encFault (some f) 0 ++ be 4 raised

/-- MGT hands an ALERT to PRL: on the alert port, or on both ports when none is recorded (R181). -/
def State.sendAlert (s : State) (f : FaultRecord) : State :=
  let frame := s.ownFrame s.mgt.alertAddr (alertPayload f s.mgt.counters.faultsRaised)
  let s := match s.mgt.alertPort with
    | some p => s.transmit p frame
    | none => (s.transmit .A frame).transmit .B frame
  s.countMgt fun c => { c with alertsSent := sat c.alertsSent 1 }

/-- MGT takes a raised fault (R180): it fills an empty record and sends the ALERT, or raises the lost count, which
saturates at 255. FAULTS_RAISED counts both. -/
def State.raise (s : State) (code : FaultCode) (line : Option LineId) (piece : Option PieceRef) (axis : Option Int) : State :=
  let s := s.countMgt fun c => { c with faultsRaised := sat c.faultsRaised 1 }
  match s.mgt.fault with
  | some _ => s.updMgt fun m => { m with lost := min (m.lost + 1) 255 }
  | none =>
    let f : FaultRecord := { code := code, line := line, piece := piece, axis := axis, stamp := s.tku.clock }
    let s := s.updMgt fun m => { m with fault := some f, lost := 0 }
    if s.mgt.alertLoaded then s.sendAlert f else s

/-! ### Quality -/

/-- The union of two quality sets (R73). -/
def unionQuality (a b : Quality) : Quality :=
  { estimated := a.estimated || b.estimated, gap := a.gap || b.gap,
    clipped := a.clipped || b.clipped, damaged := a.damaged || b.damaged }

end Sys2Proof.Machine
end

