-- ==== Sys2Proof/Machine/Store.lean ====
section
/-! DEFINITION. The Store Controller: addresses, the write queue, reads with forwarding and correction, horizons, bin
offers, allocation, reclaim and the scrub (chapter 6). -/

namespace Sys2Proof.Machine

/-! ### Addresses (R105) -/

def headerAddr (block : Nat) : Nat := Config.blockBase + 4096 * block
def slotAddr (block slot : Nat) : Nat := Config.blockBase + 4096 * block + 256 + 32 * slot
def pieceAddr (idx unit : Nat) : Nat := Config.recordBase + 256 * idx + 32 * unit
def segmentAddr (n : Nat) : Nat := Config.segmentBase + 32 * n
def groupAddr (n : Nat) : Nat := Config.groupBase + 32 * n
def tagAddr (n : Nat) : Nat := Config.tagBase + 32 * n
def dirAddr (block : Nat) : Nat := Config.directoryBase + 8 * block

/-- Whether a byte address lies in the region of 8-byte directory entries. -/
def isDirAddr (addr : Nat) : Bool := decide (Config.directoryBase ≤ addr) && decide (addr < Config.spareBase)

/-- The words of the unit, or of the directory entry, at a byte address: the read of an entry checks the entry's one word, the
manual leaving open whether its whole unit is checked (log 27). -/
def wordsAt (addr : Nat) : List Nat :=
  if isDirAddr addr then [addr / 8] else [addr / 8, addr / 8 + 1, addr / 8 + 2, addr / 8 + 3]

/-- The byte address under which the content of a word is kept. -/
def cellOfWord (w : Nat) : Nat := if isDirAddr (8 * w) then 8 * w else 32 * (w / 4)

/-! ### The write queue (R120, R121) -/

/-- What a queued entry answers for an address, if it writes there (R121). -/
def WriteEntry.answer (e : WriteEntry) (addr : Nat) : Option Cell :=
  match e with
  | .binWrite b k r => if addr = slotAddr b k then some (.bin r) else none
  | .allocation b h d =>
    if addr = dirAddr b then some (.dirEntry d)
    else if addr = headerAddr b then some (.header h)
    else if headerAddr b ≤ addr ∧ addr < headerAddr b + 4096 then some .cleared
    else none
  | .sealing b h => if addr = headerAddr b then some (.header h) else none
  | .unit w => if addr = w.addr then some w.cell else none

/-- The newest answer of a queue for an address: the entry offered last (R121). -/
def newestAnswer (q : List WriteEntry) (addr : Nat) : Option Cell := q.reverse.findSome? fun e => e.answer addr

/-- The byte ranges of the units an entry writes. -/
def WriteEntry.ranges (e : WriteEntry) : List (Nat × Nat) :=
  match e with
  | .binWrite b k _ => [(slotAddr b k, slotAddr b k + 32)]
  | .allocation b _ _ =>
    [(headerAddr b, headerAddr b + 4096), (dirAddr b / 32 * 32, dirAddr b / 32 * 32 + 32)]
  | .sealing b _ => [(headerAddr b, headerAddr b + 32)]
  | .unit w => [(w.addr, w.addr + 32)]

/-- A scrub step in progress notes the units written to, when a write is queued and when it completes (R127). -/
def State.touch (s : State) (e : WriteEntry) : State :=
  match s.stc.scrub with
  | none => s
  | some k => s.updStc fun t => { t with scrub := some { k with touched := k.touched ++ e.ranges } }

/-- Entries the write queue can still take: room a departure has made for a waiting writer is that writer's (R120, log 15). -/
def State.writeRoom (s : State) : Nat :=
  Config.writeCapacity - (s.stc.writeQueue.length + s.stc.waiters.length)

/-- An entry joins the tail of the write queue. -/
def State.enqueue (s : State) (e : WriteEntry) : State :=
  (s.updStc fun t =>
    { t with writeQueue := t.writeQueue ++ [e], greatest := max t.greatest (t.writeQueue.length + 1) }).touch e

/-- Writes one cell of the DRAM and gives its words fresh check bits (R120). -/
def State.writeCell (s : State) (addr : Nat) (c : Cell) : State :=
  s.updStc fun t =>
    { t with dram := Sparse.put .cleared t.dram addr c,
             wrongBits := (wordsAt addr).foldl (fun m w => Sparse.put [] m w []) t.wrongBits }

/-- A write reaches the DRAM (Fig. 6.4). -/
def State.apply (s : State) (e : WriteEntry) : State :=
  match e with
  | .binWrite b k r => s.writeCell (slotAddr b k) (.bin r)
  | .allocation b h d =>
    let s := s.updStc fun t =>
      { t with dram := Sparse.clearRange (headerAddr b) (headerAddr b + 4096) t.dram,
               wrongBits := Sparse.clearRange (headerAddr b / 8) (headerAddr b / 8 + 512) t.wrongBits }
    (s.writeCell (headerAddr b) (.header h)).writeCell (dirAddr b) (.dirEntry d)
  | .sealing b h => s.writeCell (headerAddr b) (.header h)
  | .unit w => s.writeCell w.addr w.cell

/-- The head entry finishes writing and leaves the queue (R120). -/
def State.writeHead (s : State) : State :=
  match s.stc.writeQueue with
  | [] => s
  | e :: rest => ((s.apply e).updStc fun t => { t with writeQueue := rest }).touch e

/-! ### Reads (R121, R123) -/

/-- How a word with the given wrong bits is judged (R123): one wrong bit is corrected, two are uncorrectable, more are open. -/
def judgeWord (w : Nat) (bits : List Nat) : EccVerdict :=
  match bits with
  | [] => .looksClean
  | [_] => .looksCorrected
  | [_, _] => .uncorrectable
  | _ :: _ :: _ :: _ => Config.manyBitVerdict w bits

/-- What a unit's content becomes through a word taken for good: unchanged up to one wrong bit, open above (R123, log 11). -/
def throughWord (w : Nat) (bits : List Nat) (c : Cell) : Cell :=
  match bits with
  | _ :: _ :: _ :: _ => Config.garbledCell w bits c
  | _ => c

/-- Checks one word of a unit being read: a corrected word is rewritten in the same step (log 10), also where another word of the
unit fails (log 27). -/
def State.checkWord (s : State) (addr w : Nat) (acc : Option Cell) : Option Cell × State :=
  let bits := Sparse.get [] s.stc.wrongBits w
  match bits with
  | [] => (acc, s)
  | _ =>
    match judgeWord w bits with
    | .uncorrectable => (none, s.countStc fun c => { c with uncorrectable := sat c.uncorrectable 1 })
    | .looksClean => (acc.map (throughWord w bits), s)
    | .looksCorrected =>
      let s := s.countStc fun c => { c with corrected := sat c.corrected 1 }
      (acc.map (throughWord w bits),
        s.updStc fun t =>
          { t with dram := Sparse.put .cleared t.dram addr (throughWord w bits (Sparse.get .cleared t.dram addr)),
                   wrongBits := Sparse.put [] t.wrongBits w [] })

/-- Reads a cell from the DRAM and checks each of its words; nothing is answered for a unit that fails (R123). -/
def State.readDram (s : State) (addr : Nat) : Option Cell × State :=
  match s.cellAt addr with
  | .poisoned => (none, s.countStc fun c => { c with uncorrectable := sat c.uncorrectable 4 })
  | c => (wordsAt addr).foldl (fun r w => r.2.checkWord addr w r.1) (some c, s)

/-- A read through a queue of writes: the newest answer where there is one, a poisoned one failing, else the DRAM (R121). -/
def State.readThrough (s : State) (q : List WriteEntry) (addr : Nat) : Option Cell × State :=
  match newestAnswer q addr with
  | some .poisoned => (none, s)
  | some c => (some c, s)
  | none => s.readDram addr

/-- A read by PBK or by STC itself. -/
def State.read (s : State) (addr : Nat) : Option Cell × State := s.readThrough s.stc.writeQueue addr

/-- A read by GLU, which also sees the writes of its own that wait for room (log 15). -/
def State.gluRead (s : State) (addr : Nat) : Option Cell × State :=
  s.readThrough (s.stc.writeQueue ++ s.glu.waiting.map .unit) addr

/-! ### Records -/

/-- A readable piece record (Fig. 5.2). -/
structure PieceRecord where
  id : PieceId
  body : PieceBirth
  uses : List UseSpan
  parents : LinkList
  children : LinkList
deriving DecidableEq, Repr

def Cell.asPieceId : Cell → PieceId
  | .pieceId p => p
  | _ => default

def Cell.asPieceBirth : Cell → PieceBirth
  | .pieceBirth p => p
  | _ => default

def Cell.asUses : Cell → Option UseSpan × Option UseSpan
  | .pieceUses a b => (a, b)
  | _ => (none, none)

def Cell.asLinks : Cell → LinkList × LinkList
  | .pieceLinks p c => (p, c)
  | _ => ({}, {})

/-- A piece record from the contents of its units in order (log 9). -/
def recordOfCells (cells : Nat → Cell) : PieceRecord :=
  { id := Cell.asPieceId (cells 0), body := Cell.asPieceBirth (cells 1),
    uses := [(Cell.asUses (cells 2)).1, (Cell.asUses (cells 2)).2, (Cell.asUses (cells 3)).1,
      (Cell.asUses (cells 3)).2].filterMap fun u => u,
    parents := (Cell.asLinks (cells 4)).1, children := (Cell.asLinks (cells 4)).2 }

/-- Reads the eight units of a piece record; any failed unit makes it read DAMAGED, answered by nothing (R81, R124). Whether the units
behind a failed one are read too is open: the model reads all eight, so that their words are corrected and counted in the same reading
(DESIGN CHOICE, log 27). -/
def State.readUnits (s : State) (rd : State → Nat → Option Cell × State) (idx : Nat) : Option PieceRecord × State :=
  let r := [0, 1, 2, 3, 4, 5, 6, 7].foldl
    (fun (acc : Option (List Cell) × State) u =>
      let (c, s) := rd acc.2 (pieceAddr idx u)
      ((match acc.1, c with
        | some cs, some c => some (cs ++ [c])
        | _, _ => none), s))
    (some [], s)
  (r.1.map fun cs => recordOfCells fun u => cs.getD u .cleared, r.2)

/-- A piece record as PBK or STC reads it. -/
def State.readRecord (s : State) (idx : Nat) : Option PieceRecord × State := s.readUnits State.read idx

/-- A piece record as GLU reads it. -/
def State.gluRecord (s : State) (idx : Nat) : Option PieceRecord × State := s.readUnits State.gluRead idx

/-- The header of a trend block: its fields stand in the block's first unit (log 9). -/
def State.readHeader (s : State) (block : Nat) : Option BlockHeader × State :=
  match s.read (headerAddr block) with
  | (some (.header h), s) => (some h, s)
  | (some _, s) => (some default, s)
  | (none, s) => (none, s)

def State.blockInfo (s : State) (b : Nat) : BlockInfo := Sparse.get {} s.stc.blocks b

/-- Changes what STC holds for a block. -/
def State.updBlock (s : State) (b : Nat) (f : BlockInfo → BlockInfo) : State :=
  s.updStc fun t => { t with blocks := Sparse.put {} t.blocks b (f (Sparse.get {} t.blocks b)) }

/-- Reads a block's directory entry, or the same fields from its header where the entry fails; nothing where both fail (R126). -/
def State.readPlaces (s : State) (block : Nat) : Option DirEntry × State :=
  match s.read (dirAddr block) with
  | (some (.dirEntry e), s) => (some e, s)
  | (some _, s) => (some default, s)
  | (none, s) =>
    match s.readHeader block with
    | (some h, s) => (some { firstAxis := h.firstBin * h.pitch, line := h.line, pitch := h.pitch }, s)
    | (none, s) => (none, s)

/-- A block's line, pitch and first axis position. Where both their places fail the block is unreadable, and so it stays, whatever the
places read later, until it is allocated again (R126). -/
def State.readDirEntry (s : State) (block : Nat) : Option DirEntry × State :=
  match s.readPlaces block with
  | (some e, s) => (if (s.blockInfo block).unreadable then none else some e, s)
  | (none, s) => (none, s.updBlock block fun x => { x with unreadable := true })

/-! ### Horizons (R111, R126) -/

/-- The horizon of a channel whose line is `l`. -/
def State.chanHorizon (s : State) (c : ChanId) (l : LineId) : Nat × State :=
  match (s.chanStore c).dir with
  | [] => ((s.chan c).frontier.getD (s.line l).axis, s)
  | b :: _ =>
    match s.readDirEntry b with
    | (some e, s) => (e.firstAxis, s)
    | (none, s) => (0, s)

/-- Whether a channel is valid and names a line. -/
def Channel.on (c : Channel) (l : LineId) : Bool := c.entry.valid && c.entry.line == l.val

/-- The horizon of a line: the lowest of its valid channels', or its axis where it has none. -/
def State.lineHorizon (s : State) (l : LineId) : Nat × State :=
  let r := allChans.foldl
    (fun (acc : Option Nat × State) c =>
      if (acc.2.chan c).on l then
        let (h, s) := acc.2.chanHorizon c l
        (some (match acc.1 with
          | some g => min g h
          | none => h), s)
      else acc)
    (none, s)
  (r.1.getD (s.line l).axis, r.2)

/-! ### Reclaim (R116, R117) -/

/-- Whether the axis range from `lo` to `hi` of a line overlaps a span; a span without an end reaches above everything. -/
def spanOverlaps (line : LineId) (lo hi : Nat) (l : LineId) (start : Nat) (stop : Option Nat) : Bool :=
  decide (l = line) && decide (max lo start < min hi (stop.getD hi))

/-- Whether a piece's spans overlap an axis range of a line. -/
def PieceRecord.overlaps (r : PieceRecord) (line : LineId) (lo hi : Nat) : Bool :=
  (match r.body.birth with
    | some b => spanOverlaps line lo hi b.line b.start b.stop
    | none => false)
  || r.uses.any fun u => spanOverlaps line lo hi u.line u.start u.stop

/-- The indices of pieces with a pin count above 0, ascending. -/
def State.pinnedPieces (s : State) : List Nat := (s.glu.dir.filter fun e => decide (0 < e.2.pins)).map (·.1)

/-- Whether some pinned piece among `ps` protects an axis range; a DAMAGED one protects everything. Records are read in the order of
`ps`, up to the first that protects (log 27). -/
def State.protectedBy (s : State) (line : LineId) (lo hi : Nat) : List Nat → Bool × State
  | [] => (false, s)
  | i :: is =>
    match s.readRecord i with
    | (none, s) => (true, s)
    | (some r, s) => if r.overlaps line lo hi then (true, s) else s.protectedBy line lo hi is

/-- Whether a block is protected by a pin (R117); an unreadable one is while any piece is pinned (R126). -/
def State.blockProtected (s : State) (block : Nat) : Bool × State :=
  match s.readDirEntry block with
  | (some e, s) => s.protectedBy e.line e.firstAxis (e.firstAxis + Config.binsPerBlock * e.pitch) s.pinnedPieces
  | (none, s) => (!s.pinnedPieces.isEmpty, s)

/-- Whether a block stands in a channel's directory. -/
def State.listed (s : State) (b : Nat) : Bool := allChans.any fun c => (s.chanStore c).dir.contains b

/-- Whether a block heads a channel's directory. -/
def State.isHead (s : State) (b : Nat) : Bool := allChans.any fun c => (s.chanStore c).dir.head? == some b

/-- SEALED, and the head of its directory or detached (R116). -/
def State.reclaimable (s : State) (b : Nat) : Bool :=
  (s.blockInfo b).state == .sealed && (s.isHead b || !s.listed b)

/-- The first block of a list that may be reclaimed. -/
def State.findReclaim (s : State) : List Nat → Option Nat × State
  | [] => (none, s)
  | b :: bs =>
    if s.reclaimable b then
      match s.blockProtected b with
      | (false, s) => (some b, s)
      | (true, s) => s.findReclaim bs
    else s.findReclaim bs

/-- Gives a block back: out of the age queue and its directory, FREE, on top of the free list (R116). -/
def State.freeBlock (s : State) (b : Nat) : State :=
  s.updStc fun t =>
    { t with ageQueue := t.ageQueue.erase b,
             chans := t.chans.map fun c => { c with dir := c.dir.erase b },
             blocks := Sparse.put {} t.blocks b {},
             freeBlocks := t.freeBlocks.push b }

/-- One reclaim scan, started by an offer of line `l` (R116). -/
def State.reclaimScan (s : State) (l : LineId) : State :=
  match s.findReclaim (s.stc.ageQueue.take s.stc.entry.scanLength) with
  | (some b, s) => (s.freeBlock b).countStc fun c => { c with blocksReclaimed := sat c.blocksReclaimed 1 }
  | (none, s) =>
    (s.raise .reclaimBlocked (some l) none none).countStc fun c => { c with reclaimBlocked := sat c.reclaimBlocked 1 }

/-! ### Bin offers (R77, R112 to R115) -/

/-- The first bin number of the block a bin lies in (06 section 6.2). -/
def firstBinOf (n : Nat) : Nat := n - n % Config.binsPerBlock

/-- Seals a channel's current block in STC's own lists; the seal entry is given back (R108, R114). A block both of whose places fail then
is unreadable and stays so, though the seal writes the header unit (R126, log 27). -/
def State.sealCurrent (s : State) (c : ChanId) : Option WriteEntry × State :=
  match (s.chanStore c).current with
  | none => (none, s)
  | some (b, h) =>
    let lost := (s.readDirEntry b).1.isNone
    (some (.sealing b { h with isSealed := true }),
      (s.updChanStore c fun k => { k with current := none }).updBlock b fun x =>
        { x with state := .sealed, unreadable := lost })

/-- Queues a seal entry, if there is one. -/
def State.enqueueSeal (s : State) : Option WriteEntry → State
  | none => s
  | some e => s.enqueue e

/-- Counts a lost bin on its line (R77). -/
def State.loseBin (s : State) (o : BinOffer) (code : FaultCode) : State :=
  (s.raise code (some o.line) none (some ((o.num * o.pitch : Nat) : Int))).countLine o.line fun c =>
    { c with binLost := sat c.binLost 1 }

/-- The header an allocation for an offer writes (R114). -/
def BinOffer.header (o : BinOffer) (clock : Stamp) : BlockHeader :=
  { line := o.line, channel := o.chan, gen := o.gen, pitch := o.pitch, firstBin := firstBinOf o.num,
    stamp := clock, isSealed := false }

/-- Allocates a block for an offer and queues the allocation and the bin write (R114, R115). -/
def State.allocate (s : State) (o : BinOffer) : State :=
  match s.stc.freeBlocks.pop with
  | none =>
    let s := (s.loseBin o .storeFull).countStc fun c => { c with storeFull := sat c.storeFull 1 }
    s.reclaimScan o.line
  | some (b, rest) =>
    let h := o.header s.tku.clock
    let s := s.updStc fun t =>
      { t with freeBlocks := rest, ageQueue := t.ageQueue ++ [b],
               blocks := Sparse.put {} t.blocks b { state := .filling, firstBin := h.firstBin } }
    let s := s.updChanStore o.chan fun k => { dir := k.dir ++ [b], current := some (b, h) }
    let s := s.enqueue (.allocation b h { firstAxis := h.firstBin * o.pitch, line := o.line, pitch := o.pitch })
    let s := s.enqueue (.binWrite b (o.num - h.firstBin) o.data)
    let s := s.countStc fun c => { c with allocated := sat c.allocated 1 }
    let s := s.countLine o.line fun c => { c with binsHanded := sat c.binsHanded 1 }
    if s.stc.freeBlocks.length < s.stc.entry.lowWater then s.reclaimScan o.line else s

/-- Write queue entries an offer needs (R112). -/
def State.entriesNeeded (s : State) (o : BinOffer) : Nat :=
  match (s.chanStore o.chan).current with
  | none => 2
  | some (_, h) => if h.firstBin = firstBinOf o.num then 1 else 3

/-- STC takes a bin offer and keeps it or loses it whole (R112 to R114). -/
def State.takeOffer (s : State) (o : BinOffer) : State :=
  if s.writeRoom < s.entriesNeeded o then s.loseBin o .writeQueueFull
  else
    match (s.chanStore o.chan).current with
    | none => s.allocate o
    | some (b, h) =>
      if h.firstBin = firstBinOf o.num then
        (s.enqueue (.binWrite b (o.num - h.firstBin) o.data)).countLine o.line fun c =>
          { c with binsHanded := sat c.binsHanded 1 }
      else
        let (e, s) := s.sealCurrent o.chan
        (s.enqueueSeal e).allocate o

/-- BAC offers a bin: while a reload seal waits, the offer is held behind it (R120). -/
def State.offerBin (s : State) (o : BinOffer) : State :=
  if s.stc.waitingSeal.isSome then s.updStc fun t => { t with heldOffers := t.heldOffers ++ [o] }
  else s.takeOffer o

/-! ### Channel reloads (R108) -/

/-- STC is told that a channel load has been accepted; `keep` says that both entries are valid with the same line and
station. The seal of the current block waits where the queue has no room; the directory is kept or detached at once all the same
(log 27). -/
def State.channelReloaded (s : State) (c : ChanId) (keep : Bool) : State :=
  let (e, s) := s.sealCurrent c
  let s := match e with
    | none => s
    | some e =>
      if 0 < s.writeRoom then s.enqueue e
      else s.updStc fun t => { t with waitingSeal := some e, waiters := t.waiters ++ [.reload] }
  if keep then s else s.updChanStore c fun k => { k with dir := [] }

/-- The waiting reload seal takes the room a departure made; the offers held behind it are then taken in order (R120). -/
def State.sealQueued (s : State) : State :=
  match s.stc.waiters, s.stc.waitingSeal with
  | .reload :: rest, some e =>
    if s.stc.writeQueue.length < Config.writeCapacity then
      let held := s.stc.heldOffers
      let s := s.updStc fun t => { t with waiters := rest, waitingSeal := none, heldOffers := [] }
      (s.enqueue e).forEach held State.takeOffer
    else s
  | _, _ => s

/-! ### GLU writes (R81, R120) -/

/-- GLU offers a write: it joins the queue, or waits behind what waits already. -/
def State.gluWrite (s : State) (addr : Nat) (c : Cell) : State :=
  if s.glu.waiting.isEmpty && decide (0 < s.writeRoom) then s.enqueue (.unit ⟨addr, c⟩)
  else
    let s := if s.glu.waiting.isEmpty then s.updStc fun t => { t with waiters := t.waiters ++ [.glu] } else s
    s.updGlu fun g => { g with waiting := g.waiting ++ [⟨addr, c⟩] }

/-! ### The scrub (R127, R128) -/

/-- What is wrong with a word: nothing, poison, or the positions of its wrong bits. -/
def State.wordFault (s : State) (w : Nat) : Option (Option (List Nat)) :=
  if s.cellAt (cellOfWord w) = .poisoned then some none
  else
    match Sparse.get [] s.stc.wrongBits w with
    | [] => none
    | bits => some (some bits)

/-- The words of a span of the DRAM that are not clean, ascending. -/
def State.badWords (s : State) (lo hi : Nat) : List (Nat × Option (List Nat)) :=
  let poisoned := (s.stc.dram.filter fun e => decide (e.2 = .poisoned)).flatMap fun e => wordsAt e.1
  let wrong := s.stc.wrongBits.map (·.1)
  let ws := rising ((poisoned ++ wrong).filter fun w => decide (lo ≤ w) && decide (w < hi))
  ws.filterMap fun w => (s.wordFault w).map fun f => (w, f)

/-- The words the scrub step at the pointer reads. -/
def State.scrubSpan (s : State) : Nat × Nat :=
  (s.stc.scrubPointer.toNat * Config.scrubWords, s.stc.scrubPointer.toNat * Config.scrubWords + Config.scrubWords)

/-- With SWEEP_DUE set and no step in progress, a scrub step starts (R127). -/
def State.startScrub (s : State) : State :=
  if s.tku.sweepDue && s.stc.scrub.isNone then
    s.updStc fun t =>
      { t with scrub := some { words := s.badWords s.scrubSpan.1 s.scrubSpan.2, touched := [] } }
  else s

/-- The scrub's outcome for one word that is not clean, `rewrite` telling whether a corrected word is written back. -/
def State.scrubJudge (s : State) (w : Nat) (f : Option (Option (List Nat))) (rewrite : Bool) : State :=
  match f with
  | none => s
  | some none => s.countStc fun c => { c with scrubUncorrectable := sat c.scrubUncorrectable 1 }
  | some (some bits) =>
    match judgeWord w bits with
    | .uncorrectable => s.countStc fun c => { c with scrubUncorrectable := sat c.scrubUncorrectable 1 }
    | .looksClean => s
    | .looksCorrected =>
      let s := s.countStc fun c => { c with scrubCorrected := sat c.scrubCorrected 1 }
      if rewrite then
        s.updStc fun t =>
          { t with
            dram := Sparse.put .cleared t.dram (cellOfWord w)
              (throughWord w bits (Sparse.get .cleared t.dram (cellOfWord w))),
            wrongBits := Sparse.put [] t.wrongBits w [] }
      else s

/-- The scrub of one word: read at the step's start or at its end, which is open where the two differ (log 12); a word
read early is not written back where a write to its unit came since (R127). -/
def State.scrubWord (s : State) (k : ScrubStep) (w : Nat) : State :=
  let early := (k.words.lookup w)
  let now := s.wordFault w
  let touched := k.touched.any fun r => decide (r.1 ≤ 8 * w) && decide (8 * w < r.2)
  if early = now && !touched then s.scrubJudge w now true
  else
    let (n, s) := s.takeFresh
    if Config.scrubReadEarly n w then s.scrubJudge w early (!touched) else s.scrubJudge w now true

/-- A scrub step finishes: its words, the pointer and the counts (R127). Clearing SWEEP_DUE is the Tick Unit's (R189). -/
def State.finishScrub (s : State) (k : ScrubStep) : State :=
  let ws := rising (k.words.map (·.1) ++ (s.badWords s.scrubSpan.1 s.scrubSpan.2).map (·.1))
  let s := s.forEach ws fun s w => s.scrubWord k w
  let s := s.updStc fun t => { t with scrub := none, scrubPointer := t.scrubPointer + 1 }
  s.countStc fun c =>
    { c with scrubSteps := sat c.scrubSteps 1,
             scrubPasses := if s.stc.scrubPointer = 0 then sat c.scrubPasses 1 else c.scrubPasses }

end Sys2Proof.Machine
end

