-- ==== Sys2Proof/Machine/Cache.lean ====
section
/-! DEFINITION. The Segment Cache: lookups, entry, the drops GLU tells PBK of (R160 to R162), and GLU's waiting writes finding
room (R81, R120). -/

namespace Sys2Proof.Machine

/-- Whether an entry has a key (R160). -/
def CacheEntry.hasKey (e : CacheEntry) (owner : PieceRef) (kind : ListKind) (pos : Nat) : Bool :=
  decide (e.owner = owner) && decide (e.kind = kind) && decide (e.pos = pos)

/-- Whether a group read in flight, or a group whose slots are being read, is one a drop reaches. -/
def Task.markDropped (hit : PieceRef → ListKind → Nat → Bool) : Task → Task
  | .askGroup w pos num second dropped => .askGroup w pos num second (dropped || hit w.owner w.kind pos)
  | .slots g todo got => .slots { g with dropped := g.dropped || hit g.walk.owner g.walk.kind g.pos } todo got
  | .askSegment g seg todo got =>
    .askSegment { g with dropped := g.dropped || hit g.walk.owner g.walk.kind g.pos } seg todo got
  | t => t

/-- Removes the entries a drop reaches and marks a read of theirs in flight (R162). -/
def State.dropEntries (s : State) (hit : PieceRef → ListKind → Nat → Bool) : State :=
  s.updPbk fun k =>
    { k with cache := k.cache.filter fun e => !hit e.owner e.kind e.pos,
             engine := k.engine.map fun e => { e with tasks := e.tasks.map (Task.markDropped hit) } }

/-- GLU tells PBK to drop the entry of one group (R97, R100, R162). -/
def State.dropGroup (s : State) (owner : PieceRef) (kind : ListKind) (pos : Nat) : State :=
  s.dropEntries fun o k p => decide (o = owner) && decide (k = kind) && decide (p = pos)

/-- GLU tells PBK to drop every entry of a retired piece (R100, R101, R162). -/
def State.dropPiece (s : State) (ref : PieceRef) : State :=
  s.dropEntries fun o _ _ => decide (o = ref)

/-- A lookup that hits moves the entry to the most recent place (R161). -/
def State.cacheHit (s : State) (owner : PieceRef) (kind : ListKind) (pos : Nat) : Option CacheEntry × State :=
  match s.pbk.cache.find? fun e => e.hasKey owner kind pos with
  | none => (none, s.countPbk fun c => { c with cacheMisses := sat c.cacheMisses 1 })
  | some e =>
    let s := s.updPbk fun k => { k with cache := (k.cache.filter fun x => !x.hasKey owner kind pos) ++ [e] }
    (some e, s.countPbk fun c => { c with cacheHits := sat c.cacheHits 1 })

/-- Enters a group as the most recent entry; of 32 entries the least recently used leaves first (R161). -/
def State.cacheEnter (s : State) (e : CacheEntry) : State :=
  s.updPbk fun k =>
    let rest := k.cache.filter fun x => !x.hasKey e.owner e.kind e.pos
    { k with cache := (if Config.cacheCapacity ≤ rest.length then rest.drop 1 else rest) ++ [e] }

/-! ### GLU's waiting writes (R81, R120) -/

/-- A waiting write of GLU is queued. Where it changes a link group PBK drops the group's entry now, since what it read of the
group meanwhile was the old one (R159, R162). -/
def State.queueWaiting (s : State) (w : UnitWrite) : State :=
  match w.cell with
  | .group g => (s.enqueue (.unit w)).dropGroup g.owner g.kind g.pos
  | _ => s.enqueue (.unit w)

/-- The waiting GLU writes that find room are queued, the first in the room a departure made; where another writer waits,
it takes the next room and GLU waits behind it (R120). -/
def State.resumeWrites (s : State) : State :=
  match s.stc.waiters with
  | .glu :: rest =>
    let room := if rest.isEmpty then Config.writeCapacity - s.stc.writeQueue.length
      else min 1 (Config.writeCapacity - s.stc.writeQueue.length)
    if room = 0 then s
    else
      let now := s.glu.waiting.take room
      let later := s.glu.waiting.drop room
      let s := s.updGlu fun g => { g with waiting := later }
      let s := s.updStc fun t => { t with waiters := if later.isEmpty then rest else rest ++ [.glu] }
      s.forEach now State.queueWaiting
  | _ => s

end Sys2Proof.Machine
end

