-- ==== Sys2Proof/Machine/Drain.lean ====
section
/-! DEFINITION. Drain marks and the way from DRAINING to the assembly queue (R13, R134, R135). -/

namespace Sys2Proof.Machine

/-- Whether an arrival number counts as reached by a last taken one (R13). -/
def reached (last a : Word32) : Bool := decide (0 ≤ (last - a).toInt)

/-- A line holds its input queue while a call of its own waits (R81). -/
def State.lineHeld (s : State) (l : LineId) : Bool := s.glu.waits.contains (.line l)

/-- The last steps of a line that leaves the active states wait for its closes (R27, R56, R81). -/
def State.lineLeaves (s : State) (l : LineId) : Bool :=
  s.glu.waits.contains (.leave l .idle) || s.glu.waits.contains (.leave l .suspended)

/-- An event has closed a bin that is held behind a reload seal, where more is held than before it: until the seal is queued neither it
nor a later event of the line is taken whole (R120, R135). -/
def State.noteHeld (s : State) (l : LineId) (e : Event) (before : List BinOffer) : State :=
  if before.length < s.stc.heldOffers.length ∧ s.pbk.behindSeal[l] = none then
    s.updPbk fun k => { k with behindSeal := k.behindSeal.set l (some e.arrival) }
  else s

/-- The number of the last event of a line taken whole, with the writes of its calls and its bins queued or lost; the events of a line are
numbered in the order taken, so that it is one below the first whose bins are held, or whose call is not complete (R12, R120, R135). A line that is held
because it leaves the active states has the call of its last event complete. A number reached by an emptying stands (R13). -/
def State.takenWhole (s : State) (l : LineId) : Word32 :=
  let last := (s.line l).lastTaken
  if reached s.pbk.taken[l] last then s.pbk.taken[l]
  else
    match s.pbk.behindSeal[l] with
    | some a => a - 1
    | none => if s.lineHeld l && !s.lineLeaves l then last - 1 else last

/-- PBK is given the number of the last event taken whole of every line (R135). -/
def State.learnTaken (s : State) : State := s.updPbk fun k => { k with taken := Vector.ofFn s.takenWhole }

/-- Whether a drain mark is reached (R13, R135). -/
def State.markReached (s : State) (l : LineId) (mark : Option Word32) : Bool :=
  match mark with
  | none => true
  | some a => reached s.pbk.taken[l] a

/-- The lines whose marks a context has not reached (R135, Fig. 7.3). -/
def State.outstanding (s : State) (c : Context) : List LineId := allLines.filter fun l => !s.markReached l c.marks[l]

/-- A context that drains and has every mark reached enters ASSEMBLING and joins the assembly queue (R135, R136). -/
def State.testDrain (s : State) (i : CtxId) : State :=
  if (s.context i).state = .draining ∧ s.outstanding (s.context i) = [] then
    (s.updContext i fun c => { c with state := .assembling }).updPbk fun k => { k with asmQueue := k.asmQueue ++ [i] }
  else s

/-- PBK tests the marks of every context, in ascending context number, by the numbers taken whole by now (R135, R136). -/
def State.testDrains (s : State) : State := s.learnTaken.forEach allContexts State.testDrain

/-- The drain marks a query takes: the newest number of every line whose queue is not empty (R134). -/
def State.drainMarks (s : State) : Vector (Option Word32) 8 :=
  s.lines.map fun x => if x.queue.isEmpty then none else some x.newest

/-- The lowest-numbered FREE context (R132). -/
def State.freeContext? (s : State) : Option CtxId := allContexts.find? fun i => (s.context i).state == .free

end Sys2Proof.Machine
end

