-- ==== Sys2Proof/Machine/TagIndex.lean ====
section
/-! DEFINITION. Piece references and the Tag Index (R79, R83 to R86), and GLU's read-modify-write (R81, R125). -/

namespace Sys2Proof.Machine

/-- The directory entry of a piece index (R79). -/
def State.pieceDir (s : State) (idx : Nat) : PieceDir := Sparse.get {} s.glu.dir idx

/-- Changes a directory entry. -/
def State.updPieceDir (s : State) (idx : Nat) (f : PieceDir → PieceDir) : State :=
  s.updGlu fun g => { g with dir := Sparse.put {} g.dir idx (f (Sparse.get {} g.dir idx)) }

/-- A reference is current when its index is one of a piece, its generation is the directory's and the piece is not
RETIRED (R79). -/
def State.isCurrent (s : State) (r : PieceRef) : Bool :=
  decide (1 ≤ r.idx) && decide (r.idx ≤ Config.pieceCount) && decide ((s.pieceDir r.idx).gen = r.gen)
    && decide ((s.pieceDir r.idx).state ≠ .retired)

/-- GLU changes a unit by read-modify-write. A unit that fails is written back poisoned, with a RECORD_POISONED fault that
carries the piece or the group's owner (R125). A change that leaves the content as it is offers no write (log 9). -/
def State.gluModify (s : State) (addr : Nat) (owner : PieceRef) (f : Cell → Cell) : State :=
  match s.gluRead addr with
  | (some c, s) => if f c = c then s else s.gluWrite addr (f c)
  | (none, s) =>
    let s := (s.gluWrite addr .poisoned).countStc fun c => { c with poisoned := sat c.poisoned 1 }
    s.raise .recordPoisoned none (some owner) none

/-- Changes the flags of a piece's record (Fig. 5.4). -/
def State.setFlags (s : State) (ref : PieceRef) (f : PieceFlags → PieceFlags) : State :=
  s.gluModify (pieceAddr ref.idx 0) ref fun c => .pieceId { Cell.asPieceId c with flags := f (Cell.asPieceId c).flags }

/-- The 16 slots of a tag's probe sequence (R83). -/
def probeSlots (t : Tag) : List Nat := (List.range 16).map fun i => (homeSlot t + i) % Config.tagSlotCount

/-- The better of two candidates: the later opened stamp, and of equal stamps the one met later (R85). -/
def betterCandidate (best : Option (PieceRef × PieceRecord)) (r : PieceRef) (p : PieceRecord) :
    Option (PieceRef × PieceRecord) :=
  match best with
  | none => some (r, p)
  | some (r', p') => if p'.id.opened.toNat ≤ p.id.opened.toNat then some (r, p) else some (r', p')

/-- Walks slots for a tag (R85): stale candidates become TOMBSTONE, DAMAGED ones and unreadable slots are passed over. -/
def State.lookupSlots (s : State) (tag : Tag) : List Nat → Option (PieceRef × PieceRecord) →
    Option (PieceRef × PieceRecord) × State
  | [], best => (best, s)
  | t :: ts, best =>
    match s.gluRead (tagAddr t) with
    | (none, s) => s.lookupSlots tag ts best
    | (some .tagTombstone, s) => s.lookupSlots tag ts best
    | (some (.tagUsed g r), s) =>
      if g = tag then
        if s.isCurrent r then
          match s.gluRecord r.idx with
          | (none, s) => s.lookupSlots tag ts best
          | (some p, s) => s.lookupSlots tag ts (betterCandidate best r p)
        else (s.gluWrite (tagAddr t) .tagTombstone).lookupSlots tag ts best
      else s.lookupSlots tag ts best
    | (some _, s) => (best, s)

/-- Looks a tag up (R85). -/
def State.lookupTag (s : State) (tag : Tag) : Option (PieceRef × PieceRecord) × State :=
  s.lookupSlots tag (probeSlots tag) none

/-- Takes the first EMPTY or TOMBSTONE slot for a new entry (R84); says whether there was one. -/
def State.enterSlots (s : State) (tag : Tag) (ref : PieceRef) : List Nat → Bool × State
  | [] => (false, s)
  | t :: ts =>
    match s.gluRead (tagAddr t) with
    | (none, s) => s.enterSlots tag ref ts
    | (some (.tagUsed _ _), s) => s.enterSlots tag ref ts
    | (some _, s) => (true, s.gluWrite (tagAddr t) (.tagUsed tag ref))

/-- Enters a new piece in the Tag Index, or leaves it UNINDEXED (R84). -/
def State.enterTag (s : State) (tag : Tag) (ref : PieceRef) : State :=
  match s.enterSlots tag ref (probeSlots tag) with
  | (true, s) => s
  | (false, s) =>
    let s := s.countGlu fun c => { c with tagIndexFull := sat c.tagIndexFull 1 }
    s.setFlags ref fun f => { f with unindexed := true }

/-- Changes the USED slot that holds a reference to TOMBSTONE, if the walk finds it (R86). -/
def State.removeSlots (s : State) (ref : PieceRef) : List Nat → State
  | [] => s
  | t :: ts =>
    match s.gluRead (tagAddr t) with
    | (none, s) => s.removeSlots ref ts
    | (some .tagTombstone, s) => s.removeSlots ref ts
    | (some (.tagUsed _ r), s) => if r = ref then s.gluWrite (tagAddr t) .tagTombstone else s.removeSlots ref ts
    | (some _, s) => s

/-- Removes a piece's Tag Index entry (R86). -/
def State.removeTag (s : State) (tag : Tag) (ref : PieceRef) : State := s.removeSlots ref (probeSlots tag)

end Sys2Proof.Machine
end

