-- ==== Sys2Proof/Machine/Links.lean ====
section
/-! DEFINITION. Segments, link lists and retirement (R95 to R97, R99 to R102). -/

namespace Sys2Proof.Machine

def Cell.asGroup : Cell → Group
  | .group g => g
  | _ => { owner := .noPiece, kind := .parent, pos := 0, next := none, slots := [] }

def Cell.asSegment : Cell → Segment
  | .segment g => g
  | _ => default

/-- The unit of a use-span pair, cleared where it holds none (log 9). -/
def usesCell (a b : Option UseSpan) : Cell :=
  match a, b with
  | none, none => .cleared
  | _, _ => .pieceUses a b

/-- Slots of a link group (R97). -/
def groupSlots : Nat := 4

/-- Changes one link list of a piece's record. -/
def State.setList (s : State) (ref : PieceRef) (kind : ListKind) (l : LinkList) : State :=
  s.gluModify (pieceAddr ref.idx 4) ref fun c =>
    match kind with
    | .parent => .pieceLinks l (Cell.asLinks c).2
    | .child => .pieceLinks (Cell.asLinks c).1 l

/-- Whether an append to a list needs a new group (R97). A last group that cannot be read is not known to have room, and
a new one is needed (log 17). The group is read here and again when it is changed (log 26). -/
def State.needsGroup (s : State) (l : LinkList) : Bool × State :=
  if l.count = 0 then (true, s)
  else
    match s.gluRead (groupAddr l.last) with
    | (some c, s) => (decide (groupSlots ≤ (Cell.asGroup c).slots.length), s)
    | (none, s) => (true, s)

/-- Puts a segment in a list: in the next slot of the last group, or in a newly chained one (R97). The new group is written, then the
group before it, then the record's lists, an order R97 leaves open (log 9). The Segment Cache entry of every group changed is dropped
(log 17). -/
def State.appendSide (s : State) (ref : PieceRef) (kind : ListKind) (l : LinkList) (seg : Nat) (fresh : Bool) : State :=
  if fresh then
    match s.glu.freeGroups.pop with
    | none => s
    | some (g, rest) =>
      let s := s.updGlu fun u => { u with freeGroups := rest }
      let s := s.gluWrite (groupAddr g)
        (.group { owner := ref, kind := kind, pos := l.count, next := none, slots := [some seg] })
      let s := if l.count = 0 then s
        else
          (s.gluModify (groupAddr l.last) ref fun c => .group { Cell.asGroup c with next := some g }).dropGroup
            ref kind (l.count - 1)
      let s := s.setList ref kind { count := l.count + 1, first := if l.count = 0 then g else l.first, last := g }
      s.dropGroup ref kind l.count
  else
    (s.gluModify (groupAddr l.last) ref fun c =>
      .group { Cell.asGroup c with slots := (Cell.asGroup c).slots ++ [some seg] }).dropGroup ref kind (l.count - 1)

/-- One part of an output's birth span: an axis range and the piece that fed it, index 0 for orphan material (R96). -/
structure Part where
  start : Nat
  stop : Nat
  parent : PieceRef
  est : Bool
deriving DecidableEq, Repr

/-- Divides a birth span among a feed list, in axis order; parts without material are left out (R96). -/
def feedParts (feed : List FeedEntry) (b0 b1 : Nat) : List Part :=
  let lead : List Part := match feed with
    | [] => [⟨b0, b1, .noPiece, false⟩]
    | e :: _ => [⟨b0, min e.start b1, .noPiece, false⟩]
  (lead ++ feed.map fun e => (⟨max e.start b0, min (e.stop.getD b1) b1, e.piece, e.est⟩ : Part)).filter fun p =>
    decide (p.start < p.stop)

/-- A segment that cannot be built for want of a segment or of link groups: a fault, a count and INCOMPLETE (R97). -/
def State.segmentLost (s : State) (code : FaultCode) (l : LineId) (child : PieceRef) (p : Part)
    (f : GluCounters → GluCounters) : State :=
  ((s.raise code (some l) (some child) (some (p.start : Int))).countGlu f).setFlags child fun g =>
    { g with incomplete := true }

/-- Whether the parent of a part is current, and its record where it reads (R97). -/
def State.parentRecord (s : State) (r : PieceRef) : Option PieceRecord × State :=
  if r.idx ≠ 0 ∧ s.isCurrent r then s.gluRecord r.idx else (none, s)

/-- Builds the segment of one part of an output and appends it to the lists (R97). `est` is the mark of the call that closes
the output, used where the child's record reads DAMAGED. A segment freed for want of groups has no write offered for it (log 26). -/
def State.buildSegment (s : State) (l : LineId) (child : PieceRef) (strand : Nat) (est : Bool) (p : Part) : State :=
  let (cr, s) := s.gluRecord child.idx
  let (pr, s) := s.parentRecord p.parent
  if cr.isNone ∧ pr.isNone then s
  else
    match s.glu.freeSegments.pop with
    | none => s.segmentLost .segmentFull l child p fun c => { c with segmentFull := sat c.segmentFull 1 }
    | some (n, rest) =>
      let (childNew, s) := match cr with
        | some r => s.needsGroup r.parents
        | none => (false, s)
      let (parentNew, s) := match pr with
        | some r => s.needsGroup r.children
        | none => (false, s)
      if s.glu.freeGroups.length < childNew.toNat + parentNew.toNat then
        s.segmentLost .linkFull l child p fun c => { c with linkFull := sat c.linkFull 1 }
      else
        let s := s.updGlu fun g => { g with freeSegments := rest }
        let childEst := match cr with
          | some r => match r.body.birth with
            | some b => b.est
            | none => est
          | none => est
        let s := s.gluWrite (segmentAddr n)
          (.segment { child := child, parent := p.parent, line := l, strand := strand, start := p.start,
                      stop := p.stop, est := childEst || p.est })
        let s := match cr with
          | some r => s.appendSide child .parent r.parents n childNew
          | none => s
        match pr with
        | some r => s.appendSide p.parent .child r.children n parentNew
        | none => s

/-! ### Retirement -/

/-- Gives a link group back (R97, R100). -/
def State.freeGroup (s : State) (g : Nat) : State := s.updGlu fun u => { u with freeGroups := u.freeGroups.push g }

/-- Gives a segment back (R95, R100). -/
def State.freeSegment (s : State) (n : Nat) : State := s.updGlu fun u => { u with freeSegments := u.freeSegments.push n }

/-- Empties the slot that holds a segment in a parent's child-link list, walking at most `left` groups from `g` at
position `pos` (R100). A group that fails is met as a read-modify-write that fails: the search ends, and PBK is told of no
drop for it, since no slot of it was emptied (log 17). The search reads the group, and the read-modify-write reads it again (log 26). -/
def State.emptySlot (s : State) (parent : PieceRef) (seg : Nat) : Nat → Nat → Nat → State
  | 0, _, _ => s
  | left + 1, g, pos =>
    match s.gluRead (groupAddr g) with
    | (none, s) => s.gluModify (groupAddr g) parent fun c => c
    | (some c, s) =>
      if (Cell.asGroup c).slots.contains (some seg) then
        (s.gluModify (groupAddr g) parent fun c =>
          .group { Cell.asGroup c with slots := (Cell.asGroup c).slots.map fun x => if x = some seg then none else x }
        ).dropGroup parent .child pos
      else
        match (Cell.asGroup c).next with
        | some g' => s.emptySlot parent seg left g' (pos + 1)
        | none => s

/-- One segment of a retired piece's parent-link list: out of its parent's child-link list, then freed. One that cannot be
read stays in use (R100, R124). -/
def State.detachSegment (s : State) (n : Nat) : State :=
  match s.gluRead (segmentAddr n) with
  | (none, s) => s
  | (some c, s) =>
    let parent := (Cell.asSegment c).parent
    match s.parentRecord parent with
    | (some r, s) => (s.emptySlot parent n r.children.count r.children.first 0).freeSegment n
    | (none, s) => s.freeSegment n

/-- Walks a retired piece's list of at most `left` groups from `g`, freeing each group and, in the parent-link list, its
segments. A group that reads poisoned is freed and ends the walk (R100). -/
def State.freeList (s : State) (segments : Bool) : Nat → Nat → State
  | 0, _ => s
  | left + 1, g =>
    match s.gluRead (groupAddr g) with
    | (none, s) => s.freeGroup g
    | (some c, s) =>
      let s := if segments then s.forEach ((Cell.asGroup c).slots.filterMap fun x => x) State.detachSegment else s
      let s := s.freeGroup g
      match (Cell.asGroup c).next with
      | some g' => s.freeList segments left g'
      | none => s

/-- The piece leaves the close list, becomes RETIRED with its generation raised, and its index goes to the top of the
piece free list; PBK drops its cache entries (R80, R100, R101). -/
def State.retireIndex (s : State) (ref : PieceRef) : State :=
  let s := s.updGlu fun g =>
    { g with closeList := g.closeList.erase ref.idx, freePieces := g.freePieces.push ref.idx }
  (s.updPieceDir ref.idx fun d => { d with state := .retired, gen := d.gen + 1 }).dropPiece ref

/-- Writes all eight units of a piece record (R87, R101). -/
def State.writeRecord (s : State) (idx : Nat) (units : List Cell) : State :=
  s.forEach ((List.range 8).zip units) fun s u => s.gluWrite (pieceAddr idx u.1) u.2

/-- Retires a piece, by its record where it reads and without it where it reads DAMAGED (R100, R101). It reads the record itself,
after the reading of the check that led here (log 26). -/
def State.retirePiece (s : State) (ref : PieceRef) : State :=
  match s.gluRecord ref.idx with
  | (some r, s) =>
    let s := if r.id.flags.unindexed then s else s.removeTag r.id.tag ref
    let s := s.freeList true r.parents.count r.parents.first
    let s := s.freeList false r.children.count r.children.first
    s.retireIndex ref
  | (none, s) => (s.retireIndex ref).writeRecord ref.idx (List.replicate 8 .cleared)

/-- Whether spans all end at or below their lines' horizons (R102). Each span's horizon is asked for in turn, the birth span's first, up to
the first that is not below; R102 does not say how often and in what order (log 26). -/
def State.spansBelow (s : State) : List (LineId × Option Nat) → Bool × State
  | [] => (true, s)
  | (_, none) :: _ => (false, s)
  | (l, some stop) :: rest =>
    let (h, s) := s.lineHorizon l
    if stop ≤ h then s.spansBelow rest else (false, s)

/-- The lines and ends of a record's spans. -/
def PieceRecord.spanEnds (r : PieceRecord) : List (LineId × Option Nat) :=
  (match r.body.birth with
    | some b => [(b.line, b.stop)]
    | none => []) ++ r.uses.map fun u => (u.line, u.stop)

/-- Whether a piece qualifies for automatic retirement (R102). -/
def State.qualifies (s : State) (idx : Nat) : Bool × State :=
  if (s.pieceDir idx).pins ≠ 0 then (false, s)
  else
    match s.gluRecord idx with
    | (none, s) => (true, s)
    | (some r, s) => s.spansBelow r.spanEnds

/-- The first piece of a list that qualifies. -/
def State.findRetire (s : State) : List Nat → Option Nat × State
  | [] => (none, s)
  | i :: is =>
    match s.qualifies i with
    | (true, s) => (some i, s)
    | (false, s) => s.findRetire is

/-- Automatic retirement: one scan of the first 64 entries of the close list (R102). The record of the piece found is read for the
check and again for the retirement (log 26). -/
def State.autoRetire (s : State) : State :=
  match s.findRetire (s.glu.closeList.take 64) with
  | (some i, s) =>
    (s.retirePiece ⟨i, (s.pieceDir i).gen⟩).countGlu fun c => { c with autoRetired := sat c.autoRetired 1 }
  | (none, s) => s.countGlu fun c => { c with pieceTableLow := sat c.pieceTableLow 1 }

end Sys2Proof.Machine
end

