-- ==== Sys2Proof/Machine/Pieces.lean ====
section
/-! DEFINITION. The Genealogy Unit's calls: creating pieces, welds, outputs, pins and RETIRE (R87 to R94, R98, R99, R103). -/

namespace Sys2Proof.Machine

/-! ### Creating a piece (R87, R103) -/

/-- What the caller gives for a new piece. `checkTag` says that the tag is looked up before it is entered (R92). -/
structure NewPiece where
  line : LineId
  axis : Nat
  tag : Tag
  kind : PieceKind
  flags : PieceFlags
  length : Option Nat := none
  birth : Option BirthSpan := none
  feed : Option UseSpan := none
  checkTag : Bool
deriving DecidableEq, Repr

/-- An index from the piece free list, and whether automatic retirement ran for it; none when the creation fails. -/
def State.takeIndex (s : State) (l : LineId) (axis : Nat) : Option Nat × Bool × State :=
  match s.glu.freePieces.pop with
  | some (i, rest) => (some i, false, s.updGlu fun g => { g with freePieces := rest })
  | none =>
    let s := s.autoRetire
    match s.glu.freePieces.pop with
    | some (i, rest) => (some i, true, s.updGlu fun g => { g with freePieces := rest })
    | none =>
      (none, true, (s.raise .pieceTableFull (some l) none (some (axis : Int))).countGlu fun c =>
        { c with pieceTableFull := sat c.pieceTableFull 1 })

/-- Whether another piece answers to the tag of a new output (R92). An all-space tag is not looked up. -/
def State.tagHeld (s : State) (n : NewPiece) : Bool × State :=
  if n.checkTag && n.tag != blankTag then
    let (m, s) := s.lookupTag n.tag
    (m.isSome, s)
  else (false, s)

/-- The eight units of a new piece's record (Fig. 5.2). An EXTERNAL piece is closed as it is opened (R91). -/
def NewPiece.units (n : NewPiece) (ref : PieceRef) (dup : Bool) (clock : Stamp) : List Cell :=
  [.pieceId { ref := ref, tag := n.tag, kind := n.kind, opened := clock,
              flags := { n.flags with duplicateTag := n.flags.duplicateTag || dup } },
   .pieceBirth { length := n.length, birth := n.birth, closed := if n.kind = .external then some clock else none },
   usesCell n.feed none, .cleared, .pieceLinks {} {}, .cleared, .cleared, .cleared]

/-- A piece is created, or index 0 is given (R87). An output's tag is looked up once the index is taken, and not at all where the
creation fails: R92 says only that it is looked up before it is entered (log 26). -/
def State.createPiece (s : State) (n : NewPiece) : PieceRef × State :=
  match s.takeIndex n.line n.axis with
  | (none, _, s) => (.noPiece, s)
  | (some i, ran, s) =>
    let ref : PieceRef := ⟨i, (s.pieceDir i).gen⟩
    let (dup, s) := s.tagHeld n
    let s := s.writeRecord i (n.units ref dup s.tku.clock)
    let external := decide (n.kind = .external)
    let s := s.updPieceDir i fun d => { d with state := if external then .closed else .opened, pins := 0 }
    let s := if external then s.updGlu fun g => { g with closeList := g.closeList ++ [i] } else s
    let s := if n.tag = blankTag then s else s.enterTag n.tag ref
    (ref, if !ran && decide (s.glu.freePieces.length < 256) then s.autoRetire else s)

/-! ### Welds (R89 to R91) -/

/-- The unit and place of the use span number `k`, changed. -/
def State.setUse (s : State) (ref : PieceRef) (k : Nat) (u : UseSpan) : State :=
  s.gluModify (pieceAddr ref.idx (2 + k / 2)) ref fun c =>
    if k % 2 = 0 then usesCell (some u) (Cell.asUses c).2 else usesCell (Cell.asUses c).1 (some u)

/-- Ends a piece's FEEDING use span on a line, with the flags the call brings (R89, R94). A piece that reads DAMAGED is left as it is: R89
has only the feed entry changed, and no flag is written for it where R94 has a current piece gain INCOMPLETE (log 17). -/
def State.endUse (s : State) (ref : PieceRef) (l : LineId) (axis : Nat) (est incomplete : Bool) : State :=
  match s.gluRecord ref.idx with
  | (none, s) => s
  | (some r, s) =>
    let s := match r.uses.findIdx? fun u => decide (u.line = l) && u.stop.isNone with
      | some k =>
        match r.uses[k]? with
        | some u => s.setUse ref k { u with stop := some axis, est := u.est || est }
        | none => s
      | none => s
    if est || incomplete then
      s.setFlags ref fun f => { f with estimated := f.estimated || est, incomplete := f.incomplete || incomplete }
    else s

/-- Ends the feeding on a line, if its feed list has a last entry without an end (R89, R94). -/
def State.endFeeding (s : State) (l : LineId) (axis : Nat) (est incomplete : Bool) : State :=
  match (s.line l).feed.getLast? with
  | none => s
  | some e =>
    if e.stop.isSome then s
    else
      let s := s.updLine l fun x =>
        { x with feed := x.feed.dropLast ++ [{ e with stop := some axis, est := e.est || est }] }
      if s.isCurrent e.piece then s.endUse e.piece l axis est incomplete else s

/-- A use span is added to an existing piece (R91). -/
def State.addUse (s : State) (ref : PieceRef) (p : PieceRecord) (u : UseSpan) : State :=
  let s := s.setUse ref p.uses.length u
  if u.est then s.setFlags ref fun f => { f with estimated := true } else s

/-- Resolves the incoming tag of a weld and gives the resolved piece its use span (R90, R91, Fig. 5.5). -/
def State.resolveWeld (s : State) (u : UseSpan) (tag : Tag) (declared : Nat) : PieceRef × State :=
  let fresh (dup : Bool) : NewPiece :=
    { line := u.line, axis := u.start, tag := tag, kind := .external,
      flags := { estimated := u.est, duplicateTag := dup },
      length := if declared = 0 then none else some declared, feed := some u, checkTag := false }
  match s.lookupTag tag with
  | (none, s) => s.createPiece (fresh false)
  | (some (r, p), s) =>
    if (s.pieceDir r.idx).state = .opened then
      ((s.raise .tagOpen (some u.line) (some r) (some (u.start : Int))).countGlu fun c =>
        { c with tagOpen := sat c.tagOpen 1 }).createPiece (fresh true)
    else if p.id.kind = .scrap then s.createPiece (fresh true)
    else if 4 ≤ p.uses.length ∨ (p.uses.any fun x => x.stop.isNone) then
      ((s.raise .useLimit (some u.line) (some r) (some (u.start : Int))).countGlu fun c =>
        { c with useLimit := sat c.useLimit 1 }).createPiece (fresh true)
    else (r, s.addUse r p u)

/-- GLU's part of an accepted weld; the resolved reference is given back (R89 to R91). -/
def State.gluWeld (s : State) (l : LineId) (axis : Nat) (est : Bool) (tag : Tag) (declared : Nat) (dir : Direction) :
    PieceRef × State :=
  let s := s.endFeeding l axis est false
  let (ref, s) := s.resolveWeld { line := l, start := axis, stop := none, dir := dir, est := est } tag declared
  (ref, s.updLine l fun x => { x with feed := x.feed ++ [{ piece := ref, start := axis, stop := none, est := est }] })

/-! ### Outputs (R92 to R94) -/

/-- The unit with the birth span and closed stamp of an output being closed (R93). -/
def CloseCall.birth (k : CloseCall) (clock : Stamp) (b : PieceBirth) : PieceBirth :=
  { length := some (if k.finished = 0 then min (k.stop - k.start) Config.lengthMax else k.finished),
    birth := b.birth.map fun x => { x with stop := some k.stop, est := x.est || k.est },
    closed := some clock }

/-- Closes the output of one strand (R93). An output that is index 0 or stale is passed over. -/
def State.closeOutput (s : State) (k : CloseCall) (strand : Nat) (ref : PieceRef) : State :=
  if s.isCurrent ref then
    let clock := s.tku.clock
    let s := s.gluModify (pieceAddr ref.idx 1) ref fun c => .pieceBirth (k.birth clock (Cell.asPieceBirth c))
    let est := k.est || k.finished == 0
    let s := if est || k.incomplete then
        s.setFlags ref fun f => { f with estimated := f.estimated || est, incomplete := f.incomplete || k.incomplete }
      else s
    let s := s.forEach (feedParts (s.line k.line).feed k.start k.stop) fun s p =>
      s.buildSegment k.line ref strand k.est p
    (s.updPieceDir ref.idx fun d => { d with state := .closed }).updGlu fun g =>
      { g with closeList := g.closeList ++ [ref.idx] }
  else s

/-- GLU closes the open outputs, in strand order (R93). -/
def State.gluClose (s : State) (k : CloseCall) (outputs : List PieceRef) : State :=
  s.forEach ((List.range outputs.length).zip outputs) fun s o => s.closeOutput k o.1 o.2

/-- A new joint on the strip chain, which has room for it: a weld that meets a full chain makes no call (R37). -/
def Line.join (x : Line) (j : Joint) : Line :=
  { x with chain := if x.chain.length < Config.chainCapacity then x.chain ++ [j] else x.chain }

/-- A pending content without a trigger takes a new joint's axis where its watch position lies below (R18). -/
def Station.triggerAt (axis : Nat) (t : Station) : Station :=
  match t.pending with
  | some { content := n, watch := w, trigger := none } =>
    if w < (axis : Int) then { t with pending := some { content := n, watch := w, trigger := some axis } } else t
  | _ => t

/-- GLU's part of an accepted weld, with what LTK does once GLU has given the reference (R37). -/
def State.weldCall (s : State) (l : LineId) (a : Nat) (est : Bool) (tag : Tag) (declared : Nat) (dir : Direction) : State :=
  let (r, s) := s.gluWeld l a est tag declared dir
  let s := s.updLine l fun x =>
    { x.join { axis := a, piece := r, est := est } with
      lastWeld := some a, feeding := some r, stations := x.stations.map (Station.triggerAt a) }
  s.countLine l fun c => { c with welds := sat c.welds 1 }

/-- The tag of a SCRAP piece: that of the piece feeding last, where it is current and readable (R92). -/
def State.scrapTag (s : State) (l : LineId) : Tag × State :=
  match (s.line l).feed.getLast? with
  | none => (blankTag, s)
  | some e =>
    if s.isCurrent e.piece then
      match s.gluRecord e.piece.idx with
      | (some r, s) => (r.id.tag, s)
      | (none, s) => (blankTag, s)
    else (blankTag, s)

/-- The kind of piece a cut opens. -/
def CutKind.piece : CutKind → PieceKind
  | .coil => .coil
  | .scrap => .scrap
  | .sample => .sample

/-- Creates the pieces of one cut, in strand order (R92). -/
def State.openPieces (s : State) (l : LineId) (kind : PieceKind) (axis : Nat) (est : Bool) :
    Nat → List Tag → List PieceRef × State
  | _, [] => ([], s)
  | strand, t :: ts =>
    let (r, s) := s.createPiece
      { line := l, axis := axis, tag := t, kind := kind, flags := { estimated := est },
        birth := some { line := l, strand := strand, start := axis, stop := none, est := est }, checkTag := true }
    let (rs, s) := s.openPieces l kind axis est (strand + 1) ts
    (r :: rs, s)

/-- GLU opens the outputs of an accepted cut, after it has removed the feed list entries passed (R92). -/
def State.gluOpen (s : State) (l : LineId) (kind : CutKind) (tags : List Tag) (axis : Nat) (est : Bool) :
    List PieceRef × State :=
  let s := s.updLine l fun x =>
    { x with feed := x.feed.filter fun e => e.stop.all fun b => decide (axis < b) }
  let (tags, s) := match kind with
    | .scrap =>
      let (t, s) := s.scrapTag l
      ([t], s)
    | _ => (tags, s)
  s.openPieces l kind.piece axis est 0 tags

/-- The opening of an accepted cut's outputs, with what LTK does once GLU has given their references (R39, R92). -/
def State.openOutputs (s : State) (l : LineId) (kind : CutKind) (tags : List Tag) (axis : Nat) (est : Bool) : State :=
  let (rs, s) := s.gluOpen l kind tags axis est
  (s.updLine l fun x => { x with outputs := rs, boundary := some axis }).countLine l fun c =>
    { c with cuts := sat c.cuts 1 }

/-- The second step of the closes of DEACTIVATE, RESET_LINE, a warm reset and suspension: the outputs are closed, and then the
feed list is emptied (R94). -/
def State.closeLast (s : State) (k : CloseCall) (outputs : List PieceRef) : State :=
  (s.gluClose k outputs).updLine k.line fun x => { x with feed := [] }

/-! ### Pins (R98) -/

/-- A PIN of a reference. -/
def State.gluPin (s : State) (r : PieceRef) : Reason × State :=
  if !s.isCurrent r then (.noPiece, s)
  else if 15 ≤ (s.pieceDir r.idx).pins then (.pinLimit, s)
  else (.ok, s.updPieceDir r.idx fun d => { d with pins := d.pins + 1 })

/-- An UNPIN of a reference. -/
def State.gluUnpin (s : State) (r : PieceRef) : Reason × State :=
  if !s.isCurrent r then (.noPiece, s)
  else if (s.pieceDir r.idx).pins = 0 then (.badState, s)
  else (.ok, s.updPieceDir r.idx fun d => { d with pins := d.pins - 1 })

/-- The implicit pin of a query on a current piece; says whether it was counted. -/
def State.implicitPin (s : State) (r : PieceRef) : Bool × State :=
  if 15 ≤ (s.pieceDir r.idx).pins then (false, s)
  else (true, s.updPieceDir r.idx fun d => { d with pins := d.pins + 1 })

/-- The release of an implicit pin that was counted. -/
def State.releasePin (s : State) (r : PieceRef) : State :=
  if s.isCurrent r then s.updPieceDir r.idx fun d => { d with pins := d.pins - 1 } else s

/-! ### Calls made while GLU writes wait (R81, R82) -/

/-- Whether what waits is for a line: the completion of its call, or what LTK takes for it after that. -/
def GluWait.concerns (l : LineId) : GluWait → Bool
  | .line k => decide (k = l)
  | .reckon k _ => decide (k = l)
  | .request k => decide (k = some l)
  | _ => false

/-- Whether GLU can take a call: it takes nothing while a write of its own waits, nor before the calls that wait already (R81, R82). -/
def State.gluBusy (s : State) : Bool := !s.glu.waiting.isEmpty || !s.glu.waits.isEmpty

/-- GLU takes a call (R89 to R94, R98). -/
def State.gluTakes (s : State) : GluCall → State
  | .endFeeding l axis est => s.endFeeding l axis est true
  | .closeOutputs k outputs => s.closeLast k outputs
  | .weld l axis est tag declared dir => s.weldCall l axis est tag declared dir
  | .closeCut k outputs => s.gluClose k outputs
  | .openOutputs l kind tags axis est => s.openOutputs l kind tags axis est
  | .releasePin r => s.releasePin r

/-- Something joins the end of what waits behind GLU's writes. -/
def State.waitGlu (s : State) (w : GluWait) : State := s.updGlu fun g => { g with waits := g.waits ++ [w] }

/-- Something LTK takes for a line once the line's call is complete: it waits behind what waits for that line already (R47, R81). -/
def State.waitLine (s : State) (l : LineId) (w : GluWait) : State :=
  s.updGlu fun g =>
    let after := (g.waits.reverse.takeWhile fun x => !x.concerns l).reverse
    { g with waits := g.waits.take (g.waits.length - after.length) ++ w :: after }

/-- A call reaches GLU: taken at once, or after everything that waits (R81, R82). -/
def State.callGlu (s : State) (c : GluCall) : State := if s.gluBusy then s.waitGlu (.call c) else s.gluTakes c

/-! ### RETIRE (R99) -/

/-- Whether a record holds a FEEDING use span. -/
def PieceRecord.feeding (r : PieceRecord) : Bool := r.uses.any fun u => u.stop.isNone

/-- RETIRE of a reference, checked in the order of R99. The record is read for the check and again for the retirement (log 26). -/
def State.gluRetire (s : State) (r : PieceRef) : Reason × State :=
  if !s.isCurrent r then (.noPiece, s)
  else if (s.pieceDir r.idx).state = .opened then (.badState, s)
  else if 0 < (s.pieceDir r.idx).pins then (.pinned, s)
  else
    match s.gluRecord r.idx with
    | (p, s) =>
      if p.any PieceRecord.feeding then (.badState, s)
      else (.ok, (s.retirePiece r).countGlu fun c => { c with retired := sat c.retired 1 })

end Sys2Proof.Machine
end

