-- ==== Sys2Proof/Machine/Contexts.lean ====
section
/-! DEFINITION. Query contexts: freeing, the hold window, and entering READY (R130, R138 to R141, R149). -/

namespace Sys2Proof.Machine

/-- The far end of a segment, seen from the list walked. -/
def farEnd : ListKind → Segment → PieceRef
  | .parent, g => g.parent
  | .child, g => g.child

/-- The read of STC that a task of the engine asks for, for a query on piece `queried` (R137, log 16). -/
def Task.read? (queried : PieceRef) : Task → Option StoreRead
  | .askQueried => some (.record queried)
  | .askRange r => some (.record r.piece)
  | .askNode ref _ => some (.record ref)
  | .askFar w g => some (.record (farEnd w.kind g))
  | .askChild _ _ g => some (.record g.child)
  | .askChannel v c => some (.channel v.span.line c)
  | .askBlock v c block first e => some (.block v c block first e.pitch)
  | .askGroup _ _ num _ _ => some (.cell (groupAddr num))
  | .askSegment _ n _ _ => some (.cell (segmentAddr n))
  | _ => none

/-- The read the engine has asked of STC for a context and not yet received, if it is at work on that context. -/
def State.readInFlight (s : State) (i : CtxId) : Option StoreRead :=
  match s.pbk.engine with
  | some e => if e.ctx = i then e.tasks.head?.bind (Task.read? (s.context i).piece) else none
  | none => none

/-- The engine abandons the walk of a context, whose read in flight is to be discarded when it is answered, and the context leaves the
assembly queue (R136, R143). -/
def State.dropWalk (s : State) (i : CtxId) : State :=
  s.updPbk fun k =>
    { k with asmQueue := k.asmQueue.erase i,
             engine := match k.engine with
               | some e => if e.ctx = i then none else some e
               | none => none,
             discarded := k.discarded ++ (s.readInFlight i).toList }

/-- The pages of a context go back to the pool, the page taken first ending on top; the context is FREE with its
generation raised (R139). -/
def State.vacate (s : State) (i : CtxId) : State :=
  let pages := (s.context i).pages
  (s.updContext i fun c => { gen := c.gen + 1 }).updPbk fun k => { k with freePages := k.freePages.pushAll pages.reverse }

/-- A context is freed by a HOLD expiry or RELEASE, its counted implicit pin being released (R139). Where GLU is busy the release of the
pin waits for its turn, and nothing else does (log 15). -/
def State.freeContext (s : State) (i : CtxId) : State :=
  let c := s.context i
  let s := if c.pinCounted then s.callGlu (.releasePin c.piece) else s
  (s.dropWalk i).vacate i

/-- A context enters READY (R140, R149). -/
def State.enterReady (s : State) (i : CtxId) : State :=
  let cut := (s.context i).truncated
  let s := s.updContext i fun c => { c with state := .ready, hold := s.stc.entry.holdCount }
  if cut then s.countPbk fun c => { c with truncated := sat c.truncated 1 } else s

/-- A HOLD expiry taken for one context (R141). -/
def State.holdContext (s : State) (i : CtxId) : State :=
  let c := s.context i
  if c.state = .ready ∨ c.state = .failed then
    let s := s.updContext i fun c => { c with hold := c.hold - 1 }
    if c.hold - 1 = 0 then (s.freeContext i).countPbk fun k => { k with holdExpired := sat k.holdExpired 1 } else s
  else s

/-- A HOLD expiry taken by PBK, for every context (R141). The contexts take it in ascending number, which the manual leaves open and
which settles the order of the pages freed together (log 25). -/
def State.takeHold (s : State) : State := s.forEach allContexts State.holdContext

end Sys2Proof.Machine
end

