-- ==== Sys2Proof/Machine/Bins.lean ====
section
/-! DEFINITION. The Bin Accumulator: samples, bins, quality, closing and the hand-off to the store (R62 to R77). -/

namespace Sys2Proof.Machine

/-! ### Positions (R17, R34) -/

/-- The content in force of a station. -/
def Line.content (x : Line) (st : Nat) : Nat := if h : st < 12 then x.stations[st].content else 0

/-- Whether a station is valid. -/
def Line.stationValid (x : Line) (st : Nat) : Bool := if h : st < 12 then x.stations[st].valid else false

/-- The material position of a station at the line's axis, by the content in force (R34). -/
def Line.position (x : Line) (st : Nat) : Int := (x.axis : Int) - (x.content st : Int)

/-! ### Closing and discarding (R72, R74 to R77) -/

/-- Whether a channel of a line has an open bin. -/
def Channel.recording (c : Channel) (l : LineId) : Bool := c.on l && c.openBin.isSome

/-- Closes a channel's open bin and offers it to the store; its number becomes the last handed one (R77). -/
def State.closeBin (s : State) (l : LineId) (c : ChanId) : State :=
  match (s.chan c).openBin with
  | none => s
  | some b =>
    let o : BinOffer :=
      { chan := c, gen := (s.chan c).gen, line := l, pitch := (s.chan c).entry.pitch, num := b.num, data := b.data }
    (s.updChan c fun x => { x with openBin := none, lastHanded := some b.num }).offerBin o

/-- Adds marks to the open bin of a channel. -/
def Channel.mark (q : Quality) (c : Channel) : Channel :=
  { c with openBin := c.openBin.map fun b => { b with data := { b.data with quality := unionQuality b.data.quality q } } }

/-- Adds marks to every open bin of a line (R71, R72). -/
def State.markBins (s : State) (l : LineId) (q : Quality) : State :=
  { s with channels := s.channels.map fun c => if c.on l then c.mark q else c }

/-- Closes every open bin of a line, in ascending channel number (R75). -/
def State.closeBins (s : State) (l : LineId) : State :=
  s.forEach allChans fun s c => if (s.chan c).recording l then s.closeBin l c else s

/-- Discards every open bin of a line (R76). -/
def State.discardBins (s : State) (l : LineId) : State :=
  { s with channels := s.channels.map fun c => if c.on l then { c with openBin := none } else c }

/-- How many open bins a line has. -/
def State.openBinCount (s : State) (l : LineId) : Nat := allChans.countP fun c => (s.chan c).recording l

/-- Whether the station of a channel's open bin has reached the bin's end (R74). -/
def Line.binPassed (x : Line) (c : Channel) : Bool :=
  match c.openBin with
  | none => false
  | some b => x.stationValid c.entry.station &&
      decide ((((b.num + 1) * c.entry.pitch : Nat) : Int) ≤ x.position c.entry.station)

/-- BAC is told the material positions of the line's stations, and closes the bins passed, in ascending channel number (R74). -/
def State.tellStations (s : State) (l : LineId) : State :=
  s.forEach allChans fun s c =>
    if (s.chan c).on l && (s.line l).binPassed (s.chan c) then s.closeBin l c else s

/-! ### Samples (R62, R65 to R70) -/

/-- The point map: the valid channel that holds a line, station and point code (R62). -/
def State.mapped (s : State) (l : LineId) (station point : Nat) : Option ChanId :=
  allChans.find? fun c =>
    (s.chan c).on l && decide ((s.chan c).entry.station = station) && decide ((s.chan c).entry.point = point)

/-- The frontier is raised to a material position (R64). -/
def Channel.reach (m : Nat) (c : Channel) : Channel := { c with frontier := some (max m (c.frontier.getD m)) }

/-- Whether a position is behind (R67). With no bin open the frontier itself is behind too: either the bin that holds it was handed, and is
behind as a whole, or it was discarded, and what stands at the frontier is not recorded again (R76, log 28). -/
def Channel.behind (c : Channel) (m : Nat) (debt : Bool) : Bool :=
  (match c.frontier with
    | some f => decide (m < f) || ((debt || c.openBin.isNone) && decide (m ≤ f))
    | none => false)
  || (match c.lastHanded with
    | some n => decide (m / c.entry.pitch ≤ n)
    | none => false)

/-- A value accumulated into a bin's record (R69). -/
def accumulate (b : BinRec) (v : Int) (est : Bool) : BinRec :=
  let q := unionQuality b.quality { estimated := est }
  if b.count = 0 then { b with min := v, max := v, sum := v, count := 1, first := v, last := v, quality := q }
  else if b.count = 16777215 then { b with min := min b.min v, max := max b.max v, last := v, quality := q }
  else { b with min := min b.min v, max := max b.max v, sum := b.sum + v, count := b.count + 1, last := v, quality := q }

/-- A bin opened by a value, or by a clipped one (R68, R70). -/
def newBin (v : Option Int) (offset : Nat) (est : Bool) : BinRec :=
  match v with
  | some v => { min := v, max := v, sum := v, count := 1, first := v, last := v, offset := offset,
                quality := { estimated := est } }
  | none => { offset := offset, quality := { estimated := est, clipped := true } }

/-- Puts a value, or a clipped one, into the bin number of a position: into the open bin where the number is its own, else
into a new bin after the open one is closed (R68 to R70). -/
def State.fileValue (s : State) (l : LineId) (c : ChanId) (m : Nat) (v : Option Int) (est : Bool) : State :=
  let pitch := (s.chan c).entry.pitch
  let num := m / pitch
  let opening (s : State) : State :=
    s.updChan c fun x => { x with openBin := some { num := num, data := newBin v (m - num * pitch) est } }
  let s := match (s.chan c).openBin with
    | none => opening s
    | some b =>
      if b.num = num then
        s.updChan c fun x =>
          { x with openBin := some { b with data := match v with
            | some v => accumulate b.data v est
            | none => { b.data with quality := unionQuality b.data.quality { estimated := est, clipped := true } } } }
      else opening (s.closeBin l c)
  s.updChan c (Channel.reach m)

/-- What LTK gives BAC with a SAMPLE, beside its pairs (R65). -/
structure SampleCall where
  line : LineId
  station : Nat
  before : Bool
  pos : Int
  debt : Bool
  est : Bool
deriving DecidableEq, Repr

/-- BAC takes one pair (R65 to R70, Fig. 4.4). -/
def State.takePair (s : State) (k : SampleCall) (point : Nat) (v : Int) : State :=
  match s.mapped k.line k.station point with
  | none => s.countLine k.line fun c => { c with unmapped := sat c.unmapped 1 }
  | some c =>
    if k.before || decide (k.pos < 0) || decide (k.pos < ((s.line k.line).headMark : Int)) then
      s.countLine k.line fun c => { c with preHead := sat c.preHead 1 }
    else if (s.chan c).behind k.pos.toNat k.debt then
      s.countLine k.line fun c => { c with behind := sat c.behind 1 }
    else if (s.chan c).entry.low ≤ v ∧ v ≤ (s.chan c).entry.high then
      (s.countLine k.line fun c => { c with accepted := sat c.accepted 1 }).fileValue k.line c k.pos.toNat (some v) k.est
    else
      (s.countLine k.line fun c => { c with outOfRange := sat c.outOfRange 1 }).fileValue k.line c k.pos.toNat none k.est

/-- BAC takes the pairs of a SAMPLE, in frame order (R65). -/
def State.takePairs (s : State) (k : SampleCall) (pairs : List (Nat × Int)) : State :=
  s.forEach pairs fun s p => s.takePair k p.1 p.2

/-! ### Channel loads (R60, R61) -/

/-- Whether a line slot number names a line that is neither VACANT nor IDLE. -/
def State.lineBusy (s : State) (l : Nat) : Bool :=
  match lineId? l with
  | some l => (s.line l).state != .vacant && (s.line l).state != .idle
  | none => false

/-- Whether an entry's fields lie in their ranges (Fig. 4.2). -/
def ChannelEntry.inRange (e : ChannelEntry) : Bool :=
  decide (e.line ≤ 7) && decide (e.station ≤ 11) && decide (e.point ≤ 255) && decide (10 ≤ e.pitch)
    && decide (e.pitch ≤ 65535) && decide (e.low ≤ e.high)

/-- Whether another valid entry holds the triple of an entry to be loaded (R60). -/
def State.pointTaken (s : State) (c : ChanId) (e : ChannelEntry) : Bool :=
  allChans.any fun d =>
    d != c && (s.chan d).entry.valid && decide ((s.chan d).entry.line = e.line)
      && decide ((s.chan d).entry.station = e.station) && decide ((s.chan d).entry.point = e.point)

/-- The checks of a channel load, in order (R60). -/
def State.channelCheck (s : State) (c : ChanId) (e : ChannelEntry) : Reason :=
  if e.valid && !e.inRange then .badValue
  else if ((s.chan c).entry.valid && s.lineBusy (s.chan c).entry.line) || (e.valid && s.lineBusy e.line) then .lineActive
  else if e.valid && s.pointTaken c e then .duplicatePoint
  else .ok

/-- Whether a load keeps the channel's line and station, both entries being valid (R61). -/
def ChannelEntry.kept (old new : ChannelEntry) : Bool :=
  old.valid && new.valid && decide (old.line = new.line) && decide (old.station = new.station)

/-- The channel after an accepted load (R61). -/
def Channel.loaded (x : Channel) (e : ChannelEntry) : Channel :=
  let keep := x.entry.kept e
  { entry := e, gen := x.gen + 1, openBin := none, frontier := if keep then x.frontier else none,
    lastHanded := if keep then x.lastHanded.map fun n => ((n + 1) * x.entry.pitch - 1) / e.pitch else none }

/-- BAC takes a channel load; an accepted one is told to STC (R60, R61, R108). -/
def State.loadChannel (s : State) (c : ChanId) (e : ChannelEntry) : Reason × State :=
  match s.channelCheck c e with
  | .ok =>
    let keep := (s.chan c).entry.kept e
    (.ok, (s.updChan c fun x => x.loaded e).channelReloaded c keep)
  | r => (r, s)

end Sys2Proof.Machine
end

