-- ==== Sys2Proof/Machine/Mapping.lean ====
section
/-! DEFINITION. Positions and records: the maps of spans, the visits of a piece range, and the bytes of result records
(R146, R151 to R155, R166 to R168, R193). -/

namespace Sys2Proof.Machine

/-! ### Spans (R152 to R154) -/

/-- The length used for a piece on a span: its own, or the axis length of the span where it has none (R152). -/
def spanLength (length : Option Nat) (near far : Int) : Int :=
  match length with
  | some n => (n : Int)
  | none => far - near

/-- The map through a birth span; an open one ends at the shear point of its line's axis (R152, R153). -/
def State.birthMap (s : State) (length : Option Nat) (b : BirthSpan) : SpanMap :=
  let far := match b.stop with
    | some x => (x : Int)
    | none => (s.line b.line).position (s.line b.line).entry.shear
  { line := b.line, near := b.start, far := far, len := spanLength length b.start far, turned := false,
    isOpen := b.stop.isNone, est := b.est }

/-- The map through a use span; a FEEDING one ends at its line's axis (R152, R154). -/
def State.useMap (s : State) (length : Option Nat) (u : UseSpan) : SpanMap :=
  let far := match u.stop with
    | some x => (x : Int)
    | none => ((s.line u.line).axis : Int)
  { line := u.line, near := u.start, far := far, len := spanLength length u.start far, turned := u.dir == .reversed,
    isOpen := u.stop.isNone, est := u.est }

/-- A closed span without axis length, or a span of a piece of length 0, holds no material (R152). So does, which the rule does not say, an
open span whose far end lies below its near end, of a piece without a length: its axis length is negative (log 22). -/
def SpanMap.empty (m : SpanMap) : Bool := (!m.isOpen && decide (m.far ≤ m.near)) || decide (m.len ≤ 0)

/-- An axis position carried onto the piece (R153, R154). -/
def SpanMap.toPos (m : SpanMap) (a : Int) : Int :=
  let d := if m.isOpen then a - m.near else ((a - m.near) * m.len).tdiv (m.far - m.near)
  if m.turned then m.len - d else d

/-- A position of the piece carried onto the axis (R153, R154). -/
def SpanMap.toAxis (m : SpanMap) (p : Int) : Int :=
  let q := if m.turned then m.len - p else p
  if m.isOpen then m.near + q else m.near + (q * (m.far - m.near)).tdiv m.len

/-- Two ends, lower first. -/
def ordered (a b : Int) : Int × Int := (min a b, max a b)

/-- A position on a piece carried through a chain back to Q, from the deepest link to the shallowest (R155). -/
def throughChain (chain : List ChainLink) (p : Int) : Int :=
  chain.foldl (fun p k => k.birthMap.toPos (k.useMap.toAxis p)) p

/-- An axis position of a visit carried back to Q (R155). -/
def Visit.toQ (v : Visit) (a : Int) : Int := throughChain v.range.chain (v.span.toPos a)

/-- A stretch of a visit's axis carried back to Q, lower first. -/
def Visit.stretch (v : Visit) (a b : Int) : Int × Int := ordered (v.toQ a) (v.toQ b)

/-- The result position of a bin from `a` to `b` (R155): lowered to q1 - 1 first and raised to q0 last, which settles the place in a run
whose Q range a truncation has left empty (log 22). -/
def Visit.place (v : Visit) (a b : Int) : Int := max v.range.q0 (min (v.stretch a b).1 (v.range.q1 - 1))

/-- The visit of a range through a span, if it holds material (R151). -/
def visitOf (r : Range) (m : SpanMap) (turned : Bool) : Option Visit :=
  let a := ordered (m.toAxis r.p0) (m.toAxis r.p1)
  if m.empty || decide (a.2 ≤ a.1) then none
  else some { range := r, span := m, a0 := a.1, a1 := a.2, turned := turned }

/-- The visits of a range: its birth line, and at depth 0 its use lines, ascending, the birth span first on its line (R151). -/
def Range.visits (r : Range) : List Visit :=
  let all := (r.birth.toList.filterMap fun m => visitOf r m r.turned) ++ r.uses.filterMap fun m => visitOf r m m.turned
  allLines.flatMap fun l => all.filter fun v => decide (v.span.line = l)

/-- The range of Q at depth 0, clipped to its length; nothing where nothing remains (R150, R152). -/
def State.queriedRange (s : State) (ref : PieceRef) (p : PieceRecord) (x0 x1 : Nat) : Option Range :=
  let birth := p.body.birth.map (s.birthMap p.body.length)
  let uses := p.uses.map (s.useMap p.body.length)
  let len : Int := match p.body.length, birth, uses with
    | some n, _, _ => (n : Int)
    | none, some m, _ => m.len
    | none, none, m :: _ => m.len
    | none, none, [] => 0
  let hi := min (x1 : Int) len
  if hi ≤ (x0 : Int) then none
  else some { piece := ref, p0 := x0, p1 := hi, q0 := x0, q1 := hi, turned := false, chain := [], est := false,
              openSpan := false, birth := birth, uses := uses }

/-- The use span on a line whose axis range holds a position (R154). -/
def findUse (us : List UseSpan) (l : LineId) (a : Nat) : Option UseSpan :=
  us.find? fun u => decide (u.line = l) && decide (u.start ≤ a) && (match u.stop with
    | some b => decide (a < b)
    | none => true)

/-! ### Records (Figs. 11.7, 11.8) -/

/-- A position on a piece: 4 bytes. A position below 0 or of more than 32 bits, which a map beyond its span can give, has no encoding in
Fig. 11.1; its bits are a free value (log 13). -/
def encPos (x : Int) : List Byte :=
  if x < 0 ∨ 4294967296 ≤ x then be 4 (Config.strayPosition x).toNat else be 4 x.toNat

/-- Two positions: 8 bytes. -/
def encRange (r : Int × Int) : List Byte := encPos r.1 ++ encPos r.2

def turnedCode (turned : Bool) : Byte := directionCode (if turned then .reversed else .same)

/-- A RUN record. -/
def RunInfo.bytes (r : RunInfo) : List Byte :=
  [1, 28] ++ encLine r.line ++ be 1 r.chan.val ++ be 1 r.depth
    ++ [turnedCode r.turned, bitByte [(r.est, 1), (r.openSpan, 2), (r.joined, 4)]]
    ++ encRef r.source ++ encPos r.q0 ++ encPos r.q1 ++ encAxis r.a0 ++ encAxis r.a1

/-- A BIN record. A bin number outside 40 unsigned bits has no encoding in Fig. 11.1, as such an axis position has none (log 13). -/
def binBytes (pos : Int) (b : BinRec) (num : Int) (pitch : Nat) (gen : Gen) : List Byte :=
  [2, 45] ++ encPos pos ++ beInt 4 b.min ++ beInt 4 b.max ++ beInt 8 b.sum ++ be 4 b.count ++ beInt 4 b.first
    ++ beInt 4 b.last ++ [qualityCode b.quality] ++ encAxis num ++ be 2 pitch ++ be 2 b.offset ++ [gen]

/-- A MARKER record. -/
def Marker.bytes (m : Marker) : List Byte :=
  [3, 24, m.kind.code] ++ be 1 m.depth ++ encOpt 1 encLine m.line ++ encOpt 1 (fun c : ChanId => be 1 c.val) m.channel
    ++ encOpt 1 (fun n : Nat => be 1 n) m.strand
    ++ [match m.list with
        | none => 0
        | some k => listKindCode k]
    ++ encOpt 3 encRef m.ref ++ encOpt 8 encRange m.range

/-- A NODE record of a readable piece (R146). -/
def nodeBytes (ref : PieceRef) (st : PieceState) (p : PieceRecord) (depth : Nat) : List Byte :=
  [4, 30] ++ encRef ref ++ p.id.tag ++ [encPieceKind p.id.kind, st.code]
    ++ encOpt 4 (fun n : Nat => be 4 n) p.body.length ++ [encPieceFlags p.id.flags false] ++ be 1 depth

/-- A NODE record whose piece reads DAMAGED, or is stale (R146, R193). -/
def bareNodeBytes (ref : PieceRef) (state flags : Byte) (depth : Nat) : List Byte :=
  [4, 30] ++ encRef ref ++ List.replicate 16 0 ++ [0, state] ++ List.replicate 5 0 ++ [flags] ++ be 1 depth

/-- An EDGE record (R146). -/
def edgeBytes (g : Segment) (child parent : Option (Int × Int)) (dir : Direction) (est : Bool) : List Byte :=
  [5, 30] ++ encRef g.child ++ encRef g.parent ++ encLine g.line ++ be 1 g.strand ++ encOpt 8 encRange child
    ++ encOpt 8 encRange parent ++ [directionCode dir] ++ encBool est

/-! ### Re-binning (R168) -/

/-- A sum kept within the signed 64-bit limits. -/
def satSum (x : Int) : Int := max (-9223372036854775808) (min x 9223372036854775807)

/-- An output bin opened by its first source at result position `pos`. -/
def openHeld (num pos : Int) (b : BinRec) (gen : Gen) : HeldBin :=
  let at? : Option Int := if b.count = 0 then none else some pos
  { num := num, low := at?, high := at?, gen := gen,
    data := if b.count = 0 then { quality := b.quality } else { b with offset := 0 } }

/-- A source merged into an output bin (R168). A source with count 0 gives its quality alone. -/
def HeldBin.merge (h : HeldBin) (pos : Int) (b : BinRec) : HeldBin :=
  let q := unionQuality h.data.quality b.quality
  match b.count, h.low, h.high with
  | 0, _, _ => { h with data := { h.data with quality := q } }
  | _, some lo, some hi =>
    { h with
      low := some (min lo pos), high := some (max hi pos),
      data := { min := min h.data.min b.min, max := max h.data.max b.max, sum := satSum (h.data.sum + b.sum),
                count := sat h.data.count b.count, first := if pos < lo then b.first else h.data.first,
                last := if hi ≤ pos then b.last else h.data.last, offset := 0, quality := q } }
  | _, _, _ => { h with low := some pos, high := some pos, data := { b with offset := 0, quality := q } }

end Sys2Proof.Machine
end

