-- ==== Sys2Proof/Machine/Assembly.lean ====
section
/-! DEFINITION. The assembly engine: result pages, the trend and genealogy walks, and their store reads (R136 to R138, R145,
R146, R150, R151, R156 to R168). -/

namespace Sys2Proof.Machine

/-! ### The engine's own state -/

/-- The engine at work; one without tasks where it is idle. -/
def State.eng (s : State) : Engine := s.pbk.engine.getD { ctx := 0, tasks := [] }

/-- The context the engine works on. -/
def State.working (s : State) : Context := s.context s.eng.ctx

/-- Changes the engine at work. -/
def State.updEngine (s : State) (f : Engine → Engine) : State :=
  s.updPbk fun k => { k with engine := k.engine.map f }

/-- Changes the context the engine works on. -/
def State.updWorking (s : State) (f : Context → Context) : State := s.updContext s.eng.ctx f

/-- Puts tasks in front of those the engine still has. -/
def State.pushTasks (s : State) (ts : List Task) : State := s.updEngine fun e => { e with tasks := ts ++ e.tasks }

/-- The range start, range end and resolution of a trend query. -/
def Context.trend (c : Context) : Nat × Nat × Nat :=
  match c.query with
  | some (.trend x0 x1 _ _ res) => (x0, x1, res)
  | _ => (0, 0, 0)

/-- The depth a query asks for. -/
def Context.depthAsked (c : Context) : Nat :=
  match c.query with
  | some (.trend _ _ _ depth _) => depth
  | some (.genealogy _ depth) => depth
  | none => 0

/-- Whether a query is a genealogy query. -/
def Context.isGenealogy (c : Context) : Bool :=
  match c.query with
  | some (.genealogy _ _) => true
  | _ => false

/-- The list a genealogy query walks: the parent-link list for ANCESTORS, the child-link list for DESCENDANTS (R145). -/
def Context.walks (c : Context) : ListKind :=
  match c.query with
  | some (.genealogy false _) => .child
  | _ => .parent

/-- The context at work gains OPEN_SPAN where an open span was mapped through (R152). -/
def State.markOpen (s : State) (isOpen : Bool) : State :=
  if isOpen then s.updWorking fun c => { c with openSpan := true } else s

/-! ### Result pages (R138) -/

/-- A page is taken for a record, unless the context holds 256 or the pool is empty; it is zero beyond the record (R138, R193). -/
def State.newPage (s : State) (bs : List Byte) : Bool × State :=
  if Config.pagesPerContext ≤ s.working.pages.length then (false, s)
  else
    match s.pbk.freePages.pop with
    | none => (false, s)
    | some (p, rest) =>
      let base := p * Config.pageBytes
      let s := s.updWorking fun c => { c with pages := c.pages ++ [p] }
      let s := s.updPbk fun k =>
        { k with freePages := rest,
                 pages := putBytes (Sparse.clearRange base (base + Config.pageBytes) k.pages) base bs }
      (true, s.updEngine fun e => { e with fill := bs.length })

/-- A record is written whole into the current page, or into a new one; says whether there was room (R138). -/
def State.putRecord (s : State) (bs : List Byte) : Bool × State :=
  match s.working.pages.getLast? with
  | none => s.newPage bs
  | some p =>
    let fill := s.eng.fill
    if fill + bs.length ≤ Config.pageBytes then
      (true, (s.updPbk fun k => { k with pages := putBytes k.pages (p * Config.pageBytes + fill) bs }).updEngine
        fun e => { e with fill := fill + bs.length })
    else s.newPage bs

/-- Want of pages ends the walk: the context gains TRUNCATED (R138). -/
def State.truncate (s : State) : State :=
  (s.updWorking fun c => { c with truncated := true }).updEngine fun e => { e with tasks := [], held := none }

/-- A record outside a run, such as a walk marker, a NODE or an EDGE (R138). It has no result position, and lowers no run (R166, log 22). -/
def State.emitRecord (s : State) (bs : List Byte) : Bool × State :=
  match s.putRecord bs with
  | (true, s) => (true, s)
  | (false, s) => (false, s.truncate)

/-- The last RUN record is written again in place (R166, R167). -/
def State.rewriteRun (s : State) (r : RunInfo) : State :=
  (s.updPbk fun k => { k with pages := putBytes k.pages (r.page * Config.pageBytes + r.offset) r.bytes }).updEngine
    fun e => { e with lastRun := some r }

/-- The last RUN record claims no Q positions from `pos` on (R166). Which records have a position to lower it to is log 22's. -/
def State.lowerRun (s : State) (pos : Int) : State :=
  match s.eng.lastRun with
  | some r => if pos < r.q1 then s.rewriteRun { r with q1 := pos } else s
  | none => s

/-- A record of a run, at result position `pos`: where it does not fit, the run's end is lowered to it (R166). -/
def State.emitInRun (s : State) (pos : Int) (bs : List Byte) : Bool × State :=
  match s.putRecord bs with
  | (true, s) => (true, s)
  | (false, s) => (false, (s.lowerRun pos).truncate)

/-- The held output bin is closed and emitted (R168). -/
def State.flushHeld (s : State) : Bool × State :=
  match s.eng.held with
  | none => (true, s)
  | some h =>
    let (x0, _, res) := s.working.trend
    let pos : Int := (x0 : Int) + h.num * (res : Int)
    (s.updEngine fun e => { e with held := none }).emitInRun pos (binBytes pos h.data h.num 0 h.gen)

/-- Emits a walk marker in its own place (R166). -/
def State.emitMarker (s : State) (m : Marker) : Bool × State :=
  match s.flushHeld with
  | (true, s) => (s.updEngine fun e => { e with joinable := false }).emitRecord m.bytes
  | (false, s) => (false, s)

/-- Emits an in-run marker (R165, R168). Its result position, for R166, is the lower end of its range (log 22). -/
def State.emitRunMarker (s : State) (m : Marker) : Bool × State :=
  match s.flushHeld with
  | (true, s) => s.emitInRun ((m.range.map Prod.fst).getD 0) m.bytes
  | (false, s) => (false, s)

/-- A source bin at result position `pos` is emitted, or goes to its output bin, whose number is a quotient truncated toward
zero (R168, 00 section 0.9.2): a position below the range's start, which a map's own truncation can give, has one too. -/
def State.emitBin (s : State) (pos : Int) (b : BinRec) (num pitch : Nat) (gen : Gen) : Bool × State :=
  let (x0, _, res) := s.working.trend
  if res = 0 then s.emitInRun pos (binBytes pos b num pitch gen)
  else
    let k := (pos - (x0 : Int)).tdiv res
    let fresh (s : State) : State := s.updEngine fun e => { e with held := some (openHeld k pos b gen) }
    match s.eng.held with
    | none => (true, fresh s)
    | some h =>
      if h.num = k then (true, s.updEngine fun e => { e with held := some (h.merge pos b) })
      else
        match s.flushHeld with
        | (true, s) => (true, fresh s)
        | (false, s) => (false, s)

/-! ### Runs (R166, R167) -/

/-- The RUN record of a visit for one channel; its place is filled in when it is written. -/
def Visit.run (v : Visit) (c : ChanId) : RunInfo :=
  { page := 0, offset := 0, line := v.span.line, chan := c, depth := v.range.chain.length, turned := v.turned,
    source := v.range.piece, lastSource := v.range.piece, q0 := v.range.q0, q1 := v.range.q1, a0 := v.a0, a1 := v.a1,
    est := v.range.est, openSpan := v.range.openSpan || v.span.isOpen, joined := false }

/-- Whether a run continues the one before it (R167). -/
def RunInfo.continues (r before : RunInfo) : Bool :=
  decide (r.line = before.line) && decide (r.chan = before.chan) && decide (r.depth = before.depth)
    && decide (r.turned = before.turned) && decide (r.q0 = before.q1)
    && (if r.turned then decide (r.a1 = before.a0) else decide (r.a0 = before.a1))

/-- A run extended by the one that continues it (R167). -/
def RunInfo.extend (before r : RunInfo) : RunInfo :=
  { before with
    q1 := r.q1, a0 := min before.a0 r.a0, a1 := max before.a1 r.a1, est := before.est || r.est,
    openSpan := before.openSpan || r.openSpan, joined := before.joined || decide (r.source ≠ before.lastSource),
    lastSource := r.source }

/-- Opens a run with a RUN record of its own (R166). -/
def State.openRun (s : State) (r : RunInfo) : Bool × State :=
  match s.flushHeld with
  | (false, s) => (false, s)
  | (true, s) =>
    match s.emitRecord r.bytes with
    | (false, s) => (false, s)
    | (true, s) =>
      let r := { r with page := s.working.pages.getLast?.getD 0, offset := s.eng.fill - 28 }
      (true, s.updEngine fun e => { e with lastRun := some r, joinable := true })

/-- Emits a run: joined to the one just before it, or opened (R166, R167). -/
def State.emitRun (s : State) (r : RunInfo) : Bool × State :=
  match s.eng.lastRun with
  | some before =>
    if s.eng.joinable && r.continues before then (true, s.rewriteRun (before.extend r)) else s.openRun r
  | none => s.openRun r

/-! ### Reading channels and blocks (R118, R164, R165) -/

/-- A marker in a run, over an axis stretch of a visit (R164). -/
def Visit.marker (v : Visit) (c : ChanId) (kind : MarkerKind) (a b : Int) : Marker :=
  { kind := kind, depth := v.range.chain.length, line := some v.span.line, channel := some c,
    range := some (v.stretch a b) }

/-- A listed block as the directory search finds it: its entry, or unreadable. -/
structure Listed where
  block : Nat
  entry : Option DirEntry
deriving DecidableEq, Repr

/-- The end of a block's axis range (R110). -/
def blockEnd (e : DirEntry) : Nat := e.firstAxis + Config.binsPerBlock * e.pitch

/-- Reads the directory entries of a channel's listed blocks, in order (R126, R164). -/
def State.searchDir (s : State) : List Nat → List Listed × State
  | [] => ([], s)
  | b :: bs =>
    let (e, s) := s.readDirEntry b
    let (rest, s) := s.searchDir bs
    (⟨b, e⟩ :: rest, s)

/-- What the listed blocks give on a visit, in ascending axis: reads of blocks, and DAMAGED markers for unreadable ones,
each from the end of the readable block before it to the start of the readable block after it, cut to the visit (R126,
R164, log 17). `prev` is the end of the block before, `last` the channel's frontier. -/
def Visit.tasksOf (v : Visit) (c : ChanId) (lo : Int) (prev : Int) (last : Int) : List Listed → List Task
  | [] => []
  | ⟨b, some e⟩ :: rest =>
    let ts := v.tasksOf c lo (blockEnd e) last rest
    if (max lo e.firstAxis) < min v.a1 (blockEnd e) then .askBlock v c b (e.firstAxis / e.pitch) e :: ts else ts
  | ⟨_, none⟩ :: rest =>
    let ts := v.tasksOf c lo prev last rest
    let next : Int := match rest.find? fun x => x.entry.isSome with
      | some { block := _, entry := some e } => e.firstAxis
      | _ => last
    let a := max lo prev
    let b := min v.a1 next
    if a < b then .runMarker (v.marker c .damaged a b) :: ts else ts

/-- A visit reads one channel: its horizon and its directory are asked for, the run is opened, and its reads and markers
stand in reading order (R164 to R166). -/
def State.answerChannel (s : State) (v : Visit) (c : ChanId) : State :=
  if (s.chan c).on v.span.line then
    let (h, s) := s.chanHorizon c v.span.line
    let (listed, s) := s.searchDir (s.chanStore c).dir
    let last : Int := (s.chan c).frontier.getD (s.line v.span.line).axis
    let lo := max v.a0 (h : Int)
    let below : List Task :=
      if v.a0 < min (h : Int) v.a1 then [.runMarker (v.marker c .reclaimed v.a0 (min (h : Int) v.a1))] else []
    let all := below ++ v.tasksOf c lo h last listed
    match s.emitRun (v.run c) with
    | (true, s) => s.pushTasks (if v.turned then all.reverse else all)
    | (false, s) => s
  else s

/-- A slot of a block as PBK reads it: nothing where it is empty, DAMAGED alone where it fails (R124). -/
def slotOf : Option Cell → Option BinRec
  | none => some { quality := { damaged := true } }
  | some (.bin b) => if b.count = 0 ∧ b.quality = {} then none else some b
  | some _ => none

/-- Emits the bins of the slots of a block, in the order given (R165). Where a record finds no page the walk ends (R138), and the slots
left are not read (log 16). -/
def State.emitSlots (s : State) (v : Visit) (block first pitch : Nat) (gen : Gen) : List Nat → State
  | [] => s
  | k :: ks =>
    let (cell, s) := s.read (slotAddr block k)
    match slotOf cell with
    | none => s.emitSlots v block first pitch gen ks
    | some b =>
      let a : Int := ((first + k) * pitch : Nat)
      match s.emitBin (v.place a (a + pitch)) b (first + k) pitch gen with
      | (true, s) => s.emitSlots v block first pitch gen ks
      | (false, s) => s

/-- The slots whose bins overlap a visit, in reading order (R165). -/
def Visit.slots (v : Visit) (first pitch : Nat) : List Nat :=
  let ks := (List.range Config.binsPerBlock).filter fun k =>
    decide (v.a0 < (((first + k + 1) * pitch : Nat) : Int)) && decide ((((first + k) * pitch : Nat) : Int) < v.a1)
  if v.turned then ks.reverse else ks

/-- Whether a block is still listed for a channel at the first bin number a read expects (R118). -/
def State.stillLists (s : State) (c : ChanId) (block first : Nat) : Bool :=
  (s.chanStore c).dir.contains block && (s.blockInfo block).firstBin == first

/-- The first bin number, pitch and generation of a block being read: its header's, or, where that fails, those of its directory entry and
an open generation (R126, log 13). -/
def State.blockHead (s : State) (block first pitch : Nat) : (Nat × Nat × Gen) × State :=
  match s.readHeader block with
  | (some h, s) => ((h.firstBin, h.pitch, h.gen), s)
  | (none, s) => ((first, pitch, Config.lostGeneration block), s)

/-- A read of a trend block (R118, R126, R164). -/
def State.answerBlock (s : State) (v : Visit) (c : ChanId) (block first : Nat) (e : DirEntry) : State :=
  if s.stillLists c block first then
    let ((first, pitch, gen), s) := s.blockHead block first e.pitch
    s.emitSlots v block first pitch gen (v.slots first pitch)
  else (s.emitRunMarker (v.marker c .reclaimed (max v.a0 e.firstAxis) (min v.a1 (blockEnd e)))).2

/-! ### The trend walk (R150, R156 to R158) -/

/-- Places an item in the depth being built (R156). -/
def State.build (s : State) (i : Item) : State := s.updEngine fun e => { e with built := e.built ++ [i] }

/-- A walk marker without the line of a segment (R150, R156). -/
def plainMarker (kind : MarkerKind) (depth : Nat) (ref : PieceRef) (q0 q1 : Int) : Marker :=
  { kind := kind, depth := depth, ref := some ref, range := some (q0, q1) }

/-- The records of a piece range: each visit, with the channels of the selection (R151, R166). -/
def State.expandRange (s : State) (r : Range) : State :=
  let vs := r.visits
  let s := s.markOpen (vs.any fun v => v.span.isOpen)
  s.pushTasks (vs.map fun v => .channels v s.eng.chans)

/-- A visit turns to its next channel: the first of those left whose entry is valid and names the visit's line as the visit comes
to it (R164). -/
def State.nextChannel (s : State) (v : Visit) : List ChanId → State
  | [] => s
  | c :: cs => if (s.chan c).on v.span.line then s.pushTasks [.askChannel v c, .channels v cs] else s.nextChannel v cs

/-- The read of a piece range's record before its list is walked (R156). -/
def State.answerRange (s : State) (r : Range) : State :=
  let depth := r.chain.length + 1
  if s.isCurrent r.piece then
    match s.readRecord r.piece.idx with
    | (none, s) => s.build (.marker (plainMarker .damagedRecord depth r.piece r.q0 r.q1))
    | (some p, s) =>
      match p.body.birth with
      | none => s
      | some b =>
        let m := s.birthMap p.body.length b
        let a := ordered (m.toAxis r.p0) (m.toAxis r.p1)
        let s := s.markOpen m.isOpen
        if p.parents.count = 0 then s
        else s.pushTasks [.group { owner := r.piece, kind := .parent, goal := .trend r m a.1 a.2 } 0 p.parents.first]
  else s.build (.marker (plainMarker .retired depth r.piece r.q0 r.q1))

/-- An axis position on the birth line of a range being walked, carried back to Q (R156). -/
def Range.axisToQ (r : Range) (birth : SpanMap) (a : Int) : Int := throughChain r.chain (birth.toPos a)

/-- The overlap of a segment with the axis range walked, and the Q range it stands for (R156). -/
def segmentOverlap (r : Range) (birth : SpanMap) (a0 a1 : Int) (g : Segment) : Option ((Int × Int) × (Int × Int)) :=
  let lo := max a0 (g.start : Int)
  let hi := min a1 (g.stop : Int)
  if birth.empty || decide (hi ≤ lo) then none
  else some ((lo, hi), ordered (r.axisToQ birth lo) (r.axisToQ birth hi))

/-- A walk marker for a segment, on the segment's line (R157). -/
def segmentMarker (kind : MarkerKind) (r : Range) (line : LineId) (ref : Option PieceRef) (q : Int × Int) : Marker :=
  { kind := kind, depth := r.chain.length + 1, line := some line, ref := ref, range := some q }

/-- A LINK_STALE marker of a trend walk: it names the piece whose list was walked, over the Q range given; its line is the
segment's, or, where no segment was read, the birth line, on which every segment of the list lies (R157, log 18). -/
def trendStale (w : ListWalk) (r : Range) (line : LineId) (q : Int × Int) : Marker :=
  { kind := .linkStale, depth := r.chain.length + 1, line := some line, list := some w.kind, ref := some w.owner,
    range := some q }

/-- The piece range a readable parent gives (R155, R156). -/
def State.parentRange (s : State) (r : Range) (birth : SpanMap) (g : Segment) (p : PieceRecord) (m : SpanMap)
    (a q : Int × Int) : Range :=
  let pos := ordered (m.toPos a.1) (m.toPos a.2)
  { piece := g.parent, p0 := pos.1, p1 := pos.2, q0 := q.1, q1 := q.2, turned := r.turned != m.turned,
    chain := { useMap := m, birthMap := birth } :: r.chain, est := r.est || g.est || m.est || birth.est,
    openSpan := r.openSpan || m.isOpen || birth.isOpen, birth := p.body.birth.map (s.birthMap p.body.length), uses := [] }

/-- A segment met by a trend walk: passed over, answered by a marker, or its parent's record asked for (R156, R157). -/
def State.takeTrend (s : State) (w : ListWalk) (r : Range) (birth : SpanMap) (a0 a1 : Int) (g : Segment) : State :=
  match segmentOverlap r birth a0 a1 g with
  | none => s
  | some (_, q) =>
    if g.parent.idx = 0 then s.build (.marker (segmentMarker .orphan r g.line none q))
    else if s.isCurrent g.parent then s.pushTasks [.askFar w g]
    else s.build (.marker (segmentMarker .retired r g.line (some g.parent) q))

/-- The read of a parent's record by a trend walk (R156, R157). -/
def State.answerParent (s : State) (w : ListWalk) (r : Range) (birth : SpanMap) (a0 a1 : Int) (g : Segment) : State :=
  match segmentOverlap r birth a0 a1 g with
  | none => s
  | some (a, q) =>
    if s.isCurrent g.parent then
      match s.readRecord g.parent.idx with
      | (none, s) => s.build (.marker (segmentMarker .damagedRecord r g.line (some g.parent) q))
      | (some p, s) =>
        if p.id.kind = .external then s.build (.marker (segmentMarker .external r g.line (some g.parent) q))
        else
          match findUse p.uses g.line g.start with
          | none => s.build (.marker (trendStale w r g.line q))
          | some u =>
            let m := s.useMap p.body.length u
            if m.empty then s
            else (s.markOpen (m.isOpen || birth.isOpen)).build (.range (s.parentRange r birth g p m a q))
    else s.build (.marker (segmentMarker .retired r g.line (some g.parent) q))

/-! ### The genealogy walk (R145, R146) -/

/-- A NODE is emitted for a piece not yet emitted as one; says whether the walk goes on (R145). -/
def State.emitNode (s : State) (ref : PieceRef) (p : Option PieceRecord) (depth : Nat) : Bool × State :=
  if s.eng.nodes.any fun n => decide (n.1 = ref) then (true, s)
  else
    let s := s.updEngine fun e => { e with nodes := e.nodes ++ [(ref, depth)] }
    s.emitRecord (match p with
      | some p => nodeBytes ref (s.pieceDir ref.idx).state p depth
      | none => bareNodeBytes ref 0 (encPieceFlags {} true) depth)

/-- A segment's axis range carried onto a piece through a span, lower first (R146). -/
def SpanMap.segment (m : SpanMap) (g : Segment) : Int × Int := ordered (m.toPos g.start) (m.toPos g.stop)

/-- A genealogy marker for a segment (R146). Its depth, which the rules leave open, is that of the piece it stands for: one more than the
node's (log 18). -/
def edgeMarker (kind : MarkerKind) (n : Node) (g : Segment) (ref : Option PieceRef) (list : Option ListKind)
    (child : Option (Int × Int)) : Marker :=
  { kind := kind, depth := n.depth + 1, line := some g.line, strand := some g.strand, list := list, ref := ref,
    range := child }

/-- A LINK_STALE marker of a genealogy walk for a reference or group that gives no segment (R146). -/
def nodeStale (w : ListWalk) (n : Node) : Marker :=
  { kind := .linkStale, depth := n.depth + 1, list := some w.kind, ref := some w.owner }

/-- The read of a node's record before its list is walked (R145, log 16). -/
def State.answerNode (s : State) (ref : PieceRef) (depth : Nat) : State :=
  if s.isCurrent ref then
    match s.readRecord ref.idx with
    | (none, s) => s
    | (some p, s) =>
      let kind := s.working.walks
      let list := match kind with
        | .parent => p.parents
        | .child => p.children
      if list.count = 0 ∨ (kind = .parent ∧ p.id.kind = .external) then s
      else
        let n : Node :=
          { ref := ref, birth := p.body.birth.map (s.birthMap p.body.length), uses := p.uses.map (s.useMap p.body.length),
            useSpans := p.uses, depth := depth }
        s.pushTasks [.group { owner := ref, kind := kind, goal := .genealogy n } 0 list.first]
  else (s.emitMarker { kind := .retired, depth := depth + 1, ref := some ref }).2

/-- The near end of a segment, seen from the list walked. -/
def nearEnd : ListKind → Segment → PieceRef
  | .parent, g => g.child
  | .child, g => g.parent

/-- The child position range known before the far end is read: on an ANCESTORS walk the node is the child (R146). -/
def Node.childRange (n : Node) (kind : ListKind) (g : Segment) : Option (Int × Int) :=
  match kind with
  | .parent => n.birth.map fun m => m.segment g
  | .child => none

/-- Whether the child's span of a segment met on an ANCESTORS walk is open. -/
def Node.childOpen (n : Node) (kind : ListKind) : Bool :=
  match kind, n.birth with
  | .parent, some m => m.isOpen
  | _, _ => false

/-- A segment met by a genealogy walk: a marker, or the far end's record is asked for (R145, R146). -/
def State.takeEdge (s : State) (w : ListWalk) (n : Node) (g : Segment) : State :=
  let far := farEnd w.kind g
  if s.isCurrent far then s.pushTasks [.askFar w g]
  else
    let s := s.markOpen (n.childOpen w.kind)
    if far.idx = 0 then (s.emitMarker (edgeMarker .orphan n g none none (n.childRange w.kind g))).2
    else (s.emitMarker (edgeMarker .retired n g (some far) none (n.childRange w.kind g))).2

/-- One end of an EDGE: its position range, whether its span is open, whether it is estimated, and its direction. -/
structure EdgeEnd where
  range : Option (Int × Int)
  isOpen : Bool
  est : Bool
  dir : Direction
deriving DecidableEq, Repr

/-- The child end of an EDGE, through the child's birth span; absent where the child reads DAMAGED (R146). -/
def childEnd (birth : Option SpanMap) (g : Segment) : EdgeEnd :=
  match birth with
  | some m => { range := some (m.segment g), isOpen := m.isOpen, est := m.est, dir := .same }
  | none => { range := none, isOpen := false, est := false, dir := .same }

/-- The parent end of an EDGE, through its use span; none where a readable parent has no such span. The direction of an
EDGE whose parent reads DAMAGED is open (R146, log 13). -/
def State.parentEnd (s : State) (length : Option Nat) (uses : Option (List UseSpan)) (g : Segment) : Option EdgeEnd :=
  match uses with
  | none => some { range := none, isOpen := false, est := false, dir := Config.lostDirection g.child g.parent }
  | some us =>
    (findUse us g.line g.start).map fun u =>
      { range := some ((s.useMap length u).segment g), isOpen := u.stop.isNone, est := u.est, dir := u.dir }

/-- An EDGE record and the NODE that may follow it (R145, R146). -/
def State.emitEdge (s : State) (n : Node) (g : Segment) (c p : EdgeEnd) (far : PieceRef) (rec? : Option PieceRecord) : State :=
  let s := s.markOpen (c.isOpen || p.isOpen)
  match s.emitRecord (edgeBytes g c.range p.range p.dir (g.est || c.est || p.est)) with
  | (true, s) => (s.emitNode far rec? (n.depth + 1)).2
  | (false, s) => s

/-- The node's own use spans as an end of an EDGE, in the maps made when the node was read (R146). -/
def Node.parentEnd (n : Node) (g : Segment) : Option EdgeEnd :=
  ((n.useSpans.zip n.uses).find? fun u => (findUse [u.1] g.line g.start).isSome).map fun u =>
    { range := some (u.2.segment g), isOpen := u.2.isOpen, est := u.2.est, dir := u.1.dir }

/-- The read of the far end of a segment by a genealogy walk (R145, R146). -/
def State.answerEdge (s : State) (w : ListWalk) (n : Node) (g : Segment) : State :=
  let far := farEnd w.kind g
  if s.isCurrent far then
    let (r, s) := s.readRecord far.idx
    let c := match w.kind with
      | .parent => childEnd n.birth g
      | .child => childEnd (r.bind fun p => p.body.birth.map (s.birthMap p.body.length)) g
    let p := match w.kind with
      | .parent => s.parentEnd (r.bind fun p => p.body.length) (r.map fun p => p.uses) g
      | .child => n.parentEnd g
    match p with
    | some p => s.emitEdge n g c p far r
    | none => ((s.markOpen c.isOpen).emitMarker (edgeMarker .linkStale n g (some w.owner) (some w.kind) c.range)).2
  else ((s.markOpen (n.childOpen w.kind)).emitMarker (edgeMarker .retired n g (some far) none (n.childRange w.kind g))).2

/-- The LINK_STALE marker of a genealogy walk for a bad reference whose segment reads: it names the node and its list, with the
line and strand of that segment and, where the child reads, its range on the child (R146, log 18). -/
def State.emitBad (s : State) (w : ListWalk) (n : Node) (g : Segment) (c : EdgeEnd) : State :=
  ((s.markOpen c.isOpen).emitMarker (edgeMarker .linkStale n g (some w.owner) (some w.kind) c.range)).2

/-- A bad reference met by a genealogy walk: where the segment's child is the node itself its span is known, and the record of
any other current child is asked for (R146, log 18). -/
def State.takeBad (s : State) (w : ListWalk) (n : Node) (g : Segment) : State :=
  if g.child = n.ref then s.emitBad w n g (childEnd n.birth g)
  else if s.isCurrent g.child then s.pushTasks [.askChild w n g]
  else s.emitBad w n g (childEnd none g)

/-- The read of the child that a bad reference's segment names (R146). -/
def State.answerChild (s : State) (w : ListWalk) (n : Node) (g : Segment) : State :=
  if s.isCurrent g.child then
    let (r, s) := s.readRecord g.child.idx
    s.emitBad w n g (childEnd (r.bind fun p => p.body.birth.map (s.birthMap p.body.length)) g)
  else s.emitBad w n g (childEnd none g)

/-! ### Link groups (R160, R161) -/

/-- A LINK_STALE marker for a slot or a whole group of a list that gives no segment (R146, R157, R161). -/
def State.stale (s : State) (w : ListWalk) : State :=
  match w.goal with
  | .trend r birth _ _ => s.build (.marker (trendStale w r birth.line (r.q0, r.q1)))
  | .genealogy n => (s.emitMarker (nodeStale w n)).2

/-- Uses the outcome of one slot (R156, R146, R157). -/
def State.takeGot (s : State) (w : ListWalk) (x : Got) : State :=
  match x, w.goal with
  | .seg g, .trend r birth a0 a1 => s.takeTrend w r birth a0 a1 g
  | .seg g, .genealogy n => s.takeEdge w n g
  | .bad (some g), .trend r _ _ _ => s.build (.marker (trendStale w r g.line (r.q0, r.q1)))
  | .bad (some g), .genealogy n => s.takeBad w n g
  | _, _ => s.stale w

/-- Looks a group up in the Segment Cache: a hit serves it, a miss asks STC for it (R161). -/
def State.lookupGroup (s : State) (w : ListWalk) (pos num : Nat) : State :=
  match s.cacheHit w.owner w.kind pos with
  | (some e, s) =>
    s.pushTasks [.slots { walk := w, pos := pos, num := e.num, slots := e.slots, next := e.next, second := false,
                          cached := true, dropped := false } e.slots []]
  | (none, s) => s.pushTasks [.askGroup w pos num false false]

/-- A group is discarded from the cache and read once more (R161). -/
def State.refetch (s : State) (w : ListWalk) (pos num : Nat) : State :=
  let s := s.updPbk fun k => { k with cache := k.cache.filter fun e => !e.hasKey w.owner w.kind pos }
  (s.countPbk fun c => { c with cacheRefetches := sat c.cacheRefetches 1 }).pushTasks [.askGroup w pos num true false]

/-- The read of a link group (R124, R161). A group that reads poisoned ends the walk of its list at once. -/
def State.answerGroup (s : State) (w : ListWalk) (pos num : Nat) (second dropped : Bool) : State :=
  match s.read (groupAddr num) with
  | (none, s) => s.stale w
  | (some (.group g), s) =>
    if g.owner = w.owner ∧ g.kind = w.kind ∧ g.pos = pos then
      s.pushTasks [.slots { walk := w, pos := pos, num := num, slots := g.slots, next := g.next, second := second,
                            cached := false, dropped := dropped } g.slots []]
    else if second then s.stale w else s.refetch w pos num
  | (some _, s) => if second then s.stale w else s.refetch w pos num

/-- Whether an outcome is a bad reference (R161). -/
def Got.isBad : Got → Bool
  | .bad _ => true
  | _ => false

/-- Every slot of a group is read. A group that holds a bad reference on its first reading is read once more. Else it is entered in the
cache where it passed and no drop reached it, each slot's outcome is used, and the next group follows (R161, R162). -/
def State.groupDone (s : State) (g : GroupWalk) (got : List Got) : State :=
  if !g.second && got.any Got.isBad then s.refetch g.walk g.pos g.num
  else
    let s := if g.cached || g.dropped || got.any Got.isBad then s
      else s.cacheEnter { owner := g.walk.owner, kind := g.walk.kind, pos := g.pos, num := g.num, slots := g.slots,
                          next := g.next }
    s.pushTasks (got.map (Task.take g.walk) ++ (match g.next with
      | some n => [.group g.walk (g.pos + 1) n]
      | none => []))

/-- The walk budget is used up: what has been read is still used, and nothing more is read (R145, R158). A reference bad on a first
reading, which the refetch would have judged, gives nothing (R161, log 16). -/
def State.budgetEnds (s : State) (g : GroupWalk) (got : List Got) : State :=
  s.updEngine fun e =>
    { e with budgetOut := true,
             tasks := (got.filter fun x => g.second || !x.isBad).map (Task.take g.walk) ++ [.nextDepth] }

/-- Goes through the slots of a group (R161). -/
def State.nextSlot (s : State) (g : GroupWalk) (todo : List (Option Nat)) (got : List Got) : State :=
  match todo with
  | [] => s.groupDone g got
  | none :: rest => s.pushTasks [.slots g rest got]
  | some n :: rest =>
    if Config.walkBudget ≤ s.working.walkPos then s.budgetEnds g got
    else s.pushTasks [.askSegment g n rest got]

/-- The segment a unit holds. -/
def Cell.segment? : Cell → Option Segment
  | .segment x => some x
  | _ => none

/-- What a slot's segment gives as read, `free` telling what GLU reports of it: a bad reference where it is free, readable or not, or names
another piece on the owner's side; else the segment, or nothing where its unit fails (R124, R161). -/
def ListWalk.judge (w : ListWalk) (free : Bool) (read : Option Cell) : Got :=
  if free then .bad (read.bind Cell.segment?)
  else match read with
    | none => .unread
    | some c =>
      match Cell.segment? c with
      | some x => if nearEnd w.kind x = w.owner then .seg x else .bad (some x)
      | none => .bad none

/-- The read of a segment, counted against the walk budget whatever it gives (R158, R161). -/
def State.answerSegment (s : State) (g : GroupWalk) (n : Nat) (todo : List (Option Nat)) (got : List Got) : State :=
  let s := s.updWorking fun c => { c with walkPos := c.walkPos + 1 }
  let (c, s) := s.read (segmentAddr n)
  s.pushTasks [.slots g todo (got ++ [g.walk.judge (s.glu.freeSegments.holds n) c])]

/-! ### Depths (R145, R150) -/

/-- The piece ranges among the items of a depth. -/
def rangesOf (is : List Item) : List Range :=
  is.filterMap fun i => match i with
    | .range r => some r
    | .marker _ => none

/-- The tasks of a depth of a trend walk: its records, then the walk of its ranges (R150). -/
def depthTasks (is : List Item) (more : Bool) : List Task :=
  is.map Task.emit ++ (if more && !(rangesOf is).isEmpty then (rangesOf is).map Task.askRange ++ [.nextDepth] else [])

/-- Turns to the next depth. After the walk budget no deeper depth is built (R145, R150, R158). -/
def State.turnDepth (s : State) : State :=
  let e := s.eng
  let d := e.depth + 1
  let more := decide (d < s.working.depthAsked) && !e.budgetOut
  let tasks := if s.working.isGenealogy then
      (if more then
        let ns := e.nodes.filter fun n => decide (n.2 = d)
        if ns.isEmpty then [] else ns.map (fun n => Task.askNode n.1 n.2) ++ [.nextDepth]
      else [])
    else depthTasks e.built more
  s.updEngine fun e => { e with depth := d, built := [], tasks := tasks }

/-- The read of the queried piece's record (R145, R150). -/
def State.answerQueried (s : State) : State :=
  let c := s.working
  let ref := c.piece
  let (x0, x1, _) := c.trend
  if s.isCurrent ref then
    match s.readRecord ref.idx with
    | (r, s) =>
      if c.isGenealogy then
        match s.emitNode ref r 0 with
        | (true, s) => if r.isSome then s.pushTasks [.askNode ref 0, .nextDepth] else s
        | (false, s) => s
      else
        match r with
        | none => (s.emitMarker (plainMarker .damagedRecord 0 ref x0 x1)).2
        | some p =>
          match s.queriedRange ref p x0 x1 with
          | none => s
          | some q => s.pushTasks (depthTasks [.range q] (decide (0 < c.depthAsked)))
  else if c.isGenealogy then
    (s.emitRecord (bareNodeBytes ref PieceState.retired.code 0 0)).2
  else (s.emitMarker (plainMarker .retired 0 ref x0 x1)).2

/-! ### The engine's steps (R136, R137) -/

/-- The walk has emitted its last record or ended early: the context enters READY, and the engine is free for the next (R137, R158). -/
def State.finishWalk (s : State) : State :=
  let i := s.eng.ctx
  let s := s.flushHeld.2
  let s := if s.eng.budgetOut then s.updWorking fun c => { c with truncated := true } else s
  (s.enterReady i).updPbk fun k => { k with engine := none }

/-- Whether a task waits for STC. -/
def Task.asks (t : Task) : Bool := (t.read? .noPiece).isSome

/-- Carries out a task, the task itself having left the engine; for one that asks STC, with its answer (R137). -/
def State.doTask (s : State) (t : Task) : State :=
  match t with
  | .askQueried => s.answerQueried
  | .channels v cs => s.nextChannel v cs
  | .emit (.range r) => s.expandRange r
  | .emit (.marker m) => (s.emitMarker m).2
  | .askChannel v c => s.answerChannel v c
  | .runMarker m => (s.emitRunMarker m).2
  | .askBlock v c block first e => s.answerBlock v c block first e
  | .askRange r => s.answerRange r
  | .askNode ref depth => s.answerNode ref depth
  | .group w pos num => s.lookupGroup w pos num
  | .askGroup w pos num second dropped => s.answerGroup w pos num second dropped
  | .slots g todo got => s.nextSlot g todo got
  | .askSegment g seg todo got => s.answerSegment g seg todo got
  | .take w x => s.takeGot w x
  | .askFar w g =>
    (match w.goal with
    | .trend r birth a0 a1 => s.answerParent w r birth a0 a1 g
    | .genealogy n => s.answerEdge w n g)
  | .askChild w n g => s.answerChild w n g
  | .nextDepth => s.turnDepth

/-- The task at the head leaves the engine and is carried out. -/
def State.runHead (s : State) (t : Task) (rest : List Task) : State :=
  (s.updEngine fun e => { e with tasks := rest }).doTask t

/-- The engine works on until it has asked STC for a read, or the walk is over. The bound is above what result memory
lets a walk do between two reads (log 16). -/
def State.runEngine (s : State) : Nat → State
  | 0 => s
  | n + 1 =>
    match s.pbk.engine with
    | none => s
    | some e =>
      match e.tasks with
      | [] => s.finishWalk
      | t :: rest => if t.asks then s else (s.runHead t rest).runEngine n

/-- The bound of one stretch of the engine's work. -/
def engineBound : Nat := 16384

/-- The channels of a selection, ascending, fixed as assembly begins (R150). -/
def State.selected (s : State) (c : Context) : List ChanId :=
  match c.query with
  | some (.trend _ _ (.channels cs) _ _) => allChans.filter fun c => cs.contains c
  | some (.trend _ _ (.lines ls) _ _) => allChans.filter fun c => ls.any fun l => (s.chan c).on l
  | _ => []

/-- The idle engine takes the context at the head of the assembly queue and begins its walk (R136). A stale reference needs no
read, and that walk is over at once (R145, R150). -/
def State.startWalk (s : State) : State :=
  match s.pbk.engine, s.pbk.asmQueue with
  | none, i :: rest =>
    let s := s.updPbk fun k =>
      { k with asmQueue := rest, engine := some { ctx := i, tasks := [.askQueried], chans := s.selected (s.context i) } }
    if s.isCurrent (s.context i).piece then s
    else ((s.updEngine fun e => { e with tasks := [] }).answerQueried).runEngine engineBound
  | _, _ => s

/-- The idle engine takes contexts, at most `n`, until it has one whose walk waits for a read. -/
def State.startWalks (s : State) : Nat → State
  | 0 => s
  | n + 1 => s.startWalk.startWalks n

/-- An idle engine takes the next context, and where that one's walk is over at once, the one behind it, until it works or
the assembly queue is empty (R136, R137, R143). -/
def State.takeNext (s : State) : State := s.startWalks s.pbk.asmQueue.length

/-- A read the engine asked for is answered; when that ends the walk, the engine takes the next context (R136, R137). -/
def State.readAnswered (s : State) : State :=
  match s.pbk.engine with
  | none => s
  | some e =>
    match e.tasks with
    | t :: rest => ((if t.asks then s.runHead t rest else s).runEngine engineBound).takeNext
    | [] => (s.runEngine engineBound).takeNext

/-- STC answers the read of a walk since abandoned: its words are checked, corrected and counted as those of any read, and PBK discards
the answer (R118, R123, R143). It is made in the step that answers it, as a read of a walk is (log 16). -/
def State.answerDiscarded (s : State) : StoreRead → State
  | .record r => if s.isCurrent r then (s.readRecord r.idx).2 else s
  | .channel l c => if (s.chan c).on l then ((s.chanHorizon c l).2.searchDir (s.chanStore c).dir).2 else s
  | .block v c block first pitch =>
    if s.stillLists c block first then
      let ((first, pitch, _), s) := s.blockHead block first pitch
      s.forEach (v.slots first pitch) fun s k => (s.read (slotAddr block k)).2
    else s
  | .cell a => (s.read a).2

/-- Whether PBK assembles: in no reset, or in the drain phase of a warm reset (R147). -/
def State.assembles (s : State) : Bool := s.isRunning || s.phase == .warmDrain

/-- ASSEMBLY_START (R136). -/
def execAssemblyStart (s : State) : Host.Outcome State Fault Refusal :=
  .next (if s.assembles then s.takeNext else s)

/-- STORE_READ_COMPLETE (R137, R143): reads are answered in the order asked, so that those of walks since abandoned come first (log 16). -/
def execStoreReadComplete (s : State) : Host.Outcome State Fault Refusal :=
  .next (match s.pbk.discarded with
    | r :: rest => if s.inColdReset then s else (s.updPbk fun k => { k with discarded := rest }).answerDiscarded r
    | [] => if s.assembles then s.readAnswered else s)

end Sys2Proof.Machine
end

