-- ==== Sys2Proof/Machine/Classify.lean ====
section
/-! DEFINITION. The Frame Classifier: form, origin, line state, sequence, kind and tags, and placing an event (R6 to R12). -/

namespace Sys2Proof.Machine

/-- The header of a process frame (Fig. 11.2). -/
structure ProcessHeader where
  kind : Nat
  origin : BitVec 16
  seq : BitVec 16
deriving DecidableEq, Repr

/-! ### The form check (R6, Fig. 11.2) -/

/-- The pairs of a SAMPLE frame, from pair `i` on. -/
def pairsAt (bs : List Byte) (i : Nat) : Nat → List (Nat × Int)
  | 0 => []
  | n + 1 => (u8At bs (8 + 5 * i), i32At bs (9 + 5 * i)) :: pairsAt bs (i + 1) n

/-- The tags of a CUT frame, from tag `i` on. -/
def tagsAt (bs : List Byte) (i : Nat) : Nat → List Tag
  | 0 => []
  | n + 1 => tagAt bs (12 + 16 * i) :: tagsAt bs (i + 1) n

def lengthBody (bs : List Byte) : Option Body :=
  if bs.length < 12 then none else some (.length (BitVec.ofNat 32 (u32At bs 6)) (u16At bs 10))

def sampleBody (bs : List Byte) : Option Body :=
  if h : u8At bs 6 < 12 then
    let n := u8At bs 7
    if bs.length < 8 ∨ n = 0 ∨ 16 < n ∨ bs.length < 8 + 5 * n then none
    else some (.sample ⟨u8At bs 6, h⟩ (pairsAt bs 0 n))
  else none

def weldBody (bs : List Byte) : Option Body :=
  if bs.length < 30 ∨ Config.lengthMax < u32At bs 10 then none
  else some (.weld (BitVec.ofNat 32 (u32At bs 6)) (u32At bs 10) (tagAt bs 14))

/-- The cut kind a code names. -/
def cutKindOf : Nat → Option CutKind
  | 1 => some .coil
  | 2 => some .scrap
  | 3 => some .sample
  | _ => none

def cutBody (bs : List Byte) : Option Body :=
  let n := u8At bs 7
  match cutKindOf (u8At bs 6) with
  | none => none
  | some k =>
    if bs.length < 12 ∨ Config.lengthMax < u32At bs 8 ∨ 8 < n ∨ (k = .scrap ∧ n ≠ 0) ∨ bs.length < 12 + 16 * n then none
    else some (.cut k (u32At bs 8) (tagsAt bs 0 n))

def stateBody (bs : List Byte) : Option Body :=
  if bs.length < 7 then none
  else match u8At bs 6 with
    | 1 => some .run
    | 2 => some .stop
    | _ => none

/-- Reads a process frame; nothing where it fails the form check (R6). -/
def readProcess (bs : List Byte) : Option (ProcessHeader × Body) :=
  if bs.length < 6 ∨ u8At bs 0 ≠ 1 then none
  else
    let h : ProcessHeader :=
      { kind := u8At bs 1, origin := BitVec.ofNat 16 (u16At bs 2), seq := BitVec.ofNat 16 (u16At bs 4) }
    let b := match h.kind with
      | 1 => lengthBody bs
      | 2 => sampleBody bs
      | 3 => weldBody bs
      | 4 => cutBody bs
      | 5 => stateBody bs
      | _ => none
    b.map fun b => (h, b)

/-! ### Origin, sequence, kind and tags (R9 to R11) -/

/-- The Origin Table entries, ascending. -/
def allOrigins : List (Fin 32) := List.finRange 32

/-- The valid entry that holds an origin code (R9). -/
def State.findOrigin (s : State) (code : BitVec 16) : Option (Fin 32) :=
  allOrigins.find? fun i => s.fcl.origins[i].valid && s.fcl.origins[i].code == code

/-- The outcome of the sequence check: discarded, or passed with the number of frames missing before it (Fig. 1.4). -/
inductive SeqCheck where
  | duplicate
  | stale
  | pass (missing : Nat)
deriving DecidableEq, Repr

/-- The sequence check of a frame against its origin's entry (R10). -/
def Origin.check (o : Origin) (seq : BitVec 16) : SeqCheck :=
  if !o.checked then .pass 0
  else
    let d := (seq - o.lastSeq).toNat
    if d = 0 then .duplicate
    else if d < 32768 then .pass (d - 1)
    else .stale

/-- Whether an origin may send a body's kind (R8, R11). -/
def Origin.permits (o : Origin) : Body → Bool
  | .length _ _ => o.kinds.length
  | .sample _ _ => o.kinds.sample
  | .weld _ _ _ | .cut _ _ _ => o.kinds.joint
  | .stop | .run => o.kinds.state

/-- Whether a body carries a bad tag (R11). -/
def Body.badTag : Body → Bool
  | .weld _ _ t => Machine.badTag t
  | .cut _ _ ts => ts.any Machine.badTag
  | _ => false

/-- Whether FCL places frames for a line in a state (R9, section 2.3). -/
def LineState.takesFrames : LineState → Bool
  | .vacant | .idle | .suspended => false
  | _ => true

/-! ### Placing an event (R12) -/

/-- A frame is offered to its line's input queue (R12). -/
def State.place (s : State) (l : LineId) (origin : BitVec 16) (b : Body) (gap : Bool) : State :=
  if Config.queueCapacity ≤ (s.line l).queue.length then
    (s.updLine l fun x => { x with gapPending := true }).countLine l fun c => { c with overrun := sat c.overrun 1 }
  else
    s.updLine l fun x =>
      { x with newest := x.newest + 1, gapPending := false,
               queue := x.queue ++ [{ body := b, origin := origin, arrival := x.newest + 1, gap := gap || x.gapPending }] }

/-- A frame that passed the sequence check, with the frames missing before it (R11, R12). -/
def State.believe (s : State) (l : LineId) (o : Origin) (b : Body) (missing : Nat) : State :=
  let s := s.countLine l fun c => { c with gap := sat c.gap missing }
  if !o.permits b then s.countLine l fun c => { c with kindRefused := sat c.kindRefused 1 }
  else if b.badTag then s.countLine l fun c => { c with badTag := sat c.badTag 1 }
  else s.place l o.code b (decide (0 < missing))

/-- A frame of a known origin (R9, R10). -/
def State.classifyFor (s : State) (i : Fin 32) (seq : BitVec 16) (b : Body) : State :=
  let o := s.fcl.origins[i]
  match lineId? o.line with
  | none => s
  | some l =>
    if !(s.line l).state.takesFrames then s.countLine l fun c => { c with lineOff := sat c.lineOff 1 }
    else
      match o.check seq with
      | .duplicate => s.countLine l fun c => { c with duplicate := sat c.duplicate 1 }
      | .stale => s.countLine l fun c => { c with stale := sat c.stale 1 }
      | .pass n =>
        (s.updFcl fun f => { f with origins := f.origins.set i { o with checked := true, lastSeq := seq } }).believe l o b n

/-- FCL takes one process frame (R6, R9). -/
def State.classify (s : State) (bs : List Byte) : State :=
  match readProcess bs with
  | none => s.updFcl fun f => { f with malformed := sat f.malformed 1 }
  | some (h, b) =>
    match s.findOrigin h.origin with
    | none => s.updFcl fun f => { f with unknownOrigin := sat f.unknownOrigin 1 }
    | some i => s.classifyFor i h.seq b

/-- The origins mapped to a line, or all, forget their sequence (R10, R22). -/
def State.uncheck (s : State) (l : Option LineId) : State :=
  s.updFcl fun f =>
    { f with origins := f.origins.map fun o =>
        if (match l with
          | some l => o.valid && o.line == l.val
          | none => true) then { o with checked := false } else o }

/-- PROCESS_FRAME_CLASSIFY (R9): FCL takes the oldest copy; with none, or in a reset, nothing happens (R5, log 1). -/
def execProcessFrameClassify (s : State) : Host.Outcome State Fault Refusal :=
  .next (match s.fcl.copies with
    | bs :: rest => if s.isRunning then (s.updFcl fun f => { f with copies := rest }).classify bs else s
    | [] => s)

end Sys2Proof.Machine
end

