-- ==== Sys2Proof/Machine/Tracking.lean ====
section
/-! DEFINITION. Shared operations of the Line Tracker: the axis and its checks, line states, leaving the active states,
supervision (R19, R20, R25 to R34, R42 to R56). -/

namespace Sys2Proof.Machine

/-- A true axis, weld axis or cut axis above 2^40 - 1 is taken as 2^40 - 1 (R30). -/
def capAxis (x : Int) : Int := min x (Config.axisMax : Int)

/-- The shear point of a line (R34). -/
def Line.shearPoint (x : Line) : Int := x.position x.entry.shear

/-- The active states (section 2.3). -/
def LineState.active : LineState → Bool
  | .settling | .running | .parked | .reckoning | .holdback => true
  | _ => false

/-- The degraded states (chapter 3). -/
def LineState.degraded : LineState → Bool
  | .reckoning | .holdback => true
  | _ => false

/-- Whether the length reference is missing: every call to GLU carries ESTIMATED (R45). -/
def Line.unreferenced (x : Line) : Bool := x.state.degraded || (x.state == .parked && x.refMissing)

/-- Whether welds and cuts are placed by the current axis with ESTIMATED (R36, R38). -/
def Line.placedEstimated (x : Line) : Bool := x.state == .settling || x.unreferenced

/-! ### The axis (R19, R31, R33, R34) -/

/-- A station puts its pending content into force where its position has reached the trigger (R19). -/
def Line.applyPending (axis : Nat) (t : Station) : Station :=
  match t.pending with
  | some { content := n, watch := _, trigger := some g } =>
    if (g : Int) ≤ (axis : Int) - (t.content : Int) then { t with content := n, pending := none } else t
  | _ => t

/-- The checks that follow an advance: pending contents first, then the stations' positions to BAC (R19, R34). -/
def State.axisChecks (s : State) (l : LineId) : State :=
  (s.updLine l fun x => { x with stations := x.stations.map (Line.applyPending x.axis) }).tellStations l

/-- The axis is set, not past 2^40 - 1 (R30). -/
def State.setAxis (s : State) (l : LineId) (a : Nat) : State :=
  s.updLine l fun x => { x with axis := min a Config.axisMax }

/-- The axis advances by `d`, with the checks of R34. -/
def State.advance (s : State) (l : LineId) (d : Nat) : State := (s.setAxis l ((s.line l).axis + d)).axisChecks l

/-- Every open bin of the line gains GAP and is closed, at a jump (R33, R75). -/
def State.gapClose (s : State) (l : LineId) : State := (s.markBins l { gap := true }).closeBins l

/-- A JUMP is counted and its fault raised, with the axis reached (R33). -/
def State.jumpFault (s : State) (l : LineId) : State :=
  ((s.countLine l fun c => { c with jump := sat c.jump 1 }).raise .jump (some l) none
    (some ((s.line l).axis : Int)))

/-- A jump to axis `a`: bins, axis, fault, checks (R33, R48, R50). -/
def State.jumpTo (s : State) (l : LineId) (a : Nat) : State :=
  let s := (s.gapClose l).setAxis l a
  (s.jumpFault l).axisChecks l

/-! ### Entering states -/

/-- Entry to RUNNING: the silence count is 0 (R41). -/
def State.enterRunning (s : State) (l : LineId) : State :=
  s.updLine l fun x => { x with state := .running, sup := { x.sup with silence := 0 } }

/-- Entry to PARKED: the open bins are closed as they stand (R25, R45, R51). -/
def State.park (s : State) (l : LineId) : State :=
  let s := s.closeBins l
  s.updLine l fun x =>
    { x with state := .parked, parkedFrom := x.state, refMissing := x.state.degraded, parkedLength := false }

/-- The reckon speed of a line entering RECKONING (R42, R44). -/
def Line.cappedSpeed (x : Line) : Nat := min x.lastSpeed x.entry.maxSpeed

/-- The anchor of a line that loses its reference (R42). -/
def Line.lossAnchor (x : Line) : Int :=
  if x.reverseOver then (x.axis : Int) else (x.axis : Int) - (x.reverseDebt : Int)

/-- RUNNING is left for RECKONING on the silence limit (R42). -/
def State.loseLength (s : State) (l : LineId) : State :=
  let s := s.raise .lengthLost (some l) none (some ((s.line l).axis : Int))
  let s := s.countLine l fun c => { c with lengthLost := sat c.lengthLost 1 }
  s.updLine l fun x =>
    { x with state := .reckoning, reverseDebt := 0, reverseOver := false,
             sup := { x.sup with anchor := x.lossAnchor, reckonSpeed := x.cappedSpeed, remainder := 0, grace := 0,
                                 acked := false } }

/-- A SAMPLE, WELD or CUT taken in RUNNING raises the silence count, and the limit is compared (R41, R42). -/
def State.countSilence (s : State) (l : LineId) : State :=
  let s := s.updLine l fun x => { x with sup := { x.sup with silence := min (x.sup.silence + 1) 255 } }
  if (s.line l).entry.silenceLimit ≤ (s.line l).sup.silence then s.loseLength l else s

/-! ### Taking an event (R12, R13, R72) -/

/-- The event at the head of a line's input queue, when LTK may take it: in no reset and with the line's calls complete. -/
def State.headEvent (s : State) (l : LineId) : Option Event :=
  if s.isRunning && !s.lineHeld l then (s.line l).queue.head? else none

/-- The event leaves the queue, its number is the last taken, and its gap mark reaches the open bins (R12, R13, R72). -/
def State.takeEvent (s : State) (l : LineId) (e : Event) : State :=
  let s := s.updLine l fun x => { x with queue := x.queue.drop 1, lastTaken := e.arrival }
  if e.gap then s.markBins l { gap := true } else s

/-- A line whose call waits, or left writes waiting, holds its input queue until they are queued (R81). -/
def State.holdLine (s : State) (l : LineId) : State := if s.gluBusy then s.waitGlu (.line l) else s

/-! ### Leaving the active states (R13, R20, R27) -/

/-- The input queue is emptied; each event is counted QUEUE_DISCARD (R13), and every drain mark on the line is reached (R135). -/
def State.emptyQueue (s : State) (l : LineId) : State :=
  (s.updLine l fun x =>
    { x with queue := [], lastTaken := x.newest, gapPending := false,
             counters := { x.counters with queueDiscard := sat x.counters.queueDiscard x.queue.length } }).updPbk fun k =>
    { k with taken := k.taken.set l (s.line l).newest }

/-- A station's pending content comes into force (R20). -/
def Station.force (t : Station) : Station :=
  match t.pending with
  | some p => { t with content := p.content, pending := none }
  | none => t

/-- Every pending content of a line is put into force (R20). -/
def State.forcePending (s : State) (l : LineId) : State :=
  s.updLine l fun x => { x with stations := x.stations.map Station.force }

/-- The strip chain and what stands beside it are emptied (R35). -/
def Line.clearChain (x : Line) : Line :=
  { x with chain := [], outputs := [], boundary := none, lastWeld := none, feeding := none }

/-- The flags and amounts R27 names. -/
def Line.clearAmounts (x : Line) : Line :=
  { x with reverseDebt := 0, reverseOver := false, refMissing := false, parkedLength := false, settlingRun := 0,
           sup := { x.sup with gap := 0, silence := 0 } }

/-- The last part of the way to IDLE: steps 4 and 5 of R27, and what follows them. -/
def State.settleIdle (s : State) (l : LineId) : State :=
  ((s.emptyQueue l).forcePending l).updLine l fun x => { x.clearChain.clearAmounts with state := .idle }

/-- The last part of the way to SUSPENDED: step 5 of R56, and what follows it. -/
def State.settleSuspended (s : State) (l : LineId) : State :=
  (s.emptyQueue l).updLine l fun x => { x.clearChain with state := .suspended }

/-- The steps of a line that leaves the active states which follow its closes (R27, R56). -/
def State.leave (s : State) (l : LineId) : Leaving → State
  | .idle => s.settleIdle l
  | .suspended => s.settleSuspended l

/-- LTK goes on to those steps once the calls of the closes are complete: at once, or when what waits at GLU has had its turn. Until then
the line is as it was, and holds its input queue (R27, R56, R81). -/
def State.leaveAfterCloses (s : State) (l : LineId) (k : Leaving) : State :=
  if s.gluBusy then (s.waitGlu (.leave l k)).waitGlu (.line l) else s.leave l k

/-- The end of the outputs closed when a line leaves recording: the shear point, or the boundary where that is not above it. -/
def Line.closingEnd (x : Line) : Nat := max x.shearPoint.toNat (x.boundary.getD 0)

/-- The two calls to GLU for the closes when a line leaves recording: of its feeding, and of its outputs (R27, R94). -/
def State.closeLinePieces (s : State) (l : LineId) (est : Bool) : State :=
  let x := s.line l
  (s.callGlu (.endFeeding l x.axis est)).callGlu (.closeOutputs
    { line := l, start := x.boundary.getD 0, stop := x.closingEnd, finished := 0, est := est, incomplete := true } x.outputs)

/-- An active line goes to IDLE with its bins closed, in the order of R27. -/
def State.deactivateLine (s : State) (l : LineId) : State :=
  ((s.closeBins l).closeLinePieces l (s.line l).unreferenced).leaveAfterCloses l .idle

/-- An active line's bins are discarded, each counted where `counted` says so (R28, R29, R76). -/
def State.dropBins (s : State) (l : LineId) (counted : Bool) : State :=
  let n := s.openBinCount l
  let s := s.discardBins l
  if counted then s.countLine l fun c => { c with binDiscard := sat c.binDiscard n } else s

/-- RESET_LINE in any state but VACANT (R28). -/
def State.resetLineState (s : State) (l : LineId) : State :=
  let st := (s.line l).state
  let s := s.updLine l fun x => { x with counters := {}, sup := { x.sup with grace := 0 } }
  if st.active then
    ((s.dropBins l true).closeLinePieces l (s.line l).unreferenced).leaveAfterCloses l .idle
  else if st = .suspended then
    (s.settleIdle l).updLine l fun x => { x with counters := {} }
  else s

/-- The move of a line at a warm reset (R29). The grace counter is 0 after it in every state (R53, Fig. 3.3). -/
def State.warmLine (s : State) (l : LineId) : State :=
  let st := (s.line l).state
  let s := s.updLine l fun x => { x with sup := { x.sup with grace := 0 } }
  if st = .vacant then s
  else if st.active then ((s.dropBins l false).closeLinePieces l (s.line l).unreferenced).leaveAfterCloses l .idle
  else s.settleIdle l

/-- Entry to SUSPENDED (R56). -/
def State.suspend (s : State) (l : LineId) : State :=
  let s := s.raise .lineSuspended (some l) none (some ((s.line l).axis : Int))
  let s := s.countLine l fun c => { c with lineSuspended := sat c.lineSuspended 1 }
  let s := (s.markBins l { estimated := true }).closeBins l
  (s.closeLinePieces l true).leaveAfterCloses l .suspended

/-! ### The grace counter (R53, R54) -/

/-- A RECKON expiry counts the grace counter of a degraded line, and may suspend it (R53). -/
def State.countGrace (s : State) (l : LineId) : State :=
  let x := s.line l
  if x.state.degraded && !x.sup.acked then
    let g := if x.sup.grace = 65535 then 0 else x.sup.grace + 1
    let s := s.updLine l fun y => { y with sup := { y.sup with grace := g } }
    if x.entry.gracePeriod ≠ 0 ∧ g = x.entry.gracePeriod then s.suspend l else s
  else s

/-- A RECKON expiry taken for one line, with the period it carries (R46, R47). -/
def State.reckonLine (s : State) (l : LineId) (period : Nat) : State :=
  let x := s.line l
  if x.state = .reckoning then
    let sum := x.sup.reckonSpeed * period + x.sup.remainder
    let s := s.updLine l fun y => { y with sup := { y.sup with remainder := sum % 1000 } }
    let s := if 0 < sum / 1000 then s.advance l (sum / 1000) else s
    s.countGrace l
  else if x.state = .holdback then s.countGrace l
  else s

/-- A RECKON expiry that reaches one line: LTK takes it between two events, so that a line whose call waits takes it once the call is
complete (R47, R81, log 15). -/
def State.reckonReaches (s : State) (l : LineId) (period : Nat) : State :=
  if s.lineHeld l then s.waitLine l (.reckon l period) else s.reckonLine l period

/-- A RECKON expiry taken by LTK, for every line slot (R46, R47). Through the drain of a warm reset it does nothing (R29). The
slots take it in ascending order, which the manual leaves open (log 25). -/
def State.takeReckon (s : State) (period : Nat) : State :=
  if s.phase = .warmDrain then s
  else (s.forEach allLines fun s l => s.reckonReaches l period).testDrains

end Sys2Proof.Machine
end

