-- ==== Sys2Proof/Machine/LineEvents.lean ====
section
/-! DEFINITION. The six process events as LTK takes them, by line state (R23 to R26, R30 to R33, R36 to R39, R44, R45, R48 to R52, R65). -/

namespace Sys2Proof.Machine

/-! ### LENGTH -/

/-- The step of a LENGTH: its counter minus the length reference, modulo 2^32, read as signed (R30). -/
def Line.stepTo (x : Line) (counter : Word32) : Int := (counter - x.lengthRef).toInt

/-- Every LENGTH sets the length reference and the last speed (R23, R30, R48, R50, R52). -/
def State.refer (s : State) (l : LineId) (counter : Word32) (speed : Nat) : State :=
  s.updLine l fun x => { x with lengthRef := counter, lastSpeed := speed }

/-- A LENGTH in SETTLING (R16, R23). `step` was taken against the length reference before it. -/
def State.settleLength (s : State) (l : LineId) (step : Int) : State :=
  let x := s.line l
  if !x.lengthTaken then s.updLine l fun x => { x with lengthTaken := true }
  else if 0 ≤ step ∧ step ≤ (x.entry.maxStep : Int) then
    let s := s.updLine l fun x => { x with settlingRun := x.settlingRun + 1 }
    if x.entry.settleCount ≤ x.settlingRun + 1 then
      (s.enterRunning l).updLine l fun x => { x with headMark := x.axis }
    else s
  else s.updLine l fun x => { x with settlingRun := 0 }

/-- Forward travel within the max step (R31). -/
def State.forward (s : State) (l : LineId) (step : Nat) : State :=
  let x := s.line l
  if step = 0 then s
  else if x.reverseOver then
    (s.updLine l fun x => { x with reverseDebt := 0, reverseOver := false }).advance l step
  else if step ≤ x.reverseDebt then s.updLine l fun x => { x with reverseDebt := x.reverseDebt - step }
  else (s.updLine l fun x => { x with reverseDebt := 0 }).advance l (step - x.reverseDebt)

/-- Backward travel (R32). -/
def State.backward (s : State) (l : LineId) (back : Nat) : State :=
  if Config.debtMax < (s.line l).reverseDebt + back then
    (s.updLine l fun x => { x with reverseDebt := Config.debtMax, reverseOver := true }).countLine l fun c =>
      { c with reverseOver := sat c.reverseOver 1 }
  else s.updLine l fun x => { x with reverseDebt := x.reverseDebt + back }

/-- A jump in RUNNING or PARKED with the reference held (R33). -/
def State.jump (s : State) (l : LineId) (step : Nat) : State :=
  let s := s.gapClose l
  let s := s.setAxis l ((s.line l).axis + step)
  let s := s.updLine l fun x => { x with reverseDebt := 0, reverseOver := false }
  (s.jumpFault l).axisChecks l

/-- A LENGTH that moves the axis by its step (R31 to R33). -/
def State.travel (s : State) (l : LineId) (step : Int) : State :=
  if step < 0 then s.backward l (-step).toNat
  else if step ≤ ((s.line l).entry.maxStep : Int) then s.forward l step.toNat
  else s.jump l step.toNat

/-- The true axis of a return (R48). -/
def Line.trueAxis (x : Line) (step : Int) : Int := capAxis (x.sup.anchor + step)

/-- The axis catches up with a true axis at or above it, by a jump where it lies more than the max step ahead (R48, R52). -/
def State.catchUp (s : State) (l : LineId) (a : Nat) : State :=
  if (s.line l).axis + (s.line l).entry.maxStep < a then s.jumpTo l a else (s.setAxis l a).axisChecks l

/-- The holdback gap of a return behind the axis (R49, R52). -/
def State.setGap (s : State) (l : LineId) (a : Int) : State :=
  s.updLine l fun x => { x with sup := { x.sup with gap := min ((x.axis : Int) - a).toNat Config.gapMax } }

/-- A LENGTH in RECKONING (R48, R49). -/
def State.returnLength (s : State) (l : LineId) (step : Int) : State :=
  let a := (s.line l).trueAxis step
  if a = ((s.line l).axis : Int) then s.enterRunning l
  else if ((s.line l).axis : Int) < a then (s.catchUp l a.toNat).enterRunning l
  else (s.setGap l a).updLine l fun x => { x with state := .holdback }

/-- The gap is paid by a step, the surplus advancing the axis (R50). -/
def State.payGap (s : State) (l : LineId) (step : Nat) : State :=
  let g := (s.line l).sup.gap
  let s := s.updLine l fun x => { x with sup := { x.sup with gap := x.sup.gap - step } }
  if g < step then s.advance l (step - g) else s

/-- A jump in HOLDBACK, or in PARKED with the reference missing: the gap becomes 0 (R50, R52). -/
def State.jumpGap (s : State) (l : LineId) (step : Nat) : State :=
  let s := s.gapClose l
  let surplus := step - (s.line l).sup.gap
  let s := s.updLine l fun x => { x with sup := { x.sup with gap := 0 } }
  let s := s.setAxis l ((s.line l).axis + surplus)
  let s := s.jumpFault l
  if 0 < surplus then s.axisChecks l else s

/-- A holdback step without the change of state (R50, R52). -/
def State.holdbackStep (s : State) (l : LineId) (step : Int) : State :=
  if step < 0 then
    s.updLine l fun x => { x with sup := { x.sup with gap := min (x.sup.gap + (-step).toNat) Config.gapMax } }
  else if step ≤ ((s.line l).entry.maxStep : Int) then s.payGap l step.toNat
  else s.jumpGap l step.toNat

/-- A LENGTH in HOLDBACK: RUNNING is entered when a step that is not negative leaves no gap (R50). -/
def State.holdbackLength (s : State) (l : LineId) (step : Int) : State :=
  let s := s.holdbackStep l step
  if 0 ≤ step ∧ (s.line l).sup.gap = 0 then s.enterRunning l else s

/-- A LENGTH in PARKED with the reference missing (R52). `first` says that the parked-length flag was clear before it. -/
def State.parkedMissing (s : State) (l : LineId) (step : Int) (first : Bool) : State :=
  let x := s.line l
  if x.parkedFrom = .reckoning ∧ first = true then
    let a := x.trueAxis step
    if (x.axis : Int) ≤ a then s.catchUp l a.toNat else s.setGap l a
  else s.holdbackStep l step

/-- A LENGTH in PARKED (R26, R52). -/
def State.parkedLengthTaken (s : State) (l : LineId) (step : Int) : State :=
  let x := s.line l
  let s := s.updLine l fun x => { x with parkedLength := true }
  if x.refMissing then s.parkedMissing l step (!x.parkedLength) else s.travel l step

/-- A LENGTH taken, by line state (R30). -/
def State.takeLength (s : State) (l : LineId) (counter : Word32) (speed : Nat) : State :=
  let step := (s.line l).stepTo counter
  let st := (s.line l).state
  let s := s.refer l counter speed
  match st with
  | .settling => s.settleLength l step
  | .running => (s.updLine l fun x => { x with sup := { x.sup with silence := 0 } }).travel l step
  | .parked => s.parkedLengthTaken l step
  | .reckoning => s.returnLength l step
  | .holdback => s.holdbackLength l step
  | _ => s

/-! ### SAMPLE -/

/-- What BAC is given with a SAMPLE (R65). -/
def State.sampleCall (s : State) (l : LineId) (station : Fin 12) : SampleCall :=
  let x := s.line l
  { line := l, station := station.val, before := !x.stationValid station.val || x.state == .settling,
    pos := x.position station.val, debt := decide (0 < x.reverseDebt), est := x.state == .reckoning }

/-- A SAMPLE taken: passed to BAC, or dropped pair by pair in HOLDBACK (R51, R65). -/
def State.takeSample (s : State) (l : LineId) (station : Fin 12) (pairs : List (Nat × Int)) : State :=
  if (s.line l).state = .holdback then
    s.countLine l fun c => { c with holdbackDrop := sat c.holdbackDrop pairs.length }
  else s.takePairs (s.sampleCall l station) pairs

/-! ### WELD -/

/-- The weld axis before the floor: by the length counter, or the current axis (R36). -/
def Line.rawWeldAxis (x : Line) (counter : Word32) : Int :=
  if x.placedEstimated then (x.axis : Int) else capAxis ((x.axis : Int) + (counter - x.lengthRef).toInt)

/-- The weld floor: the higher of the last weld axis and the open output boundary, where either is present (R36). -/
def Line.weldFloor (x : Line) : Option Nat :=
  match x.lastWeld, x.boundary with
  | some a, some b => some (max a b)
  | some a, none => some a
  | none, some b => some b
  | none, none => none

/-- The weld axis and its ESTIMATED flag (R30, R36). -/
def Line.weldPlace (x : Line) (counter : Word32) : Nat × Bool :=
  let a := x.rawWeldAxis counter
  match x.weldFloor with
  | some f => if a ≤ (f : Int) then (min (f + 1) Config.axisMax, true) else (a.toNat, x.placedEstimated)
  | none => if a < 0 then (0, true) else (a.toNat, x.placedEstimated)

/-- The direction a weld gives (R37). -/
def LineEntry.direction (e : LineEntry) : Direction :=
  match e.payoff with
  | .headFirst => .same
  | .tailFirst => .reversed

/-- A WELD taken (R36, R37). Its call waits where GLU is busy, and the line holds its queue until it is complete (R81, log 15). -/
def State.takeWeld (s : State) (l : LineId) (counter : Word32) (declared : Nat) (tag : Tag) : State :=
  let x := s.line l
  let (a, est) := x.weldPlace counter
  if Config.chainCapacity ≤ x.chain.length then
    (s.raise .chainFull (some l) none (some (a : Int))).countLine l fun c => { c with chainFull := sat c.chainFull 1 }
  else
    (s.callGlu (.weld l a est tag declared x.entry.direction)).holdLine l

/-! ### CUT -/

/-- Whether a cut axis is refused: below 0, or not above the open output boundary (R38). -/
def Line.cutRefused (x : Line) (a : Int) : Bool :=
  decide (a < 0) || (match x.boundary with
    | some b => decide (a ≤ (b : Int))
    | none => false)

/-- Whether a cut's tag count differs from the line's strands (R38). -/
def Line.wrongStrands (x : Line) (kind : CutKind) (tags : List Tag) : Bool :=
  kind != .scrap && decide (tags.length ≠ x.entry.strands)

/-- An accepted cut (R39). The close of the old outputs and the opening of the new ones are two calls: each waits where GLU is busy,
the second where the first left writes waiting (R81, log 15). -/
def State.acceptCut (s : State) (l : LineId) (kind : CutKind) (finished : Nat) (tags : List Tag) (a : Nat) (est : Bool) :
    State :=
  let x := s.line l
  let s := if x.outputs.isEmpty then s
    else s.callGlu (.closeCut
      { line := l, start := x.boundary.getD 0, stop := a, finished := finished, est := est, incomplete := false } x.outputs)
  let s := s.updLine l fun x => { x with chain := x.chain.filter fun j => decide (a < j.axis) }
  (s.callGlu (.openOutputs l kind tags a est)).holdLine l

/-- A cut axis: the shear point, capped (R30, R38). -/
def Line.cutAxis (x : Line) : Int := capAxis x.shearPoint

/-- A CUT taken (R38, R39). -/
def State.takeCut (s : State) (l : LineId) (kind : CutKind) (finished : Nat) (tags : List Tag) : State :=
  let x := s.line l
  let a := x.cutAxis
  if x.cutRefused a then
    (s.raise .cutOrder (some l) none (some a)).countLine l fun c => { c with cutOrder := sat c.cutOrder 1 }
  else if x.wrongStrands kind tags then
    (s.raise .badStrands (some l) none (some a)).countLine l fun c => { c with badStrands := sat c.badStrands 1 }
  else s.acceptCut l kind finished tags a.toNat x.placedEstimated

/-! ### STATE -/

/-- STATE STOP taken (R24, R25, R26, R45, R51). -/
def State.takeStop (s : State) (l : LineId) : State :=
  match (s.line l).state with
  | .running | .reckoning | .holdback => s.park l
  | _ => s

/-- A degraded state is entered from PARKED: the grace counter is 0 and acknowledged false (R44, R53). -/
def State.enterDegraded (s : State) (l : LineId) (st : LineState) : State :=
  s.updLine l fun x => { x with state := st, sup := { x.sup with grace := 0, acked := false } }

/-- STATE RUN in PARKED (R26, R44). -/
def State.leaveParked (s : State) (l : LineId) : State :=
  let x := s.line l
  let s := s.updLine l fun x => { x with refMissing := false, parkedLength := false }
  if !x.refMissing then s.enterRunning l
  else if 0 < x.sup.gap then s.enterDegraded l .holdback
  else if x.parkedLength then s.enterRunning l
  else
    (s.enterDegraded l .reckoning).updLine l fun x =>
      { x with sup := { x.sup with reckonSpeed := x.cappedSpeed, remainder := 0 } }

/-- STATE RUN taken (R24, R25, R26, R45, R51). -/
def State.takeRun (s : State) (l : LineId) : State :=
  if (s.line l).state = .parked then s.leaveParked l else s

/-! ### The commands -/

/-- After a SAMPLE, WELD or CUT the silence count of a line that was RUNNING is raised (R41). -/
def State.afterEvent (s : State) (l : LineId) (before : LineState) : State :=
  if before = .running then s.countSilence l else s

/-- What LTK does with the event at the head of a line's queue when it is of the kind the command names; any other head,
or none, leaves the state as it is (log 1). `act` gives the event's own effect on the state that has taken it. -/
def State.onEvent (s : State) (l : LineId) (act : Body → Option (State → State)) : State :=
  match s.headEvent l with
  | none => s
  | some e =>
    match act e.body with
    | none => s
    | some f => ((f (s.takeEvent l e)).noteHeld l e s.stc.heldOffers).testDrains

/-- LENGTH_EVENT (R30). -/
def execLengthEvent (l : LineId) (s : State) : Host.Outcome State Fault Refusal :=
  .next (s.onEvent l fun b => match b with
    | .length counter speed => some fun s => s.takeLength l counter speed
    | _ => none)

/-- SAMPLE_EVENT (R65). -/
def execSampleEvent (l : LineId) (s : State) : Host.Outcome State Fault Refusal :=
  .next (s.onEvent l fun b => match b with
    | .sample station pairs => some fun t => (t.takeSample l station pairs).afterEvent l (s.line l).state
    | _ => none)

/-- WELD_EVENT (R36). -/
def execWeldEvent (l : LineId) (s : State) : Host.Outcome State Fault Refusal :=
  .next (s.onEvent l fun b => match b with
    | .weld counter declared tag =>
      some fun t => (t.takeWeld l counter declared tag).afterEvent l (s.line l).state
    | _ => none)

/-- CUT_EVENT (R38). -/
def execCutEvent (l : LineId) (s : State) : Host.Outcome State Fault Refusal :=
  .next (s.onEvent l fun b => match b with
    | .cut kind finished tags =>
      some fun t => (t.takeCut l kind finished tags).afterEvent l (s.line l).state
    | _ => none)

/-- STATE_STOP_EVENT (R25). -/
def execStateStopEvent (l : LineId) (s : State) : Host.Outcome State Fault Refusal :=
  .next (s.onEvent l fun b => match b with
    | .stop => some fun s => s.takeStop l
    | _ => none)

/-- STATE_RUN_EVENT (R26). -/
def execStateRunEvent (l : LineId) (s : State) : Host.Outcome State Fault Refusal :=
  .next (s.onEvent l fun b => match b with
    | .run => some fun s => s.takeRun l
    | _ => none)

end Sys2Proof.Machine
end

