-- ==== Sys2Proof/Machine/Requests.lean ====
section
/-! DEFINITION. The Management Engine: taking a request, access and roles, replies, and the requests that act on a line, the clock
and the fault record (R21, R22, R27, R28, R55, R171 to R173, R176, R177, R182). -/

namespace Sys2Proof.Machine

/-! ### Access (R172, R173) -/

/-- The Access Table entries, ascending. -/
def allAccess : List (Fin 16) := List.finRange 16

/-- While no entry is enabled the part is commissioning (R173). -/
def State.commissioning (s : State) : Bool := allAccess.all fun i => !s.mgt.access[i].enabled

/-- The enabled entry of a source. -/
def State.accessOf (s : State) (a : Address) : Option (Fin 16) :=
  allAccess.find? fun i => s.mgt.access[i].enabled && s.mgt.access[i].addr == a

/-- The role of a source, or none for one that is dropped (R173). -/
def State.roleOf (s : State) (a : Address) : Option Role :=
  if s.commissioning then some .engineer else (s.accessOf a).map fun i => s.mgt.access[i].role

/-! ### Replies (R171, Fig. 11.3) -/

/-- The frame of a reply. -/
def State.replyFrame (s : State) (r : Request) (x : Reply) : Frame :=
  s.ownFrame r.src ([1, r.code] ++ be 2 r.tag.toNat ++ [x.reason.code] ++ x.contents)

/-- What a reply counts (Fig. 9.7). -/
def MgtCounters.replied (c : MgtCounters) (r : Request) (x : Reply) : MgtCounters :=
  { c with
    refused := if x.reason = .ok then c.refused else sat c.refused 1,
    unknownRequest := if x.reason = .unknownRequest then sat c.unknownRequest 1 else c.unknownRequest,
    notPermitted := if x.reason = .notPermitted then sat c.notPermitted 1 else c.notPermitted,
    loadsAccepted := if r.code = 1 ∧ x.reason = .ok then sat c.loadsAccepted 1 else c.loadsAccepted }

/-- A reply is handed to PRL on the port where its request arrived (R171). -/
def State.answer (s : State) (r : Request) (x : Reply) : State :=
  (s.transmit r.port (s.replyFrame r x)).countMgt fun c => c.replied r x

/-- The reply that waited for its request's writes is handed over (R171). -/
def State.releaseReply (s : State) : State :=
  match s.mgt.heldReply with
  | none => s
  | some (r, x) => (s.updMgt fun m => { m with heldReply := none }).answer r x

/-! ### Taking a request (R171) -/

/-- The request MGT takes next: none in a reset, and none while the outcome of the one before, or its reply, waits. -/
def State.headRequest (s : State) : Option Request :=
  if s.isRunning && s.mgt.heldReply.isNone && s.mgt.passed.isNone then s.mgt.requests.head? else none

/-- What a reply waits for: writes its request left waiting, the calls made for its line, or the seal of a channel reload (R171). -/
inductive ReplyWait where
  | writes
  | calls
  | seal
deriving DecidableEq, Repr

/-- Which block takes a request, and so what it may have to wait for: one that never waits, GLU in its turn, or LTK between two events
of a line (R81, R82, R171). -/
inductive Taker where
  | prompt
  | glu
  | line (l : LineId)
deriving DecidableEq, Repr

/-- How a kind of request is served: which request it is, its role, what its body holds where its form is right, which block takes
it, its effect with its reply, and, from the states before and after, what the reply then waits for. -/
structure Service (α : Type) where
  fits : Request → Bool
  role : Role
  form : Request → Option α
  taker : Request → α → State → Taker
  act : Request → α → State → Reply × State
  waits : Request → α → State → State → Option ReplyWait

/-- A reply is handed over, or held until what it waits for has come about (R171). -/
def State.reply (s : State) (r : Request) (x : Reply) : Option ReplyWait → State
  | none => s.answer r x
  | some .seal => s.updMgt fun m => { m with heldReply := some (r, x) }
  | some .writes => (s.updMgt fun m => { m with heldReply := some (r, x) }).updGlu fun g => { g with waits := .reply :: g.waits }
  | some .calls => (s.updMgt fun m => { m with heldReply := some (r, x) }).waitGlu .reply

/-- Whether a block cannot take a request now. -/
def State.engaged (s : State) : Taker → Bool
  | .prompt => false
  | .glu => s.gluBusy
  | .line l => s.lineHeld l

/-- A request is passed to a block that cannot take it yet: GLU takes it after everything that waits already, LTK once the call of the
line is complete (R81, R82, R171). -/
def State.pass (s : State) (r : Request) (k : Taker) : State :=
  let t := s.updMgt fun m => { m with passed := some (r, s.freeContext?) }
  match k with
  | .line l => t.waitLine l (.request (some l))
  | _ => t.waitGlu (.request none)

/-- The owner takes a request whose body holds `x`, and its reply is handed over or held (R171). -/
def State.settle {α : Type} (s : State) (k : Service α) (r : Request) (x : α) : State :=
  (k.act r x s).2.reply r (k.act r x s).1 (k.waits r x s (k.act r x s).2)

/-- MGT takes the request at the head of the queue, if it is of the kind served, and settles it by the checks of R171; with
another request there, or none, nothing happens (log 1). One that passes the checks goes to its owner, and waits there where the owner
cannot take it yet (log 15). -/
def State.serve {α : Type} (s : State) (k : Service α) : State :=
  match s.headRequest with
  | none => s
  | some r =>
    if k.fits r then
      let s := s.updMgt fun m => { m with requests := m.requests.drop 1 }
      match s.roleOf r.src with
      | none => s.countMgt fun c => { c with accessDrop := sat c.accessDrop 1 }
      | some role =>
        let s := s.countMgt fun c => { c with requestsTaken := sat c.requestsTaken 1 }
        if k.role = .engineer ∧ role = .view then s.answer r { reason := .notPermitted }
        else
          match k.form r with
          | none => s.answer r { reason := .badValue }
          | some x => if s.engaged (k.taker r x s) then s.pass r (k.taker r x s) else s.settle k r x
    else s

/-- A request of version 1 with a code. -/
def Request.is (code : Nat) (r : Request) : Bool := r.version == 1 && r.code.toNat == code

/-- The form of a body of at least `n` bytes that nothing else is asked of. -/
def atLeast (n : Nat) (r : Request) : Option Unit := if r.body.length < n then none else some ()

/-- Answers of the owner, ready at once and never waiting. -/
def promptly {α : Type} (code : Nat) (role : Role) (form : Request → Option α) (act : Request → α → State → Reply × State) :
    Service α :=
  { fits := Request.is code, role := role, form := form, taker := fun _ _ _ => .prompt, act := act,
    waits := fun _ _ _ _ => none }

/-- Answers of GLU: taken in its turn, the reply waiting for the writes it leaves waiting (R81, R171). -/
def throughGlu {α : Type} (code : Nat) (role : Role) (form : Request → Option α)
    (act : Request → α → State → Reply × State) : Service α :=
  { fits := Request.is code, role := role, form := form, taker := fun _ _ _ => .glu, act := act,
    waits := fun _ _ _ t => if t.glu.waiting.isEmpty then none else some .writes }

/-- The plain refusal for a reason, with the state unchanged. -/
def refuse (x : Reason) (s : State) : Reply × State := ({ reason := x }, s)

/-- The plain answer OK. -/
def accepted (s : State) : Reply × State := ({ reason := .ok }, s)

/-! ### UNKNOWN_REQUEST -/

/-- A version other than 1, or a code that is not one of Fig. 9.3 (R171). -/
def Request.unknown (r : Request) : Bool := r.version != 1 || r.code.toNat == 0 || decide (14 < r.code.toNat)

/-- UNKNOWN_REQUEST (R171). -/
def execUnknownRequest (s : State) : Host.Outcome State Fault Refusal :=
  .next (s.serve { promptly 0 .view (atLeast 0) (fun _ _ s => refuse .unknownRequest s) with fits := Request.unknown })

/-! ### LINE_CONTROL (R21, R176) -/

/-- A LINE_CONTROL whose command code is `cmd`; one with a code outside Fig. 11.4 is any of the four. -/
def Request.lineControl (cmd : Nat) (r : Request) : Bool :=
  r.is 3 && (u8At r.body 1 == cmd || u8At r.body 1 == 0 || decide (4 < u8At r.body 1))

/-- The line state after a command: an accepted DEACTIVATE or RESET_LINE leads to IDLE (Fig. 2.3), also where its closes wait, as its
reply then does until the line is there (R171, R176). -/
def State.stateAfter (s : State) (l : LineId) (cmd : Nat) (x : Reason) : LineState :=
  if x = .ok ∧ (cmd = 2 ∨ cmd = 3) then .idle else (s.line l).state

/-- The reply of a command taken by LTK: line slot, command and the line state after it (R176, Fig. 11.4). -/
def State.lineReply (s : State) (l : LineId) (cmd : Nat) (x : Reason) : Reply × State :=
  ({ reason := x, contents := encLine l ++ be 1 cmd ++ [(s.stateAfter l cmd x).code] }, s)

/-- Whether the line a body names is one whose call to GLU waits, so that LTK takes nothing for it (R81). -/
def State.namesHeld (s : State) (l : Nat) : Bool :=
  match lineId? l with
  | some l => s.lineHeld l
  | none => false

/-- LTK takes a request that names a line; one that names no line is refused at once. -/
def takerOf (l : Nat) : Taker :=
  match lineId? l with
  | some l => .line l
  | none => .prompt

/-- A LINE_CONTROL's line slot, where its body holds the command `cmd` (Fig. 11.4). -/
def Request.controlSlot (cmd : Nat) (r : Request) : Option Nat :=
  if r.body.length < 2 ∨ u8At r.body 1 ≠ cmd then none else some (u8At r.body 0)

/-- A LINE_CONTROL command served: its line slot, and the command as LTK takes it (R21, R171, R176). MGT itself refuses a slot
above 7; a line whose call waits takes no command until it is complete. -/
def lineService (cmd : Nat) (act : LineId → State → Reason × State) : Service Nat :=
  { fits := Request.lineControl cmd, role := .engineer, form := Request.controlSlot cmd,
    taker := fun _ n _ => takerOf n,
    act := fun _ n s =>
      match lineId? n with
      | none => refuse .badIndex s
      | some l =>
        let (x, s) := act l s
        s.lineReply l cmd x,
    waits := fun _ n _ t => if t.namesHeld n then some .calls else none }

/-- ACTIVATE as LTK takes it (R22). FCL forgets the sequences of the line's origins (R10). -/
def State.activateLine (s : State) (l : LineId) : Reason × State :=
  let x := s.line l
  if x.state ≠ .idle then (.badState, s)
  else if !x.stationValid x.entry.shear then (.badValue, s)
  else
    let s := s.updLine l fun x => { x.clearChain.clearAmounts with state := .settling, lengthTaken := false }
    (.ok, s.uncheck (some l))

/-- DEACTIVATE as LTK takes it (R27). -/
def State.deactivate (s : State) (l : LineId) : Reason × State :=
  if (s.line l).state.active then (.ok, (s.deactivateLine l).testDrains) else (.badState, s)

/-- RESET_LINE as LTK takes it (R28). -/
def State.resetLine (s : State) (l : LineId) : Reason × State :=
  if (s.line l).state = .vacant then (.badState, s) else (.ok, (s.resetLineState l).testDrains)

/-- ACK_DEGRADED as LTK takes it (R55). -/
def State.ackDegraded (s : State) (l : LineId) : Reason × State :=
  if (s.line l).state.degraded then
    (.ok, s.updLine l fun x => { x with sup := { x.sup with grace := 0, acked := true } })
  else (.badState, s)

/-- How ACTIVATE is served. -/
def activateService : Service Nat := lineService 1 fun l s => s.activateLine l

/-- ACTIVATE (R22). -/
def execActivate (s : State) : Host.Outcome State Fault Refusal :=
  .next (s.serve activateService)

/-- How DEACTIVATE is served. -/
def deactivateService : Service Nat := lineService 2 fun l s => s.deactivate l

/-- DEACTIVATE (R27). -/
def execDeactivate (s : State) : Host.Outcome State Fault Refusal :=
  .next (s.serve deactivateService)

/-- How RESET_LINE is served. -/
def resetLineService : Service Nat := lineService 3 fun l s => s.resetLine l

/-- RESET_LINE (R28). -/
def execResetLine (s : State) : Host.Outcome State Fault Refusal :=
  .next (s.serve resetLineService)

/-- How ACK_DEGRADED is served. -/
def ackDegradedService : Service Nat := lineService 4 fun l s => s.ackDegraded l

/-- ACK_DEGRADED (R55). -/
def execAckDegraded (s : State) : Host.Outcome State Fault Refusal :=
  .next (s.serve ackDegradedService)

/-! ### SET_TIME and CLEAR_FAULT (R177, R182) -/

/-- The time a SET_TIME carries. -/
def timeOf (r : Request) : Option Stamp := if r.body.length < 8 then none else some (BitVec.ofNat 64 (beAt r.body 0 8))

/-- The plant clock is loaded (R177). -/
def setClock (_ : Request) (t : Stamp) (s : State) : Reply × State := accepted (s.updTku fun k => { k with clock := t })

/-- SET_TIME (R177). -/
def execSetTime (s : State) : Host.Outcome State Fault Refusal := .next (s.serve (promptly 11 .engineer timeOf setClock))

/-- The fault record is emptied; the reply carries what it held (R182). -/
def emptyFault (_ : Request) (_ : Unit) (s : State) : Reply × State :=
  ({ reason := .ok, contents := encFault s.mgt.fault s.mgt.lost },
    s.updMgt fun m => { m with fault := none, lost := 0 })

/-- CLEAR_FAULT (R182). -/
def execClearFault (s : State) : Host.Outcome State Fault Refusal := .next (s.serve (promptly 13 .engineer (atLeast 0) emptyFault))

end Sys2Proof.Machine
end

