-- ==== Sys2Proof/Machine/Queries.lean ====
section
/-! DEFINITION. Requests on pieces and playback: queries, FETCH, RELEASE, PIN, UNPIN, RETIRE (R98, R99, R131 to R134, R142 to R144, R176). -/

namespace Sys2Proof.Machine

/-! ### Piece names (Fig. 11.4) -/

/-- The piece name at the start of a body; nothing for a selector outside Fig. 11.4 or a tag with a character outside the
tag set (R132, R192). The field the selector does not choose is ignored. A tag of spaces alone holds no such character and is
looked up as any other (log 25). -/
def pieceNameOf (bs : List Byte) : Option PieceName :=
  match u8At bs 0 with
  | 1 => if tagCharsOk (tagAt bs 1) then some (.byTag (tagAt bs 1)) else none
  | 2 => some (.byRef (refAt bs 17))
  | _ => none

/-- GLU finds a named piece (R133, R144). -/
def State.findPiece (s : State) (n : PieceName) : Option PieceRef × State :=
  match n with
  | .byTag t =>
    let (m, s) := s.lookupTag t
    (m.map Prod.fst, s)
  | .byRef r => (if s.isCurrent r then some r else none, s)

/-! ### QUERY_TREND and QUERY_GENEALOGY (R132 to R134) -/

/-- The channels of a list of `n` at an offset; nothing where one is repeated. -/
def channelList (bs : List Byte) (off : Nat) (n : Nat) : Option (List ChanId) :=
  let cs : List ChanId := (List.range n).map fun i => (byteAt bs (off + i)).toFin
  if decide cs.Nodup then some cs else none

/-- The selection of a trend query (R132, Fig. 11.4). -/
def selectionOf (bs : List Byte) : Option Selection :=
  match u8At bs 28 with
  | 1 =>
    let n := u8At bs 30
    if n = 0 ∨ 8 < n then none else (channelList bs 31 n).map Selection.channels
  | 2 =>
    let ls := allLines.filter fun l => (byteAt bs 29).getLsbD l.val
    if ls.isEmpty then none else some (.lines ls)
  | _ => none

/-- The parameters of a trend query; nothing where a check of R132 fails. -/
def trendOf (bs : List Byte) : Option (PieceName × Query) :=
  if bs.length < 44 then none
  else
    let x0 := u32At bs 20
    let x1 := u32At bs 24
    let depth := u8At bs 39
    let res := u32At bs 40
    match pieceNameOf bs, selectionOf bs with
    | some n, some sel =>
      if Config.lengthMax < x0 ∨ Config.lengthMax < x1 ∨ x1 ≤ x0 ∨ 7 < depth ∨ 1000000 < res then none
      else some (n, .trend x0 x1 sel depth res)
    | _, _ => none

/-- The direction of a genealogy query: true for ANCESTORS. -/
def ancestorsOf : Nat → Option Bool
  | 1 => some true
  | 2 => some false
  | _ => none

/-- The parameters of a genealogy query; nothing where a check of R132 fails. -/
def genealogyOf (bs : List Byte) : Option (PieceName × Query) :=
  if bs.length < 22 then none
  else
    let depth := u8At bs 21
    match pieceNameOf bs, ancestorsOf (u8At bs 20) with
    | some n, some up => if depth < 1 ∨ 7 < depth then none else some (n, .genealogy up depth)
    | _, _ => none

/-- The context a query takes: the lowest-numbered FREE one as it stood when PBK took the query, which may have waited for GLU since
(R132, R133). -/
def State.queryContext? (s : State) : Option CtxId := (s.mgt.passed.bind Prod.snd).orElse fun _ => s.freeContext?

/-- The reply that carries a ticket (R133). -/
def ticketReply (i : CtxId) (g : Gen) : Reply := { reason := .ok, contents := be 1 i.val ++ [g] }

/-- A context enters FAILED (R133, R140, R149). -/
def State.failContext (s : State) (i : CtxId) (c : Context) (f : Failure) : State :=
  (s.updContext i fun _ => { c with state := .failed, failure := f, hold := s.stc.entry.holdCount }).countPbk fun k =>
    { k with failed := sat k.failed 1 }

/-- A context enters DRAINING with its piece pinned and its marks taken, and its marks are tested (R133 to R135). -/
def State.drainContext (s : State) (i : CtxId) (c : Context) (r : PieceRef) : State :=
  let (counted, s) := s.implicitPin r
  let s := s.updContext i fun _ =>
    { c with state := .draining, piece := r, pinCounted := counted, marks := s.drainMarks }
  (s.countPbk fun k => { k with accepted := sat k.accepted 1 }).testDrain i

/-- A query whose parameters pass is given a context, or BUSY (R132, R133). -/
def State.acceptQuery (s : State) (r : Request) (n : PieceName) (q : Query) : Reply × State :=
  match s.queryContext? with
  | none => ({ reason := .busy }, s.countPbk fun k => { k with busy := sat k.busy 1 })
  | some i =>
    let c : Context := { gen := (s.context i).gen, source := r.src, port := r.port, name := some n, query := some q }
    let reply := ticketReply i c.gen
    match s.findPiece n with
    | (none, s) => (reply, s.failContext i c .noPiece)
    | (some p, s) =>
      match n with
      | .byTag _ => (reply, s.drainContext i c p)
      | .byRef _ =>
        match s.gluRecord p.idx with
        | (some _, s) => (reply, s.drainContext i c p)
        | (none, s) => (reply, s.failContext i { c with piece := p } .damagedRecord)

/-- A query as PBK takes it (R132). -/
def takeQuery (r : Request) (q : PieceName × Query) (s : State) : Reply × State := s.acceptQuery r q.1 q.2

/-- How a query is served: PBK refuses its parameters, and answers BUSY, without GLU; else GLU finds and pins the piece in its turn,
and the drain marks are taken with that claim (R132 to R134, R176, log 15). -/
def queryService (code : Nat) (parse : List Byte → Option (PieceName × Query)) : Service (PieceName × Query) :=
  { fits := Request.is code, role := .view, form := fun r => parse r.body,
    taker := fun _ _ s => if s.freeContext?.isNone then .prompt else .glu, act := takeQuery,
    waits := fun _ _ s t => if s.freeContext?.isNone || t.glu.waiting.isEmpty then none else some .writes }

/-- QUERY_TREND (R132). -/
def execQueryTrend (s : State) : Host.Outcome State Fault Refusal := .next (s.serve (queryService 4 trendOf))

/-- QUERY_GENEALOGY (R132). -/
def execQueryGenealogy (s : State) : Host.Outcome State Fault Refusal := .next (s.serve (queryService 5 genealogyOf))

/-! ### FETCH and RELEASE (R131, R142, R143) -/

/-- The context a ticket at the start of a body names, where the ticket is current for the source (R131). -/
def State.ticketContext (s : State) (r : Request) : Option CtxId :=
  match ctxId? (u8At r.body 0) with
  | none => none
  | some i =>
    let c := s.context i
    if c.gen = byteAt r.body 1 ∧ c.state ≠ .free ∧ c.source = r.src then some i else none

/-- The answer NOT_READY: phase, lines outstanding, place, walk position, pages held (Figs. 7.3, 11.4). -/
def notReady (phase outstanding place walked held : Nat) : Reply :=
  { reason := .notReady, contents := be 1 phase ++ be 1 outstanding ++ be 1 place ++ be 2 walked ++ be 2 held }

/-- The answer for a context being or to be assembled (Fig. 7.3). -/
def State.assemblingReply (s : State) (i : CtxId) : Reply :=
  match s.pbk.asmQueue.findIdx? fun j => j == i with
  | some k => notReady 2 0 (k + 1) 0 0
  | none => notReady 2 0 0 (s.context i).walkPos (s.context i).pages.length

/-- The request code of a query (Fig. 11.4). -/
def Context.queryCode (c : Context) : Byte :=
  match c.query with
  | some (.trend _ _ _ _ _) => 4
  | some (.genealogy _ _) => 5
  | none => 0

/-- The hold starts again (R142). -/
def State.restartHold (s : State) (i : CtxId) : State := s.updContext i fun c => { c with hold := s.stc.entry.holdCount }

/-- A FETCH of a READY context (R142). -/
def State.fetchPage (s : State) (i : CtxId) (n : Nat) : Reply × State :=
  let c := s.context i
  let total := be 2 c.pages.length
  match c.pages[n]? with
  | none => ({ reason := .pageRange, contents := total ++ [c.flagByte] }, s.restartHold i)
  | some p =>
    ({ reason := .ok,
       contents := [c.queryCode] ++ be 1 n ++ total ++ [c.flagByte] ++ s.pageBytes (p * Config.pageBytes) Config.pageBytes },
      (s.restartHold i).countPbk fun k => { k with fetched := sat k.fetched 1 })

/-- The reason a FAILED context gives (R142). -/
def Failure.reason : Failure → Reason
  | .noPiece => .noPiece
  | .damagedRecord => .damagedRecord

/-- FETCH as PBK takes it (R142, Fig. 7.3). What Fig. 7.3 does not name for a phase is sent as 0 (log 21). -/
def takeFetch (r : Request) (_ : Unit) (s : State) : Reply × State :=
  match s.ticketContext r with
  | none => refuse .unknownTicket s
  | some i =>
    match (s.context i).state with
    | .draining => (notReady 1 (s.outstanding (s.context i)).length 0 0 0, s)
    | .assembling => (s.assemblingReply i, s)
    | .ready => s.fetchPage i (u8At r.body 2)
    | .failed => refuse (s.context i).failure.reason s
    | .free => refuse .unknownTicket s

/-- Whether the engine is at work on a context. -/
def State.assembling (s : State) (i : CtxId) : Bool := s.pbk.engine.any fun e => decide (e.ctx = i)

/-- RELEASE frees a context; an engine whose walk it ends takes the next context (R136, R143). -/
def State.releaseContext (s : State) (i : CtxId) : State :=
  if s.assembling i then (s.freeContext i).takeNext else s.freeContext i

/-- RELEASE as PBK takes it (R143). -/
def takeRelease (r : Request) (_ : Unit) (s : State) : Reply × State :=
  match s.ticketContext r with
  | none => refuse .unknownTicket s
  | some i => accepted ((s.releaseContext i).countPbk fun k => { k with released := sat k.released 1 })

/-- FETCH (R142). -/
def execFetch (s : State) : Host.Outcome State Fault Refusal := .next (s.serve (promptly 6 .view (atLeast 3) takeFetch))

/-- RELEASE (R143). -/
def execRelease (s : State) : Host.Outcome State Fault Refusal := .next (s.serve (promptly 7 .view (atLeast 2) takeRelease))

/-! ### PIN, UNPIN and RETIRE (R98, R99, R144) -/

/-- The piece a claim names. -/
def Request.claims (r : Request) : Option PieceName := if r.body.length < 20 then none else pieceNameOf r.body

/-- A claim on a named piece, with the reply of an accepted one: the reference and the pin count (R144). -/
def takeClaim (claim : State → PieceRef → Reason × State) (_ : Request) (n : PieceName) (s : State) : Reply × State :=
  match s.findPiece n with
  | (none, s) => refuse .noPiece s
  | (some p, s) =>
    match claim s p with
    | (.ok, s) => ({ reason := .ok, contents := encRef p ++ be 1 (s.pieceDir p.idx).pins }, s)
    | (x, s) => refuse x s

/-- How PIN and UNPIN are served. -/
def pinService : Service PieceName := throughGlu 8 .view Request.claims (takeClaim State.gluPin)
def unpinService : Service PieceName := throughGlu 9 .view Request.claims (takeClaim State.gluUnpin)

/-- PIN (R98). -/
def execPin (s : State) : Host.Outcome State Fault Refusal := .next (s.serve pinService)

/-- UNPIN (R98). -/
def execUnpin (s : State) : Host.Outcome State Fault Refusal := .next (s.serve unpinService)

/-- The piece reference a RETIRE names. -/
def Request.retires (r : Request) : Option PieceRef := if r.body.length < 3 then none else some (refAt r.body 0)

/-- RETIRE as GLU takes it (R99). -/
def takeRetire (_ : Request) (p : PieceRef) (s : State) : Reply × State :=
  let (x, s) := s.gluRetire p
  refuse x s

/-- How RETIRE is served. -/
def retireService : Service PieceRef := throughGlu 10 .engineer Request.retires takeRetire

/-- RETIRE (R99). -/
def execRetire (s : State) : Host.Outcome State Fault Refusal := .next (s.serve retireService)

end Sys2Proof.Machine
end

