-- ==== Sys2Proof/Machine/Relay.lean ====
section
/-! DEFINITION. The Port Relay: links, transmit queues, reception and the request queue's intake (R1 to R5, R170). -/

namespace Sys2Proof.Machine

/-- The other port. -/
def otherPort : PortId → PortId
  | .A => .B
  | .B => .A

/-- The length of a frame on the wire: two addresses, two type bytes, what follows, and the 4-byte frame check sequence
(PRESUMED Ethernet, log 19). -/
def wireLength (f : Frame) : Nat := 18 + f.payload.length

/-- MGT's intake of a management frame addressed to the station address (R170): too short a frame is counted
REQUEST_MALFORMED, one at a full queue or in a warm reset REQUEST_DROP, any other joins the queue; each sets the alert
port when it comes from the loaded alert destination. -/
def State.intake (s : State) (p : PortId) (f : Frame) : State :=
  let s := s.updMgt fun m =>
    if m.alertLoaded && f.src == m.alertAddr then { m with alertPort := some p } else m
  if f.payload.length < 4 then
    s.countMgt fun c => { c with requestMalformed := sat c.requestMalformed 1 }
  else if s.inWarmReset || decide (Config.requestCapacity ≤ s.mgt.requests.length) then
    s.countMgt fun c => { c with requestDrop := sat c.requestDrop 1 }
  else
    let r : Request :=
      { src := f.src, port := p, version := byteAt f.payload 0, code := byteAt f.payload 1,
        tag := BitVec.ofNat 16 (u16At f.payload 2), body := f.payload.drop 4 }
    s.updMgt fun m => { m with requests := m.requests ++ [r] }

/-- PRL takes a frame received whole (R1): in a cold reset it passes by the bypass path and touches nothing (R4). -/
def State.receive (s : State) (p : PortId) (ok : Bool) (f : Frame) : State :=
  if s.inColdReset then s
  else if !ok || decide (wireLength f < 64) || decide (2000 < wireLength f) then
    s.updPort p fun q => { q with rxError := sat q.rxError 1 }
  else if f.etype = Config.managementType ∧ f.dst = s.station then s.intake p f
  else
    let t := s.transmit (otherPort p) f
    if f.etype = s.prl.processType ∧ s.isRunning then
      t.updFcl fun c => { c with copies := c.copies ++ [f.payload] }
    else t

/-- A port's link goes DOWN (R3): the held frames are discarded, one LINK_DROP each. In a cold reset only the physical
layer changes, and the link state is taken from it when the reset ends (R4). -/
def State.linkDown (s : State) (p : PortId) : State :=
  let s := s.updPort p fun q => { q with phys := .down }
  if s.inColdReset || (s.port p).link == .down then s
  else s.updPort p fun q => { q with link := .down, linkDrop := sat q.linkDrop q.txq.length, txq := [] }

/-- A port's link goes UP (R3): it accepts frames again, from an empty queue. -/
def State.linkUp (s : State) (p : PortId) : State :=
  let s := s.updPort p fun q => { q with phys := .up }
  if s.inColdReset || (s.port p).link == .up then s
  else s.updPort p fun q => { q with link := .up, txq := [] }

/-- LINK_DOWN (R3). -/
def execLinkDown (p : PortId) (s : State) : Host.Outcome State Fault Refusal := .next (s.linkDown p)

/-- LINK_UP (R3). -/
def execLinkUp (p : PortId) (s : State) : Host.Outcome State Fault Refusal := .next (s.linkUp p)

/-- FRAME_RECEIVED (R1, R5, R170). -/
def execFrameReceived (p : PortId) (ok : Bool) (f : Frame) (s : State) : Host.Outcome State Fault Refusal :=
  .next (s.receive p ok f)

/-- FRAME_TRANSMITTED (R2): the frame at the head of the port's transmit queue leaves; with none there, nothing does (log 1). -/
def execFrameTransmitted (p : PortId) (s : State) : Host.Outcome State Fault Refusal :=
  .next (if s.inColdReset then s else s.updPort p fun q => { q with txq := q.txq.drop 1 })

end Sys2Proof.Machine
end

