-- ==== Sys2Proof/Machine/Tables.lean ====
section
/-! DEFINITION. LOAD_ENTRY and READ_ENTRY for the nine tables (R6, R8, R15 to R18, R54, R59 to R61, R119, R172, R174, R175, R186). -/

namespace Sys2Proof.Machine

/-! ### LOAD_ENTRY in general (R171, R174, Fig. 11.5) -/

/-- A LOAD_ENTRY of a table; one with a table code outside Fig. 9.4, or without one, is any of the nine. -/
def Request.loads (table : Nat) (r : Request) : Bool :=
  r.is 1 && (u8At r.body 0 == table || u8At r.body 0 == 0 || decide (9 < u8At r.body 0))

/-- The index a LOAD_ENTRY or READ_ENTRY names. -/
def Request.index (r : Request) : Nat := u16At r.body 1

/-- What a LOAD_ENTRY of a table carries: its contents, at least `width` bytes, read by their encodings (R171, R192). -/
def Request.loaded {α : Type} (table width : Nat) (parse : List Byte → Option α) (r : Request) : Option α :=
  if u8At r.body 0 ≠ table ∨ r.body.length < 3 + width then none else parse r.body

/-- A load served by its owner: `width` is the length of the contents, `parse` reads them from offset 3 by their encodings,
and `load` is the owner's own judgement of the index and the entry (R171, R174, R192). -/
def loadService {α : Type} (table width : Nat) (taker : Request → Taker) (parse : List Byte → Option α)
    (load : Nat → α → State → Reason × State) (waits : Request → State → Option ReplyWait) : Service α :=
  { fits := Request.loads table, role := .engineer, form := Request.loaded table width parse, taker := fun r _ _ => taker r,
    act := fun r e s => ({ reason := (load r.index e s).1 }, (load r.index e s).2), waits := fun r _ _ => waits r }

/-- A load taken and answered at once. -/
def promptLoad {α : Type} (table width : Nat) (parse : List Byte → Option α) (load : Nat → α → State → Reason × State) :
    Service α :=
  loadService table width (fun _ => .prompt) parse load fun _ _ => none

/-! ### Origin (R8) -/

/-- A set of permitted kinds, where the byte is one. -/
def kindsOf (b : Byte) : Option Kinds :=
  if b.toNat < 16 then some { length := b.getLsbD 0, sample := b.getLsbD 1, joint := b.getLsbD 2, state := b.getLsbD 3 }
  else none

def parseOrigin (bs : List Byte) : Option Origin :=
  match boolAt bs 3, kindsOf (byteAt bs 7) with
  | some v, some k => some { valid := v, code := BitVec.ofNat 16 (u16At bs 4), line := u8At bs 6, kinds := k }
  | _, _ => none

/-- Whether another valid entry holds an origin code. -/
def State.codeTaken (s : State) (i : Fin 32) (code : BitVec 16) : Bool :=
  allOrigins.any fun j => j != i && s.fcl.origins[j].valid && s.fcl.origins[j].code == code

/-- FCL takes an Origin Table load: checked is false and last sequence 0 in the entry written (R8). R8 gives its refusals no order: the
model's is BAD_INDEX, BAD_VALUE (log 25). -/
def loadOrigin (n : Nat) (o : Origin) (s : State) : Reason × State :=
  if h : n < 32 then
    if o.valid && (decide (7 < o.line) || s.codeTaken ⟨n, h⟩ o.code) then (.badValue, s)
    else (.ok, s.updFcl fun f => { f with origins := f.origins.set n o })
  else (.badIndex, s)

/-! ### Line (R15, R16, R54) -/

def payoffOf : Nat → Option Payoff
  | 1 => some .headFirst
  | 2 => some .tailFirst
  | _ => none

def parseLine (bs : List Byte) : Option LineEntry :=
  match boolAt bs 3, payoffOf (u8At bs 6) with
  | some v, some p =>
    some { valid := v, shear := u8At bs 4, strands := u8At bs 5, payoff := p, settleCount := u8At bs 7,
           maxStep := u32At bs 8, maxSpeed := u16At bs 12, silenceLimit := u8At bs 14, gracePeriod := u16At bs 15 }
  | _, _ => none

/-- Whether the fields lie in the ranges of Fig. 2.1. -/
def LineEntry.inRange (e : LineEntry) : Bool :=
  decide (e.shear ≤ 11) && decide (1 ≤ e.strands) && decide (e.strands ≤ 8) && decide (1 ≤ e.settleCount)
    && decide (e.settleCount ≤ 15) && decide (1 ≤ e.maxStep) && decide (e.maxStep ≤ 1000000) && decide (1 ≤ e.maxSpeed)
    && decide (1 ≤ e.silenceLimit)

/-- The fields a line that is neither VACANT nor IDLE keeps (R15). -/
def LineEntry.sameShape (a b : LineEntry) : Bool :=
  decide (a.shear = b.shear) && decide (a.strands = b.strands) && decide (a.payoff = b.payoff)

/-- VACANT or IDLE. -/
def LineState.off : LineState → Bool
  | .vacant | .idle => true
  | _ => false

/-- The line state after an accepted load (R15). -/
def LineState.loaded (st : LineState) (valid : Bool) : LineState :=
  match st, valid with
  | .vacant, true => .idle
  | .idle, false => .vacant
  | st, _ => st

/-- A new grace period is compared with the counter of a degraded line at once (R54). -/
def State.graceLoaded (s : State) (l : LineId) (old : Nat) : State :=
  let x := s.line l
  if x.entry.gracePeriod ≠ old ∧ x.state.degraded = true ∧ x.sup.acked = false ∧ x.entry.gracePeriod ≠ 0
      ∧ x.entry.gracePeriod = x.sup.grace then (s.suspend l).testDrains
  else s

/-- LTK takes a Line Table load (R15, R16, R54). R15 gives its refusals no order: the model's is BAD_INDEX, BAD_VALUE,
LINE_ACTIVE (log 25). -/
def loadLine (n : Nat) (e : LineEntry) (s : State) : Reason × State :=
  match lineId? n with
  | none => (.badIndex, s)
  | some l =>
    let x := s.line l
    if e.valid && !e.inRange then (.badValue, s)
    else if !x.state.off && (!e.valid || !e.sameShape x.entry) then (.lineActive, s)
    else
      (.ok, (s.updLine l fun x => { x with entry := e, state := x.state.loaded e.valid }).graceLoaded l
        x.entry.gracePeriod)

/-! ### Station (R17, R18) -/

def parseStation (bs : List Byte) : Option (Bool × Nat) := (boolAt bs 3).map fun v => (v, u32At bs 4)

/-- The lowest joint above a watch position (R18). -/
def Line.firstJointAbove (x : Line) (w : Int) : Option Nat :=
  (x.chain.find? fun j => decide (w < (j.axis : Int))).map fun j => j.axis

/-- A content load stored as pending content: its watch position and trigger are those of the moment (R18). -/
def Line.storePending (x : Line) (st : Fin 12) (content : Nat) : Line :=
  let w := x.position st.val
  let t : Station :=
    { x.stations[st] with pending := some { content := content, watch := w, trigger := x.firstJointAbove w } }
  { x with stations := x.stations.set st t }

/-- LTK takes a Station Table load (R17, R18). R17 gives its refusals no order: the model's is BAD_INDEX, BAD_VALUE, LINE_ACTIVE
(log 25). -/
def loadStation (n : Nat) (e : Bool × Nat) (s : State) : Reason × State :=
  match lineId? (n / 12) with
  | none => (.badIndex, s)
  | some l =>
    let st : Fin 12 := ⟨n % 12, Nat.mod_lt _ (by decide)⟩
    let x := s.line l
    if Config.contentMax < e.2 then (.badValue, s)
    else if x.state.off then
      (.ok, s.updLine l fun x =>
        { x with stations := x.stations.set st { x.stations[st] with valid := e.1, content := e.2 } })
    else if e.1 ≠ x.stations[st].valid then (.lineActive, s)
    else (.ok, s.updLine l fun x => x.storePending st e.2)

/-! ### Channel (R59 to R61) -/

def parseChannel (bs : List Byte) : Option ChannelEntry :=
  (boolAt bs 3).map fun v =>
    { valid := v, line := u8At bs 4, station := u8At bs 5, point := u8At bs 6, pitch := u16At bs 7, low := i32At bs 9,
      high := i32At bs 13 }

/-- BAC takes a Channel Table load (R60). -/
def loadChannelAt (n : Nat) (e : ChannelEntry) (s : State) : Reason × State :=
  match chanId? n with
  | none => (.badIndex, s)
  | some c => s.loadChannel c e

/-! ### Access (R172) -/

def roleOfCode : Nat → Option Role
  | 1 => some .view
  | 2 => some .engineer
  | _ => none

def parseAccess (bs : List Byte) : Option AccessEntry :=
  match boolAt bs 3, roleOfCode (u8At bs 4) with
  | some v, some r => some { enabled := v, role := r, addr := addrAt bs 5 }
  | _, _ => none

/-- A group address: the low bit of its first byte is 1. -/
def isGroup (a : Address) : Bool := a.getLsbD 40

/-- MGT takes an Access Table load (R172): BAD_INDEX before BAD_VALUE (log 25). -/
def loadAccess (n : Nat) (e : AccessEntry) (s : State) : Reason × State :=
  if h : n < 16 then
    let taken := allAccess.any fun j => j != ⟨n, h⟩ && s.mgt.access[j].enabled && s.mgt.access[j].addr == e.addr
    if e.enabled && (e.addr == 0 || isGroup e.addr || taken) then (.badValue, s)
    else (.ok, s.updMgt fun m => { m with access := m.access.set n e })
  else (.badIndex, s)

/-! ### Store (R119) -/

def parseStore (bs : List Byte) : Option StoreEntry :=
  some { lowWater := u16At bs 3, scanLength := u16At bs 5, holdCount := u8At bs 7 }

/-- STC takes a Store table load (R119). R119 gives its refusals no order: the model's is BAD_INDEX, BAD_VALUE (log 25). -/
def loadStore (n : Nat) (e : StoreEntry) (s : State) : Reason × State :=
  if n ≠ 0 then (.badIndex, s)
  else if e.lowWater < 16 ∨ e.scanLength < 1 ∨ 256 < e.scanLength ∨ e.holdCount < 1 then (.badValue, s)
  else (.ok, s.updStc fun t => { t with entry := e })

/-! ### Tick (R186) -/

def modeOf : Nat → Option TickMode
  | 1 => some .oneShot
  | 2 => some .reload
  | _ => none

/-- The contents of a Tick table entry. -/
structure TickLoad where
  period : Nat
  mode : TickMode
  cascade : Bool
deriving DecidableEq, Repr

def parseTick (bs : List Byte) : Option TickLoad :=
  match modeOf (u8At bs 5), boolAt bs 6 with
  | some m, some c => some { period := u16At bs 3, mode := m, cascade := c }
  | _, _ => none

/-- A counter's loaded values (R186). -/
def Counter.load (c : Counter) (e : TickLoad) : Counter :=
  { c with loaded := e.period, loadedMode := e.mode, loadedCascade := e.cascade }

/-- TKU takes a Tick table load (R186): BAD_INDEX before BAD_VALUE (log 25). -/
def loadTick (n : Nat) (e : TickLoad) (s : State) : Reason × State :=
  if 2 < n then (.badIndex, s)
  else if e.period = 0 ∨ 4095 < e.period ∨ (n < 2 ∧ (e.mode = .oneShot ∨ e.cascade = true)) then (.badValue, s)
  else if n = 0 then (.ok, s.updTku fun t => { t with reckon := t.reckon.load e })
  else if n = 1 then (.ok, s.updTku fun t => { t with hold := t.hold.load e })
  else (.ok, s.updTku fun t => { t with sweep := t.sweep.load e })

/-! ### Alert and process EtherType (R6, R175) -/

def parseAlert (bs : List Byte) : Option (Bool × Address) := (boolAt bs 3).map fun v => (v, addrAt bs 4)

/-- MGT takes an Alert table load (R175): BAD_INDEX before BAD_VALUE (log 25). -/
def loadAlert (n : Nat) (e : Bool × Address) (s : State) : Reason × State :=
  if n ≠ 0 then (.badIndex, s)
  else if e.1 && e.2 == 0 then (.badValue, s)
  else (.ok, s.updMgt fun m => { m with alertLoaded := e.1, alertAddr := e.2, alertPort := none })

def parseEthertype (bs : List Byte) : Option (BitVec 16) := some (BitVec.ofNat 16 (u16At bs 3))

/-- PRL takes a process EtherType load (R6). R6 gives its refusals no order: the model's is BAD_INDEX, BAD_VALUE (log 25). -/
def loadEthertype (n : Nat) (e : BitVec 16) (s : State) : Reason × State :=
  if n ≠ 0 then (.badIndex, s)
  else if e = Config.managementType ∨ e.toNat < 0x0600 then (.badValue, s)
  else (.ok, s.updPrl fun p => { p with processType := e })

/-! ### The nine loads -/

/-- LOAD_ORIGIN_ENTRY (R8). -/
def execLoadOriginEntry (s : State) : Host.Outcome State Fault Refusal :=
  .next (s.serve (promptLoad 1 5 parseOrigin loadOrigin))

/-- How a Line Table load is served. One that suspends the line is answered after the suspension (R174). -/
def lineLoad : Service LineEntry :=
  loadService 2 14 (fun r => takerOf r.index) parseLine loadLine fun r s => if s.namesHeld r.index then some .calls else none

/-- How a Station Table load is served. -/
def stationLoad : Service (Bool × Nat) :=
  loadService 3 5 (fun r => takerOf (r.index / 12)) parseStation loadStation fun _ _ => none

/-- LOAD_LINE_ENTRY (R15). -/
def execLoadLineEntry (s : State) : Host.Outcome State Fault Refusal := .next (s.serve lineLoad)

/-- LOAD_STATION_ENTRY (R17). -/
def execLoadStationEntry (s : State) : Host.Outcome State Fault Refusal := .next (s.serve stationLoad)

/-- LOAD_CHANNEL_ENTRY (R60). The reply waits for the seal of R108. -/
def execLoadChannelEntry (s : State) : Host.Outcome State Fault Refusal :=
  .next (s.serve (loadService 4 14 (fun _ => .prompt) parseChannel loadChannelAt fun _ s =>
    if s.stc.waitingSeal.isSome then some .seal else none))

/-- LOAD_ACCESS_ENTRY (R172). -/
def execLoadAccessEntry (s : State) : Host.Outcome State Fault Refusal :=
  .next (s.serve (promptLoad 5 8 parseAccess loadAccess))

/-- LOAD_STORE_ENTRY (R119). -/
def execLoadStoreEntry (s : State) : Host.Outcome State Fault Refusal :=
  .next (s.serve (promptLoad 6 5 parseStore loadStore))

/-- LOAD_TICK_ENTRY (R186). -/
def execLoadTickEntry (s : State) : Host.Outcome State Fault Refusal :=
  .next (s.serve (promptLoad 7 4 parseTick loadTick))

/-- LOAD_ALERT_ENTRY (R175). -/
def execLoadAlertEntry (s : State) : Host.Outcome State Fault Refusal :=
  .next (s.serve (promptLoad 8 7 parseAlert loadAlert))

/-- LOAD_PROCESS_ETHERTYPE (R6). -/
def execLoadProcessEthertype (s : State) : Host.Outcome State Fault Refusal :=
  .next (s.serve (promptLoad 9 2 parseEthertype loadEthertype))

/-! ### READ_ENTRY (R174, Fig. 11.5) -/

def Origin.bytes (o : Origin) : List Byte :=
  encBool o.valid ++ be 2 o.code.toNat ++ be 1 o.line ++ [o.kinds.code] ++ encBool o.checked ++ be 2 o.lastSeq.toNat

def LineEntry.bytes (e : LineEntry) : List Byte :=
  encBool e.valid ++ be 1 e.shear ++ be 1 e.strands ++ [e.payoff.code] ++ be 1 e.settleCount ++ be 4 e.maxStep
    ++ be 2 e.maxSpeed ++ be 1 e.silenceLimit ++ be 2 e.gracePeriod

def Pending.bytes (p : Pending) : List Byte :=
  be 4 p.content ++ encAxis p.watch ++ encOpt 5 (fun a : Nat => encAxis a) p.trigger

def Station.bytes (t : Station) : List Byte :=
  encBool t.valid ++ be 4 t.content ++ encOpt 15 Pending.bytes t.pending

def ChannelEntry.bytes (e : ChannelEntry) : List Byte :=
  encBool e.valid ++ be 1 e.line ++ be 1 e.station ++ be 1 e.point ++ be 2 e.pitch ++ beInt 4 e.low ++ beInt 4 e.high

/-- A channel with its further items, the directory among them (R59, R110). -/
def State.channelBytes (s : State) (c : ChanId) : List Byte :=
  let x := s.chan c
  let dir := (s.chanStore c).dir
  x.entry.bytes ++ [x.gen] ++ encOpt 5 (fun a : Nat => be 5 a) x.frontier ++ encOpt 5 (fun n : Nat => be 5 n) x.lastHanded
    ++ encOpt 9 (fun b : OpenBin => be 5 b.num ++ be 4 b.data.count) x.openBin ++ be 4 dir.length
    ++ encOpt 4 (fun b : Nat => be 4 b) dir.head?

def AccessEntry.bytes (e : AccessEntry) : List Byte := encBool e.enabled ++ [e.role.code] ++ encAddr e.addr

def StoreEntry.bytes (e : StoreEntry) : List Byte := be 2 e.lowWater ++ be 2 e.scanLength ++ be 1 e.holdCount

/-- The contents of a Tick table entry and the items every counter reports (R186). -/
def Counter.bytes (c : Counter) : List Byte :=
  be 2 c.loaded ++ [c.loadedMode.code] ++ encBool c.loadedCascade ++ be 2 c.period ++ be 2 c.count ++ encBool c.running

/-- The further items of SWEEP (R186). -/
def TKU.sweepBytes (t : TKU) : List Byte :=
  t.sweep.bytes ++ [t.sweep.mode.code] ++ encBool t.sweep.cascade ++ encBool t.sweepDue ++ be 4 t.sweepLag

def TKU.bytesAt (t : TKU) : Nat → Option (List Byte)
  | 0 => some t.reckon.bytes
  | 1 => some t.hold.bytes
  | 2 => some t.sweepBytes
  | _ => none

/-- The bytes an owner returns for a table entry: nothing where the index is out of range (R174). -/
def State.entryBytes (s : State) (table n : Nat) : Option (List Byte) :=
  match table with
  | 1 => if h : n < 32 then some (s.fcl.origins[n].bytes) else none
  | 2 => (lineId? n).map fun l => (s.line l).entry.bytes
  | 3 => (lineId? (n / 12)).map fun l => ((s.line l).stations[n % 12]'(Nat.mod_lt _ (by decide))).bytes
  | 4 => (chanId? n).map s.channelBytes
  | 5 => if h : n < 16 then some (s.mgt.access[n].bytes) else none
  | 6 => if n = 0 then some s.stc.entry.bytes else none
  | 7 => s.tku.bytesAt n
  | 8 => if n = 0 then some (encBool s.mgt.alertLoaded ++ encAddr s.mgt.alertAddr ++ encPort s.mgt.alertPort) else none
  | 9 => if n = 0 then some (be 2 s.prl.processType.toNat) else none
  | _ => none

/-- The table a READ_ENTRY names (Fig. 9.4). -/
def Request.reads (r : Request) : Option Nat :=
  if r.body.length < 3 ∨ u8At r.body 0 = 0 ∨ 9 < u8At r.body 0 then none else some (u8At r.body 0)

/-- A READ_ENTRY as its owner answers it; it changes nothing (R174). -/
def readTable (r : Request) (table : Nat) (s : State) : Reply × State :=
  match s.entryBytes table r.index with
  | none => refuse .badIndex s
  | some bs => ({ reason := .ok, contents := bs }, s)

/-- Which block answers a READ_ENTRY: LTK for its two tables, between two events of the line (R81). -/
def Request.reader (r : Request) : Taker :=
  match u8At r.body 0 with
  | 2 => takerOf r.index
  | 3 => takerOf (r.index / 12)
  | _ => .prompt

/-- How READ_ENTRY is served. -/
def readService : Service Nat := { promptly 2 .view Request.reads readTable with taker := fun r _ _ => r.reader }

/-- READ_ENTRY (R174). -/
def execReadEntry (s : State) : Host.Outcome State Fault Refusal := .next (s.serve readService)

end Sys2Proof.Machine
end

