-- ==== Sys2Proof/Machine/StatusReplies.lean ====
section
/-! DEFINITION. STATUS: the six sections (R178, Fig. 9.5). Widths, groupings and codes the figures do not give
are the model's choice (log 21). -/

namespace Sys2Proof.Machine

/-- Counters in a figure's order, 4 bytes each (R192). -/
def encCounters (ns : List Nat) : List Byte := ns.flatMap (be 4)

/-- The counters of Fig. 9.7. -/
def MgtCounters.list (c : MgtCounters) : List Nat :=
  [c.requestsTaken, c.requestDrop, c.requestMalformed, c.accessDrop, c.unknownRequest, c.notPermitted, c.refused,
   c.loadsAccepted, c.faultsRaised, c.alertsSent, c.restarts]

/-- PART. DESIGN CHOICE (log 21): the alert destination stands behind a presence byte, absent while none is loaded. -/
def State.statusPart (s : State) : List Byte :=
  encAddr s.station ++ encStamp s.tku.clock ++ encFault s.mgt.fault s.mgt.lost ++ encBool s.commissioning
    ++ be 1 s.mgt.requests.length ++ encOpt 6 encAddr (if s.mgt.alertLoaded then some s.mgt.alertAddr else none)
    ++ encPort s.mgt.alertPort ++ encCounters s.mgt.counters.list ++ encCounters [s.fcl.malformed, s.fcl.unknownOrigin]
    ++ be 2 s.prl.processType.toNat ++ s.tku.reckon.bytes ++ s.tku.hold.bytes ++ s.tku.sweepBytes

/-- PORTS (R178, Fig. 9.5). DESIGN CHOICE (log 21): the six counters stand grouped by port, port A's RX_ERROR, TX_DROP and LINK_DROP
and then port B's; Fig. 9.5 and R192 do not say whether they stand so or grouped by counter. -/
def State.statusPorts (s : State) : List Byte :=
  let a := s.prl.portA
  let b := s.prl.portB
  [a.link.code, b.link.code] ++ be 1 a.txq.length ++ be 1 b.txq.length
    ++ encCounters [a.rxError, a.txDrop, a.linkDrop, b.rxError, b.txDrop, b.linkDrop]

/-- The items of Fig. 3.1. -/
def Supervision.bytes (x : Supervision) : List Byte :=
  be 1 x.silence ++ be 2 x.reckonSpeed ++ be 2 x.remainder ++ beInt 6 x.anchor ++ be 6 x.gap ++ be 2 x.grace ++ encBool x.acked

/-- The line counters of Figs. 1.5, 2.6, 3.2 and 4.5, in that order. -/
def LineCounters.list (c : LineCounters) : List Nat :=
  [c.lineOff, c.duplicate, c.gap, c.stale, c.kindRefused, c.badTag, c.overrun, c.queueDiscard,
   c.welds, c.cuts, c.chainFull, c.cutOrder, c.badStrands, c.jump, c.reverseOver, c.binDiscard,
   c.lengthLost, c.holdbackDrop, c.lineSuspended,
   c.accepted, c.unmapped, c.preHead, c.behind, c.outOfRange, c.binsHanded, c.binLost]

/-- LINE, with the horizon STC gives. DESIGN CHOICE (log 21): the open output boundary and the feeding input, which R35 lets be absent and
Fig. 9.5 does not mark optional, each stand behind a presence byte; the open outputs are the list of their references in strand order,
after its count byte. -/
def Line.statusBytes (x : Line) (horizon : Nat) : List Byte :=
  [x.state.code] ++ be 5 x.axis ++ be 4 x.lengthRef.toNat ++ be 2 x.lastSpeed ++ be 4 x.reverseDebt ++ encBool x.reverseOver
    ++ encBool x.refMissing ++ encBool x.parkedLength ++ be 5 x.headMark ++ x.sup.bytes ++ be 1 x.chain.length
    ++ encOpt 5 (fun a : Nat => be 5 a) x.boundary ++ encOpt 3 encRef x.feeding ++ be 1 x.outputs.length
    ++ x.outputs.flatMap encRef ++ be 1 x.queue.length ++ be 4 x.newest.toNat ++ be 4 x.lastTaken.toNat
    ++ encBool x.gapPending ++ be 5 horizon ++ encCounters x.counters.list

/-- GENEALOGY. -/
def State.statusGenealogy (s : State) : List Byte :=
  let c := s.glu.counters
  be 2 s.glu.freePieces.length ++ be 2 s.glu.closeList.length ++ be 4 s.glu.freeSegments.length
    ++ be 4 s.glu.freeGroups.length
    ++ encCounters [c.tagIndexFull, c.tagOpen, c.useLimit, c.pieceTableFull, c.segmentFull, c.linkFull, c.pieceTableLow,
                 c.autoRetired, c.retired]

/-- The region table of Fig. 6.1: of its columns the offsets from and to, without the size, which is their difference (log 21). -/
def regionTable : List (Nat × Nat) :=
  [(Config.blockBase, Config.recordBase), (Config.recordBase, Config.segmentBase), (Config.segmentBase, Config.groupBase),
   (Config.groupBase, Config.tagBase), (Config.tagBase, Config.directoryBase), (Config.directoryBase, Config.spareBase),
   (Config.spareBase, Config.dramEnd)]

/-- STORE. The rows of the region table stand without a count byte before them (log 21). -/
def State.statusStore (s : State) : List Byte :=
  let c := s.stc.counters
  be 4 s.stc.freeBlocks.length ++ be 4 s.stc.ageQueue.length ++ be 2 s.stc.writeQueue.length ++ be 2 s.stc.greatest
    ++ be 2 s.stc.scrubPointer.toNat ++ (regionTable.flatMap fun r => be 5 r.1 ++ be 5 r.2)
    ++ encCounters [c.allocated, c.storeFull, c.blocksReclaimed, c.reclaimBlocked, c.corrected, c.uncorrectable, c.poisoned,
                 c.scrubCorrected, c.scrubUncorrectable, c.scrubSteps, c.scrubPasses]

/-- The kind of a context's request (R130). DESIGN CHOICE (log 21): its request code of Fig. 11.4, and 0 where it holds none. -/
def queryKindCode (c : Context) : Byte :=
  match c.query with
  | some (.trend _ _ _ _ _) => 4
  | some (.genealogy _ _) => 5
  | none => 0

/-- What STATUS reports of a context (R130), its walk position last (R158, log 21). The requester and kind of a FREE one are zeros. -/
def Context.statusBytes (c : Context) : List Byte :=
  [c.state.code, c.gen] ++ encAddr c.source ++ encPort (if c.state = .free then none else some c.port)
    ++ [queryKindCode c] ++ be 2 c.pages.length ++ [c.flagByte] ++ be 1 c.hold
    ++ be 2 c.walkPos

/-- PLAYBACK. The items of the 16 contexts stand without a count byte before them (log 21). -/
def State.statusPlayback (s : State) : List Byte :=
  let c := s.pbk.counters
  (allContexts.flatMap fun i => (s.context i).statusBytes) ++ be 2 s.pbk.freePages.length ++ be 1 s.pbk.asmQueue.length
    ++ be 1 s.pbk.cache.length
    ++ encCounters [c.accepted, c.failed, c.busy, c.truncated, c.fetched, c.released, c.holdExpired, c.cacheHits,
                 c.cacheMisses, c.cacheRefetches]

/-- The section a STATUS names (Fig. 9.5). -/
def Request.section? (r : Request) : Option Nat :=
  if r.body.length < 2 ∨ u8At r.body 0 = 0 ∨ 6 < u8At r.body 0 then none else some (u8At r.body 0)

/-- STATUS as the owning blocks answer it. The horizon of LINE is read through STC (R111, R178). -/
def takeStatus (r : Request) (n : Nat) (s : State) : Reply × State :=
  let ok (bs : List Byte) : Reply × State := ({ reason := .ok, contents := bs }, s)
  match n with
  | 1 => ok s.statusPart
  | 2 => ok s.statusPorts
  | 3 =>
    (match lineId? (u8At r.body 1) with
    | none => refuse .badIndex s
    | some l =>
      let (h, s) := s.lineHorizon l
      ({ reason := .ok, contents := (s.line l).statusBytes h }, s))
  | 4 => ok s.statusGenealogy
  | 5 => ok s.statusStore
  | _ => ok s.statusPlayback

/-- Which block answers a section: LTK between two events of the line, GLU between two calls (R81, R178). -/
def Request.reporter (r : Request) : Taker :=
  match u8At r.body 0 with
  | 3 => takerOf (u8At r.body 1)
  | 4 => .glu
  | _ => .prompt

/-- How STATUS is served. -/
def statusService : Service Nat :=
  { promptly 12 .view Request.section? takeStatus with taker := fun r _ _ => r.reporter }

/-- STATUS (R178). -/
def execStatus (s : State) : Host.Outcome State Fault Refusal := .next (s.serve statusService)

end Sys2Proof.Machine
end

