-- ==== Sys2Proof/Machine/Passed.lean ====
section
/-! DEFINITION. A request MGT has passed on and whose owner could not take it at once: what becomes of it when its turn comes (R81, R82,
R171). -/

namespace Sys2Proof.Machine

/-- Whether LTK cannot take a passed request yet: the line has made a call since, which waits. -/
def State.heldFor (s : State) : Taker → Bool
  | .line l => s.lineHeld l
  | _ => false

/-- The turn of a passed request of one kind has come: its owner takes it, or it waits once more for its line. -/
def State.own {α : Type} (s : State) (k : Service α) (r : Request) : State :=
  match k.form r with
  | none => s
  | some x =>
    if s.heldFor (k.taker r x s) then s.pass r (k.taker r x s)
    else (s.settle k r x).updMgt fun m => { m with passed := none }

/-- LTK takes a passed LINE_CONTROL (Fig. 11.4). -/
def State.ownControl (s : State) (r : Request) : State :=
  match u8At r.body 1 with
  | 1 => s.own activateService r
  | 2 => s.own deactivateService r
  | 3 => s.own resetLineService r
  | _ => s.own ackDegradedService r

/-- The owner of a passed request takes it, by its code (Fig. 9.3); of the loads only those of LTK's two tables ever wait. -/
def State.ownerTakes (s : State) (r : Request) : State :=
  match r.code.toNat with
  | 1 => if u8At r.body 0 = 2 then s.own lineLoad r else s.own stationLoad r
  | 2 => s.own readService r
  | 3 => s.ownControl r
  | 4 => s.own (queryService 4 trendOf) r
  | 5 => s.own (queryService 5 genealogyOf) r
  | 8 => s.own pinService r
  | 9 => s.own unpinService r
  | 10 => s.own retireService r
  | _ => s.own statusService r

/-- The turn of the request MGT has passed on has come. -/
def State.takePassed (s : State) : State :=
  match s.mgt.passed with
  | none => s
  | some (r, _) => s.ownerTakes r

end Sys2Proof.Machine
end

