-- ==== Sys2Proof/Machine/Ticks.lean ====
section
/-! DEFINITION. The Tick Unit: the base tick, the three counters, their expiries, and the end of a scrub step (R127, R141, R185 to R191). -/

namespace Sys2Proof.Machine

/-- A counter takes one count. A counter at 0 holds an expiry not yet taken, and the count waits for it (log 14). -/
def Counter.lower (c : Counter) : Counter := if c.running then { c with count := c.count - 1 } else c

/-- An expiry is owed: the counter runs and its count has come to 0 (R187). -/
def Counter.owed (c : Counter) : Bool := c.running && c.count == 0

/-- The loaded values come into force and the counter goes on, or stops in ONE_SHOT (R187). -/
def Counter.expire (c : Counter) : Counter :=
  { c with period := c.loaded, mode := c.loadedMode, cascade := c.loadedCascade,
           count := if c.loadedMode = .reload then c.loaded else 0, running := c.loadedMode == .reload }

/-- The loaded values come into force and counting starts from the period (R189, R191). -/
def Counter.restart (c : Counter) : Counter :=
  { c with period := c.loaded, mode := c.loadedMode, cascade := c.loadedCascade, count := c.loaded, running := true }

/-- An owed RECKON expiry is delivered to LTK with the period the expired count ran (R187, R188). -/
def State.reckonOwed (s : State) : State :=
  if s.tku.reckon.owed then
    (s.updTku fun t => { t with reckon := t.reckon.expire }).takeReckon s.tku.reckon.period
  else s

/-- A SWEEP expiry sets SWEEP_DUE and starts a scrub step, or counts SWEEP_LAG (R127, R189). -/
def State.takeSweep (s : State) : State :=
  if s.tku.sweepDue then s.updTku fun t => { t with sweepLag := sat t.sweepLag 1 }
  else (s.updTku fun t => { t with sweepDue := true }).startScrub

/-- An owed SWEEP expiry is delivered (R187, R189). -/
def State.sweepOwed (s : State) : State :=
  if s.tku.sweep.owed then (s.updTku fun t => { t with sweep := t.sweep.expire }).takeSweep else s

/-- A HOLD expiry is a count of a cascaded SWEEP; an expiry SWEEP still owes comes first (R190, log 14). -/
def State.cascadeCount (s : State) : State :=
  if s.tku.sweep.cascade then s.sweepOwed.updTku fun t => { t with sweep := t.sweep.lower } else s

/-- An owed HOLD expiry is delivered to PBK and counted by a cascaded SWEEP (R187, R188, R190). -/
def State.holdOwed (s : State) : State :=
  if s.tku.hold.owed then
    ((s.updTku fun t => { t with hold := t.hold.expire }).takeHold).cascadeCount
  else s

/-- The expiries still owed, taken in the order RECKON, HOLD, SWEEP (R187, log 14). -/
def State.takeOwed (s : State) : State := s.reckonOwed.holdOwed.sweepOwed

/-- A base tick (R185): the clock rises and the counters that take base ticks are lowered. -/
def State.tick (s : State) : State :=
  s.updTku fun t =>
    { t with clock := t.clock + 1, reckon := t.reckon.lower, hold := t.hold.lower,
             sweep := if t.sweep.cascade then t.sweep else t.sweep.lower }

/-- The end of a scrub step: SWEEP_DUE is cleared, and a stopped SWEEP is restarted (R127, R189). -/
def State.scrubDone (s : State) (k : ScrubStep) : State :=
  (s.finishScrub k).updTku fun t =>
    { t with sweepDue := false, sweep := if t.sweep.running then t.sweep else t.sweep.restart }

/-- BASE_TICK (R185). An expiry owed from an earlier tick is taken first, since a counter is reloaded at once (R187, log 14). -/
def execBaseTick (s : State) : Host.Outcome State Fault Refusal :=
  .next (if s.inColdReset then s else s.takeOwed.tick)

/-- RECKON_EXPIRY (R46). -/
def execReckonExpiry (s : State) : Host.Outcome State Fault Refusal :=
  .next (if s.inColdReset then s else s.reckonOwed)

/-- HOLD_EXPIRY (R141). -/
def execHoldExpiry (s : State) : Host.Outcome State Fault Refusal :=
  .next (if s.inColdReset then s else s.holdOwed)

/-- SWEEP_EXPIRY (R189). -/
def execSweepExpiry (s : State) : Host.Outcome State Fault Refusal :=
  .next (if s.inColdReset then s else s.sweepOwed)

/-- SCRUB_STEP_COMPLETE (R127). -/
def execScrubStepComplete (s : State) : Host.Outcome State Fault Refusal :=
  .next (match s.stc.scrub with
    | some k => if s.inColdReset then s else s.scrubDone k
    | none => s)

end Sys2Proof.Machine
end

