-- ==== Sys2Proof/Machine/Resets.lean ====
section
/-! DEFINITION. Writes and waits of the store, the DRAM going wrong, and the cold and warm resets (R4, R5, R29, R81, R106, R108,
R120, R122, R123, R147, R179, R184, R191). -/

namespace Sys2Proof.Machine

/-! ### The write queue (R81, R108, R120) -/

/-- The first that waits behind GLU's writes has its turn: a call is taken, a line takes its input queue up again or, its closes
complete, goes on to the last steps of leaving the active states (R27, R56), a reply leaves, a RECKON expiry is taken, which in the
drain of a warm reset does nothing, or the owner takes the request passed to it (R29, R47, R81, R82, R171). Where the last taken number of
a line changes with it, PBK tests its marks before the next has its turn (R135, R136). -/
def State.nextWait (s : State) : State :=
  match s.glu.waits with
  | [] => s
  | w :: rest =>
    let s := s.updGlu fun g => { g with waits := rest }
    match w with
    | .call c => s.gluTakes c
    | .line _ => s.testDrains
    | .leave l k => (s.leave l k).testDrains
    | .reply => s.releaseReply
    | .reckon l period => if s.phase = .warmDrain then s else (s.reckonReaches l period).testDrains
    | .request _ => s.takePassed

/-- What waits has its turn, in order, until a call leaves writes waiting again; at most `n` of it. -/
def State.runWaits (s : State) : Nat → State
  | 0 => s
  | n + 1 => if s.glu.waiting.isEmpty then s.nextWait.runWaits n else s

/-- What follows a resumption of GLU's writes: what waits behind them has its turn, and a warm reset that waited for its closes ends
(R81, R171, log 15). An expiry that suspends its line makes four more wait, the calls of the two closes, the steps after them and the line,
and the request one more with them, its reply. An expiry or request that meets its line held anew waits once more, and then makes no call,
so that six times as many turns are enough. -/
def State.gluResumed (s : State) : State :=
  let s := s.runWaits (6 * s.glu.waits.length)
  if s.phase = .warmClear ∧ s.gluBusy = false then { s with phase := .running } else s

/-- WRITE_COMPLETE (R120). -/
def execWriteComplete (s : State) : Host.Outcome State Fault Refusal :=
  .next (if s.inColdReset then s else s.writeHead)

/-- GLU_WRITE_RESUMED (R81). -/
def execGluWriteResumed (s : State) : Host.Outcome State Fault Refusal :=
  .next (if s.inColdReset || !s.gluBusy then s else s.resumeWrites.gluResumed)

/-- The drain marks are tested where bins held behind a reload seal have been taken: their events are now taken whole (R120, R135). -/
def State.offersTaken (s : State) (held : List BinOffer) : State :=
  if held.isEmpty then s else (s.updPbk fun k => { k with behindSeal := Vector.replicate 8 none }).testDrains

/-- RELOAD_SEAL_QUEUED (R108): the channel load is answered once its seal is queued. R120 has the held offers taken then too, without an
order between the two: the model takes the offers first, so that an ALERT one of them causes precedes the reply (log 27). -/
def execReloadSealQueued (s : State) : Host.Outcome State Fault Refusal :=
  .next (if s.inColdReset || s.stc.waitingSeal.isNone then s
    else
      let t := s.sealQueued
      if t.stc.waitingSeal.isNone then (t.offersTaken s.stc.heldOffers).releaseReply else t)

/-! ### Words going wrong (R105, R123) -/

/-- The wrong bits of a word after the bits `new` have gone wrong too. -/
def wrongBitsAfter (old new : List Nat) : List Nat := rising (old ++ new)

/-- DRAM_WORD_WRONG_BITS (R123): the word comes to hold the wrong bits. Outside the 4 GiB there is no word (R105). -/
def execDramWordWrongBits (word : Nat) (bits : List Nat) (s : State) : Host.Outcome State Fault Refusal :=
  if word < Config.wordCount then
    .next (s.updStc fun t =>
      { t with wrongBits := Sparse.put [] t.wrongBits word (wrongBitsAfter (Sparse.get [] t.wrongBits word) bits) })
  else .fault (.noSuchWord word)

/-! ### Cold reset (R4, R106) -/

/-- A port in a cold reset: its physical layer alone is kept (R4). -/
def Port.cold (q : Port) : Port := { phys := q.phys }

/-- Every block takes its cold-reset state; the physical links, the station address and the model's own fields stay (R4,
log 3). The DRAM is being formatted: what it held and what was wrong with it is written over (R106). -/
def State.cold (s : State) : State :=
  { State.reset with
    phase := .coldReset, station := s.station, prl := { portA := s.prl.portA.cold, portB := s.prl.portB.cold },
    fresh := s.fresh, pending := s.pending }

/-- COLD_RESET (R4). -/
def execColdReset (s : State) : Host.Outcome State Fault Refusal := .next s.cold

/-- A word that went wrong while the format ran: right again where the format wrote it afterwards, which is open (R106, log 12). -/
def State.formatWord (s : State) (w : Nat) : State :=
  let (n, s) := s.takeFresh
  if Config.formatWrittenEarly n w then s
  else s.updStc fun t => { t with wrongBits := Sparse.put [] t.wrongBits w [] }

/-- FORMAT_COMPLETE (R4, R106): the bypass opens and the link states are taken afresh. -/
def execFormatComplete (s : State) : Host.Outcome State Fault Refusal :=
  .next (if s.inColdReset then
      let s := s.forEach (s.stc.wrongBits.map (·.1)) State.formatWord
      { (s.updPrl fun p =>
          { p with portA := { p.portA with link := p.portA.phys }, portB := { p.portB with link := p.portB.phys } })
        with phase := .running }
    else s)

/-! ### Warm reset (R5, R29, R122, R147, R179, R184, R191) -/

/-- The warm reset begins: the requests left are dropped and counted, and the copies FCL has not taken are not taken any
more (R5, R179, log 7). -/
def State.beginWarm (s : State) : State :=
  let s := s.updMgt fun m =>
    { m with requests := [],
             counters := { m.counters with restarts := sat m.counters.restarts 1,
                                           requestDrop := sat m.counters.requestDrop m.requests.length } }
  { (s.updFcl fun f => { f with copies := [] }) with phase := .warmDrain }

/-- RESTART (R179): the reply is handed to PRL, and the warm reset begins. -/
def execRestart (s : State) : Host.Outcome State Fault Refusal :=
  .next (s.serve (promptly 14 .engineer (atLeast 0) fun _ _ s => accepted s.beginWarm))

/-- Nothing is left to be written: the drain phase is over (R122). -/
def State.drained (s : State) : Bool :=
  s.stc.writeQueue.isEmpty && s.stc.waiters.isEmpty && s.stc.heldOffers.isEmpty && !s.gluBusy

/-- Every context that is not FREE is freed, no pin being released (R139, R147), in ascending number, which the manual leaves open
(log 25). -/
def State.freeContexts (s : State) : State :=
  s.forEach allContexts fun s i => if (s.context i).state = .free then s else (s.dropWalk i).vacate i

/-- A running counter is reloaded without an expiry (R191). -/
def Counter.warm (c : Counter) : Counter := if c.running then c.restart else c

/-- The clearing phase (R10, R29, R98, R122, R147, R191). The engine abandons its walk first, and the pins are 0. The lines go to IDLE
in ascending slot number, which the manual leaves open (log 25). -/
def State.warmClear (s : State) : State :=
  let s := s.freeContexts
  let s := s.updPbk fun k => { k with engine := none, asmQueue := [], cache := [] }
  let s := s.forEach allLines State.warmLine
  let s := s.uncheck none
  let s := s.updGlu fun g => { g with dir := g.dir.filterMap fun e =>
    if { e.2 with pins := 0 } = ({} : PieceDir) then none else some (e.1, { e.2 with pins := 0 }) }
  let s := s.updTku fun t => { t with reckon := t.reckon.warm, hold := t.hold.warm, sweep := t.sweep.warm }
  { s.startScrub with phase := if s.gluBusy then .warmClear else .running }

/-- WARM_RESET_CLEAR (R122). An expiry owed from a tick of the drain comes before the reload, so that none is lost (R187, R191). -/
def execWarmResetClear (s : State) : Host.Outcome State Fault Refusal :=
  .next (if s.phase = .warmDrain ∧ s.drained = true then s.takeOwed.warmClear else s)

end Sys2Proof.Machine
end

