-- ==== Sys2Proof/Machine/Dispatch.lean ====
section
/-! DEFINITION. The meaning of every command: one arm per constructor of Instr. -/

namespace Sys2Proof.Machine

def exec (i : Instr) (s : State) : Host.Outcome State Fault Refusal :=
  match i with
  | .coldReset => Sys2Proof.Machine.execColdReset s
  | .formatComplete => Sys2Proof.Machine.execFormatComplete s
  | .linkDown p => Sys2Proof.Machine.execLinkDown p s
  | .linkUp p => Sys2Proof.Machine.execLinkUp p s
  | .frameReceived p ok f => Sys2Proof.Machine.execFrameReceived p ok f s
  | .frameTransmitted p => Sys2Proof.Machine.execFrameTransmitted p s
  | .processFrameClassify => Sys2Proof.Machine.execProcessFrameClassify s
  | .lengthEvent l => Sys2Proof.Machine.execLengthEvent l s
  | .sampleEvent l => Sys2Proof.Machine.execSampleEvent l s
  | .weldEvent l => Sys2Proof.Machine.execWeldEvent l s
  | .cutEvent l => Sys2Proof.Machine.execCutEvent l s
  | .stateStopEvent l => Sys2Proof.Machine.execStateStopEvent l s
  | .stateRunEvent l => Sys2Proof.Machine.execStateRunEvent l s
  | .baseTick => Sys2Proof.Machine.execBaseTick s
  | .reckonExpiry => Sys2Proof.Machine.execReckonExpiry s
  | .holdExpiry => Sys2Proof.Machine.execHoldExpiry s
  | .sweepExpiry => Sys2Proof.Machine.execSweepExpiry s
  | .scrubStepComplete => Sys2Proof.Machine.execScrubStepComplete s
  | .writeComplete => Sys2Proof.Machine.execWriteComplete s
  | .gluWriteResumed => Sys2Proof.Machine.execGluWriteResumed s
  | .reloadSealQueued => Sys2Proof.Machine.execReloadSealQueued s
  | .assemblyStart => Sys2Proof.Machine.execAssemblyStart s
  | .storeReadComplete => Sys2Proof.Machine.execStoreReadComplete s
  | .unknownRequest => Sys2Proof.Machine.execUnknownRequest s
  | .loadOriginEntry => Sys2Proof.Machine.execLoadOriginEntry s
  | .loadLineEntry => Sys2Proof.Machine.execLoadLineEntry s
  | .loadStationEntry => Sys2Proof.Machine.execLoadStationEntry s
  | .loadChannelEntry => Sys2Proof.Machine.execLoadChannelEntry s
  | .loadAccessEntry => Sys2Proof.Machine.execLoadAccessEntry s
  | .loadStoreEntry => Sys2Proof.Machine.execLoadStoreEntry s
  | .loadTickEntry => Sys2Proof.Machine.execLoadTickEntry s
  | .loadAlertEntry => Sys2Proof.Machine.execLoadAlertEntry s
  | .loadProcessEthertype => Sys2Proof.Machine.execLoadProcessEthertype s
  | .readEntry => Sys2Proof.Machine.execReadEntry s
  | .activate => Sys2Proof.Machine.execActivate s
  | .deactivate => Sys2Proof.Machine.execDeactivate s
  | .resetLine => Sys2Proof.Machine.execResetLine s
  | .ackDegraded => Sys2Proof.Machine.execAckDegraded s
  | .queryTrend => Sys2Proof.Machine.execQueryTrend s
  | .queryGenealogy => Sys2Proof.Machine.execQueryGenealogy s
  | .fetch => Sys2Proof.Machine.execFetch s
  | .release => Sys2Proof.Machine.execRelease s
  | .pin => Sys2Proof.Machine.execPin s
  | .unpin => Sys2Proof.Machine.execUnpin s
  | .retire => Sys2Proof.Machine.execRetire s
  | .setTime => Sys2Proof.Machine.execSetTime s
  | .status => Sys2Proof.Machine.execStatus s
  | .clearFault => Sys2Proof.Machine.execClearFault s
  | .restart => Sys2Proof.Machine.execRestart s
  | .warmResetClear => Sys2Proof.Machine.execWarmResetClear s
  | .dramWordWrongBits word bits => Sys2Proof.Machine.execDramWordWrongBits word bits s

end Sys2Proof.Machine
end

