-- ==== Sys2Proof/Safety.lean ====
section
/-! DEFINITION. What it means for a command to complete, and the invariant of the part: memories in canonical form, queues
within their capacities, axes within their range; and the words the statements use. -/

namespace Sys2Proof

/-- A command that completes: its outcome is a next state. -/
def Completes (i : Instr) (s : Machine.State) : Prop := ∃ t, Machine.exec i s = .next t

namespace Machine

/-- A line within its bounds: the axis (R30), the input queue (R12) and the strip chain (R35). -/
def LineOk (x : Line) : Prop :=
  x.axis ≤ Config.axisMax ∧ x.queue.length ≤ Config.queueCapacity ∧ x.chain.length ≤ Config.chainCapacity

/-- The invariant of the part: the addressed memories are in canonical form; every line is within its bounds; the transmit
queues (R2), the request queue (R170), the Segment Cache (R160) and the store write queue (R120) hold no more than their
capacities. -/
def Inv (s : State) : Prop :=
  Memory.wf s = true ∧ (∀ l : LineId, LineOk (s.line l))
  ∧ s.prl.portA.txq.length ≤ Config.txCapacity ∧ s.prl.portB.txq.length ≤ Config.txCapacity
  ∧ s.mgt.requests.length ≤ Config.requestCapacity ∧ s.pbk.cache.length ≤ Config.cacheCapacity
  ∧ s.stc.writeQueue.length ≤ Config.writeCapacity

/-- What everything LTK does to lines in `L` leaves alone: every other line, the phase, the station address, the waiting
commands, FCL, the clock and counters of TKU, the Store table, MGT's queue, tables and alert port, the process EtherType, result
memory and its pool, and PBK's counters. While no word of the DRAM is wrong, every cell of it reads as before. -/
structure KeepsElsewhere (L : LineId → Prop) (s t : State) : Prop where
  lines : ∀ l, ¬ L l → t.line l = s.line l
  phase : t.phase = s.phase
  station : t.station = s.station
  pending : t.pending = s.pending
  fcl : t.fcl = s.fcl
  tku : t.tku = s.tku
  storeTable : t.stc.entry = s.stc.entry
  mgt : t.mgt = { s.mgt with fault := t.mgt.fault, lost := t.mgt.lost, counters := t.mgt.counters }
  processType : t.prl.processType = s.prl.processType
  pages : t.pbk.pages = s.pbk.pages ∧ t.pbk.freePages = s.pbk.freePages
  pbkCounters : t.pbk.counters = s.pbk.counters
  dram : s.stc.wrongBits = [] → ∀ a, t.cellAt a = s.cellAt a

/-! ### The words of the statements -/

/-- LTK may take event `e` on line `l` next: the part is in no reset (R5), no call of the line waits (R81), and the event stands
at the head of the line's input queue (R12). -/
abbrev Awaits (s : State) (l : LineId) (e : Event) : Prop :=
  s.phase = .running ∧ GluWait.line l ∉ s.glu.waits ∧ (s.line l).queue.head? = some e

/-- GLU can take a call: no write of its own waits, and no call before it (R81, R82). -/
abbrev GluFree (s : State) : Prop := s.glu.waiting = [] ∧ s.glu.waits = []

/-- Of the channels of line `l` only `k` has an open bin, `n`, and STC has room for it in the channel's current block: block `b`, with
header `h` (R112, R113, R120). -/
abbrev RecordsAlone (s : State) (l : LineId) (k : ChanId) (n : OpenBin) (b : Nat) (h : BlockHeader) : Prop :=
  (s.chan k).on l = true ∧ (s.chan k).openBin = some n ∧ (∀ j, j ≠ k → (s.chan j).recording l = false)
  ∧ s.stc.waitingSeal = none ∧ 0 < s.writeRoom ∧ (s.chanStore k).current = some (b, h) ∧ h.firstBin = n.num - n.num % 120

/-- The write of an open bin into block `b` with header `h`, its quality changed by `f` (R113, R120). -/
abbrev OpenBin.written (n : OpenBin) (b : Nat) (h : BlockHeader) (f : Quality → Quality) : WriteEntry :=
  .binWrite b (n.num - h.firstBin) { n.data with quality := f n.data.quality }

/-- MGT may take request `r` next: the part is in no reset, no outcome of and no reply to a request before it is outstanding, and it heads
the request queue (R171). -/
abbrev Faces (s : State) (r : Request) : Prop :=
  s.phase = .running ∧ s.mgt.heldReply = none ∧ s.mgt.passed = none ∧ s.mgt.requests.head? = some r

/-- Which request each request command takes: the requests of its code in Fig. 9.3, for a LOAD_ENTRY of its table and for a
LINE_CONTROL of its command, whatever else a malformed body holds (R171). -/
def takes : Instr → Request → Bool
  | .unknownRequest, r => r.unknown
  | .loadOriginEntry, r => r.loads 1
  | .loadLineEntry, r => r.loads 2
  | .loadStationEntry, r => r.loads 3
  | .loadChannelEntry, r => r.loads 4
  | .loadAccessEntry, r => r.loads 5
  | .loadStoreEntry, r => r.loads 6
  | .loadTickEntry, r => r.loads 7
  | .loadAlertEntry, r => r.loads 8
  | .loadProcessEthertype, r => r.loads 9
  | .readEntry, r => r.is 2
  | .activate, r => r.lineControl 1
  | .deactivate, r => r.lineControl 2
  | .resetLine, r => r.lineControl 3
  | .ackDegraded, r => r.lineControl 4
  | .queryTrend, r => r.is 4
  | .queryGenealogy, r => r.is 5
  | .fetch, r => r.is 6
  | .release, r => r.is 7
  | .pin, r => r.is 8
  | .unpin, r => r.is 9
  | .retire, r => r.is 10
  | .setTime, r => r.is 11
  | .status, r => r.is 12
  | .clearFault, r => r.is 13
  | .restart, r => r.is 14
  | _, _ => false

/-- The request codes of Fig. 9.3 whose role is ENGINEER. -/
def engineerCodes : List Nat := [1, 3, 10, 11, 13, 14]

/-- MGT faces a request of version 1 with code `code`, from a source whose role is enough for it (R171, R173). -/
abbrev Granted (s : State) (r : Request) (code : Nat) (need : Role) : Prop :=
  Faces s r ∧ r.version = 1 ∧ r.code.toNat = code
  ∧ (s.roleOf r.src = some .engineer ∨ (need = .view ∧ s.roleOf r.src = some .view))

/-- MGT faces a permitted LOAD_ENTRY of a table whose body holds at least `width` bytes of contents (Fig. 11.5). -/
abbrev Loading (s : State) (r : Request) (table width : Nat) : Prop :=
  Granted s r 1 .engineer ∧ u8At r.body 0 = table ∧ 3 + width ≤ r.body.length

/-- MGT faces a permitted LINE_CONTROL with command `cmd` for line `l` (Fig. 11.4). -/
abbrev Controls (s : State) (r : Request) (cmd : Nat) (l : LineId) : Prop :=
  Granted s r 3 .engineer ∧ 2 ≤ r.body.length ∧ u8At r.body 0 = l.val ∧ u8At r.body 1 = cmd

/-- The state once MGT has taken the request at the head of its queue: it has left the queue and is counted (R171, Fig. 9.7). -/
def State.taken (s : State) : State :=
  s.updMgt fun m =>
    { m with requests := m.requests.drop 1,
             counters := { m.counters with requestsTaken := sat m.counters.requestsTaken 1 } }

/-- A line that has taken an event and is otherwise as it was (R12, R13). -/
def Line.took (x : Line) (e : Event) : Line := { x with queue := x.queue.drop 1, lastTaken := e.arrival }

/-- A line after a SAMPLE, WELD or CUT has acted on it: in RUNNING the silence count is raised, and at the silence limit the
line enters RECKONING (R41, R42); in any other state nothing more happens. `before` is the line as the event met it. -/
def Line.silenced (before x : Line) : Line :=
  if before.state ≠ .running then x
  else
    let n := min (x.sup.silence + 1) 255
    if n < x.entry.silenceLimit then { x with sup := { x.sup with silence := n } }
    else
      { x with
        state := .reckoning, reverseDebt := 0, reverseOver := false,
        sup := { x.sup with
          silence := n, remainder := 0, grace := 0, acked := false,
          anchor := if x.reverseOver then (x.axis : Int) else (x.axis : Int) - (x.reverseDebt : Int),
          reckonSpeed := min x.lastSpeed x.entry.maxSpeed },
        counters := { x.counters with lengthLost := sat x.counters.lengthLost 1 } }

/-- A channel whose open bin, if any, has been closed: its number is the last one handed to the store (R77). -/
def Channel.closed (c : Channel) : Channel :=
  match c.openBin with
  | none => c
  | some b => { c with openBin := none, lastHanded := some b.num }

/-- The stations of a line whose axis has moved forward to `a`: a pending content whose trigger the position has reached is in
force (R19). -/
def Line.stationsAt (x : Line) (a : Nat) : Vector Station 12 := x.stations.map (Line.applyPending a)

end Machine

end Sys2Proof
end

