-- ==== Sys2Proof/Certificates/Slice0/Obligations.lean ====
section
/-! DEFINITION. The statements for the provers, each a rule of the manual said of the model. -/

open Sys2Proof Sys2Proof.Machine

/-! ### The machine as a whole -/

/-- A step takes the command at the front of the queue and runs it on the state with the queue's rest. On an empty queue the
block idles: that clause is the model's choice (log 2). -/
def Obligations.StepRunsFrontCommand : Prop :=
  (∀ (c : Instr) (s : State), step { s with pending := c :: s.pending } = exec c s)
  ∧ ∀ s : State, s.pending = [] → step s = .next s

/-- A well-formed command always completes; the one stop there is, is DRAM_WORD_WRONG_BITS for a word outside the 4 GiB of the
DRAM, a word R105 gives no place. That a command which finds nothing to take completes too is the model's choice (log 1). No command
touches the queue of waiting commands, which is the model's own (log 2), or the station address, fixed at manufacture (00 section 0.2;
its value is log 4's). -/
def Obligations.CommandsCompleteAndKeepTheQueue : Prop :=
  (∀ (i : Instr) (s : State), i.wf = true → Completes i s)
  ∧ (∀ (i : Instr) (s : State), Completes i s ∨
      ∃ w bits, i = .dramWordWrongBits w bits ∧ Config.wordCount ≤ w ∧ exec i s = .fault (.noSuchWord w))
  ∧ ∀ (i : Instr) (s t : State), exec i s = .next t → t.pending = s.pending ∧ t.station = s.station

/-- The state after a cold reset is within its bounds. -/
def Obligations.ResetIsWithinBounds : Prop := Inv State.reset

/-- Every step keeps the bounds: memories canonical, axes at most 2^40 - 1 (R30), at most 64 events (R12) and 32 joints (R35)
a line, 32 frames a port (R2), 8 requests (R170), 32 cache entries (R160) and 256 queued writes (R120). -/
def Obligations.EveryStepKeepsBounds : Prop :=
  ∀ s t : State, Inv s → step s = .next t → Inv t

/-- Within the bounds, no command but a cold reset lowers the axis of any line: backward travel and behind returns hold it
(R32, R49), and no stop, park, deactivation, suspension or warm reset sets it back (R27, R28, R29, R56). -/
def Obligations.AxisNeverFalls : Prop :=
  ∀ (i : Instr) (s t : State) (l : LineId), Inv s → i ≠ .coldReset → exec i s = .next t → (s.line l).axis ≤ (t.line l).axis

/-! ### Resets -/

/-- What the rules give for the moment a cold reset has ended: every register of PRL, FCL, LTK, BAC, GLU, STC, PBK, MGT and TKU, and every
counter, that a rule gives a value: Fig. 1.2, R8, R13 to R15 and Fig. 2.1, R17, R29, R40, R58, R59 and Fig. 4.2, R78, R79, R88, R95, R97,
R104, R106, R107, R109, R110, R119, R120, R128 to R130, R138, R148, R163, R172, R175, R183 to R186, R189. (The links UP, the station
address and the registers the rules give no value are the model's: logs 3 to 6, and are not stated.) -/
def Obligations.ResetValuesAreTheRules : Prop :=
  let s := State.reset
  (s.phase = .running ∧ s.prl.processType = 0x88B5 ∧ ∀ p, (s.port p).txq = [] ∧ (s.port p).rxError = 0 ∧ (s.port p).txDrop = 0
      ∧ (s.port p).linkDrop = 0)
  ∧ ((∀ i : Fin 32, s.fcl.origins[i] = { valid := false, code := 0, line := 0, kinds := {}, checked := false, lastSeq := 0 })
      ∧ s.fcl.malformed = 0 ∧ s.fcl.unknownOrigin = 0)
  ∧ (∀ l : LineId,
      let x := s.line l
      x.entry = {
        valid := false, shear := 0, strands := 1, payoff := .headFirst, settleCount := 4,
        maxStep := 50000, maxSpeed := 25000, silenceLimit := 32, gracePeriod := 6000 }
      ∧ (∀ k : Fin 12, x.stations[k] = { valid := false, content := 0, pending := none })
      ∧ x.state = .vacant ∧ x.axis = 0 ∧ x.lengthRef = 0 ∧ x.lastSpeed = 0 ∧ x.headMark = 0 ∧ x.reverseDebt = 0
      ∧ x.reverseOver = false ∧ x.refMissing = false ∧ x.parkedLength = false ∧ x.lengthTaken = false
      ∧ x.chain = [] ∧ x.outputs = [] ∧ x.boundary = none ∧ x.lastWeld = none ∧ x.feeding = none
      ∧ x.queue = [] ∧ x.newest = 0 ∧ x.lastTaken = 0 ∧ x.gapPending = false ∧ x.feed = []
      ∧ x.sup = { silence := 0, reckonSpeed := 0, remainder := 0, anchor := 0, gap := 0, grace := 0, acked := false }
      ∧ x.counters.list = List.replicate 26 0)
  ∧ (∀ c : ChanId, s.chan c = {
        entry := {
          valid := false, line := 0, station := 0, point := 0, pitch := 10, low := -2147483648, high := 2147483647 },
        gen := 0, openBin := none, frontier := none, lastHanded := none }
      ∧ s.chanStore c = { dir := [], current := none })
  ∧ (∀ i, s.pieceDir i = { state := .retired, gen := 0, pins := 0 })
  ∧ (s.glu.freePieces.length = 65535 ∧ s.glu.freePieces.pop.map Prod.fst = some 1
      ∧ s.glu.freeSegments.length = 524288 ∧ s.glu.freeSegments.pop.map Prod.fst = some 0
      ∧ s.glu.freeGroups.length = 262144 ∧ s.glu.freeGroups.pop.map Prod.fst = some 0 ∧ s.glu.closeList = []
      ∧ s.glu.waiting = [] ∧ s.glu.waits = []
      ∧ s.glu.counters = {
        tagIndexFull := 0, tagOpen := 0, useLimit := 0, pieceTableFull := 0, segmentFull := 0, linkFull := 0,
        pieceTableLow := 0, autoRetired := 0, retired := 0 })
  ∧ ((∀ a, s.cellAt a = .cleared) ∧ s.stc.wrongBits = [] ∧ (∀ b, (s.blockInfo b).state = .free) ∧ s.stc.ageQueue = []
      ∧ s.stc.freeBlocks.length = 786432 ∧ s.stc.freeBlocks.pop.map Prod.fst = some 0 ∧ s.stc.writeQueue = []
      ∧ s.stc.greatest = 0 ∧ s.stc.waiters = [] ∧ s.stc.waitingSeal = none ∧ s.stc.heldOffers = []
      ∧ s.stc.entry = { lowWater := 1024, scanLength := 64, holdCount := 50 } ∧ s.stc.scrubPointer = 0 ∧ s.stc.scrub = none
      ∧ s.stc.counters = {
        allocated := 0, storeFull := 0, blocksReclaimed := 0, reclaimBlocked := 0, corrected := 0, uncorrectable := 0,
        poisoned := 0, scrubCorrected := 0, scrubUncorrectable := 0, scrubSteps := 0, scrubPasses := 0 })
  ∧ ((∀ i : CtxId, (s.context i).state = .free ∧ (s.context i).gen = 0 ∧ (s.context i).pages = [] ∧ (s.context i).hold = 0)
      ∧ s.pbk.freePages.length = 1024 ∧ s.pbk.freePages.pop.map Prod.fst = some 0 ∧ s.pbk.cache = [] ∧ s.pbk.asmQueue = []
      ∧ s.pbk.engine = none ∧ s.pbk.discarded = [] ∧ (∀ l : LineId, s.pbk.taken[l] = 0 ∧ s.pbk.behindSeal[l] = none)
      ∧ s.pbk.counters = {
        accepted := 0, failed := 0, busy := 0, truncated := 0, fetched := 0, released := 0, holdExpired := 0,
        cacheHits := 0, cacheMisses := 0, cacheRefetches := 0 })
  ∧ ((∀ i : Fin 16, s.mgt.access[i] = { enabled := false, role := .view, addr := 0 }) ∧ s.mgt.requests = []
      ∧ s.mgt.heldReply = none ∧ s.mgt.passed = none ∧ s.mgt.alertLoaded = false ∧ s.mgt.alertPort = none ∧ s.mgt.fault = none ∧ s.mgt.lost = 0
      ∧ s.mgt.counters.list = List.replicate 11 0)
  ∧ (s.tku.clock = 0 ∧ s.tku.sweepDue = false ∧ s.tku.sweepLag = 0
      ∧ s.tku.reckon = { count := 10, period := 10, loaded := 10 } ∧ s.tku.hold = { count := 100, period := 100, loaded := 100 }
      ∧ s.tku.sweep = {
        count := 1000, period := 1000, loaded := 1000, running := true, mode := .reload, cascade := false,
        loadedMode := .reload, loadedCascade := false })

/-- COLD_RESET: every block takes its cold-reset state, of each port the state of its physical layer alone is kept, and while the reset
lasts a frame passes by the bypass path and touches nothing (R4). That the station address and the model's own fields, its counter of free
values and its queue of commands, are kept is log 3's; so is that the link state of a port stands at its reset value, UP, until
FORMAT_COMPLETE takes it from the physical layer. -/
def Obligations.ColdResetClearsAndBypasses : Prop :=
  ∀ s : State, ∃ t, exec .coldReset s = .next t
    ∧ t = { State.reset with
            phase := .coldReset, station := s.station, fresh := s.fresh, pending := s.pending,
            prl := { portA := { phys := s.prl.portA.phys }, portB := { phys := s.prl.portB.phys } } }
    ∧ ∀ p ok f, exec (.frameReceived p ok f) t = .next t

/-- FORMAT_COMPLETE ends a cold reset: the part runs and each port's link state is its physical layer's (R4). All else is as it
was, but for words that went wrong while the format ran: each of them may have been written over since (log 12). -/
def Obligations.FormatCompleteOpensThePorts : Prop :=
  ∀ s : State, s.phase = .coldReset → ∃ t, exec .formatComplete s = .next t
    ∧ t = { s with
            phase := .running, fresh := t.fresh, stc := { s.stc with wrongBits := t.stc.wrongBits },
            prl := { s.prl with portA := { s.prl.portA with link := s.prl.portA.phys },
                                portB := { s.prl.portB with link := s.prl.portB.phys } } }
    ∧ (s.stc.wrongBits = [] → t.stc.wrongBits = [])
    ∧ (Memory.wf s = true → ∀ w, Sparse.get [] t.stc.wrongBits w = Sparse.get [] s.stc.wrongBits w
        ∨ Sparse.get [] t.stc.wrongBits w = [])

/-- RESTART: the reply OK is handed over and the warm reset begins: the requests left are dropped and counted REQUEST_DROP, and
RESTARTS is counted (R5, R179). That copies FCL has not taken are not taken any more is the model's reading (log 7). -/
def Obligations.RestartBeginsTheDrain : Prop :=
  ∀ (s : State) (r : Request), Granted s r 14 .engineer →
    exec .restart s = .next (State.answer
      { s.taken with
        phase := .warmDrain, fcl := { s.fcl with copies := [] },
        mgt := { s.taken.mgt with
          requests := [],
          counters := { s.taken.mgt.counters with
            restarts := sat s.mgt.counters.restarts 1,
            requestDrop := sat s.mgt.counters.requestDrop (s.mgt.requests.length - 1) } } } r { reason := .ok })

/-- WARM_RESET_CLEAR completes whenever the drain is over. Every line but a VACANT one is IDLE, queue and chain empty, pending contents in
force, axis, entry and counters kept; every grace counter is 0 (R27, R29, R53). An active line whose closes wait for write queue room goes
there once they are complete, and is as it was until then, its queue held (R27, R81). An active line's feed list is empty once its closes
are done, no other changes (R94). The open bins of active lines are discarded uncounted (R76); every origin's checked is false (R10). Every
context is FREE, one that was not with its generation raised and its pages back (R139, R147; its other fields: log 6); cache and engine are
empty (R147, R160), and what the engine had asked of STC is discarded when answered (R143). A running counter is reloaded without an expiry
(R191); that an expiry owed from the drain comes first is log 14's. PRL keeps its process EtherType and frames, MGT its tables and queue,
TKU its clock, STC its lists, scrub pointer and Store table and, no word being wrong, every cell of the DRAM (Fig. 1.2, R128, R177, R184);
each may gain what the closes raise, read and write. GLU keeps every generation, and every state but that of an output of an active line,
which may become CLOSED and does once the closes are done (R93); every pin count is 0 (R98); its free lists lose only what the closes take,
the close list grows only at its end. With no line active nothing else of GLU or STC changes. The part runs once no write of the closes
waits (R122; that they may wait is log 15's). -/
def Obligations.WarmResetClearsTheBlocks : Prop :=
  ∀ s : State, s.phase = .warmDrain → s.drained = true → ∃ t, exec .warmResetClear s = .next t
    ∧ t.phase = (if t.glu.waiting = [] ∧ t.glu.waits = [] then .running else .warmClear)
    ∧ (∀ l, (s.line l).state = .vacant → t.line l = { s.line l with sup := { (s.line l).sup with grace := 0 } })
    ∧ (∀ l,
        let x := s.line l
        (x.state ≠ .vacant → GluWait.leave l .idle ∉ t.glu.waits → t.line l = { x with
          state := .idle, queue := [], lastTaken := x.newest, gapPending := false, stations := x.stations.map Station.force,
          chain := [], outputs := [], boundary := none, lastWeld := none, feeding := none, feed := (t.line l).feed,
          reverseDebt := 0, reverseOver := false, refMissing := false, parkedLength := false, settlingRun := 0,
          sup := { x.sup with gap := 0, silence := 0, grace := 0 },
          counters := { x.counters with queueDiscard := sat x.counters.queueDiscard x.queue.length } })
        ∧ (GluWait.leave l .idle ∈ t.glu.waits →
            x.state ∈ [.settling, .running, .parked, .reckoning, .holdback] ∧ GluWait.line l ∈ t.glu.waits
            ∧ t.line l = { x with feed := (t.line l).feed, sup := { x.sup with grace := 0 } }))
    ∧ (let active (l : LineId) : Prop := (s.line l).state ∈ [.settling, .running, .parked, .reckoning, .holdback]
       let output (i : Nat) : Prop := ∃ l, active l ∧ ∃ r ∈ (s.line l).outputs, r.idx = i ∧ s.isCurrent r = true
       (∀ l, (active l → GluFree t → (t.line l).feed = [])
          ∧ (active l → (t.line l).feed = [] ∨ ∃ k o, GluWait.call (.closeOutputs k o) ∈ t.glu.waits ∧ k.line = l)
          ∧ (¬ active l → (t.line l).feed = (s.line l).feed))
       ∧ (Sparse.wf {} s.glu.dir = true → ∀ i,
            (t.pieceDir i).gen = (s.pieceDir i).gen
            ∧ (¬ output i → t.pieceDir i = { s.pieceDir i with pins := 0 })
            ∧ (output i → (t.pieceDir i).state = (s.pieceDir i).state ∨ (t.pieceDir i).state = .closed)
            ∧ (output i → GluFree t → (t.pieceDir i).state = .closed))
       ∧ ((∀ l, ¬ active l) → t.glu = { s.glu with dir := t.glu.dir } ∧ t.stc = { s.stc with scrub := t.stc.scrub }))
    ∧ t.glu.freePieces = s.glu.freePieces ∧ s.glu.closeList <+: t.glu.closeList
    ∧ (∀ n, t.glu.freeSegments.holds n = true → s.glu.freeSegments.holds n = true)
    ∧ (∀ n, t.glu.freeGroups.holds n = true → s.glu.freeGroups.holds n = true)
    ∧ t.glu.counters = { s.glu.counters with
        segmentFull := t.glu.counters.segmentFull, linkFull := t.glu.counters.linkFull }
    ∧ (s.stc.wrongBits = [] → ∀ a, t.cellAt a = s.cellAt a)
    ∧ (∀ e ∈ t.stc.writeQueue, ∃ w, e = .unit w)
    ∧ (let discarded (k : ChanId) : Prop :=
         ∃ l, (s.line l).state ∈ [.settling, .running, .parked, .reckoning, .holdback] ∧ (s.chan k).on l = true
       ∀ k, (discarded k → t.chan k = { s.chan k with openBin := none }) ∧ (¬ discarded k → t.chan k = s.chan k))
    ∧ t.fcl = { s.fcl with origins := s.fcl.origins.map fun o : Origin => { o with checked := false } }
    ∧ (∀ i, t.context i = if (s.context i).state = .free then s.context i else { gen := (s.context i).gen + 1 })
    ∧ (s.pbk.freePages.next ≤ s.pbk.freePages.limit → ∀ p, t.pbk.freePages.holds p = true ↔
        (s.pbk.freePages.holds p = true ∨ ∃ i, (s.context i).state ≠ .free ∧ p ∈ (s.context i).pages))
    ∧ t.pbk.cache = [] ∧ t.pbk.engine = none ∧ t.pbk.asmQueue = []
    ∧ (s.pbk.engine = none → t.pbk.discarded = s.pbk.discarded)
    ∧ (∀ e, s.pbk.engine = some e → (s.context e.ctx).state ≠ .free → t.pbk.discarded = s.pbk.discarded
        ++ (e.tasks.head?.bind (Task.read? (s.context e.ctx).piece)).toList)
    ∧ (∀ i, (t.pieceDir i).pins = 0)
    ∧ (∀ p, t.port p = { s.port p with
            txq := (t.port p).txq, txDrop := (t.port p).txDrop, linkDrop := (t.port p).linkDrop }
        ∧ (s.port p).txq <+: (t.port p).txq)
    ∧ t.prl.processType = s.prl.processType
    ∧ t.mgt = { s.mgt with fault := t.mgt.fault, lost := t.mgt.lost, counters := t.mgt.counters }
    ∧ t.stc = { s.stc with
        dram := t.stc.dram, wrongBits := t.stc.wrongBits, writeQueue := t.stc.writeQueue, greatest := t.stc.greatest,
        waiters := t.stc.waiters, scrub := t.stc.scrub, counters := t.stc.counters }
    ∧ t.tku.clock = s.tku.clock
    ∧ (let again (c : Counter) : Counter := if c.running = true then { c with
            period := c.loaded, mode := c.loadedMode, cascade := c.loadedCascade, count := c.loaded, running := true } else c
       let owed (c : Counter) : Prop := c.running = true ∧ c.count = 0
       (s.tku.reckon.loadedMode = .reload → t.tku.reckon = again s.tku.reckon)
       ∧ (s.tku.hold.loadedMode = .reload → t.tku.hold = again s.tku.hold)
       ∧ (s.tku.sweep.loadedMode = .reload → t.tku.sweep = again s.tku.sweep)
       ∧ (¬ owed s.tku.hold → ¬ owed s.tku.sweep →
            t.tku.sweep = again s.tku.sweep ∧ t.tku.sweepDue = s.tku.sweepDue ∧ t.tku.sweepLag = s.tku.sweepLag)
       ∧ (¬ owed s.tku.hold → owed s.tku.sweep → t.tku.sweepDue = true
            ∧ t.tku.sweepLag = if s.tku.sweepDue = true then sat s.tku.sweepLag 1 else s.tku.sweepLag))

/-! ### Ports, frames and requests arriving -/

/-- LINK_DOWN and LINK_UP (R3): going DOWN discards every frame held, one LINK_DROP each; going UP starts from an empty queue; nothing
but the port changes. And how a frame meets a transmit queue (R2, R3): a DOWN port counts LINK_DROP, a queue of 32 counts TX_DROP, and
otherwise the frame joins the tail; the other port is untouched. -/
def Obligations.LinksAndTransmitQueues : Prop :=
  (∀ (s : State) (p : PortId), s.phase ≠ .coldReset →
    ((s.port p).link = .up → exec (.linkDown p) s = .next (s.updPort p fun q =>
        { q with phys := .down, link := .down, txq := [], linkDrop := sat q.linkDrop q.txq.length }))
    ∧ ((s.port p).link = .down → exec (.linkDown p) s = .next (s.updPort p fun q => { q with phys := .down }))
    ∧ ((s.port p).link = .down → exec (.linkUp p) s = .next (s.updPort p fun q =>
        { q with phys := .up, link := .up, txq := [] }))
    ∧ ((s.port p).link = .up → exec (.linkUp p) s = .next (s.updPort p fun q => { q with phys := .up })))
  ∧ ∀ (s : State) (p : PortId) (f : Frame),
    (s.transmit p f).port (otherPort p) = s.port (otherPort p)
    ∧ ((s.port p).link = .down →
        (s.transmit p f).port p = { s.port p with linkDrop := sat (s.port p).linkDrop 1 })
    ∧ ((s.port p).link = .up → 32 ≤ (s.port p).txq.length →
        (s.transmit p f).port p = { s.port p with txDrop := sat (s.port p).txDrop 1 })
    ∧ ((s.port p).link = .up → (s.port p).txq.length < 32 →
        (s.transmit p f).port p = { s.port p with txq := (s.port p).txq ++ [f] })

/-- FRAME_RECEIVED outside a cold reset (R1, R5). A frame whose check sequence is wrong, or of fewer than 64 or more than 2,000 bytes, is
counted RX_ERROR on its port and nothing else happens. A good frame that is not a management frame for the station is relayed to the
other port, and FCL is given a copy exactly when its type is the process EtherType and the part is in no reset. That a frame's length
counts its 4-byte check sequence is PRESUMED (log 19). -/
def Obligations.FramesAreDroppedOrRelayed : Prop :=
  ∀ (s : State) (p : PortId) (f : Frame), s.phase ≠ .coldReset →
    (∀ ok, (ok = false ∨ 18 + f.payload.length < 64 ∨ 2000 < 18 + f.payload.length) →
      exec (.frameReceived p ok f) s = .next (s.updPort p fun q => { q with rxError := sat q.rxError 1 }))
    ∧ (64 ≤ 18 + f.payload.length → 18 + f.payload.length ≤ 2000 → ¬ (f.etype = 0x88B6 ∧ f.dst = s.station) →
      exec (.frameReceived p true f) s = .next
        { s.transmit (otherPort p) f with
          fcl := if f.etype = s.prl.processType ∧ s.phase = .running then
                   { s.fcl with copies := s.fcl.copies ++ [f.payload] }
                 else s.fcl })

/-- FRAME_RECEIVED for a good management frame for the station: it is consumed, not relayed. In a warm reset, or with 8 requests
queued, it is counted REQUEST_DROP; otherwise it joins the request queue with its port of arrival. One from the loaded alert
destination sets the alert port (R1, R5, R170). That the least and the greatest length count the 4-byte check sequence, so that the payload
has 46 to 1,982 bytes, is PRESUMED (log 19). -/
def Obligations.ManagementFrameIsConsumed : Prop :=
  ∀ (s : State) (p : PortId) (f : Frame), s.phase ≠ .coldReset → 46 ≤ f.payload.length → f.payload.length ≤ 1982 →
    f.etype = 0x88B6 → f.dst = s.station →
    ∃ t, exec (.frameReceived p true f) s = .next t
      ∧ t = { s with mgt := { s.mgt with
              alertPort := if s.mgt.alertLoaded = true ∧ f.src = s.mgt.alertAddr then some p else s.mgt.alertPort,
              requests := t.mgt.requests, counters := t.mgt.counters } }
      ∧ (s.phase = .running → s.mgt.requests.length < 8 →
          t.mgt.counters = s.mgt.counters
          ∧ t.mgt.requests = s.mgt.requests ++ [{
              src := f.src, port := p, version := byteAt f.payload 0,
              code := byteAt f.payload 1, tag := BitVec.ofNat 16 (u16At f.payload 2), body := f.payload.drop 4 }])
      ∧ ((s.phase ≠ .running ∨ 8 ≤ s.mgt.requests.length) →
          t.mgt.requests = s.mgt.requests
          ∧ t.mgt.counters = { s.mgt.counters with requestDrop := sat s.mgt.counters.requestDrop 1 })

/-- FRAME_TRANSMITTED: the frame at the head of the port's transmit queue has left; frames leave in the order they joined (R2). -/
def Obligations.FramesLeaveInOrder : Prop :=
  ∀ (s : State) (p : PortId) (f : Frame) (rest : List Frame), s.phase ≠ .coldReset → (s.port p).txq = f :: rest →
    exec (.frameTransmitted p) s = .next (s.updPort p fun q => { q with txq := rest })

/-! ### The Frame Classifier -/

/-- The form check (R6, Fig. 11.2), and where PROCESS_FRAME_CLASSIFY discards the oldest copy. A frame reads as an event exactly when it
is long enough for its header and body, of version 1 and one of the five kinds, with its fields in their ranges; what it then reads is the
origin, the sequence and the fields at the offsets of its kind. Discarded and counted: a malformed frame, one of an unknown origin (R6,
R9), one for a line that takes no frames, and one that fails the sequence check (R9, R10). No sequence state changes. -/
def Obligations.ClassifierDiscards : Prop :=
  (∀ bs : List Byte,
    let kind := u8At bs 1
    let n := u8At bs 7
    ((readProcess bs).isSome = true ↔ 6 ≤ bs.length ∧ u8At bs 0 = 1 ∧
      ((kind = 1 ∧ 12 ≤ bs.length)
      ∨ (kind = 2 ∧ u8At bs 6 ≤ 11 ∧ 1 ≤ n ∧ n ≤ 16 ∧ 8 + 5 * n ≤ bs.length)
      ∨ (kind = 3 ∧ 30 ≤ bs.length ∧ u32At bs 10 ≤ 33554431)
      ∨ (kind = 4 ∧ 1 ≤ u8At bs 6 ∧ u8At bs 6 ≤ 3 ∧ u32At bs 8 ≤ 33554431 ∧ n ≤ 8 ∧ (u8At bs 6 = 2 → n = 0)
          ∧ 12 + 16 * n ≤ bs.length)
      ∨ (kind = 5 ∧ 7 ≤ bs.length ∧ (u8At bs 6 = 1 ∨ u8At bs 6 = 2))))
    ∧ ∀ h b, readProcess bs = some (h, b) →
      h.origin = BitVec.ofNat 16 (u16At bs 2) ∧ h.seq = BitVec.ofNat 16 (u16At bs 4)
      ∧ (kind = 1 → b = .length (BitVec.ofNat 32 (u32At bs 6)) (u16At bs 10))
      ∧ (kind = 2 → ∃ st : Fin 12, st.val = u8At bs 6
          ∧ b = .sample st ((List.range n).map fun i => (u8At bs (8 + 5 * i), i32At bs (9 + 5 * i))))
      ∧ (kind = 3 → b = .weld (BitVec.ofNat 32 (u32At bs 6)) (u32At bs 10) (tagAt bs 14))
      ∧ (kind = 4 → ∃ k, (u8At bs 6 = 1 → k = .coil) ∧ (u8At bs 6 = 2 → k = .scrap) ∧ (u8At bs 6 = 3 → k = .sample)
          ∧ b = .cut k (u32At bs 8) ((List.range n).map fun i => tagAt bs (12 + 16 * i)))
      ∧ (kind = 5 → b = if u8At bs 6 = 1 then .run else .stop))
  ∧ ∀ (s : State) (bs : List Byte) (rest : List (List Byte)), s.phase = .running → s.fcl.copies = bs :: rest →
    let u := s.updFcl fun f => { f with copies := rest }
    (readProcess bs = none →
      exec .processFrameClassify s = .next (u.updFcl fun f => { f with malformed := sat f.malformed 1 }))
    ∧ ∀ h b, readProcess bs = some (h, b) →
      ((∀ i : Fin 32, s.fcl.origins[i].valid = true → s.fcl.origins[i].code ≠ h.origin) →
        exec .processFrameClassify s = .next (u.updFcl fun f => { f with unknownOrigin := sat f.unknownOrigin 1 }))
      ∧ ∀ (i : Fin 32) (l : LineId), s.findOrigin h.origin = some i → s.fcl.origins[i].line = l.val →
        ((s.line l).state ∈ [.vacant, .idle, .suspended] →
          exec .processFrameClassify s = .next (u.countLine l fun c => { c with lineOff := sat c.lineOff 1 }))
        ∧ ((s.line l).state ∉ [.vacant, .idle, .suspended] → s.fcl.origins[i].checked = true →
          (h.seq = s.fcl.origins[i].lastSeq →
            exec .processFrameClassify s = .next (u.countLine l fun c => { c with duplicate := sat c.duplicate 1 }))
          ∧ (32768 ≤ (h.seq - s.fcl.origins[i].lastSeq).toNat →
            exec .processFrameClassify s = .next (u.countLine l fun c => { c with stale := sat c.stale 1 })))

/-- PROCESS_FRAME_CLASSIFY for a frame that passes the sequence check, its origin's entry being unchecked, or d from 1 to 32,767: the
entry takes the sequence, d - 1 missing frames are counted GAP, and then a kind not permitted is counted KIND_REFUSED, a bad tag BAD_TAG,
and any other frame is offered to the queue: appended with the next arrival number and a gap mark where frames were missing or gap pending
is set, or counted OVERRUN at a queue of 64 with gap pending set (R10 to R12). JOINT permits WELD and CUT; a tag is bad with a character
outside the set, with a space before another character, or with nothing but spaces (R8, R11). -/
def Obligations.ClassifierPlacesEvents : Prop :=
  ∀ (s : State) (bs : List Byte) (rest : List (List Byte)) (h : ProcessHeader) (b : Body) (i : Fin 32) (l : LineId) (n : Nat),
    let o := s.fcl.origins[i]
    let ok : Bool := match b with
      | .length _ _ => o.kinds.length
      | .sample _ _ => o.kinds.sample
      | .weld _ _ _ => o.kinds.joint
      | .cut _ _ _ => o.kinds.joint
      | .stop => o.kinds.state
      | .run => o.kinds.state
    let tags : List Tag := match b with
      | .weld _ _ t => [t]
      | .cut _ _ ts => ts
      | _ => []
    let inSet (c : Byte) : Prop :=
      (0x30 ≤ c.toNat ∧ c.toNat ≤ 0x39) ∨ (0x41 ≤ c.toNat ∧ c.toNat ≤ 0x5A) ∨ c = 0x2D ∨ c = 0x20
    let bad (t : Tag) : Prop := (∃ c ∈ t, ¬ inSet c) ∨ (∃ (j k : Nat) (c : Byte), j < k ∧ t[j]? = some 0x20 ∧ t[k]? = some c ∧ c ≠ 0x20)
      ∨ ∀ c ∈ t, c = 0x20
    s.phase = .running → s.fcl.copies = bs :: rest → readProcess bs = some (h, b) → s.findOrigin h.origin = some i →
    o.line = l.val → (s.line l).state ∉ [.vacant, .idle, .suspended] →
    ((o.checked = false ∧ n = 0) ∨ (o.checked = true ∧ (h.seq - o.lastSeq).toNat = n + 1 ∧ n + 1 ≤ 32767)) →
    ∃ t, exec .processFrameClassify s = .next t
      ∧ t = { s with
              fcl := { s.fcl with
                copies := rest,
                origins := s.fcl.origins.set i { o with checked := true, lastSeq := h.seq } },
              lines := t.lines }
      ∧ (∀ k, k ≠ l → t.line k = s.line k)
      ∧ (ok = false →
          t.line l = { s.line l with counters := { (s.line l).counters with
            gap := sat (s.line l).counters.gap n, kindRefused := sat (s.line l).counters.kindRefused 1 } })
      ∧ (ok = true → (∃ g ∈ tags, bad g) →
          t.line l = { s.line l with counters := { (s.line l).counters with
            gap := sat (s.line l).counters.gap n, badTag := sat (s.line l).counters.badTag 1 } })
      ∧ (ok = true → (¬ ∃ g ∈ tags, bad g) → 64 ≤ (s.line l).queue.length →
          t.line l = { s.line l with gapPending := true, counters := { (s.line l).counters with
            gap := sat (s.line l).counters.gap n, overrun := sat (s.line l).counters.overrun 1 } })
      ∧ (ok = true → (¬ ∃ g ∈ tags, bad g) → (s.line l).queue.length < 64 →
          t.line l = { s.line l with
            gapPending := false, newest := (s.line l).newest + 1,
            queue := (s.line l).queue ++ [{
              body := b, origin := o.code, arrival := (s.line l).newest + 1,
              gap := decide (0 < n) || (s.line l).gapPending }],
            counters := { (s.line l).counters with gap := sat (s.line l).counters.gap n } })

/-! ### Length events (R30 to R33, R23, R48 to R52) -/

/-- A LENGTH of a line that moves its axis, by a step from 0 to the max step (R30, R31, R34, R41): in RUNNING, and in PARKED with the
reference held. The reverse debt is paid first, or dropped where the reverse-over flag is set; the axis advances by the rest, at most to
2^40 - 1; pending contents reached come into force (R19), and then exactly the open bins whose station has reached their end are closed
(R74); a RUNNING line's silence count is 0 and a PARKED line's parked-length flag is set. Beside the line, nothing of another line
changes. That an advance by 0 makes no check, and that the position of a pending content is computed for a station that is not valid too,
are the model's choices (log 20). -/
def Obligations.LengthForwardPaysDebtThenAdvances : Prop :=
  ∀ (s : State) (l : LineId) (e : Event) (c : Word32) (v : Nat),
    let x := s.line l
    let step := (c - x.lengthRef).toInt
    let d := if x.reverseOver then step.toNat else step.toNat - x.reverseDebt
    let u := s.takeEvent l e
    Awaits s l e → e.body = .length c v → (x.state = .running ∨ (x.state = .parked ∧ x.refMissing = false)) →
    0 ≤ step → step ≤ x.entry.maxStep →
    ∃ t, exec (.lengthEvent l) s = .next t ∧ KeepsElsewhere (· = l) s t
      ∧ t.line l = { x.took e with
          lengthRef := c, lastSpeed := v,
          axis := if d = 0 then x.axis else min (x.axis + d) 1099511627775,
          stations := if d = 0 then x.stations else x.stationsAt (min (x.axis + d) 1099511627775),
          reverseDebt := if step = 0 then x.reverseDebt else if x.reverseOver then 0 else x.reverseDebt - step.toNat,
          reverseOver := x.reverseOver && decide (step = 0),
          parkedLength := x.parkedLength || decide (x.state = .parked),
          sup := { x.sup with silence := if x.state = .running then 0 else x.sup.silence },
          counters := (t.line l).counters }
      ∧ ∀ k, t.chan k = if 0 < d ∧ (s.chan k).on l = true ∧ (t.line l).binPassed (u.chan k) = true
          then (u.chan k).closed else u.chan k

/-- A LENGTH with a negative step, in RUNNING and in PARKED with the reference held: the axis holds and the reverse debt grows; past
1,000,000 mm it stands at 1,000,000 with the reverse-over flag set and REVERSE_OVER counted (R32). -/
def Obligations.LengthBackwardGrowsDebt : Prop :=
  ∀ (s : State) (l : LineId) (e : Event) (c : Word32) (v : Nat),
    let x := s.line l
    let step := (c - x.lengthRef).toInt
    let debt := x.reverseDebt + (-step).toNat
    Awaits s l e → e.body = .length c v → (x.state = .running ∨ (x.state = .parked ∧ x.refMissing = false)) → step < 0 →
    ∃ t, exec (.lengthEvent l) s = .next t ∧ KeepsElsewhere (· = l) s t
      ∧ t.line l = { x.took e with
          lengthRef := c, lastSpeed := v, reverseDebt := min debt 1000000,
          reverseOver := x.reverseOver || decide (1000000 < debt),
          parkedLength := x.parkedLength || decide (x.state = .parked),
          sup := { x.sup with silence := if x.state = .running then 0 else x.sup.silence },
          counters := { x.counters with
            reverseOver := if 1000000 < debt then sat x.counters.reverseOver 1 else x.counters.reverseOver } }

/-- A LENGTH with a step above the max step, in RUNNING and in PARKED with the reference held, is a jump (R33): the axis advances by
the whole step, the debt is 0 and its flag clear, JUMP is counted, no channel of the line has an open bin afterwards, and, where the
line had none before and the fault record was empty, the record holds a JUMP with the line and the axis reached. The bins are closed with
GAP: a line's one open bin with room in its channel's block goes to the write queue so marked (R72, R75). (Pending contents of stations that
are not valid: log 20.) -/
def Obligations.LengthJumpAdvancesWhole : Prop :=
  ∀ (s : State) (l : LineId) (e : Event) (c : Word32) (v : Nat),
    let x := s.line l
    let step := (c - x.lengthRef).toInt
    let a := min (x.axis + step.toNat) 1099511627775
    Awaits s l e → e.body = .length c v → (x.state = .running ∨ (x.state = .parked ∧ x.refMissing = false)) →
    (x.entry.maxStep : Int) < step →
    ∃ t, exec (.lengthEvent l) s = .next t ∧ KeepsElsewhere (· = l) s t
      ∧ t.line l = { x.took e with
          lengthRef := c, lastSpeed := v, axis := a, stations := x.stationsAt a, reverseDebt := 0, reverseOver := false,
          parkedLength := x.parkedLength || decide (x.state = .parked),
          sup := { x.sup with silence := if x.state = .running then 0 else x.sup.silence },
          counters := (t.line l).counters }
      ∧ (t.line l).counters.jump = sat x.counters.jump 1
      ∧ (∀ k, (t.chan k).recording l = false)
      ∧ ((∀ k, (s.chan k).recording l = false) → s.mgt.fault = none →
          t.mgt.fault = some { code := .jump, line := some l, piece := none, axis := some (a : Int), stamp := s.tku.clock }
          ∧ t.mgt.lost = 0)
      ∧ ∀ k n b h, RecordsAlone s l k n b h →
          t.stc.writeQueue = s.stc.writeQueue ++ [n.written b h fun q => { q with gap := true }]

/-- A LENGTH in SETTLING (R16, R23): the first sets the reference only; a step from 0 to the max step adds one to the settling run,
and at the settle count the line enters RUNNING with the head mark at its axis and the silence count 0; any other step ends the run.
The axis holds. -/
def Obligations.LengthSettlesTheLine : Prop :=
  ∀ (s : State) (l : LineId) (e : Event) (c : Word32) (v : Nat),
    let x := s.line l
    let step := (c - x.lengthRef).toInt
    let y := { x.took e with lengthRef := c, lastSpeed := v }
    Awaits s l e → e.body = .length c v → x.state = .settling →
    ∃ t, exec (.lengthEvent l) s = .next t ∧ KeepsElsewhere (· = l) s t
      ∧ t.line l =
          if x.lengthTaken = false then { y with lengthTaken := true }
          else if step < 0 ∨ (x.entry.maxStep : Int) < step then { y with settlingRun := 0 }
          else if x.settlingRun + 1 < x.entry.settleCount then { y with settlingRun := x.settlingRun + 1 }
          else { y with settlingRun := x.settlingRun + 1, state := .running, headMark := x.axis,
                        sup := { x.sup with silence := 0 } }

/-- A LENGTH in RECKONING is a return (R48, R49). The true axis is the anchor plus the return step, at most 2^40 - 1. Equal to the axis,
the line is RUNNING at once; ahead, the axis goes to it, by a JUMP where it lies more than the max step ahead, its bins then closed with
GAP (R72; said of a line's one open bin), and the line is RUNNING; behind, the axis holds, the holdback gap is the difference and the line
is in HOLDBACK. (Pending contents of stations that are not valid, and no check at an advance by 0: log 20.) -/
def Obligations.LengthReturnsTheReference : Prop :=
  ∀ (s : State) (l : LineId) (e : Event) (c : Word32) (v : Nat),
    let x := s.line l
    let a : Int := min (x.sup.anchor + (c - x.lengthRef).toInt) 1099511627775
    let y := { x.took e with lengthRef := c, lastSpeed := v }
    Awaits s l e → e.body = .length c v → x.state = .reckoning → x.axis ≤ 1099511627775 →
    ∃ t, exec (.lengthEvent l) s = .next t ∧ KeepsElsewhere (· = l) s t
      ∧ (a = x.axis → t.line l = { y with state := .running, sup := { x.sup with silence := 0 } })
      ∧ ((x.axis : Int) < a →
          t.line l = { y with state := .running, axis := a.toNat, stations := x.stationsAt a.toNat,
                              sup := { x.sup with silence := 0 }, counters := (t.line l).counters }
          ∧ (t.line l).counters.jump = if (x.axis : Int) + x.entry.maxStep < a then sat x.counters.jump 1 else x.counters.jump)
      ∧ ((x.axis : Int) + x.entry.maxStep < a → ∀ k n b h, RecordsAlone s l k n b h →
          t.stc.writeQueue = s.stc.writeQueue ++ [n.written b h fun q => { q with gap := true }])
      ∧ (a < x.axis →
          t.line l = { y with state := .holdback, sup := { x.sup with gap := min (x.axis - a).toNat 2199023255551 } })

/-- A LENGTH in HOLDBACK (R50): a negative step widens the gap; a step up to the max step pays the gap, its surplus advancing the axis; a
jump clears the gap, its surplus advancing the axis, JUMP is counted, and open bins are closed with GAP (R72; said of one). Where a step
that is not negative leaves no gap, the line enters RUNNING with the silence count 0. (No check at a surplus of 0, and pending contents of
stations that are not valid: log 20.) -/
def Obligations.LengthPaysTheHoldbackGap : Prop :=
  ∀ (s : State) (l : LineId) (e : Event) (c : Word32) (v : Nat),
    let x := s.line l
    let step := (c - x.lengthRef).toInt
    let d := step.toNat - x.sup.gap
    let gap := if (x.entry.maxStep : Int) < step then 0 else x.sup.gap - step.toNat
    let y := { x.took e with lengthRef := c, lastSpeed := v }
    Awaits s l e → e.body = .length c v → x.state = .holdback → x.axis ≤ 1099511627775 →
    ∃ t, exec (.lengthEvent l) s = .next t ∧ KeepsElsewhere (· = l) s t
      ∧ (step < 0 → t.line l = { y with sup := { x.sup with gap := min (x.sup.gap + (-step).toNat) 2199023255551 } })
      ∧ (0 ≤ step →
          t.line l = { y with
            state := if gap = 0 then .running else .holdback,
            axis := min (x.axis + d) 1099511627775,
            stations := if d = 0 then x.stations else x.stationsAt (min (x.axis + d) 1099511627775),
            sup := { x.sup with gap := gap, silence := if gap = 0 then 0 else x.sup.silence },
            counters := (t.line l).counters }
          ∧ (t.line l).counters.jump = if (x.entry.maxStep : Int) < step then sat x.counters.jump 1 else x.counters.jump)
      ∧ ((x.entry.maxStep : Int) < step → ∀ k n b h, RecordsAlone s l k n b h →
          t.stc.writeQueue = s.stc.writeQueue ++ [n.written b h fun q => { q with gap := true }])

/-- A LENGTH in PARKED with the reference missing keeps the line PARKED and sets its parked-length flag (R52). The first one of a line
parked from RECKONING is measured from the anchor, as a return: not behind, the axis goes to the true axis, and behind, the gap is the
difference. Every other one, of a line parked from HOLDBACK or after its first LENGTH, is a holdback step (R50): a negative step widens
the gap, a step up to the max step pays it, a jump clears it and is counted, and any surplus advances the axis; but the line does not
leave PARKED. A jump closes open bins with GAP (R33, R72; said of one). That an equal true axis is followed by the checks of an advance,
that a surplus of 0 makes none, and what the checks do with stations that are not valid, are the model's reading (log 20). -/
def Obligations.LengthInParkedMeetsTheAnchor : Prop :=
  ∀ (s : State) (l : LineId) (e : Event) (c : Word32) (v : Nat),
    let x := s.line l
    let step := (c - x.lengthRef).toInt
    let a : Int := min (x.sup.anchor + step) 1099511627775
    let d := step.toNat - x.sup.gap
    let gap := if (x.entry.maxStep : Int) < step then 0 else x.sup.gap - step.toNat
    let y := { x.took e with lengthRef := c, lastSpeed := v, parkedLength := true }
    Awaits s l e → e.body = .length c v → x.state = .parked → x.refMissing = true → x.axis ≤ 1099511627775 →
    ∃ t, exec (.lengthEvent l) s = .next t ∧ KeepsElsewhere (· = l) s t
      ∧ (x.parkedFrom = .reckoning → x.parkedLength = false →
          ((x.axis : Int) ≤ a →
            t.line l = { y with axis := a.toNat, stations := x.stationsAt a.toNat, counters := (t.line l).counters }
            ∧ (t.line l).counters.jump =
                if (x.axis : Int) + x.entry.maxStep < a then sat x.counters.jump 1 else x.counters.jump)
          ∧ ((x.axis : Int) + x.entry.maxStep < a → ∀ k n b h, RecordsAlone s l k n b h →
              t.stc.writeQueue = s.stc.writeQueue ++ [n.written b h fun q => { q with gap := true }])
          ∧ (a < x.axis → t.line l = { y with sup := { x.sup with gap := min (x.axis - a).toNat 2199023255551 } }))
      ∧ ((x.parkedFrom ≠ .reckoning ∨ x.parkedLength = true) →
          (step < 0 → t.line l = { y with sup := { x.sup with gap := min (x.sup.gap + (-step).toNat) 2199023255551 } })
          ∧ (0 ≤ step →
              t.line l = { y with
                axis := min (x.axis + d) 1099511627775,
                stations := if d = 0 then x.stations else x.stationsAt (min (x.axis + d) 1099511627775),
                sup := { x.sup with gap := gap }, counters := (t.line l).counters }
              ∧ (t.line l).counters.jump =
                  if (x.entry.maxStep : Int) < step then sat x.counters.jump 1 else x.counters.jump)
          ∧ ((x.entry.maxStep : Int) < step → ∀ k n b h, RecordsAlone s l k n b h →
              t.stc.writeQueue = s.stc.writeQueue ++ [n.written b h fun q => { q with gap := true }]))

/-! ### The other process events -/

/-- A SAMPLE taken (R12, R41, R42, R51, R65). The event leaves the queue, and one with a gap mark first marks every open bin of the line
with GAP (R72). In HOLDBACK each pair is counted HOLDBACK_DROP and nothing else happens. In any other state BAC takes the pairs, in frame
order, with the station, its material position, whether the line carries a reverse debt, whether it reckons, and whether the station is
not valid or the line is SETTLING; then a RUNNING line's silence count rises, and at the silence limit the line enters RECKONING,
LENGTH_LOST is counted and its fault raised with the line and its axis, before its drain marks are tested (O57). The axis and the chain
hold, and nothing of another line changes. -/
def Obligations.SampleIsTakenOrHeldBack : Prop :=
  ∀ (s : State) (l : LineId) (e : Event) (k : Fin 12) (pairs : List (Nat × Int)),
    let x := s.line l
    let u := s.takeEvent l e
    let call : SampleCall := {
      line := l, station := k.val, before := !x.stations[k].valid || x.state == .settling,
      pos := (x.axis : Int) - x.stations[k].content, debt := decide (0 < x.reverseDebt), est := x.state == .reckoning }
    Awaits s l e → e.body = .sample k pairs →
    u.line l = x.took e
    ∧ (∀ c, u.chan c = if e.gap = true ∧ (s.chan c).on l = true then { s.chan c with
          openBin := (s.chan c).openBin.map fun b =>
            { b with data := { b.data with quality := { b.data.quality with gap := true } } } } else s.chan c)
    ∧ (x.state = .holdback → exec (.sampleEvent l) s = .next (State.testDrains (u.updLine l fun y =>
        { y with counters := { y.counters with holdbackDrop := sat y.counters.holdbackDrop pairs.length } })))
    ∧ (x.state ≠ .holdback →
        exec (.sampleEvent l) s =
          .next ((((u.takePairs call pairs).afterEvent l x.state).noteHeld l e s.stc.heldOffers).testDrains))
    ∧ (∀ (v : State) (st : LineState),
        let y := v.line l
        let w := v.afterEvent l st
        (w.line l = Line.silenced { y with state := st } y ∧ (∀ j, j ≠ l → w.line j = v.line j)
          ∧ w.channels = v.channels ∧ w.glu = v.glu ∧ w.stc = v.stc ∧ w.pbk = v.pbk)
        ∧ ((st ≠ .running ∨ min (y.sup.silence + 1) 255 < y.entry.silenceLimit) → w.mgt = v.mgt ∧ w.prl = v.prl)
        ∧ (st = .running → y.entry.silenceLimit ≤ min (y.sup.silence + 1) 255 → v.mgt.fault = none →
            w.mgt.fault = some { code := .lengthLost, line := some l, piece := none, axis := some (y.axis : Int),
                                 stamp := v.tku.clock }))
    ∧ (∀ v : State, v.takePairs call [] = v
        ∧ ∀ p n rest, v.takePairs call ((p, n) :: rest) = (v.takePair call p n).takePairs call rest)
    ∧ ∃ t, exec (.sampleEvent l) s = .next t ∧ KeepsElsewhere (· = l) s t
      ∧ (x.state = .holdback → t.line l = { x.took e with
          counters := { x.counters with holdbackDrop := sat x.counters.holdbackDrop pairs.length } })
      ∧ (x.state ≠ .holdback →
          t.line l = { Line.silenced x (x.took e) with counters := (t.line l).counters })

/-- What becomes of one pair (R62, R65 to R70, Fig. 4.4): with no channel for its point it is UNMAPPED; before the head or at a position
below 0 or below the head mark, PRE_HEAD; behind the channel's frontier or last bin, BEHIND; otherwise it is ACCEPTED and its value filed in
the bin of its position, or OUT_OF_RANGE outside the channel's limits and filed there as a clipped value. Where the channel has no open bin
one is opened with it, the frontier rising to the position; where it has one, O26 says how it is filed. At the frontier itself a pair is
behind while a reverse debt is owed (R67), and while no bin is open: the bin there was handed, or was discarded, and what stands at its
frontier is not recorded again (R76; that the open bin alone tells it is log 28's). -/
def Obligations.PairIsFiledOrCounted : Prop :=
  ∀ (s : State) (k : SampleCall) (p : Nat) (v : Int),
    (s.mapped k.line k.station p = none →
      s.takePair k p v = s.countLine k.line fun n => { n with unmapped := sat n.unmapped 1 })
    ∧ ∀ c, s.mapped k.line k.station p = some c →
      ((k.before = true ∨ k.pos < 0 ∨ k.pos < (s.line k.line).headMark) →
        s.takePair k p v = s.countLine k.line fun n => { n with preHead := sat n.preHead 1 })
      ∧ (k.before = false → 0 ≤ k.pos → ((s.line k.line).headMark : Int) ≤ k.pos →
        let m := k.pos.toNat
        let pitch := (s.chan c).entry.pitch
        let old := (∃ f, (s.chan c).frontier = some f ∧ (m < f ∨ ((k.debt = true ∨ (s.chan c).openBin = none) ∧ m ≤ f)))
                    ∨ ∃ n, (s.chan c).lastHanded = some n ∧ m / pitch ≤ n
        let up := some (max m ((s.chan c).frontier.getD m))
        let within := (s.chan c).entry.low ≤ v ∧ v ≤ (s.chan c).entry.high
        (old → s.takePair k p v = s.countLine k.line fun n => { n with behind := sat n.behind 1 })
        ∧ (¬ old → within → s.takePair k p v =
            (s.countLine k.line fun n => { n with accepted := sat n.accepted 1 }).fileValue k.line c m (some v) k.est)
        ∧ (¬ old → ¬ within → s.takePair k p v =
            (s.countLine k.line fun n => { n with outOfRange := sat n.outOfRange 1 }).fileValue k.line c m none k.est)
        ∧ (¬ old → (s.chan c).openBin = none →
          (within →
            s.takePair k p v = (s.countLine k.line fun n => { n with accepted := sat n.accepted 1 }).updChan c fun y =>
              { y with
                frontier := up,
                openBin := some { num := m / pitch, data := {
                  min := v, max := v, sum := v, count := 1, first := v, last := v, offset := m % pitch,
                  quality := { estimated := k.est } } } })
          ∧ (¬ within →
            s.takePair k p v = (s.countLine k.line fun n => { n with outOfRange := sat n.outOfRange 1 }).updChan c fun y =>
              { y with
                frontier := up,
                openBin := some { num := m / pitch, data := {
                  offset := m % pitch, quality := { estimated := k.est, clipped := true } } } })))

/-- An in-range pair whose bin number is the open bin's is accumulated into it (R69). Beside it: a clipped value of that number gives the
bin CLIPPED (R68); a value of another number closes the open bin and opens its own (R70). A bin closed is offered to the store with its
channel, generation, line, pitch, number and record, its number being the channel's last handed one, or held while a reload seal waits
(R77, R120). BAC told the stations' positions closes exactly the open bins that end at or below their valid station's (R74); closing a
line's bins closes each, and no channel of another line (R75). -/
def Obligations.ValueIsAccumulated : Prop :=
  (∀ (s : State) (l : LineId) (c : ChanId) (m : Nat) (v : Int) (est : Bool) (b : OpenBin),
    let r := b.data
    (s.chan c).openBin = some b → b.num = m / (s.chan c).entry.pitch →
    s.fileValue l c m (some v) est = s.updChan c fun y =>
      { y with
        frontier := some (max m (y.frontier.getD m)),
        openBin := some { b with data := { r with
          min := if r.count = 0 then v else min r.min v, max := if r.count = 0 then v else max r.max v,
          first := if r.count = 0 then v else r.first, last := v,
          sum := if r.count = 0 then v else if r.count = 16777215 then r.sum else r.sum + v,
          count := if r.count = 16777215 then r.count else r.count + 1,
          quality := { r.quality with estimated := r.quality.estimated || est } } } })
  ∧ (∀ (s : State) (l : LineId) (c : ChanId) (m : Nat) (est : Bool) (b : OpenBin),
    let r := b.data
    (s.chan c).openBin = some b → b.num = m / (s.chan c).entry.pitch →
    s.fileValue l c m none est = s.updChan c fun y =>
      { y with
        frontier := some (max m (y.frontier.getD m)),
        openBin := some { b with data := { r with
          quality := { r.quality with estimated := r.quality.estimated || est, clipped := true } } } })
  ∧ (∀ (s : State) (l : LineId) (c : ChanId) (m : Nat) (v : Option Int) (est : Bool) (b : OpenBin),
    let pitch := (s.chan c).entry.pitch
    (s.chan c).openBin = some b → b.num ≠ m / pitch →
    s.fileValue l c m v est = (s.closeBin l c).updChan c fun y =>
      { y with
        frontier := some (max m (y.frontier.getD m)),
        openBin := some { num := m / pitch, data := match v with
          | some n => { min := n, max := n, sum := n, count := 1, first := n, last := n, offset := m % pitch,
                        quality := { estimated := est } }
          | none => { offset := m % pitch, quality := { estimated := est, clipped := true } } } })
  ∧ (∀ (s : State) (l : LineId) (c : ChanId) (b : OpenBin), (s.chan c).openBin = some b →
    let u := s.updChan c fun y => { y with openBin := none, lastHanded := some b.num }
    let o : BinOffer := { chan := c, gen := (s.chan c).gen, line := l, pitch := (s.chan c).entry.pitch, num := b.num,
                          data := b.data }
    (s.stc.waitingSeal = none → s.closeBin l c = u.takeOffer o)
    ∧ (s.stc.waitingSeal.isSome = true →
        s.closeBin l c = u.updStc fun t => { t with heldOffers := t.heldOffers ++ [o] }))
  ∧ ∀ (s : State) (l : LineId) (c : ChanId),
    let x := s.line l
    (x.binPassed (s.chan c) = true ↔ ∃ b, (s.chan c).openBin = some b ∧ x.stationValid (s.chan c).entry.station = true
      ∧ (((b.num + 1) * (s.chan c).entry.pitch : Nat) : Int) ≤ x.axis - x.content (s.chan c).entry.station)
    ∧ (s.tellStations l).chan c =
        (if (s.chan c).on l = true ∧ x.binPassed (s.chan c) = true then (s.chan c).closed else s.chan c)
    ∧ (s.closeBins l).chan c = (if (s.chan c).on l = true then (s.chan c).closed else s.chan c)

/-- A WELD taken (R36, R37, R89 to R91). The weld axis lies by the length counter, or at the current axis, ESTIMATED, where the line is
SETTLING or its reference is missing; not above the floor, the higher of last weld axis and open output boundary, it is the floor plus 1,
ESTIMATED, and without a floor below 0 it is 0, ESTIMATED. That floor plus 1 stays at 2^40 - 1 is log 20's. With 32 joints on the chain the
weld is dropped, counted CHAIN_FULL with a fault of line and weld axis; otherwise GLU gives a reference, a joint joins the chain, the feed
list gains its entry, and it is counted WELDS. The feeding on the line ends first: the last entry, and the FEEDING use span of its current,
readable piece, end at the weld axis; of a DAMAGED one the entry alone (that an INCOMPLETE of R94 is lost then: log 17). GLU's lookup of a
tag walks 16 slots from its home slot (R83, R85): an EMPTY one ends it, a stale candidate's becomes TOMBSTONE, an unreadable record is
passed over, and the latest opened stamp wins, of equal ones the later met. A new tag takes the first EMPTY or TOMBSTONE slot, or the piece
is UNINDEXED (R84). The match is given the use span, or a new EXTERNAL piece is, by Fig. 5.5 (R90); an estimated span flags its piece
(R91). A change is a read-modify-write, poisoning a unit that fails (R125); which unit holds a span, and that no change is no write, is log
9's. Where GLU is busy the event is taken and its call waits, the line holding its queue (R81, R82). That joint, feed list and counts stand
at once though writes of the call still wait for room, and that the silence count rises as the event is taken, is log 15's. -/
def Obligations.WeldJoinsTheChain : Prop :=
  (∀ (s : State) (l : LineId) (e : Event) (c : Word32) (declared : Nat) (tag : Tag),
    let x := s.line l
    let here : Bool := x.state == .settling || x.state == .reckoning || x.state == .holdback
                        || (x.state == .parked && x.refMissing)
    let raw : Int := if here then x.axis else min (x.axis + (c - x.lengthRef).toInt) 1099511627775
    let floor : Option Nat := match x.lastWeld, x.boundary with
      | some a, some b => some (max a b)
      | some a, none => some a
      | none, b => b
    let place : Nat × Bool := match floor with
      | some f => if raw ≤ (f : Int) then (min (f + 1) 1099511627775, true) else (raw.toNat, here)
      | none => if raw < 0 then (0, true) else (raw.toNat, here)
    let g := (s.takeEvent l e).gluWeld l place.1 place.2 tag declared
      (if x.entry.payoff = .headFirst then .same else .reversed)
    Awaits s l e → e.body = .weld c declared tag →
    (32 ≤ x.chain.length → ∃ t, exec (.weldEvent l) s = .next t ∧ KeepsElsewhere (· = l) s t
      ∧ t.line l = Line.silenced x { x.took e with counters := { x.counters with chainFull := sat x.counters.chainFull 1 } }
      ∧ t.glu = s.glu
      ∧ (s.mgt.fault = none → t.mgt.fault = some {
          code := .chainFull, line := some l, piece := none, axis := some (place.1 : Int), stamp := s.tku.clock }))
    ∧ (x.chain.length < 32 → GluFree s → ∃ t, exec (.weldEvent l) s = .next t ∧ KeepsElsewhere (· = l) s t
      ∧ t.line l = { Line.silenced x { x.took e with
          chain := x.chain ++ [{ axis := place.1, piece := g.1, est := place.2 }], lastWeld := some place.1,
          feeding := some g.1, stations := x.stations.map (Station.triggerAt place.1),
          counters := { x.counters with welds := sat x.counters.welds 1 } } with
          feed := (t.line l).feed }
      ∧ (t.line l).feed.getLast? = some { piece := g.1, start := place.1, stop := none, est := place.2 }
      ∧ t.stc = g.2.stc
      ∧ t.glu = { g.2.glu with waits := g.2.glu.waits ++ if g.2.gluBusy = true then [.line l] else [] })
    ∧ (x.chain.length < 32 → ¬ GluFree s → ∃ t, exec (.weldEvent l) s = .next t ∧ KeepsElsewhere (· = l) s t
      ∧ t.line l = Line.silenced x (x.took e) ∧ t.stc = s.stc
      ∧ t.glu = { s.glu with waits := s.glu.waits ++ [.call (.weld l place.1 place.2 tag declared
          (if x.entry.payoff = .headFirst then .same else .reversed)), .line l] }))
  ∧ (∀ (s : State) (l : LineId) (a : Nat) (est : Bool) (tag : Tag) (declared : Nat) (dir : Direction),
    let g := s.gluWeld l a est tag declared dir
    s.gluTakes (.weld l a est tag declared dir) = g.2.updLine l fun y => { y with
      chain := if y.chain.length < 32 then y.chain ++ [{ axis := a, piece := g.1, est := est }] else y.chain,
      lastWeld := some a, feeding := some g.1, stations := y.stations.map (Station.triggerAt a),
      counters := { y.counters with welds := sat y.counters.welds 1 } })
  ∧ (∀ (s : State) (l : LineId) (a : Nat) (est : Bool) (tag : Tag) (declared : Nat) (dir : Direction),
    let v := s.endFeeding l a est false
    let span : UseSpan := { line := l, start := a, stop := none, dir := dir, est := est }
    let fresh (dup : Bool) : NewPiece := {
      line := l, axis := a, tag := tag, kind := .external, flags := { estimated := est, duplicateTag := dup },
      length := if declared = 0 then none else some declared, feed := some span, checkTag := false }
    let g := s.gluWeld l a est tag declared dir
    let found := v.lookupTag tag
    let u := found.2
    let gives (x : PieceRef × State) : Prop := g.1 = x.1 ∧ g.2 = x.2.updLine l fun y =>
      { y with feed := y.feed ++ [{ piece := x.1, start := a, stop := none, est := est }] }
    (∀ f, (s.line l).feed.getLast? = some f → f.stop = none →
        let w := s.updLine l fun y => { y with feed := y.feed.dropLast ++ [{ f with stop := some a, est := f.est || est }] }
        (w.isCurrent f.piece = true → v = w.endUse f.piece l a est false) ∧ (w.isCurrent f.piece = false → v = w))
    ∧ (((s.line l).feed = [] ∨ ∃ f, (s.line l).feed.getLast? = some f ∧ f.stop.isSome = true) → v = s)
    ∧ (found.1 = none → gives (u.createPiece (fresh false)))
    ∧ ∀ r p, found.1 = some (r, p) →
        let full := 4 ≤ p.uses.length ∨ ∃ y ∈ p.uses, y.stop = none
        let told (code : FaultCode) : State := u.raise code (some l) (some r) (some (a : Int))
        ((u.pieceDir r.idx).state = .opened → gives (((told .tagOpen).countGlu fun n =>
            { n with tagOpen := sat n.tagOpen 1 }).createPiece (fresh true)))
        ∧ ((u.pieceDir r.idx).state ≠ .opened → p.id.kind = .scrap → gives (u.createPiece (fresh true)))
        ∧ ((u.pieceDir r.idx).state ≠ .opened → p.id.kind ≠ .scrap → full → gives (((told .useLimit).countGlu fun n =>
            { n with useLimit := sat n.useLimit 1 }).createPiece (fresh true)))
        ∧ ((u.pieceDir r.idx).state ≠ .opened → p.id.kind ≠ .scrap → ¬ full → gives (r, u.addUse r p span)))
  ∧ (∀ (s u : State) (r : PieceRef) (l : LineId) (a : Nat) (est incomplete : Bool),
    let flagged (v : State) : State := if est = true ∨ incomplete = true then v.setFlags r fun f =>
      { f with estimated := f.estimated || est, incomplete := f.incomplete || incomplete } else v
    let feeds (y : UseSpan) : Prop := y.line = l ∧ y.stop = none
    (s.gluRecord r.idx = (none, u) → s.endUse r l a est incomplete = u)
    ∧ ∀ p, s.gluRecord r.idx = (some p, u) →
      ((∀ y ∈ p.uses, ¬ feeds y) → s.endUse r l a est incomplete = flagged u)
      ∧ ∀ (k : Nat) (y : UseSpan), p.uses[k]? = some y → feeds y → (∀ j, j < k → ∀ z, p.uses[j]? = some z → ¬ feeds z) →
        s.endUse r l a est incomplete = flagged (u.setUse r k { y with stop := some a, est := y.est || est }))
  ∧ (∀ (s : State) (r : PieceRef) (p : PieceRecord) (y : UseSpan) (k : Nat) (f : PieceFlags → PieceFlags),
    let w := s.setUse r p.uses.length y
    (y.est = true → s.addUse r p y = w.setFlags r fun f => { f with estimated := true })
    ∧ (y.est = false → s.addUse r p y = w)
    ∧ s.setUse r k y = s.gluModify (pieceAddr r.idx (2 + k / 2)) r (fun c =>
        if k % 2 = 0 then .pieceUses (some y) (Cell.asUses c).2 else .pieceUses (Cell.asUses c).1 (some y))
    ∧ s.setFlags r f = s.gluModify (pieceAddr r.idx 0) r fun c =>
        .pieceId { Cell.asPieceId c with flags := f (Cell.asPieceId c).flags })
  ∧ (∀ (s u : State) (a : Nat) (r : PieceRef) (f : Cell → Cell),
    (∀ c, s.gluRead a = (some c, u) → (f c = c → s.gluModify a r f = u) ∧ (f c ≠ c → s.gluModify a r f = u.gluWrite a (f c)))
    ∧ (s.gluRead a = (none, u) → s.gluModify a r f = ((u.gluWrite a .poisoned).countStc fun n =>
        { n with poisoned := sat n.poisoned 1 }).raise .recordPoisoned none (some r) none))
  ∧ (∀ (s : State) (tag : Tag) (k : Nat) (ks : List Nat) (best : Option (PieceRef × PieceRecord)),
    let x := (s.gluRead (tagAddr k)).1
    let u := (s.gluRead (tagAddr k)).2
    let walk := s.lookupSlots tag (k :: ks) best
    s.lookupTag tag = s.lookupSlots tag ((List.range 16).map fun i => (homeSlot tag + i) % 131072) none
    ∧ s.lookupSlots tag [] best = (best, s)
    ∧ (x = some .cleared → walk = (best, u))
    ∧ ((x = none ∨ x = some .tagTombstone ∨ ∃ g p, x = some (.tagUsed g p) ∧ g ≠ tag) → walk = u.lookupSlots tag ks best)
    ∧ ∀ p, x = some (.tagUsed tag p) →
      (u.isCurrent p = false → walk = (u.gluWrite (tagAddr k) .tagTombstone).lookupSlots tag ks best)
      ∧ (∀ w, u.isCurrent p = true → u.gluRecord p.idx = (none, w) → walk = w.lookupSlots tag ks best)
      ∧ (∀ y w, u.isCurrent p = true → u.gluRecord p.idx = (some y, w) →
          walk = w.lookupSlots tag ks (match best with
            | none => some (p, y)
            | some b => if b.2.id.opened.toNat ≤ y.id.opened.toNat then some (p, y) else some b)))
  ∧ ∀ (s : State) (tag : Tag) (r : PieceRef) (k : Nat) (ks : List Nat),
    let x := (s.gluRead (tagAddr k)).1
    let u := (s.gluRead (tagAddr k)).2
    let walk := s.enterSlots tag r (k :: ks)
    let full := s.enterSlots tag r ((List.range 16).map fun i => (homeSlot tag + i) % 131072)
    s.enterSlots tag r [] = (false, s)
    ∧ ((x = some .cleared ∨ x = some .tagTombstone) → walk = (true, u.gluWrite (tagAddr k) (.tagUsed tag r)))
    ∧ ((x = none ∨ ∃ g p, x = some (.tagUsed g p)) → walk = u.enterSlots tag r ks)
    ∧ (full.1 = true → s.enterTag tag r = full.2)
    ∧ (full.1 = false → s.enterTag tag r = (full.2.countGlu fun n =>
        { n with tagIndexFull := sat n.tagIndexFull 1 }).setFlags r fun f => { f with unindexed := true })

/-- A CUT refused (R38): at a shear point below 0 or not above the open output boundary it is counted CUT_ORDER with its fault; with a
tag count other than the strands (a SCRAP cut has none) it is counted BAD_STRANDS with its fault. Nothing else changes on the line but
its silence count. -/
def Obligations.CutOutOfOrderIsRefused : Prop :=
  ∀ (s : State) (l : LineId) (e : Event) (kind : CutKind) (n : Nat) (tags : List Tag),
    let x := s.line l
    let a : Int := min ((x.axis : Int) - x.content x.entry.shear) 1099511627775
    let early := a < 0 ∨ ∃ b, x.boundary = some b ∧ a ≤ b
    Awaits s l e → e.body = .cut kind n tags →
    (early → ∃ t, exec (.cutEvent l) s = .next t ∧ KeepsElsewhere (· = l) s t
      ∧ t.line l = Line.silenced x { x.took e with counters := { x.counters with cutOrder := sat x.counters.cutOrder 1 } }
      ∧ t.glu = s.glu ∧ (s.mgt.fault = none → t.mgt.fault =
          some { code := .cutOrder, line := some l, piece := none, axis := some a, stamp := s.tku.clock }))
    ∧ (¬ early → kind ≠ .scrap → tags.length ≠ x.entry.strands →
      ∃ t, exec (.cutEvent l) s = .next t ∧ KeepsElsewhere (· = l) s t
      ∧ t.line l = Line.silenced x { x.took e with counters := { x.counters with badStrands := sat x.counters.badStrands 1 } }
      ∧ t.glu = s.glu ∧ (s.mgt.fault = none → t.mgt.fault =
          some { code := .badStrands, line := some l, piece := none, axis := some a, stamp := s.tku.clock }))

/-- A CUT accepted (R39, R92 to R97): the open outputs are closed, the joints at or below the cut axis leave the chain, feed entries ended
by then are removed, a piece is created for each tag (one of SCRAP, tagged as the piece last fed), the boundary is the cut axis, and CUTS
is counted; where GLU is busy close and opening wait as two calls, and where the close leaves writes waiting the opening does (R81, R82;
that a call runs whole while its writes wait: log 15). Closing a current output sets its birth span's end, length, closed stamp and flags,
builds a segment for each part of its span, and makes it the last of the close list; a stale one is passed over (R93). Each part lies in
the span and holds material; that of a feed entry covers what it fed, and what lies before the first is orphan (R96). A segment takes the
top segment number; child and current parent gain it, an empty list in a group of its own (R95, R97), a list in the next slot of its last
group, or, that being full, in a new group chained on (the order of those writes: log 9; an unreadable last group counts as full: log 17).
With no segment free SEGMENT_FULL, with too few groups LINK_FULL: no segment, the child INCOMPLETE (R97); that no write was offered for the
segment freed is log 26's. A piece created takes the top index; its entry is OPEN, or CLOSED and last of the close list for an EXTERNAL
one, with pin count 0; its record is written with its kind, strand, tag, birth span and flags, in units and an order that are log 9's,
DUPLICATE_TAG where the tag finds a match (R87, R91, R92; looked up after the index is taken: log 26), and reads as it was given (said of
an all-space tag). Automatic retirement runs before a creation that finds no index, or after one that leaves fewer than 256, once in all;
with none freed, PIECE_TABLE_FULL (R87, R103). -/
def Obligations.CutOpensOutputs : Prop :=
  (∀ (s : State) (l : LineId) (e : Event) (kind : CutKind) (n : Nat) (tags : List Tag),
    let x := s.line l
    let a : Int := min ((x.axis : Int) - x.content x.entry.shear) 1099511627775
    let here : Bool := x.state == .settling || x.state == .reckoning || x.state == .holdback
                        || (x.state == .parked && x.refMissing)
    let u := s.takeEvent l e
    let v := if x.outputs = [] then u else u.gluClose {
      line := l, start := x.boundary.getD 0, stop := a.toNat, finished := n, est := here, incomplete := false } x.outputs
    let w := v.updLine l fun y => { y with chain := y.chain.filter fun j => decide (a.toNat < j.axis) }
    let g := w.gluOpen l kind tags a.toNat here
    Awaits s l e → e.body = .cut kind n tags →
    0 ≤ a → (∀ b, x.boundary = some b → (b : Int) < a) → (kind = .scrap ∨ tags.length = x.entry.strands) →
    (¬ GluFree s → ∃ t, exec (.cutEvent l) s = .next t ∧ KeepsElsewhere (· = l) s t
      ∧ t.line l = Line.silenced x { x.took e with chain := x.chain.filter fun j => decide (a < j.axis) }
      ∧ t.stc = s.stc
      ∧ t.glu = { s.glu with waits := s.glu.waits
          ++ (if x.outputs = [] then [] else [.call (.closeCut {
                line := l, start := x.boundary.getD 0, stop := a.toNat, finished := n, est := here, incomplete := false }
                x.outputs)])
          ++ [.call (.openOutputs l kind tags a.toNat here), .line l] })
    ∧ (GluFree s → ∃ t, exec (.cutEvent l) s = .next t ∧ KeepsElsewhere (· = l) s t
      ∧ g.1.length = (if kind = .scrap then 1 else tags.length)
      ∧ (GluFree w →
        t.line l = { Line.silenced x { x.took e with
          chain := x.chain.filter (fun j => decide (a < j.axis)), outputs := g.1, boundary := some a.toNat,
          counters := { x.counters with cuts := sat x.counters.cuts 1 } } with
          feed := (t.line l).feed }
        ∧ t.stc = g.2.stc
        ∧ t.glu = { g.2.glu with waits := g.2.glu.waits ++ if g.2.gluBusy = true then [.line l] else [] })
      ∧ (¬ GluFree w →
        t.line l = { Line.silenced x { x.took e with chain := x.chain.filter fun j => decide (a < j.axis) } with
          feed := (t.line l).feed }
        ∧ t.stc = w.stc
        ∧ t.glu = { w.glu with waits := w.glu.waits ++ [.call (.openOutputs l kind tags a.toNat here), .line l] })))
  ∧ (∀ (s : State) (k : CloseCall) (outputs : List PieceRef), s.gluTakes (.closeCut k outputs) = s.gluClose k outputs)
  ∧ (∀ (s : State) (l : LineId) (kind : CutKind) (tags : List Tag) (a : Nat) (est : Bool),
    let g := s.gluOpen l kind tags a est
    s.gluTakes (.openOutputs l kind tags a est) = g.2.updLine l fun y => { y with
      outputs := g.1, boundary := some a, counters := { y.counters with cuts := sat y.counters.cuts 1 } })
  ∧ (∀ (s : State) (l : LineId) (kind : CutKind) (tags : List Tag) (a : Nat) (est : Bool),
    let u := s.updLine l fun y => { y with feed := y.feed.filter fun f => f.stop.all fun b => decide (a < b) }
    let g := s.gluOpen l kind tags a est
    let scrap (v : State) (tag : Tag) := v.openPieces l .scrap a est 0 [tag]
    (kind = .coil → g = u.openPieces l .coil a est 0 tags) ∧ (kind = .sample → g = u.openPieces l .sample a est 0 tags)
    ∧ (kind = .scrap → (u.line l).feed = [] → g = scrap u blankTag)
    ∧ ∀ f v, kind = .scrap → (u.line l).feed.getLast? = some f →
      (u.isCurrent f.piece = false → g = scrap u blankTag)
      ∧ (u.isCurrent f.piece = true → u.gluRecord f.piece.idx = (none, v) → g = scrap v blankTag)
      ∧ ∀ p, u.isCurrent f.piece = true → u.gluRecord f.piece.idx = (some p, v) → g = scrap v p.id.tag)
  ∧ (∀ (s : State) (l : LineId) (kind : PieceKind) (a strand : Nat) (est : Bool) (tag : Tag) (tags : List Tag),
    let x := s.createPiece {
      line := l, axis := a, tag := tag, kind := kind, flags := { estimated := est },
      birth := some { line := l, strand := strand, start := a, stop := none, est := est }, checkTag := true }
    let y := x.2.openPieces l kind a est (strand + 1) tags
    s.openPieces l kind a est strand [] = ([], s) ∧ s.openPieces l kind a est strand (tag :: tags) = (x.1 :: y.1, y.2))
  ∧ (∀ (s : State) (n : NewPiece),
    let made (v : State) (i : Nat) (rest : FreeList) (ran : Bool) : PieceRef × State :=
      let r : PieceRef := ⟨i, (v.pieceDir i).gen⟩
      let v := v.updGlu fun g => { g with freePieces := rest }
      let x := if n.checkTag = true ∧ n.tag ≠ blankTag then v.lookupTag n.tag else (none, v)
      let units : List Cell := [
        .pieceId { ref := r, tag := n.tag, kind := n.kind, opened := s.tku.clock,
                   flags := { n.flags with duplicateTag := n.flags.duplicateTag || x.1.isSome } },
        .pieceBirth { length := n.length, birth := n.birth,
                      closed := if n.kind = .external then some s.tku.clock else none },
        (match n.feed with
          | none => .cleared
          | some y => .pieceUses (some y) none),
        .cleared, .pieceLinks {} {}, .cleared, .cleared, .cleared]
      let w := ([0, 1, 2, 3, 4, 5, 6, 7].zip units).foldl (fun w k => w.gluWrite (pieceAddr i k.1) k.2) x.2
      let w := w.updPieceDir i fun d => { d with state := if n.kind = .external then .closed else .opened, pins := 0 }
      let w := if n.kind = .external then w.updGlu fun g => { g with closeList := g.closeList ++ [i] } else w
      let w := if n.tag = blankTag then w else w.enterTag n.tag r
      (r, if ran = false ∧ w.glu.freePieces.length < 256 then w.autoRetire else w)
    let v := s.autoRetire
    (∀ i rest, s.glu.freePieces.pop = some (i, rest) → s.createPiece n = made s i rest false)
    ∧ (∀ i rest, s.glu.freePieces.pop = none → v.glu.freePieces.pop = some (i, rest) → s.createPiece n = made v i rest true)
    ∧ (s.glu.freePieces.pop = none → v.glu.freePieces.pop = none → s.createPiece n = (.noPiece,
        (v.raise .pieceTableFull (some n.line) none (some (n.axis : Int))).countGlu fun g =>
          { g with pieceTableFull := sat g.pieceTableFull 1 })))
  ∧ (∀ (s : State) (k : CloseCall) (strand : Nat) (r : PieceRef),
    let est := k.est || k.finished == 0
    let w := s.gluModify (pieceAddr r.idx 1) r fun c =>
      let b := Cell.asPieceBirth c
      .pieceBirth {
        length := some (if k.finished = 0 then min (k.stop - k.start) 33554431 else k.finished),
        birth := b.birth.map fun y => { y with stop := some k.stop, est := y.est || k.est },
        closed := some s.tku.clock }
    let w := if est = true ∨ k.incomplete = true then w.setFlags r fun f =>
      { f with estimated := f.estimated || est, incomplete := f.incomplete || k.incomplete } else w
    let w := (feedParts (s.line k.line).feed k.start k.stop).foldl
      (fun w p => w.buildSegment k.line r strand k.est p) w
    (s.isCurrent r = false → s.closeOutput k strand r = s)
    ∧ (s.isCurrent r = true → s.closeOutput k strand r =
        (w.updPieceDir r.idx fun d => { d with state := .closed }).updGlu fun g =>
          { g with closeList := g.closeList ++ [r.idx] }))
  ∧ (∀ (feed : List FeedEntry) (b0 b1 : Nat),
    let ps := feedParts feed b0 b1
    (∀ p ∈ ps, b0 ≤ p.start ∧ p.start < p.stop ∧ p.stop ≤ b1)
    ∧ (∀ f ∈ feed, ∀ a, b0 ≤ a → a < b1 → f.start ≤ a → a < f.stop.getD b1 →
        ∃ p ∈ ps, p.start ≤ a ∧ a < p.stop ∧ p.parent = f.piece ∧ p.est = f.est)
    ∧ ∀ a, b0 ≤ a → a < b1 → (∀ f, feed.head? = some f → a < f.start) →
        ∃ p ∈ ps, p.start ≤ a ∧ a < p.stop ∧ p.parent.idx = 0)
  ∧ (∀ (s : State) (l : LineId) (child : PieceRef) (strand : Nat) (est : Bool) (p : Part) (y : PieceRecord),
    let t := s.buildSegment l child strand est p
    p.parent.idx = 0 → s.stc.wrongBits = [] → (s.gluRecord child.idx).1 = some y →
    (s.glu.freeSegments.pop = none → t = ((s.raise .segmentFull (some l) (some child) (some (p.start : Int))).countGlu
        fun n => { n with segmentFull := sat n.segmentFull 1 }).setFlags child fun f => { f with incomplete := true })
    ∧ ∀ n rest g groups, s.glu.freeSegments.pop = some (n, rest) → s.glu.freeGroups.pop = some (g, groups) →
      y.parents.count = 0 → s.glu.waiting = [] → 3 ≤ s.writeRoom →
      child.idx ≤ 65535 → n < 524288 → g < 262144 →
      t.glu.freeSegments = rest ∧ t.glu.freeGroups = groups
      ∧ (t.gluRead (segmentAddr n)).1 = some (.segment {
          child := child, parent := p.parent, line := l, strand := strand, start := p.start, stop := p.stop,
          est := (y.body.birth.map fun b => b.est).getD est || p.est })
      ∧ (t.gluRead (groupAddr g)).1 = some (.group {
          owner := child, kind := .parent, pos := 0, next := none, slots := [some n] })
      ∧ (t.gluRecord child.idx).1 = some { y with parents := { count := 1, first := g, last := g } })
  ∧ (∀ (s : State) (l : LineId) (child : PieceRef) (strand : Nat) (est : Bool) (p : Part) (y z : PieceRecord),
    let t := s.buildSegment l child strand est p
    let lost : State := ((s.raise .linkFull (some l) (some child) (some (p.start : Int))).countGlu fun n =>
      { n with linkFull := sat n.linkFull 1 }).setFlags child fun f => { f with incomplete := true }
    s.stc.wrongBits = [] → (s.gluRecord child.idx).1 = some y → y.parents.count = 0 →
    ∀ n rest, s.glu.freeSegments.pop = some (n, rest) →
    (p.parent.idx = 0 → s.glu.freeGroups.pop = none → t = lost)
    ∧ (s.isCurrent p.parent = true → (s.gluRecord p.parent.idx).1 = some z → z.children.count = 0 →
      (s.glu.freeGroups.length < 2 → t = lost)
      ∧ ∀ g groups g' groups', s.glu.freeGroups.pop = some (g, groups) → groups.pop = some (g', groups') →
        s.glu.waiting = [] → 5 ≤ s.writeRoom → 1 ≤ child.idx → child.idx ≤ 65535 → child.idx ≠ p.parent.idx →
        n < 524288 → g < 262144 → g' < 262144 → g ≠ g' →
        t.glu.freeSegments = rest ∧ t.glu.freeGroups = groups'
        ∧ (t.gluRead (segmentAddr n)).1 = some (.segment {
            child := child, parent := p.parent, line := l, strand := strand, start := p.start, stop := p.stop,
            est := (y.body.birth.map fun b => b.est).getD est || p.est })
        ∧ (t.gluRead (groupAddr g)).1 = some (.group {
            owner := child, kind := .parent, pos := 0, next := none, slots := [some n] })
        ∧ (t.gluRead (groupAddr g')).1 = some (.group {
            owner := p.parent, kind := .child, pos := 0, next := none, slots := [some n] })
        ∧ (t.gluRecord child.idx).1 = some { y with parents := { count := 1, first := g, last := g } }
        ∧ (t.gluRecord p.parent.idx).1 = some { z with children := { count := 1, first := g', last := g' } }))
  ∧ (∀ (s u : State) (ref : PieceRef) (kind : ListKind) (ls : LinkList) (seg : Nat),
    let full := s.needsGroup ls
    (ls.count = 0 → full = (true, s))
    ∧ (0 < ls.count → s.gluRead (groupAddr ls.last) = (none, u) → full = (true, u))
    ∧ ∀ gr, 0 < ls.count → s.gluRead (groupAddr ls.last) = (some (.group gr), u) →
      full = (decide (4 ≤ gr.slots.length), u)
      ∧ s.appendSide ref kind ls seg false = (u.gluWrite (groupAddr ls.last)
          (.group { gr with slots := gr.slots ++ [some seg] })).dropGroup ref kind (ls.count - 1)
      ∧ ∀ g rest, s.glu.freeGroups.pop = some (g, rest) → s.stc.wrongBits = [] → s.glu.waiting = [] → 3 ≤ s.writeRoom →
        g < 262144 → ls.last < 262144 → g ≠ ls.last → 1 ≤ ref.idx → ref.idx ≤ 65535 →
        let t := s.appendSide ref kind ls seg true
        t.glu.freeGroups = rest
        ∧ (t.gluRead (groupAddr g)).1 = some (.group {
            owner := ref, kind := kind, pos := ls.count, next := none, slots := [some seg] })
        ∧ (t.gluRead (groupAddr ls.last)).1 = some (.group { gr with next := some g })
        ∧ ∀ y, (s.gluRecord ref.idx).1 = some y → (t.gluRecord ref.idx).1 = some (match kind with
            | .parent => { y with parents := { count := ls.count + 1, first := ls.first, last := g } }
            | .child => { y with children := { count := ls.count + 1, first := ls.first, last := g } }))
  ∧ ∀ (s : State) (n : NewPiece),
    let t := (s.createPiece n).2
    let r := (s.createPiece n).1
    (s.glu.freePieces.pop = none → s.glu.closeList = [] → r = .noPiece
      ∧ t.glu.counters.pieceTableFull = sat s.glu.counters.pieceTableFull 1
      ∧ (s.mgt.fault = none → t.mgt.fault = some {
          code := .pieceTableFull, line := some n.line, piece := none, axis := some (n.axis : Int), stamp := s.tku.clock }))
    ∧ ∀ i rest, s.glu.freePieces.pop = some (i, rest) → 256 ≤ rest.length →
      r = ⟨i, (s.pieceDir i).gen⟩ ∧ t.glu.freePieces = rest
      ∧ (Sparse.wf {} s.glu.dir = true → t.pieceDir i = {
          state := if n.kind = .external then .closed else .opened, gen := (s.pieceDir i).gen, pins := 0 })
      ∧ t.glu.closeList = s.glu.closeList ++ (if n.kind = .external then [i] else [])
      ∧ (n.tag = blankTag → s.glu.waiting = [] → 8 ≤ s.writeRoom → (t.gluRecord i).1 = some {
          id := { ref := r, tag := n.tag, kind := n.kind, flags := n.flags, opened := s.tku.clock },
          body := { length := n.length, birth := n.birth,
                    closed := if n.kind = .external then some s.tku.clock else none },
          uses := n.feed.toList, parents := {}, children := {} })

/-- STATE STOP (R24, R25, R26, R45, R51): RUNNING, RECKONING and HOLDBACK are left for PARKED, the state left recorded, the
reference-missing flag set exactly on leaving the last two, the parked-length flag clear, and no channel of the line keeps an open
bin; in any other state the event is taken without effect. -/
def Obligations.StopParksTheLine : Prop :=
  ∀ (s : State) (l : LineId) (e : Event),
    let x := s.line l
    Awaits s l e → e.body = .stop →
    ∃ t, exec (.stateStopEvent l) s = .next t ∧ KeepsElsewhere (· = l) s t
      ∧ (x.state ∈ [.running, .reckoning, .holdback] →
          t.line l = { x.took e with state := .parked, parkedFrom := x.state, parkedLength := false,
                                     refMissing := decide (x.state ≠ .running), counters := (t.line l).counters }
          ∧ ∀ k, (t.chan k).recording l = false)
      ∧ (x.state ∉ [.running, .reckoning, .holdback] → t.line l = x.took e)

/-- STATE RUN (R24 to R26, R45, R51): a PARKED line enters RUNNING, HOLDBACK or RECKONING by its reference-missing flag, its gap and its
parked-length flag, both flags then clear; in any other state the event is taken without effect. -/
def Obligations.RunLeavesParked : Prop :=
  ∀ (s : State) (l : LineId) (e : Event),
    let x := s.line l
    let y := { x.took e with refMissing := false, parkedLength := false }
    Awaits s l e → e.body = .run →
    ∃ t, exec (.stateRunEvent l) s = .next t ∧ KeepsElsewhere (· = l) s t
      ∧ t.line l =
          if x.state ≠ .parked then x.took e
          else if x.refMissing = false ∨ (x.sup.gap = 0 ∧ x.parkedLength = true) then
            { y with state := .running, sup := { x.sup with silence := 0 } }
          else if 0 < x.sup.gap then { y with state := .holdback, sup := { x.sup with grace := 0, acked := false } }
          else { y with state := .reckoning, sup := { x.sup with
                          grace := 0, acked := false, remainder := 0, reckonSpeed := min x.lastSpeed x.entry.maxSpeed } }

/-- A line that enters RECKONING from PARKED keeps its anchor, is reckoned at its last speed capped at the max speed, and is not
announced again: no fault is taken and LENGTH_LOST is not counted (R44). -/
def Obligations.ReckoningFromParkedIsNotAnnounced : Prop :=
  ∀ (s : State) (l : LineId) (e : Event),
    let x := s.line l
    Awaits s l e → e.body = .run → x.state = .parked → x.refMissing = true → x.sup.gap = 0 → x.parkedLength = false →
    ∃ t, exec (.stateRunEvent l) s = .next t ∧ KeepsElsewhere (· = l) s t
      ∧ t.line l = { x.took e with
          state := .reckoning, refMissing := false, parkedLength := false,
          sup := { x.sup with
            reckonSpeed := min x.lastSpeed x.entry.maxSpeed, remainder := 0, grace := 0, acked := false } }
      ∧ (t.line l).sup.anchor = x.sup.anchor ∧ (t.line l).lengthRef = x.lengthRef
      ∧ (t.line l).counters.lengthLost = x.counters.lengthLost ∧ t.mgt = s.mgt

/-! ### The Tick Unit -/

/-- BASE_TICK (R185): the clock rises by one, wrapping; the running counters that take base ticks are lowered by one (a cascaded SWEEP takes
none); nothing else changes. That a counter come to 0 holds its expiry, to be taken by a command of its own before the reload of R187, is
log 14's choice; an expiry still owed at a tick is taken first, in the order RECKON, HOLD, SWEEP (log 14). -/
def Obligations.BaseTickCounts : Prop :=
  ∀ s : State,
    let ticked (t : TKU) : TKU := { t with
      clock := t.clock + 1,
      reckon := { t.reckon with count := if t.reckon.running then t.reckon.count - 1 else t.reckon.count },
      hold := { t.hold with count := if t.hold.running then t.hold.count - 1 else t.hold.count },
      sweep := { t.sweep with count :=
        if t.sweep.running ∧ t.sweep.cascade = false then t.sweep.count - 1 else t.sweep.count } }
    s.phase ≠ .coldReset →
    ((∀ c ∈ [s.tku.reckon, s.tku.hold, s.tku.sweep], c.running = true → c.count ≠ 0) →
      exec .baseTick s = .next { s with tku := ticked s.tku })
    ∧ ∃ u v w, exec .reckonExpiry s = .next u ∧ exec .holdExpiry u = .next v ∧ exec .sweepExpiry v = .next w
      ∧ exec .baseTick s = .next { w with tku := ticked w.tku }

/-- RECKON_EXPIRY, RECKON's count being at 0 (R46, R47, R53, R187, R188): the counter is reloaded with its loaded values; a line in
RECKONING that is not suspended advances by the truncated quotient of speed times the expired period plus remainder by 1,000 and keeps what
is left; its grace counter and that of a line in HOLDBACK rise unless acknowledged; a line in any other state is untouched. A line whose
call to GLU waits takes the expiry between two events (R47), once the call is complete (log 15). A suspended line whose closes wait for
write queue room is as it was until they are complete, its queue held, and SUSPENDED then (R56, R81). The bins of a line it suspends are
closed with ESTIMATED: a line's one open bin with room goes to the write queue so marked, before what the closes write (R56, R71). (No check
at an advance by 0, and pending contents of stations that are not valid: log 20.) -/
def Obligations.ReckonExpiryMovesReckoningLines : Prop :=
  ∀ s : State, s.phase = .running → s.tku.reckon.running = true → s.tku.reckon.count = 0 →
    s.tku.reckon.loadedMode = .reload →
    ∃ t, exec .reckonExpiry s = .next t
      ∧ t.tku = { s.tku with reckon := { s.tku.reckon with
          period := s.tku.reckon.loaded, count := s.tku.reckon.loaded, mode := .reload,
          cascade := s.tku.reckon.loadedCascade, running := true } }
      ∧ t.fcl = s.fcl ∧ t.phase = s.phase ∧ t.stc.entry = s.stc.entry
      ∧ ∀ l,
        let x := s.line l
        let sum := x.sup.reckonSpeed * s.tku.reckon.period + x.sup.remainder
        let a := if sum / 1000 = 0 then x.axis else min (x.axis + sum / 1000) 1099511627775
        let g := if x.sup.acked then x.sup.grace else if x.sup.grace = 65535 then 0 else x.sup.grace + 1
        let out := x.sup.acked = false ∧ x.entry.gracePeriod ≠ 0 ∧ g = x.entry.gracePeriod
        (GluWait.line l ∈ s.glu.waits → t.line l = x ∧ GluWait.reckon l s.tku.reckon.period ∈ t.glu.waits)
        ∧ (GluWait.line l ∉ s.glu.waits →
        (x.state ∉ [.reckoning, .holdback] → t.line l = x)
        ∧ (x.state = .holdback → ¬ out → t.line l = { x with sup := { x.sup with grace := g } })
        ∧ (x.state = .reckoning → ¬ out → t.line l = { x with
            axis := a, stations := if sum / 1000 = 0 then x.stations else x.stationsAt a,
            sup := { x.sup with remainder := sum % 1000, grace := g }, counters := (t.line l).counters })
        ∧ (x.state ∈ [.reckoning, .holdback] → out →
            (GluWait.leave l .suspended ∉ t.glu.waits →
              (t.line l).state = .suspended ∧ (t.line l).queue = [] ∧ (t.line l).chain = [] ∧ (t.line l).outputs = []
              ∧ (t.line l).boundary = none ∧ (t.line l).lastWeld = none ∧ (t.line l).feeding = none)
            ∧ (GluWait.leave l .suspended ∈ t.glu.waits →
              GluWait.line l ∈ t.glu.waits ∧ (t.line l).state = x.state ∧ (t.line l).queue = x.queue ∧ (t.line l).chain = x.chain
              ∧ (t.line l).outputs = x.outputs ∧ (t.line l).boundary = x.boundary)
            ∧ (t.line l).sup.grace = g ∧ (t.line l).axis = (if x.state = .reckoning then a else x.axis)
            ∧ (t.line l).counters.lineSuspended = sat x.counters.lineSuspended 1)
        ∧ (x.state ∈ [.reckoning, .holdback] → out → (x.state = .holdback ∨ sum / 1000 = 0) →
            (∀ j, j ≠ l → (s.line j).state ∉ [.reckoning, .holdback]) → ∀ k n b h, RecordsAlone s l k n b h →
            (s.stc.writeQueue ++ [n.written b h fun q => { q with estimated := true }]) <+: t.stc.writeQueue))

/-- HOLD_EXPIRY, HOLD's count being at 0 (R139, R141, R187, R190): each context in READY or FAILED has its hold remaining lowered, and at
0 is freed: its generation rises, its pages go back to the pool, the page taken first on top, its counted pin is lowered where the piece
is current and the count above 0, and HOLD_EXPIRED is counted; every other context is untouched. (That they are freed in ascending number
is log 25's, the other fields of a freed context log 6's, and that a release waits behind GLU's waiting writes log 15's.) A cascaded SWEEP
takes a count from the expiry, after an expiry it still owes (log 14); one that is not cascaded takes none. -/
def Obligations.HoldExpiryFreesSpentContexts : Prop :=
  ∀ s : State, s.phase ≠ .coldReset → s.tku.hold.running = true → s.tku.hold.count = 0 → s.tku.hold.loadedMode = .reload →
    let freed := (List.finRange 16).filter fun i =>
      decide ((s.context i).state ∈ [.ready, .failed]) && decide ((s.context i).hold ≤ 1)
    let pinned := freed.filter fun i => (s.context i).pinCounted
    let sweep := s.tku.sweep
    ∃ t, exec .holdExpiry s = .next t
      ∧ t.tku.hold.count = s.tku.hold.loaded ∧ t.tku.hold.period = s.tku.hold.loaded ∧ t.tku.hold.running = true
      ∧ (sweep.cascade = false → t.tku.sweep = sweep)
      ∧ (sweep.cascade = true → (sweep.running = true → sweep.count ≠ 0) →
          t.tku.sweep = { sweep with count := if sweep.running then sweep.count - 1 else sweep.count })
      ∧ (sweep.cascade = true → sweep.running = true → sweep.count = 0 → sweep.loadedMode = .reload →
          t.tku.sweep = { sweep with
            period := sweep.loaded, mode := .reload, cascade := sweep.loadedCascade, count := sweep.loaded - 1 })
      ∧ t.tku.reckon = s.tku.reckon ∧ t.tku.clock = s.tku.clock ∧ (∀ l, t.line l = s.line l)
      ∧ (∀ i,
        ((s.context i).state ∈ [.ready, .failed] → 1 < (s.context i).hold →
          t.context i = { s.context i with hold := (s.context i).hold - 1 })
        ∧ ((s.context i).state ∈ [.ready, .failed] → (s.context i).hold ≤ 1 →
          t.context i = { gen := (s.context i).gen + 1 })
        ∧ ((s.context i).state ∉ [.ready, .failed] → t.context i = s.context i))
      ∧ t.pbk.freePages = freed.foldl (fun f i => f.pushAll (s.context i).pages.reverse) s.pbk.freePages
      ∧ t.pbk.counters = { s.pbk.counters with
          holdExpired := freed.foldl (fun n _ => sat n 1) s.pbk.counters.holdExpired }
      ∧ (GluFree s → Sparse.wf {} s.glu.dir = true → ∀ n, (t.pieceDir n).pins = (s.pieceDir n).pins -
          pinned.countP fun i => s.isCurrent (s.context i).piece && decide ((s.context i).piece.idx = n))
      ∧ (¬ GluFree s → t.glu = { s.glu with
          waits := s.glu.waits ++ pinned.map fun i => GluWait.call (.releasePin (s.context i).piece) })

/-- SWEEP_EXPIRY, SWEEP's count being at 0 (R127, R187, R189): the counter is reloaded, or stops in ONE_SHOT; a clear SWEEP_DUE is set
and a scrub step begins unless one is in progress; a set one counts SWEEP_LAG and owes no second step. -/
def Obligations.SweepExpirySetsSweepDue : Prop :=
  ∀ s : State, s.phase ≠ .coldReset → s.tku.sweep.running = true → s.tku.sweep.count = 0 →
    ∃ t, exec .sweepExpiry s = .next t
      ∧ t.tku.sweep = { s.tku.sweep with
          period := s.tku.sweep.loaded, mode := s.tku.sweep.loadedMode, cascade := s.tku.sweep.loadedCascade,
          count := if s.tku.sweep.loadedMode = .reload then s.tku.sweep.loaded else 0,
          running := decide (s.tku.sweep.loadedMode = .reload) }
      ∧ t.tku.sweepDue = true
      ∧ (s.tku.sweepDue = true → t = { s with tku := { s.tku with
            sweep := t.tku.sweep, sweepLag := sat s.tku.sweepLag 1 } })
      ∧ (s.tku.sweepDue = false →
          t = { s with tku := { s.tku with sweep := t.tku.sweep, sweepDue := true },
                       stc := { s.stc with scrub := t.stc.scrub } }
          ∧ t.stc.scrub.isSome = true
          ∧ (s.stc.scrub.isSome = true → t.stc.scrub = s.stc.scrub))

/-- SCRUB_STEP_COMPLETE for a step in whose span no word was or is wrong (R127, R189): the pointer advances, wrapping, SCRUB_STEPS and at
the wrap SCRUB_PASSES are counted, SWEEP_DUE is cleared, and a stopped SWEEP starts again; nothing else changes. Where words of the span
are wrong as they were when the step began, and no write has come since, a lone word with one wrong bit is also rewritten and counted
SCRUB_CORRECTED, and words with two wrong bits and the words of poisoned units are each counted SCRUB_UNCORRECTABLE and left as they stand
(R123, R127). -/
def Obligations.ScrubStepAdvancesThePointer : Prop :=
  (∀ (s : State) (k : ScrubStep), s.phase ≠ .coldReset → s.stc.scrub = some k → k.words = [] →
    s.badWords s.scrubSpan.1 s.scrubSpan.2 = [] →
    exec .scrubStepComplete s = .next { s with
      stc := { s.stc with
        scrub := none, scrubPointer := s.stc.scrubPointer + 1,
        counters := { s.stc.counters with
          scrubSteps := sat s.stc.counters.scrubSteps 1,
          scrubPasses := if s.stc.scrubPointer = 65535 then sat s.stc.counters.scrubPasses 1
                         else s.stc.counters.scrubPasses } },
      tku := { s.tku with
        sweepDue := false,
        sweep := if s.tku.sweep.running then s.tku.sweep else { s.tku.sweep with
          period := s.tku.sweep.loaded, mode := s.tku.sweep.loadedMode, cascade := s.tku.sweep.loadedCascade,
          count := s.tku.sweep.loaded, running := true } } })
  ∧ ∀ (s : State) (k : ScrubStep), s.phase ≠ .coldReset → Memory.wf s = true → s.stc.scrub = some k → k.touched = [] →
    k.words = s.badWords s.scrubSpan.1 s.scrubSpan.2 →
    let done (wrong : Sparse (List Nat)) (good bad : Nat) : State := { s with
      stc := { s.stc with
        scrub := none, scrubPointer := s.stc.scrubPointer + 1, wrongBits := wrong,
        counters := { s.stc.counters with
          scrubCorrected := sat s.stc.counters.scrubCorrected good,
          scrubUncorrectable := sat s.stc.counters.scrubUncorrectable bad,
          scrubSteps := sat s.stc.counters.scrubSteps 1,
          scrubPasses := if s.stc.scrubPointer = 65535 then sat s.stc.counters.scrubPasses 1
                         else s.stc.counters.scrubPasses } },
      tku := { s.tku with
        sweepDue := false,
        sweep := if s.tku.sweep.running then s.tku.sweep else { s.tku.sweep with
          period := s.tku.sweep.loaded, mode := s.tku.sweep.loadedMode, cascade := s.tku.sweep.loadedCascade,
          count := s.tku.sweep.loaded, running := true } } }
    s.stc.counters.scrubCorrected ≤ 4294967295 → s.stc.counters.scrubUncorrectable ≤ 4294967295 →
    (∀ w n, k.words = [(w, some [n])] → ∃ wrong, exec .scrubStepComplete s = .next (done wrong 1 0)
      ∧ Sparse.get [] wrong w = [] ∧ ∀ v, v ≠ w → Sparse.get [] wrong v = Sparse.get [] s.stc.wrongBits v)
    ∧ ((∀ p ∈ k.words, p.2 = none ∨ ∃ m n, p.2 = some [m, n]) →
        exec .scrubStepComplete s = .next (done s.stc.wrongBits 0 k.words.length))

/-! ### The Store Controller -/

/-- WRITE_COMPLETE (R120): the head entry leaves the queue, every address it writes reads in the DRAM what the entry answers for it, and
every other address what it read before. With an empty queue nothing happens (log 1). -/
def Obligations.WriteReachesTheDram : Prop :=
  (∀ s : State, s.stc.writeQueue = [] → exec .writeComplete s = .next s)
  ∧ ∀ (s : State) (e : WriteEntry) (rest : List WriteEntry), s.phase ≠ .coldReset → Memory.wf s = true →
    s.stc.writeQueue = e :: rest →
    ∃ t, exec .writeComplete s = .next t
      ∧ t = { s with stc := { s.stc with
              dram := t.stc.dram, wrongBits := t.stc.wrongBits, writeQueue := rest, scrub := t.stc.scrub } }
      ∧ (∀ a, t.cellAt a = (e.answer a).getD (s.cellAt a))
      ∧ (∀ u, e = .unit u → ∀ w ∈ wordsAt u.addr, Sparse.get [] t.stc.wrongBits w = [])

/-- GLU_WRITE_RESUMED with room for every waiting write, no other writer waiting, and no call, RECKON expiry or last steps of a line that
leaves the active states waiting behind them (R81, R120): all join the queue in their order, every line whose call waited takes events
again, and a reply that waited for them is handed over (R171). A cache entry of a link group so written is dropped (R162). What waits behind
the writes has its turn in order: a call is taken, a line's drain marks are tested as its call is complete (R135, R136), a line whose closes
are complete goes on to the steps that follow them, as R27 gives them for IDLE and R56 for SUSPENDED, a RECKON expiry reaches its line, or
waits once more where the line is held anew, but is nothing in the drain of a warm reset (R29), and the request passed on is taken by its
owner, with its effect and its reply, or waits once more behind a call its line has made since (R171). A reply is handed over, or held first
in turn while writes of its own request wait, or last behind the calls made for its line. That these wait there is log 15's. -/
def Obligations.WaitingWritesResume : Prop :=
  (∀ (s : State), s.phase = .running → s.glu.waiting ≠ [] → s.stc.waiters = [.glu] →
    (∀ c, GluWait.call c ∉ s.glu.waits) → (∀ l n, GluWait.reckon l n ∉ s.glu.waits) →
    (∀ l, GluWait.request l ∉ s.glu.waits) → (∀ l k, GluWait.leave l k ∉ s.glu.waits) → s.stc.writeQueue.length + s.glu.waiting.length ≤ 256 →
    ∃ t, exec .gluWriteResumed s = .next t
      ∧ t.stc.writeQueue = s.stc.writeQueue ++ s.glu.waiting.map WriteEntry.unit
      ∧ t.stc.waiters = [] ∧ t.glu = { s.glu with waiting := [], waits := [] }
      ∧ t.stc.dram = s.stc.dram ∧ (∀ l, t.line l = s.line l) ∧ t.fcl = s.fcl ∧ t.tku = s.tku
      ∧ ((s.mgt.heldReply = none ∨ GluWait.reply ∉ s.glu.waits) → t.mgt = s.mgt ∧ t.prl = s.prl)
      ∧ (∀ r x, s.mgt.heldReply = some (r, x) → GluWait.reply ∈ s.glu.waits →
          t.mgt = { s.mgt with heldReply := none, counters := (s.answer r x).mgt.counters } ∧ t.prl = (s.answer r x).prl)
      ∧ ∀ w ∈ s.glu.waiting, ∀ g, w.cell = .group g → ∀ e ∈ t.pbk.cache,
          ¬ (e.owner = g.owner ∧ e.kind = g.kind ∧ e.pos = g.pos))
  ∧ (∀ (s : State) (rest : List GluWait),
    let u := s.updGlu fun g => { g with waits := rest }
    (∀ c, s.glu.waits = .call c :: rest → s.nextWait = u.gluTakes c)
    ∧ (∀ l, s.glu.waits = .line l :: rest → s.nextWait = u.testDrains)
    ∧ (∀ l k, s.glu.waits = .leave l k :: rest → s.nextWait = (u.leave l k).testDrains)
    ∧ (s.glu.waits = .reply :: rest → s.nextWait = u.releaseReply)
    ∧ (∀ l n, s.glu.waits = .reckon l n :: rest → s.nextWait = if s.phase = .warmDrain then u
        else if GluWait.line l ∈ rest then (u.waitLine l (.reckon l n)).testDrains else (u.reckonLine l n).testDrains)
    ∧ (∀ l, s.glu.waits = .request l :: rest → s.nextWait = u.takePassed)
    ∧ s.runWaits 0 = s ∧ ∀ n, s.runWaits (n + 1) = if s.glu.waiting = [] then s.nextWait.runWaits n else s)
  ∧ (∀ (s : State) (l : LineId),
    let x := s.line l
    let left : Line := { x with
      queue := [], lastTaken := x.newest, gapPending := false, chain := [], outputs := [], boundary := none, lastWeld := none,
      feeding := none, counters := { x.counters with queueDiscard := sat x.counters.queueDiscard x.queue.length } }
    let reached (t : State) : State := t.updPbk fun k => { k with taken := k.taken.set l x.newest }
    s.leave l .idle = reached (s.updLine l fun _ => { left with
      state := .idle, stations := x.stations.map Station.force, reverseDebt := 0, reverseOver := false, refMissing := false,
      parkedLength := false, settlingRun := 0, sup := { x.sup with gap := 0, silence := 0 } })
    ∧ s.leave l .suspended = reached (s.updLine l fun _ => { left with state := .suspended }))
  ∧ (∀ (s : State) (r : Request) (c : Option CtxId), s.mgt.passed = some (r, c) →
    let code := r.code.toNat
    let done (x : Reply × State) (w : Option ReplyWait) : State := (x.2.reply r x.1 w).updMgt fun m => { m with passed := none }
    let writes (t : State) : Option ReplyWait := if t.glu.waiting = [] then none else some .writes
    let calls (l : LineId) (t : State) : Option ReplyWait := if GluWait.line l ∈ t.glu.waits then some .calls else none
    (∀ name, code = 8 → r.claims = some name →
      let x := takeClaim State.gluPin r name s
      s.takePassed = done x (writes x.2))
    ∧ (∀ name, code = 9 → r.claims = some name →
      let x := takeClaim State.gluUnpin r name s
      s.takePassed = done x (writes x.2))
    ∧ (∀ p, code = 10 → r.retires = some p → s.takePassed = done (takeRetire r p s) (writes (takeRetire r p s).2))
    ∧ (∀ name q i, c = some i → ((code = 4 ∧ trendOf r.body = some (name, q)) ∨ (code = 5 ∧ genealogyOf r.body = some (name, q))) →
      (s.context i).state = .free →
      let x := s.acceptQuery r name q
      s.takePassed = done x (writes x.2) ∧ ∃ g, x.1 = { reason := .ok, contents := be 1 i.val ++ [g] })
    ∧ (code = 12 → u8At r.body 0 = 4 → 2 ≤ r.body.length →
      s.takePassed = done ({ reason := .ok, contents := s.statusGenealogy }, s) none)
    ∧ (∀ (l : LineId) (cmd : Nat), code = 3 → 2 ≤ r.body.length → u8At r.body 0 = l.val → u8At r.body 1 = cmd → 1 ≤ cmd → cmd ≤ 4 →
      let x : Reason × State := if cmd = 1 then s.activateLine l else if cmd = 2 then s.deactivate l
        else if cmd = 3 then s.resetLine l else s.ackDegraded l
      (GluWait.line l ∈ s.glu.waits → s.takePassed = s.pass r (.line l))
      ∧ (GluWait.line l ∉ s.glu.waits → s.takePassed = done (x.2.lineReply l cmd x.1) (calls l x.2)))
    ∧ (∀ (l : LineId) e, code = 1 → r.loaded 2 14 parseLine = some e → r.index = l.val → GluWait.line l ∉ s.glu.waits →
      let x := loadLine r.index e s
      s.takePassed = done ({ reason := x.1 }, x.2) (calls l x.2))
    ∧ (∀ (l : LineId) e, code = 1 → r.loaded 3 5 parseStation = some e → r.index / 12 = l.val → GluWait.line l ∉ s.glu.waits →
      let x := loadStation r.index e s
      s.takePassed = done ({ reason := x.1 }, x.2) none)
    ∧ (∀ (l : LineId) bs n, code = 2 → r.reads = some n → ((n = 2 ∧ r.index = l.val) ∨ (n = 3 ∧ r.index / 12 = l.val)) →
      GluWait.line l ∉ s.glu.waits → s.entryBytes n r.index = some bs →
      s.takePassed = done ({ reason := .ok, contents := bs }, s) none))
  ∧ ∀ (s : State) (r : Request) (x : Reply),
    let held := s.updMgt fun m => { m with heldReply := some (r, x) }
    s.reply r x none = s.answer r x ∧ s.reply r x (some .seal) = held
    ∧ s.reply r x (some .writes) = held.updGlu (fun g => { g with waits := .reply :: g.waits })
    ∧ s.reply r x (some .calls) = held.updGlu fun g => { g with waits := g.waits ++ [.reply] }

/-- RELOAD_SEAL_QUEUED with room on the write queue (R108, R120): the seal joins the queue and the reply of the channel load is handed over.
Offers held behind the seal are then taken in their order, the drain marks tested with them done. That the offers come before the reply is
log 27's. -/
def Obligations.WaitingSealIsQueued : Prop :=
  ∀ (s : State) (e : WriteEntry) (rest : List Waiter) (r : Request) (x : Reply), s.phase ≠ .coldReset →
    s.stc.waitingSeal = some e → s.stc.waiters = .reload :: rest → s.stc.heldOffers = [] → s.stc.scrub = none →
    s.stc.writeQueue.length < 256 → s.mgt.heldReply = some (r, x) →
    exec .reloadSealQueued s = .next (State.answer
      { s with
        stc := { s.stc with
          waiters := rest, waitingSeal := none, writeQueue := s.stc.writeQueue ++ [e],
          greatest := max s.stc.greatest (s.stc.writeQueue.length + 1) },
        mgt := { s.mgt with heldReply := none } } r x)
    ∧ ∀ os : List BinOffer, os ≠ [] →
      let u := { s with
        stc := { s.stc with
          waiters := rest, waitingSeal := none, writeQueue := s.stc.writeQueue ++ [e],
          greatest := max s.stc.greatest (s.stc.writeQueue.length + 1) } }
      let v := ((os.foldl State.takeOffer u).updPbk fun k => { k with behindSeal := Vector.replicate 8 none }).testDrains
      exec .reloadSealQueued (s.updStc fun t => { t with heldOffers := os }) =
        .next ((v.updMgt fun m => { m with heldReply := none }).answer r x)

/-- DRAM_WORD_WRONG_BITS (R105, R123): the word named comes to hold the bits named beside those it held wrong before, and no other word
changes; a word outside the 4 GiB is no word of the part. -/
def Obligations.WordGoesWrongAlone : Prop :=
  ∀ (s : State) (w : Nat) (bits : List Nat),
    (w < 536870912 → Memory.wf s = true → ∃ t, exec (.dramWordWrongBits w bits) s = .next t
      ∧ t = { s with stc := { s.stc with wrongBits := t.stc.wrongBits } }
      ∧ (∀ n, n ∈ Sparse.get [] t.stc.wrongBits w ↔ n ∈ bits ∨ n ∈ Sparse.get [] s.stc.wrongBits w)
      ∧ ∀ v, v ≠ w → Sparse.get [] t.stc.wrongBits v = Sparse.get [] s.stc.wrongBits v)
    ∧ (536870912 ≤ w → exec (.dramWordWrongBits w bits) s = .fault (.noSuchWord w))

/-- How the store reads a unit, or a block's directory entry, whose one word is checked (R121, R123; the one word is log 27's). An entry of
the write queue for the address answers, the newest first, touching nothing, a poisoned one as a failure. Otherwise the DRAM is read: clean
words give its content and count nothing; one wrong bit in one word is corrected and counted CORRECTED; two wrong bits in one word fail the
unit, counted UNCORRECTABLE, and leave it; a poisoned unit fails in its four words. That a corrected word is right again in the step that
reads it is log 10's. GLU's read-modify-write of a unit that fails writes it back poisoned, counts POISONED and raises RECORD_POISONED with
its owner (R125); that a change which leaves the content as it is writes nothing is log 9's. A block's line, pitch and first axis position
come from its directory entry, or from its header where the entry fails. Where both fail the block is unreadable and stays so; as the head
of a directory it gives the horizon 0, and it is protected while any piece is pinned (R126). -/
def Obligations.ReadsForwardAndCorrect : Prop :=
  (∀ (s : State) (a : Nat),
    (∀ c, newestAnswer s.stc.writeQueue a = some c → c ≠ .poisoned → s.read a = (some c, s))
    ∧ (newestAnswer s.stc.writeQueue a = some .poisoned → s.read a = (none, s))
    ∧ (newestAnswer s.stc.writeQueue a = none → s.cellAt a = .poisoned → isDirAddr a = false →
        s.read a = (none, s.countStc fun c => { c with uncorrectable := sat c.uncorrectable 4 }))
    ∧ (newestAnswer s.stc.writeQueue a = none → s.cellAt a ≠ .poisoned →
        ((∀ w ∈ wordsAt a, Sparse.get [] s.stc.wrongBits w = []) → s.read a = (some (s.cellAt a), s))
        ∧ ∀ w ∈ wordsAt a, (∀ v ∈ wordsAt a, v ≠ w → Sparse.get [] s.stc.wrongBits v = []) → Memory.wf s = true →
          (∀ n, Sparse.get [] s.stc.wrongBits w = [n] → ∃ t, s.read a = (some (s.cellAt a), t)
            ∧ t = { s with stc := { s.stc with
                wrongBits := t.stc.wrongBits,
                counters := { s.stc.counters with corrected := sat s.stc.counters.corrected 1 } } }
            ∧ Sparse.get [] t.stc.wrongBits w = []
            ∧ ∀ v, v ≠ w → Sparse.get [] t.stc.wrongBits v = Sparse.get [] s.stc.wrongBits v)
          ∧ (∀ m n, Sparse.get [] s.stc.wrongBits w = [m, n] → s.read a =
              (none, s.countStc fun c => { c with uncorrectable := sat c.uncorrectable 1 }))))
  ∧ (∀ b : Nat, b < 786432 → wordsAt (dirAddr b) = [dirAddr b / 8])
  ∧ ∀ (s : State) (a : Nat) (r : PieceRef) (f : Cell → Cell),
    (∀ c u, s.gluRead a = (some c, u) → s.gluModify a r f = if f c = c then u else u.gluWrite a (f c))
    ∧ (∀ u, s.gluRead a = (none, u) → s.gluModify a r f = ((u.gluWrite a .poisoned).countStc fun n =>
        { n with poisoned := sat n.poisoned 1 }).raise .recordPoisoned none (some r) none)
    ∧ ∀ (b : Nat) (e : DirEntry) (h : BlockHeader) (u v : State) (c : ChanId) (l : LineId) (rest : List Nat),
      let lost : State := v.updStc fun n => { n with
        blocks := Sparse.put {} n.blocks b { Sparse.get {} n.blocks b with unreadable := true } }
      ((s.blockInfo b).unreadable = false → s.read (dirAddr b) = (some (.dirEntry e), u) → s.readDirEntry b = (some e, u))
      ∧ ((s.blockInfo b).unreadable = false → s.read (dirAddr b) = (none, u) → u.read (headerAddr b) = (some (.header h), v) →
          s.readDirEntry b = (some { firstAxis := h.firstBin * h.pitch, line := h.line, pitch := h.pitch }, v))
      ∧ (s.read (dirAddr b) = (none, u) → u.read (headerAddr b) = (none, v) → s.readDirEntry b = (none, lost))
      ∧ ((s.blockInfo b).unreadable = true → (s.readDirEntry b).1 = none)
      ∧ (s.readDirEntry b = (none, u) → s.blockProtected b = (!u.pinnedPieces.isEmpty, u)
          ∧ ((s.chanStore c).dir = b :: rest → s.chanHorizon c l = (0, u)))

/-- A bin for the channel's current block (R113): STC places a bin write on the write queue for slot n - F, the block stays FILLING
and current, no list changes, the record is readable through forwarding at once, and BAC counts it BINS_HANDED. -/
def Obligations.BinForCurrentBlockIsQueued : Prop :=
  ∀ (s : State) (o : BinOffer) (b : Nat) (h : BlockHeader), 0 < s.writeRoom →
    (s.chanStore o.chan).current = some (b, h) → h.firstBin = o.num - o.num % 120 →
    let t := s.takeOffer o
    t.stc.writeQueue = s.stc.writeQueue ++ [.binWrite b (o.num - h.firstBin) o.data]
    ∧ t.blockInfo b = s.blockInfo b ∧ t.chanStore o.chan = s.chanStore o.chan
    ∧ t.stc.freeBlocks = s.stc.freeBlocks ∧ t.stc.ageQueue = s.stc.ageQueue ∧ t.stc.dram = s.stc.dram
    ∧ t.read (slotAddr b (o.num - h.firstBin)) = (some (.bin o.data), t)
    ∧ (t.line o.line).counters = { (s.line o.line).counters with binsHanded := sat (s.line o.line).counters.binsHanded 1 }
    ∧ t.mgt = s.mgt ∧ t.channels = s.channels

/-- A bin the write queue has no room for is lost whole (R77, R112): WRITE_QUEUE_FULL is raised with the line and the position n × p,
BIN_LOST is counted, and neither queue, blocks, lists nor current block change; it needs one entry for the current block, two without one,
three for another block. A bin with room takes the top block of the free list where its channel has no current block or one of other bins
(R109, R114): the block becomes FILLING, the last of the age queue and of the channel's directory and its current block, the block left
becomes SEALED, unreadable where its line and pitch read nowhere (R126, log 27), and seal, allocation and bin write are queued in order;
said with the free list left at or above the low-water mark, so that no scan follows (R115). With no free block the bin is lost, STORE_FULL.
A reclaim scan gives back the first block of its stretch that is SEALED, heads its directory or is detached, and that no pin protects;
without one, RECLAIM_BLOCKED (R116). A pin protects a block whose range a span of the pinned piece overlaps, and a DAMAGED one every block
(R117). -/
def Obligations.BinIsLostWholeOrAllocates : Prop :=
  (∀ (s : State) (o : BinOffer),
    let need := match (s.chanStore o.chan).current with
      | none => 2
      | some (_, h) => if h.firstBin = o.num - o.num % 120 then 1 else 3
    let first := o.num - o.num % 120
    let t := s.takeOffer o
    let lost : Line := { s.line o.line with counters := { (s.line o.line).counters with
      binLost := sat (s.line o.line).counters.binLost 1 } }
    let fault (code : FaultCode) : Option FaultRecord := some {
      code := code, line := some o.line, piece := none, axis := some ((o.num * o.pitch : Nat) : Int), stamp := s.tku.clock }
    (s.stc.waiters = [] → 256 - s.stc.writeQueue.length < need →
      t.stc = s.stc ∧ t.channels = s.channels ∧ t.line o.line = lost
      ∧ (s.mgt.fault = none → t.mgt.fault = fault .writeQueueFull))
    ∧ (2 ≤ s.writeRoom → (s.chanStore o.chan).current = none → s.stc.freeBlocks.pop = none →
      t.stc.writeQueue = s.stc.writeQueue ∧ (t.chanStore o.chan).current = none ∧ t.line o.line = lost
      ∧ t.stc.counters.storeFull = sat s.stc.counters.storeFull 1
      ∧ (s.mgt.fault = none → t.mgt.fault = fault .storeFull))
    ∧ ∀ b rest, s.stc.freeBlocks.pop = some (b, rest) → s.stc.entry.lowWater ≤ rest.length →
      let h : BlockHeader := { line := o.line, channel := o.chan, gen := o.gen, pitch := o.pitch, firstBin := first,
                               stamp := s.tku.clock, isSealed := false }
      let written : List WriteEntry := [
        .allocation b h { firstAxis := first * o.pitch, line := o.line, pitch := o.pitch },
        .binWrite b (o.num - first) o.data]
      let taken := t.stc.freeBlocks = rest ∧ t.stc.ageQueue = s.stc.ageQueue ++ [b]
        ∧ t.chanStore o.chan = { dir := (s.chanStore o.chan).dir ++ [b], current := some (b, h) }
        ∧ (Sparse.wf {} s.stc.blocks = true → t.blockInfo b = { state := .filling, firstBin := first })
        ∧ t.stc.counters.allocated = sat s.stc.counters.allocated 1 ∧ t.mgt = s.mgt
        ∧ (t.line o.line).counters.binsHanded = sat (s.line o.line).counters.binsHanded 1
      (2 ≤ s.writeRoom → (s.chanStore o.chan).current = none →
        taken ∧ t.stc.writeQueue = s.stc.writeQueue ++ written)
      ∧ ∀ b0 h0, 3 ≤ s.writeRoom → (s.chanStore o.chan).current = some (b0, h0) → h0.firstBin ≠ first →
        taken ∧ t.stc.writeQueue = s.stc.writeQueue ++ .sealing b0 { h0 with isSealed := true } :: written
        ∧ (b0 ≠ b → Sparse.wf {} s.stc.blocks = true → t.blockInfo b0 = {
            state := .sealed, firstBin := (s.blockInfo b0).firstBin, unreadable := (s.readDirEntry b0).1.isNone }))
  ∧ (∀ (s : State) (l : LineId),
    let t := s.reclaimScan l
    let may (b : Nat) : Prop := (s.blockInfo b).state = .sealed
      ∧ ((∃ c : ChanId, (s.chanStore c).dir.head? = some b) ∨ ∀ c : ChanId, b ∉ (s.chanStore c).dir)
    s.pinnedPieces = [] →
    (∀ before b after, s.stc.ageQueue.take s.stc.entry.scanLength = before ++ b :: after → (∀ x ∈ before, ¬ may x) → may b →
      t.stc.ageQueue = s.stc.ageQueue.erase b ∧ t.stc.freeBlocks = s.stc.freeBlocks.push b
      ∧ (∀ c, t.chanStore c = { s.chanStore c with dir := (s.chanStore c).dir.erase b })
      ∧ (Sparse.wf {} s.stc.blocks = true → (t.blockInfo b).state = .free)
      ∧ t.stc.counters.blocksReclaimed = sat s.stc.counters.blocksReclaimed 1 ∧ t.stc.writeQueue = s.stc.writeQueue
      ∧ t.mgt = s.mgt)
    ∧ ((∀ b ∈ s.stc.ageQueue.take s.stc.entry.scanLength, ¬ may b) →
      t.stc.ageQueue = s.stc.ageQueue ∧ t.stc.freeBlocks = s.stc.freeBlocks ∧ t.stc.chans = s.stc.chans
      ∧ t.stc.counters.reclaimBlocked = sat s.stc.counters.reclaimBlocked 1
      ∧ (s.mgt.fault = none → t.mgt.fault = some {
          code := .reclaimBlocked, line := some l, piece := none, axis := none, stamp := s.tku.clock })))
  ∧ ∀ (s : State) (b : Nat) (e : DirEntry), s.readDirEntry b = (some e, s) →
    (∀ i ∈ s.pinnedPieces, (s.readRecord i).2 = s) →
    let hit (l : LineId) (start : Nat) (stop : Option Nat) : Prop :=
      l = e.line ∧ start < e.firstAxis + 120 * e.pitch ∧ (∀ x, stop = some x → e.firstAxis < x ∧ start < x) ∧ 0 < e.pitch
    ((s.blockProtected b).1 = true ↔ ∃ i ∈ s.pinnedPieces, ∀ r, (s.readRecord i).1 = some r →
      (∃ y, r.body.birth = some y ∧ hit y.line y.start y.stop) ∨ ∃ y ∈ r.uses, hit y.line y.start y.stop)

/-! ### The fault record -/

/-- MGT takes a fault (R180, R181): FAULTS_RAISED is counted; an empty record is filled with the fault, a stamp and a lost count of 0, and
with a loaded destination one ALERT is handed to PRL, on the alert port or on both; a filled record only counts the fault lost, up to 255.
That the ALERT's payload is zero-filled to 46 bytes, the 64-byte minimum of chapter 11's opening taken to count the addresses, the type and
the 4-byte check sequence, is PRESUMED (log 19). -/
def Obligations.FaultFillsTheRecordOnce : Prop :=
  ∀ (s : State) (code : FaultCode) (line : Option LineId) (piece : Option PieceRef) (axis : Option Int),
    let n := sat s.mgt.counters.faultsRaised 1
    let f : FaultRecord := { code := code, line := line, piece := piece, axis := axis, stamp := s.tku.clock }
    let u := { s with mgt := { s.mgt with
                fault := some f, lost := 0, counters := { s.mgt.counters with faultsRaised := n } } }
    let alert : Frame := { dst := s.mgt.alertAddr, src := s.station, etype := 0x88B6,
                           payload := [1, 0x80, 0, 0] ++ encFault (some f) 0 ++ be 4 n ++ List.replicate 14 0 }
    ((s.mgt.fault.isSome = true) → s.raise code line piece axis = { s with mgt := { s.mgt with
        lost := min (s.mgt.lost + 1) 255, counters := { s.mgt.counters with faultsRaised := n } } })
    ∧ (s.mgt.fault = none → s.mgt.alertLoaded = false → s.raise code line piece axis = u)
    ∧ (s.mgt.fault = none → s.mgt.alertLoaded = true →
        (∀ p, s.mgt.alertPort = some p → s.raise code line piece axis =
          (u.transmit p alert).countMgt fun c => { c with alertsSent := sat c.alertsSent 1 })
        ∧ (s.mgt.alertPort = none → s.raise code line piece axis =
          ((u.transmit .A alert).transmit .B alert).countMgt fun c => { c with alertsSent := sat c.alertsSent 1 }))

/-! ### Playback -/

/-- ASSEMBLY_START (R136): the idle engine takes the context at the head of the assembly queue; the channels of its selection are fixed
now, ascending (R150), and its queried piece, still current, is to be read. With the engine at work, or no context waiting, nothing
happens (log 1). A trend query whose reference has become stale, alone in the queue, is answered at once: one RETIRED marker at depth 0
over its range stands at the start of the page on top of the pool, zeros behind it, and the context is READY; without a free page it is
TRUNCATED (R138, R150, R157; that no read is waited for there is log 16's). -/
def Obligations.EngineTakesTheFirstContext : Prop :=
  ∀ s : State, s.phase = .running →
    (∀ i rest, s.pbk.engine = none → s.pbk.asmQueue = i :: rest → s.isCurrent (s.context i).piece = true →
      exec .assemblyStart s = .next { s with pbk := { s.pbk with
        asmQueue := rest,
        engine := some { ctx := i, tasks := [.askQueried], chans := s.selected (s.context i) } } })
    ∧ ((s.pbk.engine.isSome = true ∨ s.pbk.asmQueue = []) → exec .assemblyStart s = .next s)
    ∧ ∀ (i : CtxId) (x0 x1 depth res : Nat) (sel : Selection),
      let c := s.context i
      let bytes : List Byte := [3, 24, 2, 0, 0, 0, 0, 0, 0, 0, 0, 1] ++ encRef c.piece ++ [1] ++ beInt 4 x0 ++ beInt 4 x1
      s.pbk.engine = none → s.pbk.asmQueue = [i] → c.query = some (.trend x0 x1 sel depth res) →
      x0 < 4294967296 → x1 < 4294967296 → s.isCurrent c.piece = false → c.pages = [] → c.truncated = false →
      (∀ p more, s.pbk.freePages.pop = some (p, more) → Memory.wf s = true → ∃ t, exec .assemblyStart s = .next t
        ∧ t.pbk.engine = none ∧ t.pbk.asmQueue = [] ∧ t.pbk.freePages = more
        ∧ t.context i = { c with state := .ready, hold := s.stc.entry.holdCount, pages := [p] }
        ∧ (∀ o, o < 1024 → t.pageByte (1024 * p + o) = bytes.getD o 0)
        ∧ ∀ a, (a < 1024 * p ∨ 1024 * p + 1024 ≤ a) → t.pageByte a = s.pageByte a)
      ∧ (s.pbk.freePages.pop = none → ∃ t, exec .assemblyStart s = .next t
        ∧ t.pbk.engine = none ∧ t.pbk.asmQueue = [] ∧ t.pbk.pages = s.pbk.pages
        ∧ t.context i = { c with state := .ready, hold := s.stc.entry.holdCount, truncated := true }
        ∧ t.pbk.counters.truncated = sat s.pbk.counters.truncated 1)

/-- STORE_READ_COMPLETE with the engine idle does nothing (log 1); at the end of a walk, a trend query whose readable record leaves nothing
of the range asked for is READY with no pages, and the engine takes the next context (R136, R137, R140, R152; which reads a walk makes is
log 16's). A read of a walk since abandoned comes first, and changes STC alone, as a read does (R143; its order and time: log 16). Steps of
a walk. A record goes whole into the last page or a new one, at most 256 (R138). A lookup of a link group hits or misses the cache (R161).
Each slot is walked in turn, an empty one passed over, and past 256 segments the walk ends (R158; references bad on a first reading: log
16). A segment read counts, free or unreadable too. A group with a bad reference is read once more, and what is bad then is bad for good;
one that passes is entered in the cache (R161; that an unreadable segment in use is not read again: log 18). A visit turns to its channels
in ascending number, passing over one not valid for its line (R164). A segment overlapping the range gives ORPHAN, RETIRED, DAMAGED_RECORD,
EXTERNAL, LINK_STALE or the parent's range, over its Q range (R155 to R157). A depth's items are emitted, and its ranges then walked unless
the depth asked for or the budget is reached (R150). A genealogy's bad reference gives a marker (R146), its depth, line, strand and range
log 18's DESIGN CHOICE. A bin is emitted by itself at resolution 0, else merged by its output bin, the quotient truncated (R168, 00 section
0.9.2). A run continues the one before as R167 gives. -/
def Obligations.AssemblyWalksAndEndsInReady : Prop :=
  (∀ s : State, s.phase = .running → s.pbk.discarded = [] →
    (s.pbk.engine = none → exec .storeReadComplete s = .next s)
    ∧ ∀ (e : Engine) (x0 x1 depth res : Nat) (sel : Selection) (p : PieceRecord),
      s.pbk.engine = some e → e.tasks = [.askQueried] → e.held = none → e.budgetOut = false →
      (s.context e.ctx).query = some (.trend x0 x1 sel depth res) → s.isCurrent (s.context e.ctx).piece = true →
      (s.context e.ctx).truncated = false → (s.context e.ctx).pages = [] → s.stc.wrongBits = [] →
      (s.readRecord (s.context e.ctx).piece.idx).1 = some p →
      (s.queriedRange (s.context e.ctx).piece p x0 x1 = none) →
      (∀ j, s.pbk.asmQueue.head? = some j → j ≠ e.ctx ∧ s.isCurrent (s.context j).piece = true) →
      ∃ t, exec .storeReadComplete s = .next t
        ∧ t.pbk.engine = s.pbk.asmQueue.head?.map (fun j =>
            { ctx := j, tasks := [.askQueried], chans := s.selected (s.context j) })
        ∧ t.pbk.asmQueue = s.pbk.asmQueue.drop 1
        ∧ t.context e.ctx = { s.context e.ctx with state := .ready, hold := s.stc.entry.holdCount }
        ∧ (∀ j, j ≠ e.ctx → t.context j = s.context j)
        ∧ t.pbk.pages = s.pbk.pages ∧ t.pbk.freePages = s.pbk.freePages ∧ t.lines = s.lines ∧ t.glu = s.glu)
  ∧ (∀ (s : State) (e : Engine) (bs : List Byte), s.pbk.engine = some e →
    let c := s.context e.ctx
    let new := s.newPage bs
    ((256 ≤ c.pages.length ∨ s.pbk.freePages.pop = none) → new = (false, s))
    ∧ (∀ p rest, c.pages.length < 256 → s.pbk.freePages.pop = some (p, rest) → new.1 = true
        ∧ (new.2.context e.ctx).pages = c.pages ++ [p] ∧ new.2.pbk.freePages = rest)
    ∧ (c.pages = [] → s.putRecord bs = new)
    ∧ ∀ p, c.pages.getLast? = some p →
        (1024 < e.fill + bs.length → s.putRecord bs = new)
        ∧ (e.fill + bs.length ≤ 1024 → s.putRecord bs = (true, { s with pbk := { s.pbk with
            pages := putBytes s.pbk.pages (p * 1024 + e.fill) bs, engine := some { e with fill := e.fill + bs.length } } })))
  ∧ (∀ (s : State) (e : Engine) (w : ListWalk) (pos num : Nat), s.pbk.engine = some e →
    let key (c : CacheEntry) : Bool := decide (c.owner = w.owner) && decide (c.kind = w.kind) && decide (c.pos = pos)
    let hit (c : CacheEntry) : GroupWalk := {
      walk := w, pos := pos, num := c.num, slots := c.slots, next := c.next, second := false, cached := true,
      dropped := false }
    (s.pbk.cache.find? key = none → s.lookupGroup w pos num = { s with pbk := { s.pbk with
        counters := { s.pbk.counters with cacheMisses := sat s.pbk.counters.cacheMisses 1 },
        engine := some { e with tasks := .askGroup w pos num false false :: e.tasks } } })
    ∧ ∀ c, s.pbk.cache.find? key = some c → s.lookupGroup w pos num = { s with pbk := { s.pbk with
        cache := (s.pbk.cache.filter fun x => !key x) ++ [c],
        counters := { s.pbk.counters with cacheHits := sat s.pbk.counters.cacheHits 1 },
        engine := some { e with tasks := .slots (hit c) c.slots [] :: e.tasks } } })
  ∧ (∀ (s : State) (e : Engine) (g : GroupWalk) (n : Nat) (todo : List (Option Nat)) (got : List Got), s.pbk.engine = some e →
    let t := s.answerSegment g n todo got
    let goesOn (x : Got) : Prop := t.pbk.engine = some { e with tasks := .slots g todo (got ++ [x]) :: e.tasks }
    let near (x : Segment) : PieceRef := match g.walk.kind with
      | .parent => x.child
      | .child => x.parent
    let bad (x : Segment) : Prop := s.glu.freeSegments.holds n = true ∨ near x ≠ g.walk.owner
    s.nextSlot g (none :: todo) got = s.updEngine (fun e => { e with tasks := .slots g todo got :: e.tasks })
    ∧ ((s.context e.ctx).walkPos < 256 → s.nextSlot g (some n :: todo) got =
        s.updEngine fun e => { e with tasks := .askSegment g n todo got :: e.tasks })
    ∧ (256 ≤ (s.context e.ctx).walkPos → s.nextSlot g (some n :: todo) got =
        s.updEngine fun e => { e with
          budgetOut := true, tasks := (got.filter fun x => g.second || !x.isBad).map (Task.take g.walk) ++ [.nextDepth] })
    ∧ (t.context e.ctx).walkPos = (s.context e.ctx).walkPos + 1
    ∧ ((s.read (segmentAddr n)).1 = none →
        (s.glu.freeSegments.holds n = false → goesOn .unread) ∧ (s.glu.freeSegments.holds n = true → goesOn (.bad none)))
    ∧ (∀ x, (s.read (segmentAddr n)).1 = some (.segment x) → (¬ bad x → goesOn (.seg x)) ∧ (bad x → goesOn (.bad (some x))))
    ∧ (∀ c, (s.read (segmentAddr n)).1 = some c → (∀ x, c ≠ .segment x) → goesOn (.bad none))
    ∧ let u := s.nextSlot g [] got
      let held := ∃ x, Got.bad x ∈ got
      let key (c : CacheEntry) : Bool := decide (c.owner = g.walk.owner) && decide (c.kind = g.walk.kind) && decide (c.pos = g.pos)
      let others := s.pbk.cache.filter fun c => !key c
      (g.second = false → held →
        u.pbk.engine = some { e with tasks := .askGroup g.walk g.pos g.num true false :: e.tasks }
        ∧ u.pbk.counters.cacheRefetches = sat s.pbk.counters.cacheRefetches 1 ∧ u.pbk.cache = others)
      ∧ ((g.second = true ∨ ¬ held) →
        u.pbk.engine = some { e with tasks := got.map (Task.take g.walk) ++ (match g.next with
          | some m => [.group g.walk (g.pos + 1) m]
          | none => []) ++ e.tasks }
        ∧ u.pbk.counters = s.pbk.counters
        ∧ ((g.cached = true ∨ g.dropped = true ∨ held) → u.pbk.cache = s.pbk.cache)
        ∧ (g.cached = false → g.dropped = false → ¬ held →
            u.pbk.cache = (if 32 ≤ others.length then others.drop 1 else others) ++ [{
              owner := g.walk.owner, kind := g.walk.kind, pos := g.pos, num := g.num, slots := g.slots, next := g.next }])))
  ∧ (∀ (s : State) (w : ListWalk) (r : Range) (birth : SpanMap) (a0 a1 : Int) (g : Segment),
    let lo := max a0 (g.start : Int)
    let hi := min a1 (g.stop : Int)
    let x := throughChain r.chain (birth.toPos lo)
    let y := throughChain r.chain (birth.toPos hi)
    let put (s : State) (i : Item) : State := s.updEngine fun e => { e with built := e.built ++ [i] }
    let marker (kind : MarkerKind) (ref : Option PieceRef) (list : Option ListKind) : Item := .marker {
      kind := kind, depth := r.chain.length + 1, line := some g.line, list := list, ref := ref,
      range := some (min x y, max x y) }
    ((hi ≤ lo ∨ birth.empty = true) → s.takeTrend w r birth a0 a1 g = s)
    ∧ (lo < hi → birth.empty = false →
      (g.parent.idx = 0 → s.takeTrend w r birth a0 a1 g = put s (marker .orphan none none))
      ∧ (g.parent.idx ≠ 0 → s.isCurrent g.parent = false →
          s.takeTrend w r birth a0 a1 g = put s (marker .retired (some g.parent) none))
      ∧ (s.isCurrent g.parent = true →
        s.takeTrend w r birth a0 a1 g = s.updEngine (fun e => { e with tasks := .askFar w g :: e.tasks })
        ∧ (∀ u, s.readRecord g.parent.idx = (none, u) →
            s.answerParent w r birth a0 a1 g = put u (marker .damagedRecord (some g.parent) none))
        ∧ ∀ p u, s.readRecord g.parent.idx = (some p, u) →
          (p.id.kind = .external → s.answerParent w r birth a0 a1 g = put u (marker .external (some g.parent) none))
          ∧ (p.id.kind ≠ .external → findUse p.uses g.line g.start = none →
              s.answerParent w r birth a0 a1 g = put u (marker .linkStale (some w.owner) (some w.kind)))
          ∧ ∀ z, p.id.kind ≠ .external → findUse p.uses g.line g.start = some z →
            let m := u.useMap p.body.length z
            let made := u.parentRange r birth g p m (lo, hi) (min x y, max x y)
            (m.empty = true → s.answerParent w r birth a0 a1 g = u)
            ∧ (m.empty = false →
                s.answerParent w r birth a0 a1 g = put (u.markOpen (m.isOpen || birth.isOpen)) (.range made))
            ∧ made.piece = g.parent ∧ made.p0 = min (m.toPos lo) (m.toPos hi) ∧ made.p1 = max (m.toPos lo) (m.toPos hi)
            ∧ made.q0 = min x y ∧ made.q1 = max x y ∧ made.chain = { useMap := m, birthMap := birth } :: r.chain
            ∧ made.turned = (r.turned != m.turned) ∧ made.est = (r.est || g.est || m.est || birth.est)
            ∧ made.openSpan = (r.openSpan || m.isOpen || birth.isOpen))))
  ∧ (∀ (s : State) (e : Engine), s.pbk.engine = some e → (s.context e.ctx).isGenealogy = false →
    let rs := e.built.filterMap fun i => match i with
      | .range r => some r
      | .marker _ => none
    s.turnDepth = s.updEngine fun e => { e with
      depth := e.depth + 1, built := [],
      tasks := e.built.map Task.emit ++
        (if e.depth + 1 < (s.context e.ctx).depthAsked ∧ e.budgetOut = false ∧ rs ≠ []
         then rs.map Task.askRange ++ [.nextDepth] else []) })
  ∧ (∀ (s : State) (e : Engine) (r : Range) (v : Visit) (c : ChanId) (cs : List ChanId), s.pbk.engine = some e →
    s.expandRange r = (s.markOpen (r.visits.any fun v => v.span.isOpen)).updEngine (fun e => { e with
      tasks := (r.visits.map fun v => Task.channels v e.chans) ++ e.tasks })
    ∧ s.nextChannel v [] = s
    ∧ (((s.chan c).entry.valid = true ∧ (s.chan c).entry.line = v.span.line.val) →
        s.nextChannel v (c :: cs) = s.updEngine fun e => { e with tasks := .askChannel v c :: .channels v cs :: e.tasks })
    ∧ (¬ ((s.chan c).entry.valid = true ∧ (s.chan c).entry.line = v.span.line.val) →
        s.nextChannel v (c :: cs) = s.nextChannel v cs))
  ∧ (∀ (s : State) (w : ListWalk) (n : Node) (g : Segment) (c : EdgeEnd),
    s.emitBad w n g c = ((s.markOpen c.isOpen).emitMarker {
      kind := .linkStale, depth := n.depth + 1, line := some g.line, strand := some g.strand, list := some w.kind,
      ref := some w.owner, range := c.range }).2)
  ∧ (∀ (s : State) (e : Engine) (x0 x1 depth res : Nat) (sel : Selection) (pos : Int) (b : BinRec) (num pitch : Nat) (gen : Gen),
    s.pbk.engine = some e → (s.context e.ctx).query = some (.trend x0 x1 sel depth res) →
    let k := (pos - (x0 : Int)).tdiv res
    let holds (s : State) : State := s.updEngine fun e => { e with held := some (openHeld k pos b gen) }
    (res = 0 → s.emitBin pos b num pitch gen = s.emitInRun pos (binBytes pos b num pitch gen))
    ∧ (0 < res → e.held = none → s.emitBin pos b num pitch gen = (true, holds s))
    ∧ ∀ h, 0 < res → e.held = some h →
      (h.num = k → s.emitBin pos b num pitch gen = (true, s.updEngine fun e => { e with held := some (h.merge pos b) }))
      ∧ (h.num ≠ k → s.flushHeld.1 = true → s.emitBin pos b num pitch gen = (true, holds s.flushHeld.2)))
  ∧ (∀ (h : HeldBin) (pos : Int) (b : BinRec),
    let q := unionQuality h.data.quality b.quality
    (b.count = 0 → h.merge pos b = { h with data := { h.data with quality := q } })
    ∧ ∀ lo hi, 0 < b.count → h.low = some lo → h.high = some hi → h.merge pos b = { h with
        low := some (min lo pos), high := some (max hi pos),
        data := { min := min h.data.min b.min, max := max h.data.max b.max,
                  sum := max (-9223372036854775808) (min (h.data.sum + b.sum) 9223372036854775807),
                  count := sat h.data.count b.count, first := if pos < lo then b.first else h.data.first,
                  last := if hi ≤ pos then b.last else h.data.last, offset := 0, quality := q } })
  ∧ (∀ (r before : RunInfo), r.continues before = true ↔
      (r.line = before.line ∧ r.chan = before.chan ∧ r.depth = before.depth ∧ r.turned = before.turned
        ∧ r.q0 = before.q1 ∧ (if r.turned = true then r.a1 = before.a0 else r.a0 = before.a1)))
  ∧ (∀ (s : State) (d : StoreRead) (rest : List StoreRead), s.phase ≠ .coldReset → s.pbk.discarded = d :: rest →
    let u := s.updPbk fun k => { k with discarded := rest }
    let t := u.answerDiscarded d
    exec .storeReadComplete s = .next t
    ∧ t = { u with stc := { u.stc with
        dram := t.stc.dram, wrongBits := t.stc.wrongBits, counters := t.stc.counters, blocks := t.stc.blocks } })
  ∧ (∀ (s : State) (v : Visit) (c : ChanId) (block first pitch : Nat),
    let listed := block ∈ (s.chanStore c).dir ∧ (s.blockInfo block).firstBin = first
    let t := s.answerDiscarded (.block v c block first pitch)
    let slots (u : State) (f p : Nat) : State := (v.slots f p).foldl (fun u k => (u.read (slotAddr block k)).2) u
    (∀ r, s.answerDiscarded (.record r) = if s.isCurrent r = true then (s.readRecord r.idx).2 else s)
    ∧ (∀ l, s.answerDiscarded (.channel l c) = if (s.chan c).on l = true
        then ((s.chanHorizon c l).2.searchDir (s.chanStore c).dir).2 else s)
    ∧ (∀ a, s.answerDiscarded (.cell a) = (s.read a).2)
    ∧ (¬ listed → t = s)
    ∧ (∀ h u, listed → s.readHeader block = (some h, u) → t = slots u h.firstBin h.pitch)
    ∧ ∀ u, listed → s.readHeader block = (none, u) → t = slots u first pitch)
  ∧ ∀ (p : PieceRef) (v : Visit) (c : ChanId) (block first n : Nat) (e : DirEntry) (r : Range) (ref : PieceRef) (w : ListWalk)
      (b1 b2 : Bool) (x : GroupWalk) (todo : List (Option Nat)) (got : List Got) (y : Node) (g : Segment),
    Task.read? p .askQueried = some (.record p) ∧ Task.read? p (.askRange r) = some (.record r.piece)
    ∧ Task.read? p (.askNode ref n) = some (.record ref) ∧ Task.read? p (.askChild w y g) = some (.record g.child)
    ∧ Task.read? p (.askFar w g) = some (.record (match w.kind with
        | .parent => g.parent
        | .child => g.child))
    ∧ Task.read? p (.askChannel v c) = some (.channel v.span.line c)
    ∧ Task.read? p (.askBlock v c block first e) = some (.block v c block first e.pitch)
    ∧ Task.read? p (.askGroup w first n b1 b2) = some (.cell (groupAddr n))
    ∧ Task.read? p (.askSegment x n todo got) = some (.cell (segmentAddr n))

/-- The maps of a birth span (R153): closed, position x lies at axis b0 + x × (b1 - b0) / L and axis a at position (a - b0) × L / (b1 -
b0), quotients truncated (R152); open, at b0 + x and a - b0. Position 0 lies at b0, and through a closed span of material the end b1 is
position L. Beside them, the maps of a use span, SAME and REVERSED, FED and FEEDING, the use span a segment is mapped through (R154), the
way back to Q through a chain of links, and where a bin is placed: lowered to q1 - 1 and raised to q0 (R155). Of an empty run (q0 = q1),
for which R155's two bounds conflict, that the bin stands at q0 is log 22's DESIGN CHOICE. -/
def Obligations.SpansMapBothWays : Prop :=
  (∀ (s : State) (len : Option Nat) (line : LineId) (strand b0 : Nat) (b1 : Option Nat) (est : Bool) (x a : Int),
    let m := s.birthMap len { line := line, strand := strand, start := b0, stop := b1, est := est }
    (∀ (e : Nat) (n : Nat), b1 = some e → len = some n →
      m.toAxis x = (b0 : Int) + (x * ((e : Int) - b0)).tdiv n
      ∧ m.toPos a = ((a - b0) * n).tdiv ((e : Int) - b0)
      ∧ ((b0 : Int) < e → m.toPos e = n))
    ∧ (b1 = none → m.toAxis x = b0 + x ∧ m.toPos a = a - b0)
    ∧ m.toAxis 0 = b0)
  ∧ (∀ (s : State) (line : LineId) (u0 n : Nat) (u1 : Option Nat) (est : Bool) (p a : Int),
    let map (dir : Direction) : SpanMap := s.useMap (some n) { line := line, start := u0, stop := u1, dir := dir, est := est }
    (∀ e : Nat, u1 = some e →
      (map .same).toPos a = ((a - u0) * n).tdiv ((e : Int) - u0)
      ∧ (map .reversed).toPos a = n - ((a - u0) * n).tdiv ((e : Int) - u0)
      ∧ (map .same).toAxis p = u0 + (p * ((e : Int) - u0)).tdiv n
      ∧ (map .reversed).toAxis p = u0 + ((n - p) * ((e : Int) - u0)).tdiv n)
    ∧ (u1 = none →
      (map .same).toPos a = a - u0 ∧ (map .reversed).toPos a = n - (a - u0)
      ∧ (map .same).toAxis p = u0 + p ∧ (map .reversed).toAxis p = u0 + (n - p)))
  ∧ (∀ (us : List UseSpan) (l : LineId) (a : Nat),
    let holds (u : UseSpan) : Prop := u.line = l ∧ u.start ≤ a ∧ ∀ b, u.stop = some b → a < b
    (∀ u, findUse us l a = some u → u ∈ us ∧ holds u) ∧ (findUse us l a = none → ∀ u ∈ us, ¬ holds u))
  ∧ (∀ (k : ChainLink) (ks : List ChainLink) (p : Int), throughChain [] p = p
      ∧ throughChain (k :: ks) p = throughChain ks (k.birthMap.toPos (k.useMap.toAxis p)))
  ∧ ∀ (v : Visit) (a b : Int),
    let q (x : Int) := throughChain v.range.chain (v.span.toPos x)
    v.place a b = max v.range.q0 (min (min (q a) (q b)) (v.range.q1 - 1))

/-! ### Requests -/

/-- How a request is settled before its owner sees it, how it is passed on, and how a reply leaves (R2, R171, R173, Figs. 9.2, 11.3). A
version other than 1 or a code outside Fig. 9.3 is answered UNKNOWN_REQUEST. Whichever command takes a request: of a source without an
enabled entry, the part not commissioning, it is dropped and counted ACCESS_DROP; of a VIEW source and with the code of an ENGINEER's
request, it is answered NOT_PERMITTED. A reply is one frame from the station address to the source, on the port of arrival, its payload the
version 1, the request's code and tag, the reason and the contents, zero-filled to 46 bytes; beside the port, only MGT's counters change: a
reason other than OK is counted REFUSED, two of them in counters of their own too, and a load answered OK LOADS_ACCEPTED (R174, Fig. 9.7). A
request whose body is right and whose owner cannot take it yet leaves the queue and waits at its owner: for GLU behind all that waits there,
for a line behind the line's own call (R81, R82, R170). That GLU is busy while a write of its own waits, and a line while a call of it does,
is log 15's; that the 64-byte minimum, of chapter 11's opening, makes the payload 46 bytes, the 4-byte check sequence counted, is PRESUMED
(log 19). -/
def Obligations.RequestIsCheckedThenAnswered : Prop :=
  (∀ (s : State) (r : Request), Faces s r → (r.version ≠ 1 ∨ r.code = 0 ∨ 14 < r.code.toNat) → s.roleOf r.src ≠ none →
    exec .unknownRequest s = .next (s.taken.answer r { reason := .unknownRequest }))
  ∧ (∀ (s : State) (r : Request) (i : Instr), Faces s r → takes i r = true →
    ((∃ j : Fin 16, s.mgt.access[j].enabled = true) →
      (∀ j : Fin 16, s.mgt.access[j].enabled = true → s.mgt.access[j].addr ≠ r.src) →
        exec i s = .next (s.updMgt fun m =>
          { m with requests := m.requests.drop 1,
                   counters := { m.counters with accessDrop := sat m.counters.accessDrop 1 } }))
    ∧ (r.version = 1 → r.code.toNat ∈ engineerCodes → s.roleOf r.src = some .view →
        exec i s = .next (s.taken.answer r { reason := .notPermitted })))
  ∧ (∀ (s : State) (r : Request),
    let i? := (List.finRange 16).find? fun i => (s.context i).state == .free
    let passed : State := s.taken.updMgt fun m => { m with passed := some (r, i?) }
    let last : Host.Outcome State Fault Refusal := .next (passed.updGlu fun g => { g with waits := g.waits ++ [.request none] })
    let behind (l : LineId) (o : Host.Outcome State Fault Refusal) : Prop :=
      ∀ before after w, s.glu.waits = before ++ w :: after → w.concerns l = true → (∀ v ∈ after, v.concerns l = false) →
        o = .next (passed.updGlu fun g => { g with waits := before ++ w :: .request (some l) :: after })
    (¬ GluFree s →
      (Granted s r 8 .view → 20 ≤ r.body.length → pieceNameOf r.body ≠ none → exec .pin s = last)
      ∧ (Granted s r 9 .view → 20 ≤ r.body.length → pieceNameOf r.body ≠ none → exec .unpin s = last)
      ∧ (Granted s r 10 .engineer → 3 ≤ r.body.length → exec .retire s = last)
      ∧ (Granted s r 4 .view → trendOf r.body ≠ none → i? ≠ none → exec .queryTrend s = last)
      ∧ (Granted s r 5 .view → genealogyOf r.body ≠ none → i? ≠ none → exec .queryGenealogy s = last)
      ∧ (Granted s r 12 .view → 2 ≤ r.body.length → u8At r.body 0 = 4 → exec .status s = last))
    ∧ ∀ l : LineId, GluWait.line l ∈ s.glu.waits →
      (∀ p ∈ [(Instr.activate, 1), (.deactivate, 2), (.resetLine, 3), (.ackDegraded, 4)], Controls s r p.2 l →
        behind l (exec p.1 s))
      ∧ (Loading s r 2 14 → parseLine r.body ≠ none → r.index = l.val → behind l (exec .loadLineEntry s))
      ∧ (Loading s r 3 5 → parseStation r.body ≠ none → r.index / 12 = l.val → behind l (exec .loadStationEntry s))
      ∧ (Granted s r 2 .view → 3 ≤ r.body.length →
          ((u8At r.body 0 = 2 ∧ r.index = l.val) ∨ (u8At r.body 0 = 3 ∧ r.index / 12 = l.val)) → behind l (exec .readEntry s))
      ∧ (Granted s r 12 .view → 2 ≤ r.body.length → u8At r.body 0 = 3 → u8At r.body 1 = l.val → behind l (exec .status s)))
  ∧ (∀ (l : LineId) (w : GluWait), w.concerns l = true ↔ (w = .line l ∨ (∃ n, w = .reckon l n) ∨ w = .request (some l)))
  ∧ ∀ (s : State) (r : Request) (x : Reply),
    (s.answer r x).port r.port = (s.port r.port).accept
      { dst := r.src, src := s.station, etype := 0x88B6,
        payload := [1, r.code] ++ be 2 r.tag.toNat ++ [x.reason.code] ++ x.contents
                    ++ List.replicate (46 - (5 + x.contents.length)) 0 }
    ∧ (s.answer r x).port (otherPort r.port) = s.port (otherPort r.port)
    ∧ s.answer r x = { s with
        prl := { s.prl with portA := (s.answer r x).prl.portA, portB := (s.answer r x).prl.portB },
        mgt := { s.mgt with counters := { s.mgt.counters with
          refused := if x.reason = .ok then s.mgt.counters.refused else sat s.mgt.counters.refused 1,
          unknownRequest := if x.reason = .unknownRequest then sat s.mgt.counters.unknownRequest 1
            else s.mgt.counters.unknownRequest,
          notPermitted := if x.reason = .notPermitted then sat s.mgt.counters.notPermitted 1 else s.mgt.counters.notPermitted,
          loadsAccepted := if r.code = 1 ∧ x.reason = .ok then sat s.mgt.counters.loadsAccepted 1
            else s.mgt.counters.loadsAccepted } } }

/-- CLEAR_FAULT (R182): the record is emptied and its lost count 0; the reply is OK with what the record held just before; FAULTS_RAISED
is not changed. A fault taken after it finds the record empty, fills it and sends an ALERT where a destination is loaded; one taken before
it, the record being filled, is lost in it and the reply shows the lost count with that fault included. -/
def Obligations.ClearFaultEmptiesTheRecord : Prop :=
  ∀ (s : State) (r : Request), Granted s r 13 .engineer →
    (∃ t, exec .clearFault s = .next t
      ∧ t = State.answer { s.taken with mgt := { s.taken.mgt with fault := none, lost := 0 } } r
          { reason := .ok, contents := encFault s.mgt.fault s.mgt.lost }
      ∧ t.mgt.fault = none ∧ t.mgt.lost = 0 ∧ t.mgt.counters.faultsRaised = s.mgt.counters.faultsRaised
      ∧ ∀ code line piece axis, (t.raise code line piece axis).mgt.fault =
          some { code := code, line := line, piece := piece, axis := axis, stamp := s.tku.clock }
        ∧ (t.raise code line piece axis).mgt.lost = 0
        ∧ (s.mgt.alertLoaded = true →
            (t.raise code line piece axis).mgt.counters.alertsSent = sat t.mgt.counters.alertsSent 1))
    ∧ ∀ code line piece axis, s.mgt.fault.isSome = true →
      ∃ t, exec .clearFault (s.raise code line piece axis) = .next t ∧ t.mgt.fault = none ∧ t.mgt.lost = 0
        ∧ t = State.answer { (s.raise code line piece axis).taken with
            mgt := { (s.raise code line piece axis).taken.mgt with fault := none, lost := 0 } } r
            { reason := .ok, contents := encFault s.mgt.fault (min (s.mgt.lost + 1) 255) }

/-- SET_TIME and the loads of the Origin, Access, Store, Tick and Alert tables and of the process EtherType (R6, R8, R119, R172, R174,
R175, R177, R186): a load that passes writes the whole entry and nothing else, and is answered OK; an index outside the table is answered
BAD_INDEX and a value its rule refuses BAD_VALUE, nothing being written. That an index refused comes before a value refused is log 25's. -/
def Obligations.PlainLoadsWriteOneEntry : Prop :=
  ∀ (s : State) (r : Request),
    let yes (t : State) : Host.Outcome State Fault Refusal := .next (t.answer r { reason := .ok })
    let no (x : Reason) : Host.Outcome State Fault Refusal := .next (s.taken.answer r { reason := x })
    (Granted s r 1 .engineer →
      ∀ p ∈ [(Instr.loadOriginEntry, 1, 8), (.loadAccessEntry, 5, 11), (.loadStoreEntry, 6, 8), (.loadTickEntry, 7, 7),
             (.loadAlertEntry, 8, 10), (.loadProcessEthertype, 9, 5)],
        (u8At r.body 0 = 0 ∨ 9 < u8At r.body 0 ∨ (u8At r.body 0 = p.2.1 ∧ r.body.length < p.2.2)) → exec p.1 s = no .badValue)
    ∧ (Granted s r 11 .engineer →
      (r.body.length < 8 → exec .setTime s = no .badValue)
      ∧ (8 ≤ r.body.length → exec .setTime s =
          yes (s.taken.updTku fun t => { t with clock := BitVec.ofNat 64 (beAt r.body 0 8) })))
    ∧ (Loading s r 1 5 → parseOrigin r.body = none → exec .loadOriginEntry s = no .badValue)
    ∧ (Loading s r 1 5 → ∀ o, parseOrigin r.body = some o →
      (32 ≤ r.index → exec .loadOriginEntry s = no .badIndex)
      ∧ ∀ i : Fin 32, r.index = i.val →
        let bad := o.valid = true ∧ (7 < o.line ∨ ∃ j : Fin 32, j ≠ i ∧ s.fcl.origins[j].valid = true
                    ∧ s.fcl.origins[j].code = o.code)
        (bad → exec .loadOriginEntry s = no .badValue)
        ∧ (¬ bad → exec .loadOriginEntry s = yes (s.taken.updFcl fun f => { f with origins := f.origins.set i o })))
    ∧ (Loading s r 5 8 → parseAccess r.body = none → exec .loadAccessEntry s = no .badValue)
    ∧ (Loading s r 5 8 → ∀ e, parseAccess r.body = some e →
      (16 ≤ r.index → exec .loadAccessEntry s = no .badIndex)
      ∧ ∀ i : Fin 16, r.index = i.val →
        let bad := e.enabled = true ∧ (e.addr = 0 ∨ e.addr.getLsbD 40 = true
                    ∨ ∃ j : Fin 16, j ≠ i ∧ s.mgt.access[j].enabled = true ∧ s.mgt.access[j].addr = e.addr)
        (bad → exec .loadAccessEntry s = no .badValue)
        ∧ (¬ bad → exec .loadAccessEntry s = yes (s.taken.updMgt fun m => { m with access := m.access.set i e })))
    ∧ (Loading s r 6 5 → ∀ e, parseStore r.body = some e →
      let bad := e.lowWater < 16 ∨ e.scanLength < 1 ∨ 256 < e.scanLength ∨ e.holdCount < 1
      (r.index ≠ 0 → exec .loadStoreEntry s = no .badIndex)
      ∧ (r.index = 0 → bad → exec .loadStoreEntry s = no .badValue)
      ∧ (r.index = 0 → ¬ bad → exec .loadStoreEntry s = yes (s.taken.updStc fun t => { t with entry := e })))
    ∧ (Loading s r 7 4 → parseTick r.body = none → exec .loadTickEntry s = no .badValue)
    ∧ (Loading s r 7 4 → ∀ e, parseTick r.body = some e →
      let bad := e.period < 1 ∨ 4095 < e.period ∨ (r.index < 2 ∧ (e.mode = .oneShot ∨ e.cascade = true))
      let put (c : Counter) : Counter := { c with loaded := e.period, loadedMode := e.mode, loadedCascade := e.cascade }
      (2 < r.index → exec .loadTickEntry s = no .badIndex)
      ∧ (r.index ≤ 2 → bad → exec .loadTickEntry s = no .badValue)
      ∧ (¬ bad →
          (r.index = 0 → exec .loadTickEntry s = yes (s.taken.updTku fun t => { t with reckon := put t.reckon }))
          ∧ (r.index = 1 → exec .loadTickEntry s = yes (s.taken.updTku fun t => { t with hold := put t.hold }))
          ∧ (r.index = 2 → exec .loadTickEntry s = yes (s.taken.updTku fun t => { t with sweep := put t.sweep }))))
    ∧ (Loading s r 8 7 → parseAlert r.body = none → exec .loadAlertEntry s = no .badValue)
    ∧ (Loading s r 8 7 → ∀ v a, parseAlert r.body = some (v, a) →
      (r.index ≠ 0 → exec .loadAlertEntry s = no .badIndex)
      ∧ (r.index = 0 → v = true → a = 0 → exec .loadAlertEntry s = no .badValue)
      ∧ (r.index = 0 → ¬ (v = true ∧ a = 0) → exec .loadAlertEntry s =
          yes (s.taken.updMgt fun m => { m with alertLoaded := v, alertAddr := a, alertPort := none })))
    ∧ (Loading s r 9 2 → ∀ e, parseEthertype r.body = some e →
      (r.index ≠ 0 → exec .loadProcessEthertype s = no .badIndex)
      ∧ (r.index = 0 → (e = 0x88B6 ∨ e.toNat ≤ 0x05FF) → exec .loadProcessEthertype s = no .badValue)
      ∧ (r.index = 0 → e ≠ 0x88B6 → 0x05FF < e.toNat →
          exec .loadProcessEthertype s = yes (s.taken.updPrl fun p => { p with processType := e })))

/-- LOAD_LINE_ENTRY (R15, R16, R54): a malformed body is BAD_VALUE, an index above 7 BAD_INDEX, a valid entry outside Fig. 2.1 BAD_VALUE,
and on a line neither VACANT nor IDLE a load that clears valid or changes the shear station, strands or payoff LINE_ACTIVE (in this order:
log 25). An accepted load writes the entry, a VACANT line made valid becomes IDLE and an IDLE one made invalid VACANT; a new grace period
that a degraded, unacknowledged line's counter has just reached suspends it, once the suspension's closes are complete (R56, R81). The reply
is OK, after the suspension's calls where they wait (R171, R174; log 15). -/
def Obligations.LineLoadWritesTheEntry : Prop :=
  (∀ (s : State) (r : Request), Granted s r 1 .engineer → u8At r.body 0 = 2 → (r.body.length < 17 ∨ parseLine r.body = none) →
    exec .loadLineEntry s = .next (s.taken.answer r { reason := .badValue }))
  ∧ ∀ (s : State) (r : Request) (e : LineEntry), Loading s r 2 14 → parseLine r.body = some e →
    (8 ≤ r.index → exec .loadLineEntry s = .next (s.taken.answer r { reason := .badIndex }))
    ∧ ∀ l : LineId, r.index = l.val → GluWait.line l ∉ s.glu.waits →
      let x := s.line l
      let fits := e.shear ≤ 11 ∧ 1 ≤ e.strands ∧ e.strands ≤ 8 ∧ 1 ≤ e.settleCount ∧ e.settleCount ≤ 15 ∧ 1 ≤ e.maxStep
                    ∧ e.maxStep ≤ 1000000 ∧ 1 ≤ e.maxSpeed ∧ 1 ≤ e.silenceLimit
      let on := x.state ≠ .vacant ∧ x.state ≠ .idle
      let shape := e.shear = x.entry.shear ∧ e.strands = x.entry.strands ∧ e.payoff = x.entry.payoff
      let spent := e.gracePeriod ≠ x.entry.gracePeriod ∧ x.state ∈ [.reckoning, .holdback] ∧ x.sup.acked = false
                    ∧ e.gracePeriod ≠ 0 ∧ e.gracePeriod = x.sup.grace
      (e.valid = true → ¬ fits → exec .loadLineEntry s = .next (s.taken.answer r { reason := .badValue }))
      ∧ ((e.valid = true → fits) → on → ¬ (e.valid = true ∧ shape) →
          exec .loadLineEntry s = .next (s.taken.answer r { reason := .lineActive }))
      ∧ ((e.valid = true → fits) → (on → e.valid = true ∧ shape) →
          (¬ spent → exec .loadLineEntry s = .next ((s.taken.updLine l fun y => { y with
            entry := e,
            state := if y.state = .vacant ∧ e.valid = true then .idle
                     else if y.state = .idle ∧ e.valid = false then .vacant else y.state }).answer r { reason := .ok }))
          ∧ (spent → ∃ t, exec .loadLineEntry s = .next t
              ∧ (GluWait.leave l .suspended ∉ t.glu.waits → (t.line l).state = .suspended ∧ (t.line l).queue = [])
              ∧ (GluWait.leave l .suspended ∈ t.glu.waits →
                  GluWait.line l ∈ t.glu.waits ∧ (t.line l).state = x.state ∧ (t.line l).queue = x.queue)
              ∧ (t.line l).entry = e ∧ (t.line l).axis = x.axis ∧ (∀ k, k ≠ l → t.line k = s.line k)
              ∧ ∃ u, t = State.reply u r { reason := .ok } (if GluWait.line l ∈ u.glu.waits then some .calls else none)))

/-- LOAD_STATION_ENTRY (R17, R18): a malformed body is BAD_VALUE, an index above 95 BAD_INDEX and a content above 2,000,000 BAD_VALUE; on
a VACANT or IDLE line valid and content are written; on any other line a load that changes valid is LINE_ACTIVE (after BAD_VALUE: log 25),
and another is stored as pending content with its watch position and, where a joint lies above that, the lowest such joint's axis as
trigger. That the watch position of a station that is not valid is computed too is log 20's choice. -/
def Obligations.StationLoadWritesOrWaits : Prop :=
  (∀ (s : State) (r : Request), Granted s r 1 .engineer → u8At r.body 0 = 3 → (r.body.length < 8 ∨ parseStation r.body = none) →
    exec .loadStationEntry s = .next (s.taken.answer r { reason := .badValue }))
  ∧ ∀ (s : State) (r : Request) (v : Bool) (n : Nat), Loading s r 3 5 → parseStation r.body = some (v, n) →
    (96 ≤ r.index → exec .loadStationEntry s = .next (s.taken.answer r { reason := .badIndex }))
    ∧ ∀ (l : LineId) (k : Fin 12), r.index = 12 * l.val + k.val → GluWait.line l ∉ s.glu.waits →
      let x := s.line l
      let off := x.state = .vacant ∨ x.state = .idle
      let w : Int := (x.axis : Int) - x.stations[k].content
      (2000000 < n → exec .loadStationEntry s = .next (s.taken.answer r { reason := .badValue }))
      ∧ (n ≤ 2000000 → off → exec .loadStationEntry s = .next ((s.taken.updLine l fun y => { y with
          stations := y.stations.set k { y.stations[k] with valid := v, content := n } }).answer r { reason := .ok }))
      ∧ (n ≤ 2000000 → ¬ off → v ≠ x.stations[k].valid →
          exec .loadStationEntry s = .next (s.taken.answer r { reason := .lineActive }))
      ∧ (n ≤ 2000000 → ¬ off → v = x.stations[k].valid →
          exec .loadStationEntry s = .next ((s.taken.updLine l fun y => { y with
            stations := y.stations.set k { y.stations[k] with pending := some {
              content := n, watch := w,
              trigger := (x.chain.find? fun j => decide (w < (j.axis : Int))).map fun j => j.axis } } }).answer r
            { reason := .ok }))

/-- LOAD_CHANNEL_ENTRY, no seal of a load before it waiting (R60, R61, R108): a malformed body is BAD_VALUE and an index above 255
BAD_INDEX; then the checks in order, BAD_VALUE, LINE_ACTIVE, DUPLICATE_POINT; an accepted load writes the entry, raises the generation,
and leaves no open bin; line and station kept, the frontier stays and the last handed bin is recomputed for the new pitch, else both are
absent and the directory is detached. The current block, if any, is sealed: its seal joins the write queue and the reply is handed over,
or it waits for room, the reply waiting with it. (The directory goes at once, while a seal waits: log 27.) -/
def Obligations.ChannelLoadSealsAndReplaces : Prop :=
  (∀ (s : State) (r : Request), Granted s r 1 .engineer → u8At r.body 0 = 4 → (r.body.length < 17 ∨ parseChannel r.body = none) →
    exec .loadChannelEntry s = .next (s.taken.answer r { reason := .badValue }))
  ∧ ∀ (s : State) (r : Request) (e : ChannelEntry), Loading s r 4 14 → parseChannel r.body = some e → s.stc.waitingSeal = none →
    (256 ≤ r.index → exec .loadChannelEntry s = .next (s.taken.answer r { reason := .badIndex }))
    ∧ ∀ c : ChanId, r.index = c.val →
      let x := s.chan c
      let fits := e.line ≤ 7 ∧ e.station ≤ 11 ∧ e.point ≤ 255 ∧ 10 ≤ e.pitch ∧ e.pitch ≤ 65535 ∧ e.low ≤ e.high
      let busy (n : Nat) : Prop := ∃ l : LineId, l.val = n ∧ (s.line l).state ≠ .vacant ∧ (s.line l).state ≠ .idle
      let active := (x.entry.valid = true ∧ busy x.entry.line) ∨ (e.valid = true ∧ busy e.line)
      let taken := e.valid = true ∧ ∃ d, d ≠ c ∧ (s.chan d).entry.valid = true ∧ (s.chan d).entry.line = e.line
                    ∧ (s.chan d).entry.station = e.station ∧ (s.chan d).entry.point = e.point
      let keep := x.entry.valid = true ∧ e.valid = true ∧ x.entry.line = e.line ∧ x.entry.station = e.station
      (e.valid = true → ¬ fits → exec .loadChannelEntry s = .next (s.taken.answer r { reason := .badValue }))
      ∧ ((e.valid = true → fits) → active → exec .loadChannelEntry s = .next (s.taken.answer r { reason := .lineActive }))
      ∧ ((e.valid = true → fits) → ¬ active → taken →
          exec .loadChannelEntry s = .next (s.taken.answer r { reason := .duplicatePoint }))
      ∧ ((e.valid = true → fits) → ¬ active → ¬ taken → ∃ t, exec .loadChannelEntry s = .next t
          ∧ (keep → t.chan c = {
              entry := e, gen := x.gen + 1, openBin := none, frontier := x.frontier,
              lastHanded := x.lastHanded.map fun n => ((n + 1) * x.entry.pitch - 1) / e.pitch })
          ∧ (¬ keep → t.chan c = { entry := e, gen := x.gen + 1, openBin := none, frontier := none, lastHanded := none })
          ∧ (∀ d, d ≠ c → t.chan d = s.chan d) ∧ (∀ l, t.line l = s.line l)
          ∧ (t.chanStore c).current = none
          ∧ (keep → (t.chanStore c).dir = (s.chanStore c).dir) ∧ (¬ keep → (t.chanStore c).dir = [])
          ∧ ((s.chanStore c).current = none → t.stc.writeQueue = s.stc.writeQueue
              ∧ ∃ u, t = State.answer u r { reason := .ok })
          ∧ ∀ b h, (s.chanStore c).current = some (b, h) →
            (0 < s.writeRoom → t.stc.writeQueue = s.stc.writeQueue ++ [.sealing b { h with isSealed := true }]
                ∧ t.stc.waitingSeal = none ∧ ∃ u, t = State.answer u r { reason := .ok })
            ∧ (s.writeRoom = 0 → t.stc.writeQueue = s.stc.writeQueue
                ∧ t.stc.waitingSeal = some (.sealing b { h with isSealed := true })
                ∧ t.mgt.heldReply = some (r, { reason := .ok })))

/-- READ_ENTRY and STATUS (R174, R178): the reply carries what the owner holds, a table, section or index outside its range is refused, and
reading changes nothing (a horizon read by STATUS LINE may correct words and find blocks unreadable on its way). The contents of each table
and the items of each section are those of Figs. 11.5, 9.5 and 11.6, in their order, by the encodings of Fig. 11.1; the widths, orders and
absent fields these figures leave open (such as the grouping by port of the counters of STATUS PORTS) are log 21's, the model's choice, a
watch position below 0 log 13's. That a line whose call waits, and GLU while its writes wait, answer only then, is log 15's. -/
def Obligations.ReadingAnswersAndChangesNothing : Prop :=
  (∀ (s : State) (r : Request),
    (Granted s r 2 .view →
      ((r.body.length < 3 ∨ u8At r.body 0 = 0 ∨ 9 < u8At r.body 0) →
        exec .readEntry s = .next (s.taken.answer r { reason := .badValue }))
      ∧ (3 ≤ r.body.length → 1 ≤ u8At r.body 0 → u8At r.body 0 ≤ 9 →
        (s.entryBytes (u8At r.body 0) r.index = none →
          exec .readEntry s = .next (s.taken.answer r { reason := .badIndex }))
        ∧ ∀ bs, s.entryBytes (u8At r.body 0) r.index = some bs →
          (u8At r.body 0 = 2 → ∀ l : LineId, r.index = l.val → GluWait.line l ∉ s.glu.waits) →
          (u8At r.body 0 = 3 → ∀ l : LineId, r.index / 12 = l.val → GluWait.line l ∉ s.glu.waits) →
          exec .readEntry s = .next (s.taken.answer r { reason := .ok, contents := bs })))
    ∧ (Granted s r 12 .view →
      ((r.body.length < 2 ∨ u8At r.body 0 = 0 ∨ 6 < u8At r.body 0) →
        exec .status s = .next (s.taken.answer r { reason := .badValue }))
      ∧ (2 ≤ r.body.length →
        (u8At r.body 0 = 1 → exec .status s = .next (s.taken.answer r { reason := .ok, contents := s.taken.statusPart }))
        ∧ (u8At r.body 0 = 2 → exec .status s = .next (s.taken.answer r { reason := .ok, contents := s.statusPorts }))
        ∧ (u8At r.body 0 = 3 → (8 ≤ u8At r.body 1 → exec .status s = .next (s.taken.answer r { reason := .badIndex }))
            ∧ ∀ l : LineId, u8At r.body 1 = l.val → GluWait.line l ∉ s.glu.waits →
              exec .status s = .next ((s.taken.lineHorizon l).2.answer r
                { reason := .ok, contents := (s.line l).statusBytes (s.taken.lineHorizon l).1 }))
        ∧ (u8At r.body 0 = 4 → GluFree s →
            exec .status s = .next (s.taken.answer r { reason := .ok, contents := s.statusGenealogy }))
        ∧ (u8At r.body 0 = 5 → exec .status s = .next (s.taken.answer r { reason := .ok, contents := s.statusStore }))
        ∧ (u8At r.body 0 = 6 → exec .status s = .next (s.taken.answer r { reason := .ok, contents := s.statusPlayback })))))
  ∧ (∀ (s : State) (n : Nat),
    let bool (b : Bool) : List Byte := [if b = true then 1 else 0]
    let opt (width : Nat) (x : Option (List Byte)) : List Byte := match x with
      | none => 0 :: List.replicate width 0
      | some bs => 1 :: bs
    let port (p : Option PortId) : Byte := match p with
      | none => 0
      | some .A => 1
      | some .B => 2
    let mode (m : TickMode) : Byte := match m with
      | .oneShot => 1
      | .reload => 2
    let counter (c : Counter) : List Byte := be 2 c.loaded ++ [mode c.loadedMode] ++ bool c.loadedCascade ++ be 2 c.period
      ++ be 2 c.count ++ bool c.running
    let bit (b : Bool) (k : Nat) : Nat := if b = true then k else 0
    (∀ i : Fin 32, n = i.val → let o := s.fcl.origins[i]
      s.entryBytes 1 n = some (bool o.valid ++ be 2 o.code.toNat ++ be 1 o.line
        ++ be 1 (bit o.kinds.length 1 + bit o.kinds.sample 2 + bit o.kinds.joint 4 + bit o.kinds.state 8)
        ++ bool o.checked ++ be 2 o.lastSeq.toNat))
    ∧ (∀ l : LineId, n = l.val → let e := (s.line l).entry
      s.entryBytes 2 n = some (bool e.valid ++ be 1 e.shear ++ be 1 e.strands ++ be 1 (if e.payoff = .headFirst then 1 else 2)
        ++ be 1 e.settleCount ++ be 4 e.maxStep ++ be 2 e.maxSpeed ++ be 1 e.silenceLimit ++ be 2 e.gracePeriod))
    ∧ (∀ (l : LineId) (k : Fin 12), n = 12 * l.val + k.val → let x := (s.line l).stations[k]
      s.entryBytes 3 n = some (bool x.valid ++ be 4 x.content ++ opt 15 (x.pending.map fun p =>
        be 4 p.content ++ encAxis p.watch ++ opt 5 (p.trigger.map fun a : Nat => encAxis (a : Int)))))
    ∧ (∀ c : ChanId, n = c.val → let x := s.chan c
      let dir := (s.chanStore c).dir
      s.entryBytes 4 n = some (bool x.entry.valid ++ be 1 x.entry.line ++ be 1 x.entry.station ++ be 1 x.entry.point
        ++ be 2 x.entry.pitch ++ beInt 4 x.entry.low ++ beInt 4 x.entry.high ++ [x.gen] ++ opt 5 (x.frontier.map (be 5))
        ++ opt 5 (x.lastHanded.map (be 5)) ++ opt 9 (x.openBin.map fun b => be 5 b.num ++ be 4 b.data.count)
        ++ be 4 dir.length ++ opt 4 (dir.head?.map (be 4))))
    ∧ (∀ i : Fin 16, n = i.val → let e := s.mgt.access[i]
      s.entryBytes 5 n = some (bool e.enabled ++ be 1 (if e.role = .view then 1 else 2) ++ be 6 e.addr.toNat))
    ∧ s.entryBytes 6 0 = some (be 2 s.stc.entry.lowWater ++ be 2 s.stc.entry.scanLength ++ be 1 s.stc.entry.holdCount)
    ∧ s.entryBytes 7 0 = some (counter s.tku.reckon) ∧ s.entryBytes 7 1 = some (counter s.tku.hold)
    ∧ s.entryBytes 7 2 = some (counter s.tku.sweep ++ [mode s.tku.sweep.mode] ++ bool s.tku.sweep.cascade ++ bool s.tku.sweepDue
        ++ be 4 s.tku.sweepLag)
    ∧ s.entryBytes 8 0 = some (bool s.mgt.alertLoaded ++ be 6 s.mgt.alertAddr.toNat ++ [port s.mgt.alertPort])
    ∧ s.entryBytes 9 0 = some (be 2 s.prl.processType.toNat)
    ∧ (∀ p ∈ [(1, 32), (2, 8), (3, 96), (4, 256), (5, 16), (6, 1), (7, 3), (8, 1), (9, 1)],
        s.entryBytes p.1 n = none ↔ p.2 ≤ n)
    ∧ (∀ a : Int, 0 ≤ a → a < 1099511627776 → encAxis a = be 5 a.toNat)
    ∧ (∀ lost, encFault none lost = List.replicate 24 0)
    ∧ (∀ (f : FaultRecord) (lost : Nat), encFault (some f) lost = [1, f.code.code] ++ opt 1 (f.line.map fun l => be 1 l.val)
        ++ opt 3 (f.piece.map fun p => be 2 p.idx ++ [p.gen]) ++ opt 5 (f.axis.map encAxis) ++ be 8 f.stamp.toNat ++ be 1 lost ++ [0])
    ∧ s.statusPart = be 6 s.station.toNat ++ be 8 s.tku.clock.toNat ++ encFault s.mgt.fault s.mgt.lost
        ++ bool ((List.finRange 16).all fun i => !s.mgt.access[i].enabled) ++ be 1 s.mgt.requests.length
        ++ opt 6 (if s.mgt.alertLoaded = true then some (be 6 s.mgt.alertAddr.toNat) else none) ++ [port s.mgt.alertPort]
        ++ s.mgt.counters.list.flatMap (be 4) ++ be 4 s.fcl.malformed ++ be 4 s.fcl.unknownOrigin ++ be 2 s.prl.processType.toNat
        ++ counter s.tku.reckon ++ counter s.tku.hold ++ counter s.tku.sweep ++ [mode s.tku.sweep.mode]
        ++ bool s.tku.sweep.cascade ++ bool s.tku.sweepDue ++ be 4 s.tku.sweepLag
    ∧ (let a := s.port .A
       let b := s.port .B
       s.statusPorts = [if a.link = .up then 1 else 0, if b.link = .up then 1 else 0] ++ be 1 a.txq.length ++ be 1 b.txq.length
        ++ [a.rxError, a.txDrop, a.linkDrop, b.rxError, b.txDrop, b.linkDrop].flatMap (be 4)))
  ∧ (∀ (x : Line) (h : Nat),
    let bool (b : Bool) : List Byte := [if b = true then 1 else 0]
    let opt (width : Nat) (x : Option (List Byte)) : List Byte := match x with
      | none => 0 :: List.replicate width 0
      | some bs => 1 :: bs
    let state : Nat := match x.state with
      | .vacant => 0
      | .idle => 1
      | .settling => 2
      | .running => 3
      | .parked => 4
      | .reckoning => 5
      | .holdback => 6
      | .suspended => 7
    let ref (p : PieceRef) : List Byte := be 2 p.idx ++ [p.gen]
    let c := x.counters
    x.statusBytes h = be 1 state ++ be 5 x.axis ++ be 4 x.lengthRef.toNat ++ be 2 x.lastSpeed ++ be 4 x.reverseDebt
      ++ bool x.reverseOver ++ bool x.refMissing ++ bool x.parkedLength ++ be 5 x.headMark
      ++ be 1 x.sup.silence ++ be 2 x.sup.reckonSpeed ++ be 2 x.sup.remainder ++ beInt 6 x.sup.anchor ++ be 6 x.sup.gap
      ++ be 2 x.sup.grace ++ bool x.sup.acked ++ be 1 x.chain.length ++ opt 5 (x.boundary.map (be 5)) ++ opt 3 (x.feeding.map ref)
      ++ be 1 x.outputs.length ++ x.outputs.flatMap ref ++ be 1 x.queue.length ++ be 4 x.newest.toNat ++ be 4 x.lastTaken.toNat
      ++ bool x.gapPending ++ be 5 h
      ++ [c.lineOff, c.duplicate, c.gap, c.stale, c.kindRefused, c.badTag, c.overrun, c.queueDiscard,
          c.welds, c.cuts, c.chainFull, c.cutOrder, c.badStrands, c.jump, c.reverseOver, c.binDiscard,
          c.lengthLost, c.holdbackDrop, c.lineSuspended,
          c.accepted, c.unmapped, c.preHead, c.behind, c.outOfRange, c.binsHanded, c.binLost].flatMap (be 4))
  ∧ ∀ s : State,
    let g := s.glu.counters
    let c := s.stc.counters
    let k := s.pbk.counters
    let context (x : Context) : List Byte :=
      be 1 (match x.state with
        | .free => 0
        | .draining => 1
        | .assembling => 2
        | .ready => 3
        | .failed => 4)
      ++ [x.gen] ++ be 6 x.source.toNat
      ++ be 1 (if x.state = .free then 0 else if x.port = .A then 1 else 2)
      ++ be 1 (match x.query with
        | none => 0
        | some (.trend _ _ _ _ _) => 4
        | some (.genealogy _ _) => 5)
      ++ be 2 x.pages.length ++ be 1 ((if x.truncated = true then 1 else 0) + (if x.openSpan = true then 2 else 0))
      ++ be 1 x.hold ++ be 2 x.walkPos
    s.statusGenealogy = be 2 s.glu.freePieces.length ++ be 2 s.glu.closeList.length ++ be 4 s.glu.freeSegments.length
      ++ be 4 s.glu.freeGroups.length
      ++ [g.tagIndexFull, g.tagOpen, g.useLimit, g.pieceTableFull, g.segmentFull, g.linkFull, g.pieceTableLow, g.autoRetired,
          g.retired].flatMap (be 4)
    ∧ s.statusStore = be 4 s.stc.freeBlocks.length ++ be 4 s.stc.ageQueue.length ++ be 2 s.stc.writeQueue.length
      ++ be 2 s.stc.greatest ++ be 2 s.stc.scrubPointer.toNat
      ++ [0, 3221225472, 3221225472, 3238002688, 3238002688, 3254779904, 3254779904, 3263168512, 3263168512, 3267362816,
          3267362816, 3273654272, 3273654272, 4294967296].flatMap (be 5)
      ++ [c.allocated, c.storeFull, c.blocksReclaimed, c.reclaimBlocked, c.corrected, c.uncorrectable, c.poisoned,
          c.scrubCorrected, c.scrubUncorrectable, c.scrubSteps, c.scrubPasses].flatMap (be 4)
    ∧ s.statusPlayback = (List.finRange 16).flatMap (fun i => context (s.context i)) ++ be 2 s.pbk.freePages.length
      ++ be 1 s.pbk.asmQueue.length ++ be 1 s.pbk.cache.length
      ++ [k.accepted, k.failed, k.busy, k.truncated, k.fetched, k.released, k.holdExpired, k.cacheHits, k.cacheMisses,
          k.cacheRefetches].flatMap (be 4)

/-- ACTIVATE, DEACTIVATE, RESET_LINE and ACK_DEGRADED (R21, R22, R27, R28, R55, R176, Fig. 2.4): a malformed body is BAD_VALUE and a slot
above 7 BAD_INDEX; each command in the states that take it has its effect and in the others is refused with BAD_STATE; ACTIVATE needs a
valid shear station. Each reply carries the line slot, the command and the state after it. A deactivated or reset line is IDLE, its queue
emptied and counted QUEUE_DISCARD, its pending contents in force, its chain and amounts cleared; DEACTIVATE closes its open bins; RESET_LINE
discards them, counted BIN_DISCARD, and clears the counters before these two. Emptying the queue reaches every drain mark of the line
(R135). The feed list is empty once the outputs are closed. Where a write of the closes, or GLU itself, waits for room, the steps of R27
that follow the closes, and with them the reply, wait for them: until then the line is as it was, its queue held (R27, R28, R81, R94, R171).
That a call waits whole, and in which order, is log 15's. -/
def Obligations.LineControlsMoveTheLine : Prop :=
  (∀ (s : State) (r : Request), Granted s r 3 .engineer →
    ∀ p ∈ [(Instr.activate, 1), (.deactivate, 2), (.resetLine, 3), (.ackDegraded, 4)],
      ((r.body.length < 2 ∨ u8At r.body 1 = 0 ∨ 4 < u8At r.body 1) → takes p.1 r = true →
        exec p.1 s = .next (s.taken.answer r { reason := .badValue }))
      ∧ (2 ≤ r.body.length → u8At r.body 1 = p.2 → 8 ≤ u8At r.body 0 →
        exec p.1 s = .next (s.taken.answer r { reason := .badIndex })))
  ∧ ∀ (s : State) (r : Request) (l : LineId), GluWait.line l ∉ s.glu.waits →
    let x := s.line l
    let reply (cmd : Nat) (why : Reason) (st : LineState) : Reply :=
      { reason := why, contents := encLine l ++ be 1 cmd ++ [st.code] }
    let active := x.state ∈ [.settling, .running, .parked, .reckoning, .holdback]
    let idle : Line := { x with
      state := .idle, queue := [], lastTaken := x.newest, gapPending := false, stations := x.stations.map Station.force,
      chain := [], outputs := [], boundary := none, lastWeld := none, feeding := none,
      reverseDebt := 0, reverseOver := false, refMissing := false, parkedLength := false, settlingRun := 0,
      sup := { x.sup with gap := 0, silence := 0 } }
    let replied (u : State) (y : Reply) : State := if GluWait.line l ∈ u.glu.waits then
      { u with mgt := { u.mgt with heldReply := some (r, y) }, glu := { u.glu with waits := u.glu.waits ++ [.reply] } }
      else u.answer r y
    let last : GluCall := .closeOutputs {
      line := l, start := x.boundary.getD 0, stop := max ((x.axis : Int) - x.content x.entry.shear).toNat (x.boundary.getD 0),
      finished := 0, est := x.unreferenced, incomplete := true } x.outputs
    let closes (u : State) : Prop := (GluWait.line l ∈ u.glu.waits ↔ u.gluBusy = true)
      ∧ (GluWait.leave l .idle ∈ u.glu.waits ↔ u.gluBusy = true)
      ∧ ((u.line l).feed = [] ∨ GluWait.call last ∈ u.glu.waits) ∧ (GluFree u → (u.line l).feed = [])
      ∧ (u.gluBusy = false → u.pbk.taken[l] = x.newest) ∧ (∀ k, k ≠ l → u.line k = s.line k)
    (Controls s r 1 l →
      (x.state ≠ .idle → exec .activate s = .next (s.taken.answer r (reply 1 .badState x.state)))
      ∧ (x.state = .idle → x.stationValid x.entry.shear = false →
          exec .activate s = .next (s.taken.answer r (reply 1 .badValue .idle)))
      ∧ (x.state = .idle → x.stationValid x.entry.shear = true →
          exec .activate s = .next (State.answer
            ({ s.taken with fcl := { s.fcl with origins := s.fcl.origins.map fun o : Origin =>
                  if o.valid = true ∧ o.line = l.val then { o with checked := false } else o } }.updLine l fun y => { y with
              state := .settling, chain := [], outputs := [], boundary := none, lastWeld := none, feeding := none,
              reverseDebt := 0, reverseOver := false, refMissing := false, parkedLength := false, settlingRun := 0,
              lengthTaken := false, sup := { y.sup with gap := 0, silence := 0 } }) r (reply 1 .ok .settling))))
    ∧ (Controls s r 2 l →
      (¬ active → exec .deactivate s = .next (s.taken.answer r (reply 2 .badState x.state)))
      ∧ (active → ∃ u, exec .deactivate s = .next (replied u (reply 2 .ok .idle)) ∧ closes u
          ∧ (u.gluBusy = false → u.line l = { idle with feed := (u.line l).feed, counters := { (u.line l).counters with
              queueDiscard := sat x.counters.queueDiscard x.queue.length } })
          ∧ (u.gluBusy = true → u.line l = { x with feed := (u.line l).feed, counters := { (u.line l).counters with
              queueDiscard := x.counters.queueDiscard } })
          ∧ ∀ k, u.chan k = if (s.chan k).on l = true then (s.chan k).closed else s.chan k))
    ∧ (Controls s r 3 l →
      (x.state = .vacant → exec .resetLine s = .next (s.taken.answer r (reply 3 .badState .vacant)))
      ∧ (x.state = .idle → exec .resetLine s = .next ((s.taken.updLine l fun y => { y with
          counters := {}, sup := { y.sup with grace := 0 } }).testDrains.answer r (reply 3 .ok .idle)))
      ∧ (x.state = .suspended → exec .resetLine s = .next (((s.taken.updLine l fun _ => { idle with
          counters := {}, sup := { idle.sup with grace := 0 } }).updPbk fun k =>
            { k with taken := k.taken.set l x.newest }).testDrains.answer r (reply 3 .ok .idle)))
      ∧ (active → ∃ u, exec .resetLine s = .next (replied u (reply 3 .ok .idle)) ∧ closes u
          ∧ (let discarded := sat 0 ((List.finRange 256).countP fun k => (s.chan k).recording l)
             (u.gluBusy = false → u.line l = { idle with
                feed := (u.line l).feed, sup := { idle.sup with grace := 0 },
                counters := { binDiscard := discarded, queueDiscard := sat 0 x.queue.length } })
             ∧ (u.gluBusy = true → u.line l = { x with
                feed := (u.line l).feed, sup := { x.sup with grace := 0 }, counters := { binDiscard := discarded } }))
          ∧ ∀ k, u.chan k = if (s.chan k).on l = true then { s.chan k with openBin := none } else s.chan k))
    ∧ (Controls s r 4 l →
      (x.state ∉ [.reckoning, .holdback] → exec .ackDegraded s = .next (s.taken.answer r (reply 4 .badState x.state)))
      ∧ (x.state ∈ [.reckoning, .holdback] → exec .ackDegraded s = .next ((s.taken.updLine l fun y => { y with
          sup := { y.sup with grace := 0, acked := true } }).answer r (reply 4 .ok x.state))))

/-- QUERY_TREND and QUERY_GENEALOGY (R132 to R135, R140): parameters that fail R132's checks are BAD_VALUE (a tag of spaces alone passes
them: log 25); with every context in use the answer is BUSY; otherwise, GLU being free, the lowest FREE context takes the request with its
piece name, and in every case the reply is OK with its ticket, held where the lookup has left writes waiting (R171). A name by a stale
reference, or by a tag without a match, leaves it FAILED with NO_PIECE, one by a current reference whose record reads DAMAGED with
DAMAGED_RECORD. Any other leaves it with the piece's pin count raised, but at 15 (R98), and a mark for every line whose queue is not empty:
DRAINING while a line's newest number is not reached (R13), else ASSEMBLING at the tail of the assembly queue. A DRAINING context leaves for
that tail when every mark is reached by its line's last taken number (R135, R136), tested when an event is taken and when what it waited for
has come: that of the last event whose calls are complete and whose bins are queued or lost, one below the first with a bin held behind a
reload seal or, while the line's call waits, one below the last (log 15; a line that leaves the active states has no call of its last event
waiting), or the newest assigned one when the queue is emptied. -/
def Obligations.QueryTakesTheLowestFreeContext : Prop :=
  (∀ (cmd : Instr) (code : Nat) (parse : List Byte → Option (PieceName × Query)),
    ((cmd = .queryTrend ∧ code = 4 ∧ parse = trendOf) ∨ (cmd = .queryGenealogy ∧ code = 5 ∧ parse = genealogyOf)) →
    ∀ (s : State) (r : Request), Granted s r code .view →
    (parse r.body = none → exec cmd s = .next (s.taken.answer r { reason := .badValue }))
    ∧ ∀ name q, parse r.body = some (name, q) →
      ((∀ i, (s.context i).state ≠ .free) → exec cmd s =
        .next ((s.taken.countPbk fun k => { k with busy := sat k.busy 1 }).answer r { reason := .busy }))
      ∧ ∀ i, (s.context i).state = .free → (∀ j, j < i → (s.context j).state ≠ .free) → GluFree s →
        let c : Context := { gen := (s.context i).gen, source := r.src, port := r.port, name := some name, query := some q }
        let ticket : Reply := { reason := .ok, contents := be 1 i.val ++ [c.gen] }
        let replied (u : State) : State := u.reply r ticket (if u.glu.waiting = [] then none else some .writes)
        let failed (u : State) : Host.Outcome State Fault Refusal := .next (replied ((u.updContext i fun _ =>
          { c with state := .failed, failure := .noPiece, hold := u.stc.entry.holdCount }).countPbk fun k =>
          { k with failed := sat k.failed 1 }))
        let drains (u t : State) (p : PieceRef) : Prop :=
          t.prl = (replied u).prl ∧ t.mgt = (replied u).mgt ∧ t.glu.waits = (replied u).glu.waits ∧ t.stc = u.stc
          ∧ t.context i = { c with
            state := (t.context i).state, piece := p, pinCounted := decide ((u.pieceDir p.idx).pins < 15),
            marks := s.lines.map fun x => if x.queue.isEmpty then none else some x.newest }
          ∧ (∀ j, j ≠ i → t.context j = s.context j) ∧ t.lines = s.lines
          ∧ t.pbk.counters.accepted = sat s.pbk.counters.accepted 1
          ∧ (let waits := ∃ l : LineId, (s.line l).queue ≠ [] ∧ (s.pbk.taken[l] - (s.line l).newest).toInt < 0
             (waits → (t.context i).state = .draining ∧ t.pbk.asmQueue = s.pbk.asmQueue)
             ∧ (¬ waits → (t.context i).state = .assembling ∧ t.pbk.asmQueue = s.pbk.asmQueue ++ [i]))
          ∧ (Sparse.wf {} s.glu.dir = true → (t.pieceDir p.idx).pins =
              if (s.pieceDir p.idx).pins < 15 then (s.pieceDir p.idx).pins + 1 else (s.pieceDir p.idx).pins)
        (∀ g, name = .byTag g →
          ((s.taken.lookupTag g).1 = none → exec cmd s = failed (s.taken.lookupTag g).2)
          ∧ ∀ p, (s.taken.lookupTag g).1.map Prod.fst = some p →
              ∃ t, exec cmd s = .next t ∧ drains (s.taken.lookupTag g).2 t p)
        ∧ ∀ p, name = .byRef p →
          (s.isCurrent p = false → exec cmd s = failed s.taken)
          ∧ (∀ rec w, s.isCurrent p = true → s.taken.gluRecord p.idx = (some rec, w) →
              ∃ t, exec cmd s = .next t ∧ drains w t p ∧ (s.stc.wrongBits = [] → t.stc = s.stc))
          ∧ ∀ w, s.isCurrent p = true → s.taken.gluRecord p.idx = (none, w) →
              exec cmd s = .next (((w.updContext i fun _ =>
                { c with piece := p, state := .failed, failure := .damagedRecord, hold := w.stc.entry.holdCount }).countPbk fun k =>
                { k with failed := sat k.failed 1 }).answer r ticket))
  ∧ (∀ bs : List Byte,
    let t := tagAt bs 1
    let inSet (c : Byte) : Prop :=
      (0x30 ≤ c.toNat ∧ c.toNat ≤ 0x39) ∨ (0x41 ≤ c.toNat ∧ c.toNat ≤ 0x5A) ∨ c = 0x2D ∨ c = 0x20
    let ok : Prop := (∀ c ∈ t, inSet c) ∧ ∀ (j k : Nat) (c : Byte), j < k → t[j]? = some 0x20 → t[k]? = some c → c = 0x20
    let cs : List ChanId := (List.range (u8At bs 30)).map fun i => (byteAt bs (31 + i)).toFin
    let ls := (List.finRange 8).filter fun l : LineId => (byteAt bs 29).getLsbD l.val
    (∀ name, pieceNameOf bs = some name ↔ (u8At bs 0 = 1 ∧ ok ∧ name = .byTag t)
        ∨ (u8At bs 0 = 2 ∧ name = .byRef ⟨u16At bs 17, byteAt bs 19⟩))
    ∧ (∀ sel, selectionOf bs = some sel ↔ (u8At bs 28 = 1 ∧ 1 ≤ u8At bs 30 ∧ u8At bs 30 ≤ 8 ∧ cs.Nodup ∧ sel = .channels cs)
        ∨ (u8At bs 28 = 2 ∧ ls ≠ [] ∧ sel = .lines ls))
    ∧ (∀ name q, trendOf bs = some (name, q) ↔ 44 ≤ bs.length ∧ pieceNameOf bs = some name
        ∧ u32At bs 20 < u32At bs 24 ∧ u32At bs 24 ≤ 33554431 ∧ u8At bs 39 ≤ 7 ∧ u32At bs 40 ≤ 1000000
        ∧ ∃ sel, selectionOf bs = some sel ∧ q = .trend (u32At bs 20) (u32At bs 24) sel (u8At bs 39) (u32At bs 40))
    ∧ ∀ name q, genealogyOf bs = some (name, q) ↔ 22 ≤ bs.length ∧ pieceNameOf bs = some name
        ∧ (u8At bs 20 = 1 ∨ u8At bs 20 = 2) ∧ 1 ≤ u8At bs 21 ∧ u8At bs 21 ≤ 7
        ∧ q = .genealogy (decide (u8At bs 20 = 1)) (u8At bs 21))
  ∧ (∀ (s : State) (i : CtxId),
    let c := s.context i
    let done := ∀ (l : LineId) (a : Word32), c.marks[l] = some a → 0 ≤ (s.pbk.taken[l] - a).toInt
    (c.state = .draining → done → s.testDrain i = (s.updContext i fun c => { c with state := .assembling }).updPbk fun k =>
      { k with asmQueue := k.asmQueue ++ [i] })
    ∧ (¬ (c.state = .draining ∧ done) → s.testDrain i = s))
  ∧ (∀ s : State, ∃ numbers : Vector Word32 8,
    s.testDrains = (List.finRange 16).foldl State.testDrain (s.updPbk fun k => { k with taken := numbers })
    ∧ ∀ l : LineId,
      let last := (s.line l).lastTaken
      let ahead := (s.pbk.taken[l] - last).toInt < 0
      (¬ ahead → numbers[l] = s.pbk.taken[l])
      ∧ (∀ a, ahead → s.pbk.behindSeal[l] = some a → numbers[l] = a - 1)
      ∧ (ahead → s.pbk.behindSeal[l] = none → GluWait.line l ∈ s.glu.waits → (∀ k, GluWait.leave l k ∉ s.glu.waits) →
          numbers[l] = last - 1)
      ∧ (ahead → s.pbk.behindSeal[l] = none → (GluWait.line l ∉ s.glu.waits ∨ ∃ k, GluWait.leave l k ∈ s.glu.waits) →
          numbers[l] = last))
  ∧ (∀ (s : State) (l : LineId) (e : Event) (before : List BinOffer),
    let more := before.length < s.stc.heldOffers.length ∧ s.pbk.behindSeal[l] = none
    (more → s.noteHeld l e before = s.updPbk fun k => { k with behindSeal := k.behindSeal.set l (some e.arrival) })
    ∧ (¬ more → s.noteHeld l e before = s))
  ∧ (∀ (s : State) (l : LineId) (e : Event), Awaits s l e →
    let u := s.takeEvent l e
    let ends (t : State) : Host.Outcome State Fault Refusal := .next ((t.noteHeld l e s.stc.heldOffers).testDrains)
    (∀ c v, e.body = .length c v → exec (.lengthEvent l) s = ends (u.takeLength l c v))
    ∧ (∀ n ps, e.body = .sample n ps → exec (.sampleEvent l) s = ends ((u.takeSample l n ps).afterEvent l (s.line l).state))
    ∧ (∀ c d g, e.body = .weld c d g → exec (.weldEvent l) s = ends ((u.takeWeld l c d g).afterEvent l (s.line l).state))
    ∧ (∀ k n gs, e.body = .cut k n gs → exec (.cutEvent l) s = ends ((u.takeCut l k n gs).afterEvent l (s.line l).state))
    ∧ (e.body = .stop → exec (.stateStopEvent l) s = ends (u.takeStop l))
    ∧ (e.body = .run → exec (.stateRunEvent l) s = ends (u.takeRun l)))
  ∧ (∀ s : State, s.phase ≠ .coldReset → ¬ GluFree s → ∃ n,
      let v := s.resumeWrites.runWaits n
      exec .gluWriteResumed s = .next (if v.phase = .warmClear ∧ GluFree v then { v with phase := .running } else v))
  ∧ ∀ (s : State) (l : LineId), (s.emptyQueue l).pbk.taken[l] = (s.line l).newest

/-- FETCH and RELEASE (R131, R142, R143, Fig. 7.3): a body too short is BAD_VALUE (R171); a ticket is current by context number, generation,
a state other than FREE and the source address; a stale one is UNKNOWN_TICKET and changes nothing. A FETCH of a READY context is answered
with the page asked for, or PAGE_RANGE, and the hold starts again; a FAILED one is answered with its failure, an earlier one NOT_READY with
phase, lines outstanding, place in the assembly queue, walk position and pages held (0 where Fig. 7.3 names none: log 21), nothing changing.
A RELEASE is answered OK and frees the context: its generation rises, its pages go back, its counted pin is released (R139; its other fields
are log 6's), which alone waits where GLU is busy (log 15), and RELEASED is counted; where the engine was at work on it, the read it had
asked of STC is to be discarded when it is answered, and the engine takes the next context of the queue, said where that one's reference is
current. -/
def Obligations.TicketsFetchAndRelease : Prop :=
  ∀ (s : State) (r : Request),
    (Granted s r 6 .view → r.body.length < 3 → exec .fetch s = .next (s.taken.answer r { reason := .badValue }))
    ∧ (Granted s r 7 .view → r.body.length < 2 → exec .release s = .next (s.taken.answer r { reason := .badValue }))
    ∧ (Granted s r 6 .view → 3 ≤ r.body.length →
      (s.ticketContext r = none → exec .fetch s = .next (s.taken.answer r { reason := .unknownTicket }))
      ∧ ∀ i, s.ticketContext r = some i →
        let c := s.context i
        let n := u8At r.body 2
        let u := s.taken.updContext i fun c => { c with hold := s.stc.entry.holdCount }
        (c.state = .ready → c.pages.length ≤ n → exec .fetch s = .next (u.answer r
          { reason := .pageRange, contents := be 2 c.pages.length ++ [c.flagByte] }))
        ∧ (∀ p, c.state = .ready → c.pages[n]? = some p → exec .fetch s = .next
            ((u.countPbk fun k => { k with fetched := sat k.fetched 1 }).answer r
              { reason := .ok, contents := [c.queryCode] ++ be 1 n ++ be 2 c.pages.length ++ [c.flagByte]
                  ++ s.pageBytes (1024 * p) 1024 }))
        ∧ (c.state = .failed → exec .fetch s = .next (s.taken.answer r { reason := c.failure.reason }))
        ∧ (let early (phase outstanding place walked held : Nat) : Host.Outcome State Fault Refusal := .next (s.taken.answer r {
             reason := .notReady,
             contents := be 1 phase ++ be 1 outstanding ++ be 1 place ++ be 2 walked ++ be 2 held })
           (c.state = .draining → exec .fetch s = early 1 ((List.finRange 8).countP fun l => match c.marks[l] with
               | none => false
               | some a => decide ((s.pbk.taken[l] - a).toInt < 0)) 0 0 0)
           ∧ (∀ k, c.state = .assembling → s.pbk.asmQueue.findIdx? (fun j => j == i) = some k →
               exec .fetch s = early 2 0 (k + 1) 0 0)
           ∧ (c.state = .assembling → i ∉ s.pbk.asmQueue → exec .fetch s = early 2 0 0 c.walkPos c.pages.length)))
    ∧ (Granted s r 7 .view → 2 ≤ r.body.length →
      (s.ticketContext r = none → exec .release s = .next (s.taken.answer r { reason := .unknownTicket }))
      ∧ ∀ i, s.ticketContext r = some i → Sparse.wf {} s.glu.dir = true →
        let left := s.pbk.asmQueue.erase i
        let p := (s.context i).piece
        (s.assembling i = true → ∀ j, left.head? = some j → j ≠ i ∧ s.isCurrent (s.context j).piece = true) →
        ∃ t, exec .release s = .next t
          ∧ t.prl = (s.taken.answer r { reason := .ok }).prl ∧ t.mgt = (s.taken.answer r { reason := .ok }).mgt
          ∧ t.context i = { gen := (s.context i).gen + 1 } ∧ (∀ j, j ≠ i → t.context j = s.context j)
          ∧ t.pbk.freePages = s.pbk.freePages.pushAll (s.context i).pages.reverse
          ∧ t.pbk.counters.released = sat s.pbk.counters.released 1
          ∧ (s.assembling i = false → t.pbk.engine = s.pbk.engine ∧ t.pbk.asmQueue = left)
          ∧ (s.assembling i = true → t.pbk.asmQueue = left.drop 1
              ∧ t.pbk.engine = left.head?.map (fun j =>
                  { ctx := j, tasks := [.askQueried], chans := s.selected (s.context j) }))
          ∧ (s.assembling i = false → t.pbk.discarded = s.pbk.discarded)
          ∧ (∀ e, s.pbk.engine = some e → e.ctx = i →
              t.pbk.discarded = s.pbk.discarded ++ (e.tasks.head?.bind (Task.read? p)).toList)
          ∧ (GluFree s → (s.context i).pinCounted = true → s.isCurrent p = true →
              (t.pieceDir p.idx).pins = (s.pieceDir p.idx).pins - 1)
          ∧ (¬ GluFree s → (s.context i).pinCounted = true → t.glu = { s.glu with waits := s.glu.waits ++ [.call (.releasePin p)] })
          ∧ t.lines = s.lines ∧ t.stc = s.stc)
    ∧ (∀ i, s.assembling i = true ↔ ∃ e, s.pbk.engine = some e ∧ e.ctx = i)
    ∧ ∀ i, s.ticketContext r = some i ↔ (u8At r.body 0 = i.val ∧ byteAt r.body 1 = (s.context i).gen
        ∧ (s.context i).state ≠ .free ∧ (s.context i).source = r.src)

/-- PIN, UNPIN and RETIRE (R98 to R101, R144): a malformed body is BAD_VALUE. GLU being free, a piece not found, by a stale reference or a
tag without a match, is NO_PIECE; a PIN raises the pin count, at 15 it is PIN_LIMIT; an UNPIN lowers it, at 0 it is BAD_STATE; the reply
carries the reference and the count, and waits for writes the lookup left waiting. RETIRE of an OPEN piece is BAD_STATE, of a pinned one
PINNED, of one with a FEEDING use span BAD_STATE; else the piece is RETIRED with its generation raised, its index on top of the free list
and out of the close list, RETIRED is counted, and the reply is OK, waiting for writes the retirement left waiting. The walk that removes
its tag changes the USED slot that holds its reference to TOMBSTONE, passes over every other, and ends at an EMPTY one (R86). A piece whose
record reads then gives back its two lists, group by group, and every segment of its parent-link list, taken out of the parent's child-link
list where that parent is current and reads; a group that cannot be read is met as R100 says, a segment as R124 says; a DAMAGED piece is
retired without them and its record cleared (R101), unit by unit in an order that is log 9's. Automatic retirement takes the first of the
first 64 entries of the close list that is not pinned and is DAMAGED or has every span end at or below its line's horizon, or counts
PIECE_TABLE_LOW (R102); the order of those horizons, and that a record is read anew for a retirement, is log 26's, what a failing group of a
search does log 17's. -/
def Obligations.PinsAndRetirement : Prop :=
  (∀ (s : State) (r : Request),
    (∀ p ∈ [(Instr.pin, 8), (.unpin, 9)], Granted s r p.2 .view → (r.body.length < 20 ∨ pieceNameOf r.body = none) →
      exec p.1 s = .next (s.taken.answer r { reason := .badValue }))
    ∧ (Granted s r 10 .engineer → r.body.length < 3 → exec .retire s = .next (s.taken.answer r { reason := .badValue })))
  ∧ (∀ (s : State) (r : Request), GluFree s → Sparse.wf {} s.glu.dir = true →
    (∀ p : PieceRef, 20 ≤ r.body.length → pieceNameOf r.body = some (.byRef p) →
      let pins := (s.pieceDir p.idx).pins
      let set (n : Nat) := s.taken.updPieceDir p.idx fun d => { d with pins := n }
      let reply (n : Nat) : Reply := { reason := .ok, contents := encRef p ++ be 1 n }
      (Granted s r 8 .view →
        (s.isCurrent p = false → exec .pin s = .next (s.taken.answer r { reason := .noPiece }))
        ∧ (s.isCurrent p = true → 15 ≤ pins → exec .pin s = .next (s.taken.answer r { reason := .pinLimit }))
        ∧ (s.isCurrent p = true → pins < 15 → exec .pin s = .next ((set (pins + 1)).answer r (reply (pins + 1)))))
      ∧ (Granted s r 9 .view →
        (s.isCurrent p = false → exec .unpin s = .next (s.taken.answer r { reason := .noPiece }))
        ∧ (s.isCurrent p = true → pins = 0 → exec .unpin s = .next (s.taken.answer r { reason := .badState }))
        ∧ (s.isCurrent p = true → 0 < pins → exec .unpin s = .next ((set (pins - 1)).answer r (reply (pins - 1))))))
    ∧ (∀ g : Tag, 20 ≤ r.body.length → pieceNameOf r.body = some (.byTag g) →
      let x := s.taken.lookupTag g
      let answers (u : State) (y : Reply) : Host.Outcome State Fault Refusal :=
        .next (u.reply r y (if x.2.glu.waiting = [] then none else some .writes))
      let pins (p : PieceRef) := (s.pieceDir p.idx).pins
      let set (p : PieceRef) (n : Nat) := x.2.updPieceDir p.idx fun d => { d with pins := n }
      let reply (p : PieceRef) (n : Nat) : Reply := { reason := .ok, contents := encRef p ++ be 1 n }
      (Granted s r 8 .view →
        (x.1 = none → exec .pin s = answers x.2 { reason := .noPiece })
        ∧ ∀ p y, x.1 = some (p, y) →
          (15 ≤ pins p → exec .pin s = answers x.2 { reason := .pinLimit })
          ∧ (pins p < 15 → exec .pin s = answers (set p (pins p + 1)) (reply p (pins p + 1))))
      ∧ (Granted s r 9 .view →
        (x.1 = none → exec .unpin s = answers x.2 { reason := .noPiece })
        ∧ ∀ p y, x.1 = some (p, y) →
          (pins p = 0 → exec .unpin s = answers x.2 { reason := .badState })
          ∧ (0 < pins p → exec .unpin s = answers (set p (pins p - 1)) (reply p (pins p - 1)))))
    ∧ (Granted s r 10 .engineer → 3 ≤ r.body.length →
      let p := refAt r.body 0
      let d := s.pieceDir p.idx
      (s.isCurrent p = false → exec .retire s = .next (s.taken.answer r { reason := .noPiece }))
      ∧ (s.isCurrent p = true → d.state = .opened → exec .retire s = .next (s.taken.answer r { reason := .badState }))
      ∧ (s.isCurrent p = true → d.state = .closed → 0 < d.pins →
          exec .retire s = .next (s.taken.answer r { reason := .pinned }))
      ∧ (s.isCurrent p = true → d.state = .closed → d.pins = 0 → ∀ rec u, s.taken.gluRecord p.idx = (some rec, u) →
          (rec.uses.any fun x => x.stop.isNone) = true → exec .retire s = .next (u.answer r { reason := .badState }))
      ∧ (s.isCurrent p = true → d.state = .closed → d.pins = 0 →
          (∀ rec, (s.taken.gluRecord p.idx).1 = some rec → (rec.uses.any fun x => x.stop.isNone) = false) →
          ∃ t, exec .retire s = .next t
            ∧ t.pieceDir p.idx = { state := .retired, gen := d.gen + 1, pins := 0 }
            ∧ (∀ j, j ≠ p.idx → t.pieceDir j = s.pieceDir j)
            ∧ t.glu.closeList = s.glu.closeList.erase p.idx ∧ t.glu.freePieces = s.glu.freePieces.push p.idx
            ∧ t.glu.counters.retired = sat s.glu.counters.retired 1
            ∧ (let v := (s.taken.gluRecord p.idx).2.retirePiece p
               t = State.reply (v.countGlu fun c => { c with retired := sat c.retired 1 }) r { reason := .ok }
                 (if v.glu.waiting = [] then none else some .writes)
               ∧ t.glu.freeSegments = v.glu.freeSegments ∧ t.glu.freeGroups = v.glu.freeGroups ∧ t.stc = v.stc)
            ∧ (∀ l, t.line l = s.line l) ∧ t.tku = s.tku ∧ t.fcl = s.fcl)))
  ∧ (∀ (s u : State) (p : PieceRef),
    (∀ r, s.gluRecord p.idx = (some r, u) →
      let v := if r.id.flags.unindexed = true then u
        else u.removeSlots p ((List.range 16).map fun i => (homeSlot r.id.tag + i) % 131072)
      s.retirePiece p = ((v.freeList true r.parents.count r.parents.first).freeList false r.children.count
        r.children.first).retireIndex p)
    ∧ (s.gluRecord p.idx = (none, u) → s.retirePiece p =
        [0, 1, 2, 3, 4, 5, 6, 7].foldl (fun v k => v.gluWrite (pieceAddr p.idx k) .cleared) (u.retireIndex p)))
  ∧ (∀ (s u : State) (segments : Bool) (left g : Nat),
    let free (v : State) : State := v.updGlu fun x => { x with freeGroups := x.freeGroups.push g }
    s.freeList segments 0 g = s
    ∧ (s.gluRead (groupAddr g) = (none, u) → s.freeList segments (left + 1) g = free u)
    ∧ ∀ gr, s.gluRead (groupAddr g) = (some (.group gr), u) →
      let v := free (if segments = true then (gr.slots.filterMap fun x => x).foldl State.detachSegment u else u)
      (gr.next = none → s.freeList segments (left + 1) g = v)
      ∧ ∀ g', gr.next = some g' → s.freeList segments (left + 1) g = v.freeList segments left g')
  ∧ (∀ (s u : State) (n : Nat),
    let free (v : State) : State := v.updGlu fun x => { x with freeSegments := x.freeSegments.push n }
    (s.gluRead (segmentAddr n) = (none, u) → s.detachSegment n = u)
    ∧ ∀ x, s.gluRead (segmentAddr n) = (some (.segment x), u) →
      ((x.parent.idx = 0 ∨ u.isCurrent x.parent = false) → s.detachSegment n = free u)
      ∧ (∀ v, u.isCurrent x.parent = true → u.gluRecord x.parent.idx = (none, v) → s.detachSegment n = free v)
      ∧ ∀ r v, u.isCurrent x.parent = true → u.gluRecord x.parent.idx = (some r, v) →
        s.detachSegment n = free (v.emptySlot x.parent n r.children.count r.children.first 0))
  ∧ (∀ (s u : State) (p : PieceRef) (n left g pos : Nat),
    s.emptySlot p n 0 g pos = s
    ∧ (s.gluRead (groupAddr g) = (none, u) → s.emptySlot p n (left + 1) g pos = u.gluModify (groupAddr g) p fun c => c)
    ∧ ∀ gr, s.gluRead (groupAddr g) = (some (.group gr), u) →
      (some n ∈ gr.slots → u.gluRead (groupAddr g) = (some (.group gr), u) → s.emptySlot p n (left + 1) g pos =
        (u.gluWrite (groupAddr g) (.group { gr with slots := gr.slots.map fun x => if x = some n then none else x })).dropGroup
          p .child pos)
      ∧ (some n ∉ gr.slots → gr.next = none → s.emptySlot p n (left + 1) g pos = u)
      ∧ ∀ g', some n ∉ gr.slots → gr.next = some g' → s.emptySlot p n (left + 1) g pos = u.emptySlot p n left g' (pos + 1))
  ∧ (∀ s u : State,
    let found := s.findRetire (s.glu.closeList.take 64)
    (found = (none, u) → s.autoRetire = u.countGlu fun n => { n with pieceTableLow := sat n.pieceTableLow 1 })
    ∧ ∀ i, found = (some i, u) → s.autoRetire = (u.retirePiece ⟨i, (u.pieceDir i).gen⟩).countGlu fun n =>
        { n with autoRetired := sat n.autoRetired 1 })
  ∧ (∀ (s u : State) (i : Nat) (is : List Nat),
    let pins := (s.pieceDir i).pins
    s.findRetire [] = (none, s)
    ∧ (s.qualifies i = (true, u) → s.findRetire (i :: is) = (some i, u))
    ∧ (s.qualifies i = (false, u) → s.findRetire (i :: is) = u.findRetire is)
    ∧ (0 < pins → s.qualifies i = (false, s))
    ∧ (pins = 0 → s.gluRecord i = (none, u) → s.qualifies i = (true, u))
    ∧ ∀ r, pins = 0 → s.gluRecord i = (some r, u) → s.qualifies i = u.spansBelow
        ((r.body.birth.map fun b => (b.line, b.stop)).toList ++ r.uses.map fun y => (y.line, y.stop)))
  ∧ (∀ (s u : State) (l : LineId) (b h : Nat) (rest : List (LineId × Option Nat)),
    s.spansBelow [] = (true, s) ∧ s.spansBelow ((l, none) :: rest) = (false, s)
    ∧ (s.lineHorizon l = (h, u) → b ≤ h → s.spansBelow ((l, some b) :: rest) = u.spansBelow rest)
    ∧ (s.lineHorizon l = (h, u) → h < b → s.spansBelow ((l, some b) :: rest) = (false, u)))
  ∧ ∀ (s : State) (p : PieceRef) (k : Nat) (ks : List Nat),
    let x := (s.gluRead (tagAddr k)).1
    let u := (s.gluRead (tagAddr k)).2
    s.removeSlots p [] = s
    ∧ (x = some .cleared → s.removeSlots p (k :: ks) = u)
    ∧ (∀ g, x = some (.tagUsed g p) → s.removeSlots p (k :: ks) = u.gluWrite (tagAddr k) .tagTombstone)
    ∧ ((x = none ∨ x = some .tagTombstone ∨ ∃ g q, x = some (.tagUsed g q) ∧ q ≠ p) →
        s.removeSlots p (k :: ks) = u.removeSlots p ks)

/-- What a LOAD_ENTRY carries is what its owner reads (Figs. 11.1, 11.5): for every entry whose fields fit their widths, the contents
written by the encodings of R192, after the table code and the index and before any padding, are read back as that entry, every field of
it. -/
def Obligations.TableContentsReadBack : Prop :=
  ∀ (code : Byte) (n : Nat) (pad : List Byte), n < 65536 →
    let head := code :: be 2 n
    (∀ rest : List Byte, u16At (head ++ rest) 1 = n ∧ u8At (head ++ rest) 0 = code.toNat)
    ∧ (∀ o : Origin, o.line < 256 → parseOrigin (head ++ o.bytes ++ pad) = some { o with checked := false, lastSeq := 0 })
    ∧ (∀ e : LineEntry, e.shear < 256 → e.strands < 256 → e.settleCount < 256 → e.maxStep < 4294967296 → e.maxSpeed < 65536 →
        e.silenceLimit < 256 → e.gracePeriod < 65536 → parseLine (head ++ e.bytes ++ pad) = some e)
    ∧ (∀ t : Station, t.content < 4294967296 → parseStation (head ++ t.bytes ++ pad) = some (t.valid, t.content))
    ∧ (∀ e : ChannelEntry, e.line < 256 → e.station < 256 → e.point < 256 → e.pitch < 65536 → -2147483648 ≤ e.low →
        e.low < 2147483648 → -2147483648 ≤ e.high → e.high < 2147483648 → parseChannel (head ++ e.bytes ++ pad) = some e)
    ∧ (∀ e : AccessEntry, parseAccess (head ++ e.bytes ++ pad) = some e)
    ∧ (∀ e : StoreEntry, e.lowWater < 65536 → e.scanLength < 65536 → e.holdCount < 256 →
        parseStore (head ++ e.bytes ++ pad) = some e)
    ∧ (∀ c : Counter, c.loaded < 65536 → parseTick (head ++ c.bytes ++ pad) =
        some { period := c.loaded, mode := c.loadedMode, cascade := c.loadedCascade })
    ∧ (∀ (v : Bool) (a : Address), parseAlert (head ++ (encBool v ++ encAddr a) ++ pad) = some (v, a))
    ∧ ∀ e : BitVec 16, parseEthertype (head ++ be 2 e.toNat ++ pad) = some e
end

