-- ==== Sys2Proof/Laws/Memory.lean ====
section
/-! SUPPORT. Sparse data and the addressed memories: what reads give after writes, and that every memory operation keeps the
canonical form. -/

namespace Sys2Proof.Machine

/-! ### Sparse data -/

section Sparse

variable {α : Type} [DecidableEq α] {d : α}

theorem Sparse.wf_tail {k : Nat} {v : α} {m : Sparse α} (h : Sparse.wf d ((k, v) :: m) = true) : Sparse.wf d m = true := by
  cases m with
  | nil => rfl
  | cons e m => simp only [Sparse.wf, Bool.and_eq_true] at h; exact h.2

theorem Sparse.wf_value {k : Nat} {v : α} {m : Sparse α} (h : Sparse.wf d ((k, v) :: m) = true) : v ≠ d := by
  cases m with
  | nil => simpa [Sparse.wf] using h
  | cons e m => simp only [Sparse.wf, Bool.and_eq_true, decide_eq_true_eq] at h; exact h.1.1

/-- Every key of a canonical tail lies above the first key. -/
theorem Sparse.wf_keys {k : Nat} {v : α} {m : Sparse α} (h : Sparse.wf d ((k, v) :: m) = true) :
    ∀ e ∈ m, k < e.1 := by
  induction m generalizing k v with
  | nil => simp
  | cons e m ih =>
    obtain ⟨j, w⟩ := e
    simp only [Sparse.wf, Bool.and_eq_true, decide_eq_true_eq] at h
    intro e he
    rcases List.mem_cons.1 he with rfl | he
    · exact h.1.2
    · exact Nat.lt_trans h.1.2 (ih h.2 e he)

theorem Sparse.wf_cons {k : Nat} {v : α} {m : Sparse α} (hv : v ≠ d) (hk : ∀ e ∈ m, k < e.1) (hm : Sparse.wf d m = true) :
    Sparse.wf d ((k, v) :: m) = true := by
  cases m with
  | nil => simpa [Sparse.wf] using hv
  | cons e m =>
    simp only [Sparse.wf, Bool.and_eq_true, decide_eq_true_eq]
    exact ⟨⟨hv, hk e (by simp)⟩, hm⟩

omit [DecidableEq α] in
theorem Sparse.get_below {m : Sparse α} {i : Nat} (h : ∀ e ∈ m, i < e.1) : Sparse.get d m i = d := by
  cases m with
  | nil => rfl
  | cons e m => simp [Sparse.get, h e (by simp)]

theorem Sparse.put_keys {m : Sparse α} {i k : Nat} {v : α} (hk : k < i) (hm : ∀ e ∈ m, k < e.1) :
    ∀ e ∈ Sparse.put d m i v, k < e.1 := by
  induction m with
  | nil => simp only [Sparse.put]; split <;> simp [hk]
  | cons x m ih =>
    obtain ⟨j, w⟩ := x
    have hj : k < j := hm (j, w) (by simp)
    have hm' : ∀ e ∈ m, k < e.1 := fun e he => hm e (by simp [he])
    simp only [Sparse.put]
    split
    · split
      · exact hm
      · intro e he
        rcases List.mem_cons.1 he with rfl | he
        · exact hk
        · exact hm e he
    · split
      · split
        · exact hm'
        · intro e he
          rcases List.mem_cons.1 he with rfl | he
          · exact hk
          · exact hm' e he
      · intro e he
        rcases List.mem_cons.1 he with rfl | he
        · exact hj
        · exact ih hm' e he

/-- A write keeps the canonical form. -/
theorem Sparse.put_wf {m : Sparse α} (i : Nat) (v : α) (h : Sparse.wf d m = true) : Sparse.wf d (Sparse.put d m i v) = true := by
  induction m with
  | nil => simp only [Sparse.put]; split <;> simp_all [Sparse.wf]
  | cons x m ih =>
    obtain ⟨j, w⟩ := x
    have hk := Sparse.wf_keys h
    have ht := Sparse.wf_tail h
    simp only [Sparse.put]
    split
    · rename_i hij
      split
      · exact h
      · rename_i hv
        refine Sparse.wf_cons hv (fun e he => ?_) h
        rcases List.mem_cons.1 he with rfl | he
        · exact hij
        · exact Nat.lt_trans hij (hk e he)
    · split
      · rename_i hij
        split
        · exact ht
        · rename_i hv; exact Sparse.wf_cons hv (fun e he => by subst hij; exact hk e he) ht
      · rename_i h1 h2
        exact Sparse.wf_cons (Sparse.wf_value h) (Sparse.put_keys (by omega) hk) (ih ht)

/-- What a key reads after a write. -/
theorem Sparse.get_put {m : Sparse α} (i j : Nat) (v : α) (h : Sparse.wf d m = true) :
    Sparse.get d (Sparse.put d m i v) j = if j = i then v else Sparse.get d m j := by
  induction m with
  | nil =>
    simp only [Sparse.put]
    by_cases hv : v = d
    · simp [hv, Sparse.get]
    · by_cases hj : j = i
      · simp [hv, Sparse.get, hj]
      · simp [hv, Sparse.get, hj]
  | cons x m ih =>
    obtain ⟨k, w⟩ := x
    have hk := Sparse.wf_keys h
    have ht := Sparse.wf_tail h
    have ih' := ih ht
    simp only [Sparse.put]
    by_cases h1 : i < k
    · simp only [h1, if_true]
      by_cases hv : v = d
      · simp only [hv, if_true]
        by_cases hj : j = i
        · subst hj; simp [Sparse.get, h1]
        · simp [hj]
      · simp only [hv, if_false, Sparse.get]
        by_cases hj : j = i
        · simp [hj]
        · simp only [hj, if_false]
          by_cases h3 : j < i
          · simp [h3, Nat.lt_trans h3 h1]
          · simp [h3]
    · simp only [h1, if_false]
      by_cases h2 : i = k
      · subst h2
        simp only [if_true]
        by_cases hv : v = d
        · simp only [hv, if_true, Sparse.get]
          by_cases hj : j = i
          · subst hj; simpa using Sparse.get_below hk
          · simp only [hj, if_false]
            by_cases h3 : j < i
            · simp only [h3, if_true]; exact Sparse.get_below fun e he => Nat.lt_trans h3 (hk e he)
            · simp [h3]
        · simp only [hv, if_false, Sparse.get]
          by_cases hj : j = i
          · simp [hj]
          · simp [hj]
      · simp only [h2, if_false, Sparse.get]
        by_cases h3 : j < k
        · have : j ≠ i := by omega
          simp [h3, this]
        · by_cases h4 : j = k
          · have : j ≠ i := by omega
            rw [if_neg this]; subst h4; simp
          · simp only [h3, h4, if_false]; exact ih'

omit [DecidableEq α] in
theorem Sparse.clearRange_keys {m : Sparse α} {k lo hi : Nat} (h : ∀ e ∈ m, k < e.1) :
    ∀ e ∈ Sparse.clearRange lo hi m, k < e.1 := fun e he => h e (List.mem_filter.1 he).1

theorem Sparse.clearRange_wf {m : Sparse α} (lo hi : Nat) (h : Sparse.wf d m = true) :
    Sparse.wf d (Sparse.clearRange lo hi m) = true := by
  induction m with
  | nil => rfl
  | cons x m ih =>
    obtain ⟨k, w⟩ := x
    simp only [Sparse.clearRange, List.filter_cons]
    split
    · exact Sparse.wf_cons (Sparse.wf_value h) (Sparse.clearRange_keys (Sparse.wf_keys h)) (ih (Sparse.wf_tail h))
    · exact ih (Sparse.wf_tail h)

/-- A range cleared reads as the default; every other key reads as before. -/
theorem Sparse.get_clearRange {m : Sparse α} (lo hi j : Nat) (h : Sparse.wf d m = true) :
    Sparse.get d (Sparse.clearRange lo hi m) j = if lo ≤ j ∧ j < hi then d else Sparse.get d m j := by
  induction m with
  | nil => simp [Sparse.clearRange, Sparse.get]
  | cons x m ih =>
    obtain ⟨k, w⟩ := x
    have hk := Sparse.wf_keys h
    have ih' := ih (Sparse.wf_tail h)
    by_cases hin : lo ≤ k ∧ k < hi
    · have e : Sparse.clearRange lo hi ((k, w) :: m) = Sparse.clearRange lo hi m := by
        simp [Sparse.clearRange, hin.1, hin.2]
      rw [e, ih']
      by_cases hj : lo ≤ j ∧ j < hi
      · simp [hj]
      · simp only [hj, if_false, Sparse.get]
        by_cases h3 : j < k
        · simp only [h3, if_true]; exact Sparse.get_below fun e he => Nat.lt_trans h3 (hk e he)
        · have : j ≠ k := fun e => hj (e ▸ hin)
          simp [h3, this]
    · have e : Sparse.clearRange lo hi ((k, w) :: m) = (k, w) :: Sparse.clearRange lo hi m := by
        simp only [Sparse.clearRange, List.filter_cons]
        rw [if_pos]
        simp; omega
      rw [e]
      simp only [Sparse.get]
      by_cases h3 : j < k
      · simp only [h3, if_true]; split <;> rfl
      · by_cases h4 : j = k
        · subst h4; simp [hin]
        · simp only [h3, h4, if_false]; exact ih'

end Sparse

/-! ### Memories -/

theorem putBytes_wf (m : List Host.Cell) (a : Nat) (bs : List Byte) (h : Sparse.wf (0 : Byte) m = true) :
    Sparse.wf (0 : Byte) (putBytes m a bs) = true := by
  induction bs generalizing m a with
  | nil => exact h
  | cons b bs ih => exact ih _ _ (Sparse.put_wf a b h)

/-- Bytes written to result memory from `a`: the bytes written, and every byte elsewhere as before. -/
theorem get_putBytes (m : List Host.Cell) (a j : Nat) (bs : List Byte) (h : Sparse.wf (0 : Byte) m = true) :
    Sparse.get (0 : Byte) (putBytes m a bs) j
      = if a ≤ j ∧ j < a + bs.length then bs.getD (j - a) 0 else Sparse.get 0 m j := by
  induction bs generalizing m a with
  | nil => simp only [putBytes, List.length_nil]; rw [if_neg (by omega)]
  | cons b bs ih =>
    simp only [putBytes, List.length_cons]
    rw [ih _ _ (Sparse.put_wf a b h), Sparse.get_put a j b h]
    by_cases hj : j = a
    · subst hj
      rw [if_neg (by omega), if_pos rfl, if_pos (by omega)]; simp
    · by_cases h2 : a + 1 ≤ j ∧ j < a + 1 + bs.length
      · have h3 : a ≤ j ∧ j < a + (bs.length + 1) := by omega
        obtain ⟨n, rfl⟩ : ∃ n, j = a + 1 + n := ⟨j - (a + 1), by omega⟩
        have e1 : a + 1 + n - a = n + 1 := by omega
        rw [if_pos h2, if_pos h3, e1, Nat.add_sub_cancel_left]
        simp
      · rw [if_neg h2, if_neg hj, if_neg (by omega)]

theorem clearWords_wf (ws : List Nat) (m : Sparse (List Nat)) (h : Sparse.wf [] m = true) :
    Sparse.wf [] (ws.foldl (fun m w => Sparse.put [] m w []) m) = true := by
  induction ws generalizing m with
  | nil => exact h
  | cons w ws ih => exact ih _ (Sparse.put_wf w [] h)

end Sys2Proof.Machine
end

