-- ==== Sys2Proof/Laws/State.lean ====
section
/-! SUPPORT. What each named update of the state changes: one lemma per field, so that no proof unfolds a record update;
and what leaving the active states changes, and when it waits. -/

namespace Sys2Proof.Machine

/-! ### Lines -/

@[simp] theorem line_updLine_same (s : State) (l : LineId) (f : Line → Line) : (s.updLine l f).line l = f (s.line l) := by
  simp [State.updLine, State.line]

theorem line_updLine_ne (s : State) {l k : LineId} (f : Line → Line) (h : l ≠ k) : (s.updLine l f).line k = s.line k := by
  have h' : l.val ≠ k.val := fun e => h (Fin.ext e)
  simp [State.updLine, State.line, h']

theorem line_updLine (s : State) (l k : LineId) (f : Line → Line) :
    (s.updLine l f).line k = if l = k then f (s.line k) else s.line k := by
  by_cases h : l = k
  · subst h; simp
  · rw [line_updLine_ne s f h, if_neg h]

@[simp] theorem phase_updLine (s : State) (l) (f) : (s.updLine l f).phase = s.phase := rfl
@[simp] theorem station_updLine (s : State) (l) (f) : (s.updLine l f).station = s.station := rfl
@[simp] theorem prl_updLine (s : State) (l) (f) : (s.updLine l f).prl = s.prl := rfl
@[simp] theorem fcl_updLine (s : State) (l) (f) : (s.updLine l f).fcl = s.fcl := rfl
@[simp] theorem channels_updLine (s : State) (l) (f) : (s.updLine l f).channels = s.channels := rfl
@[simp] theorem glu_updLine (s : State) (l) (f) : (s.updLine l f).glu = s.glu := rfl
@[simp] theorem stc_updLine (s : State) (l) (f) : (s.updLine l f).stc = s.stc := rfl
@[simp] theorem pbk_updLine (s : State) (l) (f) : (s.updLine l f).pbk = s.pbk := rfl
@[simp] theorem mgt_updLine (s : State) (l) (f) : (s.updLine l f).mgt = s.mgt := rfl
@[simp] theorem tku_updLine (s : State) (l) (f) : (s.updLine l f).tku = s.tku := rfl

/-! ### Blocks -/

@[simp] theorem line_updPrl (s : State) (f) (l) : (s.updPrl f).line l = s.line l := rfl
@[simp] theorem line_updFcl (s : State) (f) (l) : (s.updFcl f).line l = s.line l := rfl
@[simp] theorem line_updGlu (s : State) (f) (l) : (s.updGlu f).line l = s.line l := rfl
@[simp] theorem line_updStc (s : State) (f) (l) : (s.updStc f).line l = s.line l := rfl
@[simp] theorem line_updPbk (s : State) (f) (l) : (s.updPbk f).line l = s.line l := rfl
@[simp] theorem line_updMgt (s : State) (f) (l) : (s.updMgt f).line l = s.line l := rfl
@[simp] theorem line_updTku (s : State) (f) (l) : (s.updTku f).line l = s.line l := rfl
@[simp] theorem line_updContext (s : State) (i) (f) (l) : (s.updContext i f).line l = s.line l := rfl
@[simp] theorem line_updChan (s : State) (c) (f) (l) : (s.updChan c f).line l = s.line l := rfl
@[simp] theorem line_updChanStore (s : State) (c) (f) (l) : (s.updChanStore c f).line l = s.line l := rfl

@[simp] theorem prl_updPrl (s : State) (f) : (s.updPrl f).prl = f s.prl := rfl
@[simp] theorem fcl_updFcl (s : State) (f) : (s.updFcl f).fcl = f s.fcl := rfl
@[simp] theorem glu_updGlu (s : State) (f) : (s.updGlu f).glu = f s.glu := rfl
@[simp] theorem stc_updStc (s : State) (f) : (s.updStc f).stc = f s.stc := rfl
@[simp] theorem pbk_updPbk (s : State) (f) : (s.updPbk f).pbk = f s.pbk := rfl
@[simp] theorem mgt_updMgt (s : State) (f) : (s.updMgt f).mgt = f s.mgt := rfl
@[simp] theorem tku_updTku (s : State) (f) : (s.updTku f).tku = f s.tku := rfl

@[simp] theorem phase_updPrl (s : State) (f) : (s.updPrl f).phase = s.phase := rfl
@[simp] theorem phase_updFcl (s : State) (f) : (s.updFcl f).phase = s.phase := rfl
@[simp] theorem phase_updGlu (s : State) (f) : (s.updGlu f).phase = s.phase := rfl
@[simp] theorem phase_updStc (s : State) (f) : (s.updStc f).phase = s.phase := rfl
@[simp] theorem phase_updPbk (s : State) (f) : (s.updPbk f).phase = s.phase := rfl
@[simp] theorem phase_updMgt (s : State) (f) : (s.updMgt f).phase = s.phase := rfl
@[simp] theorem phase_updTku (s : State) (f) : (s.updTku f).phase = s.phase := rfl

@[simp] theorem mgt_updPrl (s : State) (f) : (s.updPrl f).mgt = s.mgt := rfl
@[simp] theorem mgt_updStc (s : State) (f) : (s.updStc f).mgt = s.mgt := rfl
@[simp] theorem mgt_updGlu (s : State) (f) : (s.updGlu f).mgt = s.mgt := rfl
@[simp] theorem mgt_updPbk (s : State) (f) : (s.updPbk f).mgt = s.mgt := rfl
@[simp] theorem mgt_updTku (s : State) (f) : (s.updTku f).mgt = s.mgt := rfl
@[simp] theorem glu_updStc (s : State) (f) : (s.updStc f).glu = s.glu := rfl
@[simp] theorem glu_updMgt (s : State) (f) : (s.updMgt f).glu = s.glu := rfl
@[simp] theorem glu_updPbk (s : State) (f) : (s.updPbk f).glu = s.glu := rfl
@[simp] theorem stc_updGlu (s : State) (f) : (s.updGlu f).stc = s.stc := rfl
@[simp] theorem stc_updMgt (s : State) (f) : (s.updMgt f).stc = s.stc := rfl
@[simp] theorem stc_updPbk (s : State) (f) : (s.updPbk f).stc = s.stc := rfl
@[simp] theorem pbk_updGlu (s : State) (f) : (s.updGlu f).pbk = s.pbk := rfl
@[simp] theorem pbk_updStc (s : State) (f) : (s.updStc f).pbk = s.pbk := rfl
@[simp] theorem pbk_updMgt (s : State) (f) : (s.updMgt f).pbk = s.pbk := rfl

/-! ### Channels and contexts -/

@[simp] theorem chan_updChan_same (s : State) (c : ChanId) (f : Channel → Channel) :
    (s.updChan c f).chan c = f (s.chan c) := by
  simp [State.updChan, State.chan]

theorem chan_updChan_ne (s : State) {c d : ChanId} (f : Channel → Channel) (h : c ≠ d) :
    (s.updChan c f).chan d = s.chan d := by
  have h' : c.val ≠ d.val := fun e => h (Fin.ext e)
  simp [State.updChan, State.chan, h']

@[simp] theorem context_updContext_same (s : State) (i : CtxId) (f : Context → Context) :
    (s.updContext i f).context i = f (s.context i) := by
  simp [State.updContext, State.context]

theorem context_updContext_ne (s : State) {i j : CtxId} (f : Context → Context) (h : i ≠ j) :
    (s.updContext i f).context j = s.context j := by
  have h' : i.val ≠ j.val := fun e => h (Fin.ext e)
  simp [State.updContext, State.context, h']

/-! ### Ports -/

@[simp] theorem port_updPort_same (s : State) (p : PortId) (f : Port → Port) : (s.updPort p f).port p = f (s.port p) := by
  cases p <;> rfl

@[simp] theorem port_updPort_other (s : State) (p : PortId) (f : Port → Port) :
    (s.updPort p f).port (otherPort p) = s.port (otherPort p) := by
  cases p <;> rfl

theorem line_updPort (s : State) (p : PortId) (f : Port → Port) (l : LineId) : (s.updPort p f).line l = s.line l := by
  cases p <;> rfl

/-! ### Leaving the active states (R27, R56, R81) -/

@[simp] theorem glu_leave (s : State) (l) (k) : (s.leave l k).glu = s.glu := by cases k <;> rfl
@[simp] theorem stc_leave (s : State) (l) (k) : (s.leave l k).stc = s.stc := by cases k <;> rfl
@[simp] theorem fcl_leave (s : State) (l) (k) : (s.leave l k).fcl = s.fcl := by cases k <;> rfl
@[simp] theorem mgt_leave (s : State) (l) (k) : (s.leave l k).mgt = s.mgt := by cases k <;> rfl
@[simp] theorem prl_leave (s : State) (l) (k) : (s.leave l k).prl = s.prl := by cases k <;> rfl
@[simp] theorem tku_leave (s : State) (l) (k) : (s.leave l k).tku = s.tku := by cases k <;> rfl
@[simp] theorem phase_leave (s : State) (l) (k) : (s.leave l k).phase = s.phase := by cases k <;> rfl

theorem line_leave_ne (s : State) {l k : LineId} (h : l ≠ k) (w : Leaving) : (s.leave l w).line k = s.line k := by
  cases w
  · simp only [State.leave, State.settleIdle, State.forcePending, State.emptyQueue, line_updLine_ne _ _ h, line_updPbk]
  · simp only [State.leave, State.settleSuspended, State.emptyQueue, line_updLine_ne _ _ h, line_updPbk]

/-- The steps that follow the closes: at once where GLU is free, and else last of what waits there, the line held behind them. -/
theorem leaveAfterCloses_eq (s : State) (l : LineId) (k : Leaving) :
    s.leaveAfterCloses l k = if s.gluBusy = true then s.updGlu fun g => { g with waits := g.waits ++ [.leave l k, .line l] }
      else s.leave l k := by
  unfold State.leaveAfterCloses State.waitGlu
  split
  · simp [State.updGlu]
  · rfl

/-- A line that leaves is held exactly while GLU is busy. -/
theorem mem_leaveAfterCloses (s : State) (l : LineId) (k : Leaving) :
    (GluWait.leave l k ∈ (s.leaveAfterCloses l k).glu.waits ↔ s.gluBusy = true)
    ∧ (GluWait.line l ∈ (s.leaveAfterCloses l k).glu.waits ↔ s.gluBusy = true) := by
  rw [leaveAfterCloses_eq]
  split
  · rename_i h
    simp [h]
  · rename_i h
    have hw : s.glu.waits = [] := by simp_all [State.gluBusy]
    simp [h, hw]

end Sys2Proof.Machine
end

