-- ==== Sys2Proof/Laws/StoreKeeps.lean ====
section
/-! SUPPORT. What the shared operations of PRL, MGT, STC and BAC keep, said once for each: everything outside the store, the
ports, the fault record and the counters, for BAC the channels too, and the bounds of queues and memories. -/

namespace Sys2Proof.Machine

/-- The bounds of the part apart from those of its lines. -/
def Bounded (s : State) : Prop :=
  Memory.wf s = true
  ∧ s.prl.portA.txq.length ≤ Config.txCapacity ∧ s.prl.portB.txq.length ≤ Config.txCapacity
  ∧ s.mgt.requests.length ≤ Config.requestCapacity ∧ s.pbk.cache.length ≤ Config.cacheCapacity
  ∧ s.stc.writeQueue.length ≤ Config.writeCapacity

theorem inv_iff (s : State) : Inv s ↔ Bounded s ∧ ∀ l : LineId, LineOk (s.line l) := by
  unfold Inv Bounded; grind

/-- The part between `s` and `t` has changed only in the store, the ports' queues and counters, the fault record, MGT's counters, the counters of lines in `L` and the free-value counter; while no word of the DRAM is wrong, the
DRAM holds what it held; bounds that held still hold. -/
structure StoreKeeps (L : LineId → Prop) (s t : State) : Prop where
  other : ∀ l, ¬ L l → t.line l = s.line l
  line : ∀ l, t.line l = { s.line l with counters := (t.line l).counters }
  phase : t.phase = s.phase
  station : t.station = s.station
  pending : t.pending = s.pending
  fcl : t.fcl = s.fcl
  channels : t.channels = s.channels
  glu : t.glu = s.glu
  pbk : t.pbk = s.pbk
  tku : t.tku = s.tku
  entry : t.stc.entry = s.stc.entry
  mgt : t.mgt = { s.mgt with fault := t.mgt.fault, lost := t.mgt.lost, counters := t.mgt.counters }
  prl : t.prl.processType = s.prl.processType
  dram : s.stc.wrongBits = [] → t.stc.dram = s.stc.dram ∧ t.stc.wrongBits = []
  bounded : Bounded s → Bounded t

namespace StoreKeeps

variable {L : LineId → Prop}

theorem refl (s : State) : StoreKeeps L s s := by
  constructor <;> first | intros; rfl | (intro h; exact h) | exact fun w => ⟨rfl, w⟩

theorem trans {s t u : State} (h : StoreKeeps L s t) (k : StoreKeeps L t u) : StoreKeeps L s u where
  other l hl := by rw [k.other l hl, h.other l hl]
  line l := by rw [k.line l, h.line l]
  phase := by rw [k.phase, h.phase]
  station := by rw [k.station, h.station]
  pending := by rw [k.pending, h.pending]
  fcl := by rw [k.fcl, h.fcl]
  channels := by rw [k.channels, h.channels]
  glu := by rw [k.glu, h.glu]
  pbk := by rw [k.pbk, h.pbk]
  tku := by rw [k.tku, h.tku]
  entry := by rw [k.entry, h.entry]
  mgt := by rw [k.mgt, h.mgt]
  prl := by rw [k.prl, h.prl]
  dram w := ⟨(k.dram (h.dram w).2).1.trans (h.dram w).1, (k.dram (h.dram w).2).2⟩
  bounded b := k.bounded (h.bounded b)

/-- A change of the store that keeps its table, its memories canonical and its queue within capacity. -/
theorem stc {s0 s : State} (h : StoreKeeps L s0 s) (f : STC → STC) (he : (f s.stc).entry = s.stc.entry)
    (hd : Sparse.wf Cell.cleared s.stc.dram = true → Sparse.wf Cell.cleared (f s.stc).dram = true)
    (hw : Sparse.wf [] s.stc.wrongBits = true → Sparse.wf [] (f s.stc).wrongBits = true)
    (hq : s.stc.writeQueue.length ≤ Config.writeCapacity → (f s.stc).writeQueue.length ≤ Config.writeCapacity)
    (hz : s.stc.wrongBits = [] → (f s.stc).dram = s.stc.dram ∧ (f s.stc).wrongBits = [] := by
      exact fun w => ⟨rfl, w⟩) :
    StoreKeeps L s0 (s.updStc f) := by
  refine h.trans ⟨fun _ _ => rfl, fun _ => rfl, rfl, rfl, rfl, rfl, rfl, rfl, rfl, rfl, he, rfl, rfl, hz, ?_⟩
  rintro ⟨hm, a, b, c, d, e⟩
  simp only [Memory.wf, Bool.and_eq_true] at hm
  refine ⟨?_, a, b, c, d, hq e⟩
  simp only [Memory.wf, Bool.and_eq_true]
  exact ⟨⟨hd hm.1.1, hw hm.1.2⟩, hm.2⟩

theorem countStc {s0 s : State} (h : StoreKeeps L s0 s) (f) : StoreKeeps L s0 (s.countStc f) := h.stc _ rfl id id id

theorem updChanStore {s0 s : State} (h : StoreKeeps L s0 s) (c) (f) : StoreKeeps L s0 (s.updChanStore c f) :=
  h.stc (fun t => { t with chans := t.chans.set c (f t.chans[c]) }) rfl id id id

theorem countMgt {s0 s : State} (h : StoreKeeps L s0 s) (f) : StoreKeeps L s0 (s.countMgt f) :=
  h.trans ⟨fun _ _ => rfl, fun _ => rfl, rfl, rfl, rfl, rfl, rfl, rfl, rfl, rfl, rfl, rfl, rfl, fun w => ⟨rfl, w⟩, fun b => b⟩

theorem countLine {s0 s : State} (h : StoreKeeps L s0 s) (l) (hl : L l) (f) : StoreKeeps L s0 (s.countLine l f) := by
  refine h.trans ⟨fun k hk => line_updLine_ne _ _ fun e => hk (e ▸ hl), fun k => ?_, rfl, rfl, rfl, rfl, rfl, rfl, rfl, rfl, rfl, rfl, rfl, fun w => ⟨rfl, w⟩, fun b => b⟩
  simp only [State.countLine]
  rw [line_updLine]; split <;> rfl

theorem takeFresh {s0 s : State} (h : StoreKeeps L s0 s) : StoreKeeps L s0 s.takeFresh.2 :=
  h.trans ⟨fun _ _ => rfl, fun _ => rfl, rfl, rfl, rfl, rfl, rfl, rfl, rfl, rfl, rfl, rfl, rfl, fun w => ⟨rfl, w⟩, fun b => b⟩

end StoreKeeps

theorem Port.accept_bound {q : Port} (f : Frame) (h : q.txq.length ≤ Config.txCapacity) :
    (q.accept f).txq.length ≤ Config.txCapacity := by
  unfold Port.accept
  split
  · exact h
  · split
    · exact h
    · simp only [List.length_append, List.length_cons, List.length_nil]; omega

namespace StoreKeeps

variable {L : LineId → Prop}

theorem forEach {α : Type} {s0 : State} {f : State → α → State}
    (hf : ∀ s a, StoreKeeps L s0 s → StoreKeeps L s0 (f s a)) (xs : List α) : ∀ s, StoreKeeps L s0 s → StoreKeeps L s0 (s.forEach xs f) := by
  induction xs with
  | nil => intro s h; exact h
  | cons a xs ih => intro s h; exact ih _ (hf s a h)

theorem transmit {s0 s : State} (h : StoreKeeps L s0 s) (p) (f) : StoreKeeps L s0 (s.transmit p f) := by
  cases p
  · exact h.trans ⟨fun _ _ => rfl, fun _ => rfl, rfl, rfl, rfl, rfl, rfl, rfl, rfl, rfl, rfl, rfl, rfl,
      fun w => ⟨rfl, w⟩, fun ⟨a, b, c⟩ => ⟨a, Port.accept_bound f b, c⟩⟩
  · exact h.trans ⟨fun _ _ => rfl, fun _ => rfl, rfl, rfl, rfl, rfl, rfl, rfl, rfl, rfl, rfl, rfl, rfl,
      fun w => ⟨rfl, w⟩, fun ⟨a, b, c, d⟩ => ⟨a, b, Port.accept_bound f c, d⟩⟩

theorem faultRecord {s0 s : State} (h : StoreKeeps L s0 s) (g : Option FaultRecord) (n : Nat) :
    StoreKeeps L s0 (s.updMgt fun m => { m with fault := g, lost := n }) :=
  h.trans ⟨fun _ _ => rfl, fun _ => rfl, rfl, rfl, rfl, rfl, rfl, rfl, rfl, rfl, rfl, rfl, rfl, fun w => ⟨rfl, w⟩, fun b => b⟩

theorem lostCount {s0 s : State} (h : StoreKeeps L s0 s) :
    StoreKeeps L s0 (s.updMgt fun m => { m with lost := min (m.lost + 1) 255 }) :=
  h.trans ⟨fun _ _ => rfl, fun _ => rfl, rfl, rfl, rfl, rfl, rfl, rfl, rfl, rfl, rfl, rfl, rfl, fun w => ⟨rfl, w⟩, fun b => b⟩

theorem sendAlert {s0 s : State} (h : StoreKeeps L s0 s) (f) : StoreKeeps L s0 (s.sendAlert f) := by
  unfold State.sendAlert
  split
  · exact (h.transmit _ _).countMgt _
  · exact ((h.transmit _ _).transmit _ _).countMgt _

/-- A raised fault changes nothing but the fault record, MGT's counters and the transmit queues (R180, R181). -/
theorem raise {s0 s : State} (h : StoreKeeps L s0 s) (c l p a) : StoreKeeps L s0 (s.raise c l p a) := by
  unfold State.raise
  dsimp only
  split
  · exact (h.countMgt _).lostCount
  · split
    · exact ((h.countMgt _).faultRecord _ _).sendAlert _
    · exact (h.countMgt _).faultRecord _ _

/-! ### Reads -/

theorem checkWord {s0 s : State} (h : StoreKeeps L s0 s) (a w acc) : StoreKeeps L s0 (s.checkWord a w acc).2 := by
  unfold State.checkWord
  dsimp only
  split
  · exact h
  · rename_i hne
    split
    · dsimp only; exact h.countStc _
    · exact h
    · dsimp only; refine stc (countStc h _) _ rfl ?_ ?_ id fun w => ?_
      · exact Sparse.put_wf _ _
      · exact Sparse.put_wf _ _
      · have w' : s.stc.wrongBits = [] := w
        rw [w'] at hne
        exact absurd rfl hne

theorem checkWords (a : Nat) (ws : List Nat) {s0 : State} : ∀ r : Option Cell × State, StoreKeeps L s0 r.2 →
    StoreKeeps L s0 (ws.foldl (fun r w => r.2.checkWord a w r.1) r).2 := by
  induction ws with
  | nil => intro r h; exact h
  | cons w ws ih => intro r h; exact ih _ (h.checkWord a w r.1)

theorem readDram {s0 s : State} (h : StoreKeeps L s0 s) (a) : StoreKeeps L s0 (s.readDram a).2 := by
  unfold State.readDram
  split
  · dsimp only; exact h.countStc _
  · exact checkWords _ _ _ h

theorem readThrough {s0 s : State} (h : StoreKeeps L s0 s) (q a) : StoreKeeps L s0 (s.readThrough q a).2 := by
  unfold State.readThrough
  split
  · exact h
  · exact h
  · exact h.readDram a

theorem read {s0 s : State} (h : StoreKeeps L s0 s) (a) : StoreKeeps L s0 (s.read a).2 := h.readThrough _ a

theorem gluRead {s0 s : State} (h : StoreKeeps L s0 s) (a) : StoreKeeps L s0 (s.gluRead a).2 := h.readThrough _ a

theorem readUnits {s0 s : State} (h : StoreKeeps L s0 s) (rd : State → Nat → Option Cell × State)
    (hr : ∀ s a, StoreKeeps L s0 s → StoreKeeps L s0 (rd s a).2) (i) : StoreKeeps L s0 (s.readUnits rd i).2 := by
  have key : ∀ (us : List Nat) (r : Option (List Cell) × State), StoreKeeps L s0 r.2 →
      StoreKeeps L s0 (us.foldl (fun (acc : Option (List Cell) × State) u =>
        let (c, s) := rd acc.2 (pieceAddr i u)
        ((match acc.1, c with
          | some cs, some c => some (cs ++ [c])
          | _, _ => none), s)) r).2 := by
    intro us
    induction us with
    | nil => intro r h; exact h
    | cons u us ih => intro r h; exact ih _ (hr r.2 _ h)
  exact key _ (some [], s) h

theorem readRecord {s0 s : State} (h : StoreKeeps L s0 s) (i) : StoreKeeps L s0 (s.readRecord i).2 :=
  h.readUnits _ (fun _ a h => h.read a) i

theorem gluRecord {s0 s : State} (h : StoreKeeps L s0 s) (i) : StoreKeeps L s0 (s.gluRecord i).2 :=
  h.readUnits _ (fun _ a h => h.gluRead a) i

theorem readHeader {s0 s : State} (h : StoreKeeps L s0 s) (b) : StoreKeeps L s0 (s.readHeader b).2 := by
  unfold State.readHeader
  grind [read]

theorem updBlock {s0 s : State} (h : StoreKeeps L s0 s) (b f) : StoreKeeps L s0 (s.updBlock b f) := h.stc _ rfl id id id

theorem readPlaces {s0 s : State} (h : StoreKeeps L s0 s) (b) : StoreKeeps L s0 (s.readPlaces b).2 := by
  unfold State.readPlaces
  grind [read, readHeader]

theorem readDirEntry {s0 s : State} (h : StoreKeeps L s0 s) (b) : StoreKeeps L s0 (s.readDirEntry b).2 := by
  unfold State.readDirEntry
  grind [readPlaces, updBlock]

theorem chanHorizon {s0 s : State} (h : StoreKeeps L s0 s) (c l) : StoreKeeps L s0 (s.chanHorizon c l).2 := by
  unfold State.chanHorizon
  grind [readDirEntry]

theorem lineHorizon {s0 s : State} (h : StoreKeeps L s0 s) (l) : StoreKeeps L s0 (s.lineHorizon l).2 := by
  have key : ∀ (cs : List ChanId) (r : Option Nat × State), StoreKeeps L s0 r.2 →
      StoreKeeps L s0 (cs.foldl (fun (acc : Option Nat × State) c =>
        if (acc.2.chan c).on l then
          let (h, s) := acc.2.chanHorizon c l
          (some (match acc.1 with
            | some g => min g h
            | none => h), s)
        else acc) r).2 := by
    intro cs
    induction cs with
    | nil => intro r h; exact h
    | cons c cs ih =>
      intro r h
      rw [List.foldl_cons]
      apply ih
      split
      · exact h.chanHorizon c l
      · exact h
  unfold State.lineHorizon
  generalize allChans = cs
  exact key cs (none, s) h

end StoreKeeps

/-! A unit's read finds no block unreadable: only the reading of a block's two places does (R126). -/

@[simp] theorem blocks_checkWord (s : State) (a w acc) : (s.checkWord a w acc).2.stc.blocks = s.stc.blocks := by
  unfold State.checkWord; dsimp only; repeat' split
  all_goals rfl

theorem blocks_checkWords (a : Nat) (ws : List Nat) : ∀ r : Option Cell × State,
    (ws.foldl (fun r w => r.2.checkWord a w r.1) r).2.stc.blocks = r.2.stc.blocks := by
  induction ws with
  | nil => intro r; rfl
  | cons w ws ih => intro r; rw [List.foldl_cons, ih, blocks_checkWord]

@[simp] theorem blocks_readThrough (s : State) (q a) : (s.readThrough q a).2.stc.blocks = s.stc.blocks := by
  unfold State.readThrough State.readDram
  repeat' split
  all_goals first
    | rfl
    | exact blocks_checkWords _ _ _

@[simp] theorem blocks_read (s : State) (a) : (s.read a).2.stc.blocks = s.stc.blocks := blocks_readThrough _ _ _

@[simp] theorem blocks_readHeader (s : State) (b) : (s.readHeader b).2.stc.blocks = s.stc.blocks := by
  have h := blocks_read s (headerAddr b)
  unfold State.readHeader
  split <;> (rename_i heq; rw [heq] at h; exact h)

@[simp] theorem blocks_readPlaces (s : State) (b) : (s.readPlaces b).2.stc.blocks = s.stc.blocks := by
  have h := blocks_read s (dirAddr b)
  unfold State.readPlaces
  split <;> (rename_i heq; rw [heq] at h)
  · exact h
  · exact h
  · rename_i u
    have h2 := (blocks_readHeader u b).trans h
    split <;> (rename_i heq2; rw [heq2] at h2; exact h2)

/-- A block found unreadable reads as nothing from then on, until STC's record of it is written anew (R126). -/
theorem readDirEntry_unreadable {s : State} {b : Nat} (h : (s.blockInfo b).unreadable = true) : (s.readDirEntry b).1 = none := by
  have hb := blocks_readPlaces s b
  unfold State.readDirEntry
  split
  · rename_i heq
    rw [heq] at hb
    unfold State.blockInfo at h ⊢
    rw [hb, if_pos h]
  · rfl

namespace StoreKeeps

variable {L : LineId → Prop}

/-! ### Reclaim -/

theorem protectedBy (l lo hi) (ps : List Nat) {s0 : State} : ∀ s, StoreKeeps L s0 s → StoreKeeps L s0 (s.protectedBy l lo hi ps).2 := by
  induction ps with
  | nil => intro s h; exact h
  | cons i ps ih => intro s h; unfold State.protectedBy; grind [readRecord]

theorem blockProtected {s0 s : State} (h : StoreKeeps L s0 s) (b) : StoreKeeps L s0 (s.blockProtected b).2 := by
  unfold State.blockProtected
  grind [readDirEntry, protectedBy]

theorem findReclaim (bs : List Nat) {s0 : State} : ∀ s, StoreKeeps L s0 s → StoreKeeps L s0 (s.findReclaim bs).2 := by
  induction bs with
  | nil => intro s h; exact h
  | cons b bs ih => intro s h; unfold State.findReclaim; grind [blockProtected]

theorem freeBlock {s0 s : State} (h : StoreKeeps L s0 s) (b) : StoreKeeps L s0 (s.freeBlock b) := by
  unfold State.freeBlock
  refine stc h _ rfl ?_ ?_ ?_ <;> exact id

theorem reclaimScan {s0 s : State} (h : StoreKeeps L s0 s) (l) : StoreKeeps L s0 (s.reclaimScan l) := by
  unfold State.reclaimScan
  have := findReclaim (s.stc.ageQueue.take s.stc.entry.scanLength) s h
  split
  · rename_i heq; rw [heq] at this; exact (this.freeBlock _).countStc _
  · rename_i heq; rw [heq] at this; exact (this.raise _ _ _ _).countStc _

/-! ### The write queue -/

theorem touch {s0 s : State} (h : StoreKeeps L s0 s) (e) : StoreKeeps L s0 (s.touch e) := by
  unfold State.touch
  split
  · exact h
  · refine StoreKeeps.stc h _ rfl ?_ ?_ ?_ <;> exact id

/-- An entry may join the queue where it has room. -/
theorem enqueue {s0 s : State} (h : StoreKeeps L s0 s) (e) (hr : s.stc.writeQueue.length < Config.writeCapacity) :
    StoreKeeps L s0 (s.enqueue e) := by
  refine (h.stc _ rfl id id fun _ => ?_).touch e
  simp only [List.length_append, List.length_cons, List.length_nil]; omega

theorem sealCurrent {s0 s : State} (h : StoreKeeps L s0 s) (c) : StoreKeeps L s0 (s.sealCurrent c).2 := by
  unfold State.sealCurrent
  split
  · exact h
  · dsimp only; exact (h.updChanStore _ _).updBlock _ _

theorem loseBin {s0 s : State} (h : StoreKeeps L s0 s) (o c) (hl : L o.line) : StoreKeeps L s0 (s.loseBin o c) :=
  (h.raise _ _ _ _).countLine _ hl _

end StoreKeeps

@[simp] theorem writeQueue_touch (s : State) (e) : (s.touch e).stc.writeQueue = s.stc.writeQueue := by
  unfold State.touch; split <;> rfl

@[simp] theorem waiters_touch (s : State) (e) : (s.touch e).stc.waiters = s.stc.waiters := by
  unfold State.touch; split <;> rfl

@[simp] theorem writeQueue_enqueue (s : State) (e) : (s.enqueue e).stc.writeQueue = s.stc.writeQueue ++ [e] := by
  unfold State.enqueue; rw [writeQueue_touch]; rfl

@[simp] theorem waiters_enqueue (s : State) (e) : (s.enqueue e).stc.waiters = s.stc.waiters := by
  unfold State.enqueue; rw [waiters_touch]; rfl

@[simp] theorem writeRoom_enqueue (s : State) (e) : (s.enqueue e).writeRoom = s.writeRoom - 1 := by
  simp [State.writeRoom]; omega

theorem room_of_writeRoom {s : State} (h : 0 < s.writeRoom) : s.stc.writeQueue.length < Config.writeCapacity := by
  unfold State.writeRoom at h; omega

@[simp] theorem writeRoom_sealCurrent (s : State) (c) : (s.sealCurrent c).2.writeRoom = s.writeRoom := by
  unfold State.sealCurrent; split <;> rfl

namespace StoreKeeps

variable {L : LineId → Prop}

theorem allocate {s0 s : State} (h : StoreKeeps L s0 s) (o) (hl : L o.line) (hr : 2 ≤ s.writeRoom) : StoreKeeps L s0 (s.allocate o) := by
  unfold State.allocate
  split
  · exact ((h.loseBin _ _ hl).countStc _).reclaimScan _
  · rename_i b rest _
    dsimp only
    generalize hh : o.header s.tku.clock = hd
    generalize hu : (fun t : STC => { t with freeBlocks := rest, ageQueue := t.ageQueue ++ [b],
                                             blocks := Sparse.put {} t.blocks b
                                               { state := .filling, firstBin := hd.firstBin } }) = f
    have h1 : StoreKeeps L s0 (s.updStc f) := by subst hu; refine StoreKeeps.stc h _ rfl ?_ ?_ ?_ <;> exact id
    have h2 := h1.updChanStore o.chan fun k => { dir := k.dir ++ [b], current := some (b, hd) }
    have hr2 : 2 ≤ ((s.updStc f).updChanStore o.chan fun k =>
        { dir := k.dir ++ [b], current := some (b, hd) }).writeRoom := by subst hu; exact hr
    have h3 := h2.enqueue (.allocation b hd { firstAxis := hd.firstBin * o.pitch, line := o.line, pitch := o.pitch })
      (room_of_writeRoom (by omega))
    have h4 := h3.enqueue (.binWrite b (o.num - hd.firstBin) o.data)
      (room_of_writeRoom (by rw [writeRoom_enqueue]; omega))
    have h5 := (h4.countStc fun c => { c with allocated := sat c.allocated 1 }).countLine o.line hl fun c =>
      { c with binsHanded := sat c.binsHanded 1 }
    split
    · exact h5.reclaimScan _
    · exact h5

theorem takeOffer {s0 s : State} (h : StoreKeeps L s0 s) (o) (hl : L o.line) : StoreKeeps L s0 (s.takeOffer o) := by
  unfold State.takeOffer
  split
  · exact h.loseBin _ _ hl
  · rename_i hn
    unfold State.entriesNeeded at hn
    cases hc : (s.chanStore o.chan).current with
    | none =>
      rw [hc] at hn
      exact h.allocate o hl (by dsimp only at hn; omega)
    | some bh =>
      obtain ⟨b, hd⟩ := bh
      rw [hc] at hn
      dsimp only at hn ⊢
      split
      · rename_i he
        rw [if_pos he] at hn
        exact (h.enqueue _ (room_of_writeRoom (by omega))).countLine _ hl _
      · rename_i he
        rw [if_neg he] at hn
        have hs := h.sealCurrent o.chan
        have hr := writeRoom_sealCurrent s o.chan
        cases hsc : s.sealCurrent o.chan with
        | mk e t =>
          rw [hsc] at hs hr
          dsimp only at hs hr ⊢
          cases e with
          | none => exact hs.allocate o hl (by omega)
          | some e =>
            exact (hs.enqueue e (room_of_writeRoom (by omega))).allocate o hl (by rw [writeRoom_enqueue]; omega)

theorem offerBin {s0 s : State} (h : StoreKeeps L s0 s) (o) (hl : L o.line) : StoreKeeps L s0 (s.offerBin o) := by
  unfold State.offerBin
  split
  · refine StoreKeeps.stc h _ rfl ?_ ?_ ?_ <;> exact id
  · exact h.takeOffer o hl

theorem channelReloaded {s0 s : State} (h : StoreKeeps L s0 s) (c keep) : StoreKeeps L s0 (s.channelReloaded c keep) := by
  unfold State.channelReloaded
  have hs := h.sealCurrent c
  generalize s.sealCurrent c = p at hs
  obtain ⟨e, t⟩ := p
  dsimp only at hs ⊢
  have key : ∀ u, (u = (match e with
        | none => t
        | some e =>
          if 0 < t.writeRoom then t.enqueue e
          else t.updStc fun t => { t with waitingSeal := some e, waiters := t.waiters ++ [.reload] })) → StoreKeeps L s0 u := by
    intro u hu
    cases e with
    | none => rw [hu]; exact hs
    | some e =>
      dsimp only at hu
      rw [hu]
      split
      · rename_i hr; exact hs.enqueue e (room_of_writeRoom hr)
      · exact hs.stc _ rfl id id id
  split
  · exact key _ rfl
  · exact (key _ rfl).updChanStore _ _

theorem sealQueued {s0 s : State} (h : StoreKeeps L s0 s) (hl : ∀ l, L l) : StoreKeeps L s0 s.sealQueued := by
  unfold State.sealQueued
  split
  · split
    · rename_i hr
      refine forEach (fun s o h => h.takeOffer o (hl _)) _ _ ?_
      exact (h.stc _ rfl id id id).enqueue _ hr
    · exact h
  · exact h

theorem startScrub {s0 s : State} (h : StoreKeeps L s0 s) : StoreKeeps L s0 s.startScrub := by
  unfold State.startScrub
  split
  · refine StoreKeeps.stc h _ rfl ?_ ?_ ?_ <;> exact id
  · exact h

theorem jumpFault {s0 s : State} (h : StoreKeeps L s0 s) (l) (hl : L l) : StoreKeeps L s0 (s.jumpFault l) :=
  (h.countLine _ hl _).raise _ _ _ _

theorem answer {s0 s : State} (h : StoreKeeps L s0 s) (r x) : StoreKeeps L s0 (s.answer r x) := (h.transmit _ _).countMgt _

end StoreKeeps

/-- A change of the store alone that keeps every line and every bound: what writes to the DRAM and the scrub make. -/
structure StoreWrites (s t : State) : Prop where
  line : ∀ l, t.line l = s.line l
  pending : t.pending = s.pending
  station : t.station = s.station
  bounded : Bounded s → Bounded t

namespace StoreWrites

theorem refl (s : State) : StoreWrites s s := ⟨fun _ => rfl, rfl, rfl, id⟩

theorem trans {s t u : State} (h : StoreWrites s t) (k : StoreWrites t u) : StoreWrites s u where
  line l := by rw [k.line l, h.line l]
  pending := by rw [k.pending, h.pending]
  station := by rw [k.station, h.station]
  bounded b := k.bounded (h.bounded b)

theorem stc {s0 s : State} (h : StoreWrites s0 s) (f : STC → STC)
    (hd : Sparse.wf Cell.cleared s.stc.dram = true → Sparse.wf Cell.cleared (f s.stc).dram = true)
    (hw : Sparse.wf [] s.stc.wrongBits = true → Sparse.wf [] (f s.stc).wrongBits = true)
    (hq : s.stc.writeQueue.length ≤ Config.writeCapacity → (f s.stc).writeQueue.length ≤ Config.writeCapacity) :
    StoreWrites s0 (s.updStc f) := by
  refine h.trans ⟨fun _ => rfl, rfl, rfl, ?_⟩
  rintro ⟨hm, a, b, c, d, e⟩
  simp only [Memory.wf, Bool.and_eq_true] at hm
  refine ⟨?_, a, b, c, d, hq e⟩
  simp only [Memory.wf, Bool.and_eq_true]
  exact ⟨⟨hd hm.1.1, hw hm.1.2⟩, hm.2⟩

theorem countStc {s0 s : State} (h : StoreWrites s0 s) (f) : StoreWrites s0 (s.countStc f) := h.stc _ id id id

theorem forEach {α : Type} {s0 : State} {f : State → α → State}
    (hf : ∀ s a, StoreWrites s0 s → StoreWrites s0 (f s a)) (xs : List α) :
    ∀ s, StoreWrites s0 s → StoreWrites s0 (s.forEach xs f) := by
  induction xs with
  | nil => intro s h; exact h
  | cons a xs ih => intro s h; exact ih _ (hf s a h)

theorem touch {s0 s : State} (h : StoreWrites s0 s) (e) : StoreWrites s0 (s.touch e) := by
  unfold State.touch
  split
  · exact h
  · exact h.stc _ id id id

theorem writeCell {s0 s : State} (h : StoreWrites s0 s) (a c) : StoreWrites s0 (s.writeCell a c) :=
  h.stc _ (Sparse.put_wf _ _) (clearWords_wf _ _) id

theorem apply {s0 s : State} (h : StoreWrites s0 s) (e) : StoreWrites s0 (s.apply e) := by
  unfold State.apply
  split
  · exact h.writeCell _ _
  · exact ((h.stc _ (Sparse.clearRange_wf _ _) (Sparse.clearRange_wf _ _) id).writeCell _ _).writeCell _ _
  · exact h.writeCell _ _
  · exact h.writeCell _ _

theorem writeHead {s0 s : State} (h : StoreWrites s0 s) : StoreWrites s0 s.writeHead := by
  unfold State.writeHead
  split
  · exact h
  · rename_i e rest hq
    have hq' : (s.apply e).stc.writeQueue = s.stc.writeQueue := by
      unfold State.apply State.writeCell
      split <;> rfl
    refine ((h.apply e).stc _ id id fun hl => ?_).touch e
    rw [hq', hq] at hl
    exact Nat.le_of_succ_le hl

theorem scrubJudge {s0 s : State} (h : StoreWrites s0 s) (w f r) : StoreWrites s0 (s.scrubJudge w f r) := by
  unfold State.scrubJudge
  split
  · exact h
  · exact h.countStc _
  · split
    · exact h.countStc _
    · exact h
    · dsimp only
      split
      · exact (h.countStc _).stc _ (Sparse.put_wf _ _) (Sparse.put_wf _ _) id
      · exact h.countStc _

theorem scrubWord {s0 s : State} (h : StoreWrites s0 s) (k w) : StoreWrites s0 (s.scrubWord k w) := by
  unfold State.scrubWord
  dsimp only
  split
  · exact h.scrubJudge _ _ _
  · have h1 : StoreWrites s0 s.takeFresh.2 := h.trans ⟨fun _ => rfl, rfl, rfl, id⟩
    split
    · exact h1.scrubJudge _ _ _
    · exact h1.scrubJudge _ _ _

theorem finishScrub {s0 s : State} (h : StoreWrites s0 s) (k) : StoreWrites s0 (s.finishScrub k) := by
  unfold State.finishScrub
  exact (StoreWrites.stc (forEach (fun _ w h => h.scrubWord k w) _ _ h) _ id id id).countStc _

end StoreWrites

/-- As StoreKeeps, but what BAC holds for the channels may have changed too. -/
def BinKeeps (L : LineId → Prop) (s t : State) : Prop := StoreKeeps L s { t with channels := s.channels }

theorem StoreKeeps.bin {L : LineId → Prop} {s t : State} (h : StoreKeeps L s t) : BinKeeps L s t :=
  ⟨h.other, h.line, h.phase, h.station, h.pending, h.fcl, rfl, h.glu, h.pbk, h.tku, h.entry, h.mgt, h.prl, h.dram, h.bounded⟩

namespace BinKeeps

variable {L : LineId → Prop}

theorem lineEq {s t : State} (h : BinKeeps L s t) (l : LineId) :
    t.line l = { s.line l with counters := (t.line l).counters } := h.line l

theorem otherEq {s t : State} (h : BinKeeps L s t) (l : LineId) (hl : ¬ L l) : t.line l = s.line l := h.other l hl

theorem refl (s : State) : BinKeeps L s s := (StoreKeeps.refl (L := L) s).bin

theorem trans {s t u : State} (h : BinKeeps L s t) (k : BinKeeps L t u) : BinKeeps L s u :=
  StoreKeeps.trans h (t := { t with channels := s.channels })
    ⟨k.other, k.line, k.phase, k.station, k.pending, k.fcl, rfl, k.glu, k.pbk, k.tku, k.entry, k.mgt, k.prl, k.dram, k.bounded⟩

theorem thenStore {s0 s t : State} (h : BinKeeps L s0 s) (k : StoreKeeps L s t) : BinKeeps L s0 t := h.trans k.bin

theorem forEach {α : Type} {s0 : State} {f : State → α → State}
    (hf : ∀ s a, BinKeeps L s0 s → BinKeeps L s0 (f s a)) (xs : List α) : ∀ s, BinKeeps L s0 s → BinKeeps L s0 (s.forEach xs f) := by
  induction xs with
  | nil => intro s h; exact h
  | cons a xs ih => intro s h; exact ih _ (hf s a h)

theorem channels {s0 s : State} (h : BinKeeps L s0 s) (v) : BinKeeps L s0 { s with channels := v } :=
  h.trans ⟨fun _ _ => rfl, fun _ => rfl, rfl, rfl, rfl, rfl, rfl, rfl, rfl, rfl, rfl, rfl, rfl, fun w => ⟨rfl, w⟩, fun b => b⟩

theorem updChan {s0 s : State} (h : BinKeeps L s0 s) (c) (f) : BinKeeps L s0 (s.updChan c f) := h.channels _

theorem countLine {s0 s : State} (h : BinKeeps L s0 s) (l) (hl : L l) (f) : BinKeeps L s0 (s.countLine l f) :=
  h.thenStore ((StoreKeeps.refl (L := L) s).countLine l hl f)

theorem offerBin {s0 s : State} (h : BinKeeps L s0 s) (o) (hl : L o.line) : BinKeeps L s0 (s.offerBin o) :=
  h.thenStore ((StoreKeeps.refl (L := L) s).offerBin o hl)

theorem closeBin {s0 s : State} (h : BinKeeps L s0 s) (l c) (hl : L l) : BinKeeps L s0 (s.closeBin l c) := by
  unfold State.closeBin
  split
  · exact h
  · exact (h.updChan _ _).offerBin _ hl

theorem markBins {s0 s : State} (h : BinKeeps L s0 s) (l q) : BinKeeps L s0 (s.markBins l q) := h.channels _

theorem discardBins {s0 s : State} (h : BinKeeps L s0 s) (l) : BinKeeps L s0 (s.discardBins l) := h.channels _

theorem closeBins {s0 s : State} (h : BinKeeps L s0 s) (l) (hl : L l) : BinKeeps L s0 (s.closeBins l) := by
  refine forEach (fun s c h => ?_) _ _ h
  split
  · exact h.closeBin l c hl
  · exact h

theorem tellStations {s0 s : State} (h : BinKeeps L s0 s) (l) (hl : L l) : BinKeeps L s0 (s.tellStations l) := by
  refine forEach (fun s c h => ?_) _ _ h
  split
  · exact h.closeBin l c hl
  · exact h

theorem fileValue {s0 s : State} (h : BinKeeps L s0 s) (l c m v est) (hl : L l) : BinKeeps L s0 (s.fileValue l c m v est) := by
  unfold State.fileValue
  dsimp only
  apply updChan
  split
  · exact h.updChan _ _
  · split
    · exact h.updChan _ _
    · exact (h.closeBin _ _ hl).updChan _ _

theorem takePair {s0 s : State} (h : BinKeeps L s0 s) (k p v) (hl : L k.line) : BinKeeps L s0 (s.takePair k p v) := by
  unfold State.takePair
  split
  · exact h.countLine _ hl _
  · split
    · exact h.countLine _ hl _
    · split
      · exact h.countLine _ hl _
      · split
        · exact (h.countLine _ hl _).fileValue _ _ _ _ _ hl
        · exact (h.countLine _ hl _).fileValue _ _ _ _ _ hl

theorem takePairs {s0 s : State} (h : BinKeeps L s0 s) (k ps) (hl : L k.line) : BinKeeps L s0 (s.takePairs k ps) :=
  forEach (fun _ p h => h.takePair k p.1 p.2 hl) _ _ h

theorem loadChannel {s0 s : State} (h : BinKeeps L s0 s) (c e) : BinKeeps L s0 (s.loadChannel c e).2 := by
  unfold State.loadChannel
  split
  · exact (h.updChan _ _).thenStore ((StoreKeeps.refl (L := L) _).channelReloaded _ _)
  · exact h

theorem gapClose {s0 s : State} (h : BinKeeps L s0 s) (l) (hl : L l) : BinKeeps L s0 (s.gapClose l) := (h.markBins _ _).closeBins _ hl

theorem dropBins {s0 s : State} (h : BinKeeps L s0 s) (l c) (hl : L l) : BinKeeps L s0 (s.dropBins l c) := by
  unfold State.dropBins
  dsimp only
  split
  · exact (h.discardBins _).countLine _ hl _
  · exact h.discardBins _

end BinKeeps

end Sys2Proof.Machine
end

