-- ==== Sys2Proof/Laws/GluKeeps.lean ====
section
/-! SUPPORT. What the operations of GLU keep, said once for each: channels, clock, contexts, tables, and of every line all but its
feed list and its counters. -/

namespace Sys2Proof.Machine

/-- The part between `s` and `t` has changed only in what GLU and STC hold, the feed lists and counters of lines in `L`, the Segment
Cache with the engine's marks, the fault record, MGT's counters, the ports' queues and counters, and the free-value counter;
while no word of the DRAM is wrong, the DRAM holds what it held; bounds that held still hold. -/
structure GluKeeps (L : LineId → Prop) (s t : State) : Prop where
  other : ∀ l, ¬ L l → t.line l = s.line l
  line : ∀ l, t.line l = { s.line l with feed := (t.line l).feed, counters := (t.line l).counters }
  phase : t.phase = s.phase
  station : t.station = s.station
  pending : t.pending = s.pending
  fcl : t.fcl = s.fcl
  channels : t.channels = s.channels
  pbk : t.pbk = { s.pbk with cache := t.pbk.cache, engine := t.pbk.engine }
  tku : t.tku = s.tku
  entry : t.stc.entry = s.stc.entry
  mgt : t.mgt = { s.mgt with fault := t.mgt.fault, lost := t.mgt.lost, counters := t.mgt.counters }
  prl : t.prl.processType = s.prl.processType
  dram : s.stc.wrongBits = [] → t.stc.dram = s.stc.dram ∧ t.stc.wrongBits = []
  bounded : Bounded s → Bounded t

theorem StoreKeeps.glukeeps {L : LineId → Prop} {s t : State} (h : StoreKeeps L s t) : GluKeeps L s t where
  other := h.other
  line l := by rw [h.line l]
  phase := h.phase
  station := h.station
  pending := h.pending
  fcl := h.fcl
  channels := h.channels
  pbk := by rw [h.pbk]
  tku := h.tku
  entry := h.entry
  mgt := h.mgt
  prl := h.prl
  dram := h.dram
  bounded := h.bounded

/-! ### The directory across reads, writes and lookups -/

theorem dir_gluRead (s : State) (a) : (s.gluRead a).2.glu.dir = s.glu.dir :=
  congrArg GLU.dir ((StoreKeeps.refl (L := fun _ => True) s).gluRead a).glu

theorem dir_gluRecord (s : State) (i) : (s.gluRecord i).2.glu.dir = s.glu.dir :=
  congrArg GLU.dir ((StoreKeeps.refl (L := fun _ => True) s).gluRecord i).glu

theorem dir_gluWrite (s : State) (a c) : (s.gluWrite a c).glu.dir = s.glu.dir := by
  unfold State.gluWrite State.enqueue State.touch
  split
  · split <;> rfl
  · split <;> rfl

/-- A directory that stands leaves what is current as it was (R79). -/
theorem isCurrent_of_dir {s t : State} (h : t.glu.dir = s.glu.dir) (p) : t.isCurrent p = s.isCurrent p := by
  unfold State.isCurrent State.pieceDir
  rw [h]

/-- A walk for a tag leaves the directory as it was, and its match is current, if any match it began with was (R85). -/
theorem lookupSlots_match (tag : Tag) (ks : List Nat) : ∀ (s : State) (best : Option (PieceRef × PieceRecord)),
    (∀ p y, best = some (p, y) → s.isCurrent p = true) →
    (s.lookupSlots tag ks best).2.glu.dir = s.glu.dir
    ∧ ∀ p y, (s.lookupSlots tag ks best).1 = some (p, y) → s.isCurrent p = true := by
  induction ks with
  | nil => intro s best h; exact ⟨rfl, h⟩
  | cons k ks ih =>
    intro s best h
    have onward : ∀ (u : State) (b : Option (PieceRef × PieceRecord)), u.glu.dir = s.glu.dir →
        (∀ p y, b = some (p, y) → s.isCurrent p = true) →
        (u.lookupSlots tag ks b).2.glu.dir = s.glu.dir
        ∧ ∀ p y, (u.lookupSlots tag ks b).1 = some (p, y) → s.isCurrent p = true := by
      intro u b hu hb
      obtain ⟨h1, h2⟩ := ih u b fun p y e => (isCurrent_of_dir hu p).trans (hb p y e)
      exact ⟨h1.trans hu, fun p y e => (isCurrent_of_dir hu p).symm.trans (h2 p y e)⟩
    unfold State.lookupSlots
    have h1 := dir_gluRead s (tagAddr k)
    split <;> (rename_i heq; rw [heq] at h1; dsimp only at h1)
    · exact onward _ _ h1 h
    · exact onward _ _ h1 h
    · rename_i g r u
      split
      · split
        · rename_i hc
          have h2 := dir_gluRecord u r.idx
          split <;> (rename_i heq; rw [heq] at h2; dsimp only at h2)
          · exact onward _ _ (h2.trans h1) h
          · refine onward _ _ (h2.trans h1) fun p y e => ?_
            rw [isCurrent_of_dir h1] at hc
            unfold betterCandidate at e
            split at e
            · cases e; exact hc
            · split at e
              · cases e; exact hc
              · exact h p y (by rw [e])
        · exact onward _ _ ((dir_gluWrite _ _ _).trans h1) h
      · exact onward _ _ h1 h
    · exact ⟨h1, h⟩

/-- A lookup of a tag leaves the directory as it was, and its match is current (R85). -/
theorem lookupTag_match (s : State) (tag) : (s.lookupTag tag).2.glu.dir = s.glu.dir
    ∧ ∀ p y, (s.lookupTag tag).1 = some (p, y) → s.isCurrent p = true :=
  lookupSlots_match tag _ s none fun _ _ e => nomatch e

namespace GluKeeps

variable {L : LineId → Prop}

theorem refl (s : State) : GluKeeps L s s := (StoreKeeps.refl (L := L) s).glukeeps

theorem trans {s t u : State} (h : GluKeeps L s t) (k : GluKeeps L t u) : GluKeeps L s u where
  other l hl := by rw [k.other l hl, h.other l hl]
  line l := by rw [k.line l, h.line l]
  phase := by rw [k.phase, h.phase]
  station := by rw [k.station, h.station]
  pending := by rw [k.pending, h.pending]
  fcl := by rw [k.fcl, h.fcl]
  channels := by rw [k.channels, h.channels]
  pbk := by rw [k.pbk, h.pbk]
  tku := by rw [k.tku, h.tku]
  entry := by rw [k.entry, h.entry]
  mgt := by rw [k.mgt, h.mgt]
  prl := by rw [k.prl, h.prl]
  dram w := ⟨(k.dram (h.dram w).2).1.trans (h.dram w).1, (k.dram (h.dram w).2).2⟩
  bounded b := k.bounded (h.bounded b)

theorem store {s0 s t : State} (h : GluKeeps L s0 s) (k : StoreKeeps L s t) : GluKeeps L s0 t := h.trans k.glukeeps

theorem forEach {α : Type} {s0 : State} {f : State → α → State}
    (hf : ∀ s a, GluKeeps L s0 s → GluKeeps L s0 (f s a)) (xs : List α) : ∀ s, GluKeeps L s0 s → GluKeeps L s0 (s.forEach xs f) := by
  induction xs with
  | nil => intro s h; exact h
  | cons a xs ih => intro s h; exact ih _ (hf s a h)

theorem updGlu {s0 s : State} (h : GluKeeps L s0 s) (f) : GluKeeps L s0 (s.updGlu f) :=
  h.trans ⟨fun _ _ => rfl, fun _ => rfl, rfl, rfl, rfl, rfl, rfl, rfl, rfl, rfl, rfl, rfl, fun w => ⟨rfl, w⟩, fun b => b⟩

theorem countGlu {s0 s : State} (h : GluKeeps L s0 s) (f) : GluKeeps L s0 (s.countGlu f) := h.updGlu _

theorem updPieceDir {s0 s : State} (h : GluKeeps L s0 s) (i) (f) : GluKeeps L s0 (s.updPieceDir i f) := h.updGlu _

/-- A change of a line's feed list alone. -/
theorem feed {s0 s : State} (h : GluKeeps L s0 s) (l) (hl : L l) (f : Line → List FeedEntry) :
    GluKeeps L s0 (s.updLine l fun x => { x with feed := f x }) := by
  refine h.trans ⟨fun k hk => line_updLine_ne _ _ fun e => hk (e ▸ hl), fun k => ?_, rfl, rfl, rfl, rfl, rfl, rfl, rfl, rfl, rfl, rfl, fun w => ⟨rfl, w⟩, fun b => b⟩
  rw [line_updLine]; split <;> rfl

theorem raise {s0 s : State} (h : GluKeeps L s0 s) (c l p a) : GluKeeps L s0 (s.raise c l p a) :=
  h.store ((StoreKeeps.refl (L := L) s).raise c l p a)

theorem countStc {s0 s : State} (h : GluKeeps L s0 s) (f) : GluKeeps L s0 (s.countStc f) :=
  h.store ((StoreKeeps.refl (L := L) s).countStc f)

theorem gluRead {s0 s : State} (h : GluKeeps L s0 s) (a) : GluKeeps L s0 (s.gluRead a).2 :=
  h.store ((StoreKeeps.refl (L := L) s).gluRead a)

theorem gluRecord {s0 s : State} (h : GluKeeps L s0 s) (i) : GluKeeps L s0 (s.gluRecord i).2 :=
  h.store ((StoreKeeps.refl (L := L) s).gluRecord i)

theorem lineHorizon {s0 s : State} (h : GluKeeps L s0 s) (l) : GluKeeps L s0 (s.lineHorizon l).2 :=
  h.store ((StoreKeeps.refl (L := L) s).lineHorizon l)

theorem dropEntries {s0 s : State} (h : GluKeeps L s0 s) (hit) : GluKeeps L s0 (s.dropEntries hit) :=
  h.trans ⟨fun _ _ => rfl, fun _ => rfl, rfl, rfl, rfl, rfl, rfl, rfl, rfl, rfl, rfl, rfl,
    fun w => ⟨rfl, w⟩, fun ⟨a, b, c, d, e, f⟩ => ⟨a, b, c, d, Nat.le_trans (List.length_filter_le _ _) e, f⟩⟩

theorem dropGroup {s0 s : State} (h : GluKeeps L s0 s) (o k p) : GluKeeps L s0 (s.dropGroup o k p) := h.dropEntries _

theorem dropPiece {s0 s : State} (h : GluKeeps L s0 s) (r) : GluKeeps L s0 (s.dropPiece r) := h.dropEntries _

/-- A write of GLU joins the queue where it has room, and waits otherwise (R81). -/
theorem gluWrite {s0 s : State} (h : GluKeeps L s0 s) (a c) : GluKeeps L s0 (s.gluWrite a c) := by
  unfold State.gluWrite
  split
  · rename_i hc
    simp only [Bool.and_eq_true, decide_eq_true_eq] at hc
    exact h.store ((StoreKeeps.refl (L := L) s).enqueue _ (room_of_writeRoom hc.2))
  · dsimp only
    refine updGlu ?_ _
    split
    · refine h.store (StoreKeeps.stc (StoreKeeps.refl (L := L) s) _ rfl ?_ ?_ ?_) <;> exact id
    · exact h

theorem gluModify {s0 s : State} (h : GluKeeps L s0 s) (a o f) : GluKeeps L s0 (s.gluModify a o f) := by
  unfold State.gluModify
  have h1 := h.gluRead a
  split
  · rename_i heq; rw [heq] at h1
    split
    · exact h1
    · exact h1.gluWrite _ _
  · rename_i heq; rw [heq] at h1
    exact ((h1.gluWrite _ _).countStc _).raise _ _ _ _

theorem setFlags {s0 s : State} (h : GluKeeps L s0 s) (r f) : GluKeeps L s0 (s.setFlags r f) := h.gluModify _ _ _

/-! ### The Tag Index -/

theorem lookupSlots (tag : Tag) (ts : List Nat) {s0 : State} :
    ∀ s best, GluKeeps L s0 s → GluKeeps L s0 (s.lookupSlots tag ts best).2 := by
  induction ts with
  | nil => intro s best h; exact h
  | cons t ts ih => intro s best h; unfold State.lookupSlots; grind [gluRead, gluRecord, gluWrite]

theorem lookupTag {s0 s : State} (h : GluKeeps L s0 s) (t) : GluKeeps L s0 (s.lookupTag t).2 := lookupSlots _ _ _ _ h

theorem enterSlots (tag : Tag) (ref : PieceRef) (ts : List Nat) {s0 : State} :
    ∀ s, GluKeeps L s0 s → GluKeeps L s0 (s.enterSlots tag ref ts).2 := by
  induction ts with
  | nil => intro s h; exact h
  | cons t ts ih => intro s h; unfold State.enterSlots; grind [gluRead, gluWrite]

theorem enterTag {s0 s : State} (h : GluKeeps L s0 s) (t r) : GluKeeps L s0 (s.enterTag t r) := by
  unfold State.enterTag
  have h1 := enterSlots t r (probeSlots t) s h
  split
  · rename_i heq; rw [heq] at h1; exact h1
  · rename_i heq; rw [heq] at h1; exact (h1.countGlu _).setFlags _ _

theorem removeSlots (ref : PieceRef) (ts : List Nat) {s0 : State} :
    ∀ s, GluKeeps L s0 s → GluKeeps L s0 (s.removeSlots ref ts) := by
  induction ts with
  | nil => intro s h; exact h
  | cons t ts ih => intro s h; unfold State.removeSlots; grind [gluRead, gluWrite]

theorem removeTag {s0 s : State} (h : GluKeeps L s0 s) (t r) : GluKeeps L s0 (s.removeTag t r) := removeSlots _ _ _ h

/-! ### Links and retirement -/

theorem setList {s0 s : State} (h : GluKeeps L s0 s) (r k l) : GluKeeps L s0 (s.setList r k l) := h.gluModify _ _ _

theorem needsGroup {s0 s : State} (h : GluKeeps L s0 s) (l) : GluKeeps L s0 (s.needsGroup l).2 := by
  unfold State.needsGroup; grind [gluRead]

theorem appendSide {s0 s : State} (h : GluKeeps L s0 s) (r k l n f) : GluKeeps L s0 (s.appendSide r k l n f) := by
  unfold State.appendSide
  split
  · split
    · exact h
    · dsimp only
      refine dropGroup (setList ?_ _ _ _) _ _ _
      split
      · exact (h.updGlu _).gluWrite _ _
      · exact (((h.updGlu _).gluWrite _ _).gluModify _ _ _).dropGroup _ _ _
  · exact (h.gluModify _ _ _).dropGroup _ _ _

theorem segmentLost {s0 s : State} (h : GluKeeps L s0 s) (c l r p f) : GluKeeps L s0 (s.segmentLost c l r p f) :=
  ((h.raise _ _ _ _).countGlu _).setFlags _ _

theorem parentRecord {s0 s : State} (h : GluKeeps L s0 s) (r) : GluKeeps L s0 (s.parentRecord r).2 := by
  unfold State.parentRecord; grind [gluRecord]

theorem buildSegment {s0 s : State} (h : GluKeeps L s0 s) (l c n est p) : GluKeeps L s0 (s.buildSegment l c n est p) := by
  unfold State.buildSegment
  have h1 := h.gluRecord c.idx
  generalize s.gluRecord c.idx = q1 at h1
  obtain ⟨cr, s1⟩ := q1
  have h2 := h1.parentRecord p.parent
  dsimp only at h1 h2 ⊢
  generalize s1.parentRecord p.parent = q2 at h2
  obtain ⟨pr, s2⟩ := q2
  dsimp only at h2 ⊢
  split
  · exact h2
  · split
    · exact h2.segmentLost _ _ _ _ _
    · cases cr <;> cases pr <;> dsimp only <;> split <;>
        grind [segmentLost, updGlu, gluWrite, appendSide, needsGroup]

theorem freeGroup {s0 s : State} (h : GluKeeps L s0 s) (g) : GluKeeps L s0 (s.freeGroup g) := h.updGlu _

theorem freeSegment {s0 s : State} (h : GluKeeps L s0 s) (n) : GluKeeps L s0 (s.freeSegment n) := h.updGlu _

theorem emptySlot (p : PieceRef) (seg left : Nat) {s0 : State} :
    ∀ s g pos, GluKeeps L s0 s → GluKeeps L s0 (s.emptySlot p seg left g pos) := by
  induction left with
  | zero => intro s g pos h; exact h
  | succ n ih => intro s g pos h; unfold State.emptySlot; grind [gluRead, gluModify, dropGroup]

theorem detachSegment {s0 s : State} (h : GluKeeps L s0 s) (n) : GluKeeps L s0 (s.detachSegment n) := by
  unfold State.detachSegment
  grind [gluRead, parentRecord, freeSegment, emptySlot]

theorem freeList (segs : Bool) (left : Nat) {s0 : State} :
    ∀ s g, GluKeeps L s0 s → GluKeeps L s0 (s.freeList segs left g) := by
  induction left with
  | zero => intro s g h; exact h
  | succ n ih =>
    intro s g h
    unfold State.freeList
    have h1 := h.gluRead (groupAddr g)
    split
    · rename_i heq; rw [heq] at h1; exact h1.freeGroup g
    · rename_i c t heq
      rw [heq] at h1
      have h2 : GluKeeps L s0 (if segs then t.forEach ((Cell.asGroup c).slots.filterMap fun x => x) State.detachSegment else t) := by
        split
        · exact forEach (fun s a h => h.detachSegment a) _ _ h1
        · exact h1
      dsimp only at h2 ⊢
      split
      · exact ih _ _ (h2.freeGroup g)
      · exact h2.freeGroup g

theorem retireIndex {s0 s : State} (h : GluKeeps L s0 s) (r) : GluKeeps L s0 (s.retireIndex r) :=
  ((h.updGlu _).updPieceDir _ _).dropPiece _

theorem writeRecord {s0 s : State} (h : GluKeeps L s0 s) (i us) : GluKeeps L s0 (s.writeRecord i us) :=
  forEach (fun _ _ h => h.gluWrite _ _) _ _ h

theorem retirePiece {s0 s : State} (h : GluKeeps L s0 s) (r) : GluKeeps L s0 (s.retirePiece r) := by
  unfold State.retirePiece
  have h1 := h.gluRecord r.idx
  split
  · rename_i p t heq
    rw [heq] at h1
    have h2 : GluKeeps L s0 (if p.id.flags.unindexed then t else t.removeTag p.id.tag r) := by
      split
      · exact h1
      · exact h1.removeTag _ _
    exact (freeList _ _ _ _ (freeList _ _ _ _ h2)).retireIndex r
  · rename_i t heq
    rw [heq] at h1
    exact (h1.retireIndex r).writeRecord _ _

theorem spansBelow (xs : List (LineId × Option Nat)) {s0 : State} :
    ∀ s, GluKeeps L s0 s → GluKeeps L s0 (s.spansBelow xs).2 := by
  induction xs with
  | nil => intro s h; exact h
  | cons x xs ih => intro s h; obtain ⟨l, o⟩ := x; cases o <;> unfold State.spansBelow <;> grind [lineHorizon]

theorem qualifies {s0 s : State} (h : GluKeeps L s0 s) (i) : GluKeeps L s0 (s.qualifies i).2 := by
  unfold State.qualifies; grind [gluRecord, spansBelow]

theorem findRetire (is : List Nat) {s0 : State} : ∀ s, GluKeeps L s0 s → GluKeeps L s0 (s.findRetire is).2 := by
  induction is with
  | nil => intro s h; exact h
  | cons i is ih => intro s h; unfold State.findRetire; grind [qualifies]

theorem autoRetire {s0 s : State} (h : GluKeeps L s0 s) : GluKeeps L s0 s.autoRetire := by
  unfold State.autoRetire
  have h1 := findRetire (s.glu.closeList.take 64) s h
  split
  · rename_i heq; rw [heq] at h1; exact (h1.retirePiece _).countGlu _
  · rename_i heq; rw [heq] at h1; exact h1.countGlu _

/-! ### Pieces -/

theorem takeIndex {s0 s : State} (h : GluKeeps L s0 s) (l a) : GluKeeps L s0 (s.takeIndex l a).2.2 := by
  unfold State.takeIndex
  split
  · dsimp only; exact h.updGlu _
  · dsimp only
    split
    · dsimp only; exact h.autoRetire.updGlu _
    · dsimp only; exact (h.autoRetire.raise _ _ _ _).countGlu _

theorem tagHeld {s0 s : State} (h : GluKeeps L s0 s) (n) : GluKeeps L s0 (s.tagHeld n).2 := by
  unfold State.tagHeld; grind [lookupTag]

theorem createPiece {s0 s : State} (h : GluKeeps L s0 s) (n) : GluKeeps L s0 (s.createPiece n).2 := by
  unfold State.createPiece
  have h1 := h.takeIndex n.line n.axis
  split
  · rename_i heq; rw [heq] at h1; exact h1
  · rename_i i ran t heq
    rw [heq] at h1
    have h2 := h1.tagHeld n
    dsimp only at h2 ⊢
    generalize t.tagHeld n = q at h2
    obtain ⟨dup, u⟩ := q
    dsimp only at h2 ⊢
    have h3 := (h2.writeRecord i (n.units ⟨i, (t.pieceDir i).gen⟩ dup u.tku.clock)).updPieceDir i fun d =>
      { d with state := if decide (n.kind = .external) = true then .closed else .opened, pins := 0 }
    generalize ((u.writeRecord i (n.units ⟨i, (t.pieceDir i).gen⟩ dup u.tku.clock)).updPieceDir i fun d =>
      { d with state := if decide (n.kind = .external) = true then .closed else .opened, pins := 0 }) = v at h3
    have h4 : GluKeeps L s0 (if decide (n.kind = .external) = true then v.updGlu fun g =>
        { g with closeList := g.closeList ++ [i] } else v) := by
      split
      · exact h3.updGlu _
      · exact h3
    generalize (if decide (n.kind = .external) = true then v.updGlu fun g =>
        { g with closeList := g.closeList ++ [i] } else v) = w at h4
    have h5 : GluKeeps L s0 (if n.tag = blankTag then w else w.enterTag n.tag ⟨i, (t.pieceDir i).gen⟩) := by
      split
      · exact h4
      · exact h4.enterTag _ _
    generalize (if n.tag = blankTag then w else w.enterTag n.tag ⟨i, (t.pieceDir i).gen⟩) = x at h5
    split
    · exact h5.autoRetire
    · exact h5

theorem setUse {s0 s : State} (h : GluKeeps L s0 s) (r k u) : GluKeeps L s0 (s.setUse r k u) := h.gluModify _ _ _

theorem endUse {s0 s : State} (h : GluKeeps L s0 s) (r l a e i) : GluKeeps L s0 (s.endUse r l a e i) := by
  unfold State.endUse
  have h1 := h.gluRecord r.idx
  split
  · rename_i heq; rw [heq] at h1; exact h1
  · rename_i p t heq
    rw [heq] at h1
    have h2 : GluKeeps L s0 (match p.uses.findIdx? fun u => decide (u.line = l) && u.stop.isNone with
      | some k =>
        match p.uses[k]? with
        | some u => t.setUse r k { u with stop := some a, est := u.est || e }
        | none => t
      | none => t) := by
      split
      · split
        · exact h1.setUse _ _ _
        · exact h1
      · exact h1
    dsimp only at h2 ⊢
    split
    · exact h2.setFlags _ _
    · exact h2

theorem endFeeding {s0 s : State} (h : GluKeeps L s0 s) (l a e i) (hl : L l) : GluKeeps L s0 (s.endFeeding l a e i) := by
  unfold State.endFeeding
  split
  · exact h
  · split
    · exact h
    · dsimp only
      split
      · exact (h.feed l hl _).endUse _ _ _ _ _
      · exact h.feed l hl _

theorem addUse {s0 s : State} (h : GluKeeps L s0 s) (r p u) : GluKeeps L s0 (s.addUse r p u) := by
  unfold State.addUse
  dsimp only
  split
  · exact (h.setUse _ _ _).setFlags _ _
  · exact h.setUse _ _ _

theorem resolveWeld {s0 s : State} (h : GluKeeps L s0 s) (u t d) : GluKeeps L s0 (s.resolveWeld u t d).2 := by
  unfold State.resolveWeld
  have h1 := h.lookupTag t
  dsimp only
  split
  · rename_i heq; rw [heq] at h1; exact h1.createPiece _
  · rename_i heq
    rw [heq] at h1
    split
    · exact ((h1.raise _ _ _ _).countGlu _).createPiece _
    · split
      · exact h1.createPiece _
      · split
        · exact ((h1.raise _ _ _ _).countGlu _).createPiece _
        · exact h1.addUse _ _ _

theorem gluWeld {s0 s : State} (h : GluKeeps L s0 s) (l a e t d r) (hl : L l) : GluKeeps L s0 (s.gluWeld l a e t d r).2 := by
  unfold State.gluWeld
  have h1 := (h.endFeeding l a e false hl).resolveWeld { line := l, start := a, stop := none, dir := r, est := e } t d
  dsimp only
  generalize (s.endFeeding l a e false).resolveWeld _ t d = q at h1
  exact h1.feed l hl fun x => x.feed ++ [{ piece := q.1, start := a, stop := none, est := e }]

theorem closeOutput {s0 s : State} (h : GluKeeps L s0 s) (k n r) : GluKeeps L s0 (s.closeOutput k n r) := by
  unfold State.closeOutput
  split
  · dsimp only
    refine updGlu (updPieceDir (forEach (fun s p h => h.buildSegment _ _ _ _ _) _ _ ?_) _ _) _
    split
    · exact (h.gluModify _ _ _).setFlags _ _
    · exact h.gluModify _ _ _
  · exact h

theorem gluClose {s0 s : State} (h : GluKeeps L s0 s) (k os) : GluKeeps L s0 (s.gluClose k os) :=
  forEach (fun _ _ h => h.closeOutput _ _ _) _ _ h

theorem scrapTag {s0 s : State} (h : GluKeeps L s0 s) (l) : GluKeeps L s0 (s.scrapTag l).2 := by
  unfold State.scrapTag
  split
  · exact h
  · split
    · rename_i e _ _
      have h1 := h.gluRecord e.piece.idx
      split
      · rename_i heq; rw [heq] at h1; exact h1
      · rename_i heq; rw [heq] at h1; exact h1
    · exact h

theorem openPieces (l : LineId) (k : PieceKind) (a : Nat) (e : Bool) (ts : List Tag) {s0 : State} :
    ∀ s n, GluKeeps L s0 s → GluKeeps L s0 (s.openPieces l k a e n ts).2 := by
  induction ts with
  | nil => intro s n h; exact h
  | cons t ts ih =>
    intro s n h
    unfold State.openPieces
    exact ih _ _ (h.createPiece _)

theorem gluOpen {s0 s : State} (h : GluKeeps L s0 s) (l k ts a e) (hl : L l) : GluKeeps L s0 (s.gluOpen l k ts a e).2 := by
  unfold State.gluOpen
  have h1 := h.feed l hl fun x => x.feed.filter fun e => e.stop.all fun b => decide (a < b)
  dsimp only at h1 ⊢
  generalize (s.updLine l _) = u at h1
  have h2 := h1.scrapTag l
  cases k <;> dsimp only
  · exact openPieces _ _ _ _ _ _ _ h1
  · generalize u.scrapTag l = q at h2
    exact openPieces _ _ _ _ _ _ _ h2
  · exact openPieces _ _ _ _ _ _ _ h1

theorem closeLast {s0 s : State} (h : GluKeeps L s0 s) (k os) (hl : L k.line) : GluKeeps L s0 (s.closeLast k os) := by
  unfold State.closeLast
  have h1 := h.gluClose k os
  generalize s.gluClose k os = u at h1
  exact h1.feed k.line hl fun _ => []

/-! ### Pins and RETIRE -/

theorem gluPin {s0 s : State} (h : GluKeeps L s0 s) (r) : GluKeeps L s0 (s.gluPin r).2 := by
  unfold State.gluPin; grind [updPieceDir]

theorem gluUnpin {s0 s : State} (h : GluKeeps L s0 s) (r) : GluKeeps L s0 (s.gluUnpin r).2 := by
  unfold State.gluUnpin; grind [updPieceDir]

theorem implicitPin {s0 s : State} (h : GluKeeps L s0 s) (r) : GluKeeps L s0 (s.implicitPin r).2 := by
  unfold State.implicitPin; grind [updPieceDir]

theorem releasePin {s0 s : State} (h : GluKeeps L s0 s) (r) : GluKeeps L s0 (s.releasePin r) := by
  unfold State.releasePin; grind [updPieceDir]

theorem waitGlu {s0 s : State} (h : GluKeeps L s0 s) (w) : GluKeeps L s0 (s.waitGlu w) := h.updGlu _

theorem waitLine {s0 s : State} (h : GluKeeps L s0 s) (l w) : GluKeeps L s0 (s.waitLine l w) := h.updGlu _

/-- A pin released by a call, taken at once or waiting (R98). -/
theorem callRelease {s0 s : State} (h : GluKeeps L s0 s) (r) : GluKeeps L s0 (s.callGlu (.releasePin r)) := by
  unfold State.callGlu
  split
  · exact h.waitGlu _
  · exact h.releasePin r

theorem gluRetire {s0 s : State} (h : GluKeeps L s0 s) (r) : GluKeeps L s0 (s.gluRetire r).2 := by
  unfold State.gluRetire
  split
  · exact h
  · split
    · exact h
    · split
      · exact h
      · have h1 := h.gluRecord r.idx
        generalize s.gluRecord r.idx = q at h1
        obtain ⟨p, t⟩ := q
        dsimp only at h1 ⊢
        split
        · exact h1
        · dsimp only; exact (h1.retirePiece r).countGlu _

end GluKeeps

end Sys2Proof.Machine
end

