-- ==== Sys2Proof/Laws/Onward.lean ====
section
/-! SUPPORT. What the operations of LTK keep, said once for each: everything outside the lines they are called for, the channels,
GLU, the store and the drain of contexts; the invariant; and that no axis falls. -/

namespace Sys2Proof.Machine

/-- The invariant is kept, no axis falls, and the waiting commands and the station address stay. -/
structure Sound (s t : State) : Prop where
  pending : t.pending = s.pending
  station : t.station = s.station
  inv : Inv s → Inv t ∧ ∀ l : LineId, (s.line l).axis ≤ (t.line l).axis

theorem Sound.refl (s : State) : Sound s s := ⟨rfl, rfl, fun h => ⟨h, fun _ => Nat.le_refl _⟩⟩

theorem Sound.trans {s t u : State} (h : Sound s t) (k : Sound t u) : Sound s u where
  pending := by rw [k.pending, h.pending]
  station := by rw [k.station, h.station]
  inv i :=
    let ⟨a, b⟩ := h.inv i
    let ⟨c, d⟩ := k.inv a
    ⟨c, fun l => Nat.le_trans (b l) (d l)⟩

theorem sound_of_line {s t : State} (hp : t.pending = s.pending) (hs : t.station = s.station) (hb : Bounded s → Bounded t)
    (hl : ∀ l, t.line l = { s.line l with feed := (t.line l).feed, counters := (t.line l).counters }) : Sound s t := by
  refine ⟨hp, hs, fun h => ?_⟩
  rw [inv_iff] at h
  have hx : ∀ l, LineOk (t.line l) ∧ (s.line l).axis ≤ (t.line l).axis := by
    intro l
    rw [hl l]
    exact ⟨h.2 l, Nat.le_refl _⟩
  exact ⟨(inv_iff t).2 ⟨hb h.1, fun l => (hx l).1⟩, fun l => (hx l).2⟩

/-- The line a call on GLU is made for. -/
def GluCall.line : GluCall → Option LineId
  | .endFeeding l _ _ => some l
  | .closeOutputs k _ => some k.line
  | .weld l _ _ _ _ _ => some l
  | .closeCut k _ => some k.line
  | .openOutputs l _ _ _ _ => some l
  | .releasePin _ => none

/-- Between `s` and `t` only lines in `L`, the channels, GLU, the store, the ports' queues and counters, the fault record, MGT's
counters and the states and drain of contexts have changed; the invariant is kept and no axis falls. -/
structure Onward (L : LineId → Prop) (s t : State) : Prop where
  other : ∀ l, ¬ L l → t.line l = s.line l
  phase : t.phase = s.phase
  station : t.station = s.station
  pending : t.pending = s.pending
  fcl : t.fcl = s.fcl
  tku : t.tku = s.tku
  entry : t.stc.entry = s.stc.entry
  mgt : t.mgt = { s.mgt with fault := t.mgt.fault, lost := t.mgt.lost, counters := t.mgt.counters }
  prl : t.prl.processType = s.prl.processType
  dram : s.stc.wrongBits = [] → t.stc.dram = s.stc.dram ∧ t.stc.wrongBits = []
  pbk : t.pbk = { s.pbk with contexts := t.pbk.contexts, asmQueue := t.pbk.asmQueue, cache := t.pbk.cache,
                             engine := t.pbk.engine, taken := t.pbk.taken, behindSeal := t.pbk.behindSeal }
  sound : Sound s t

theorem GluKeeps.onward {L : LineId → Prop} {s t : State} (h : GluKeeps L s t) : Onward L s t where
  other := h.other
  phase := h.phase
  station := h.station
  pending := h.pending
  fcl := h.fcl
  tku := h.tku
  entry := h.entry
  mgt := h.mgt
  prl := h.prl
  dram := h.dram
  pbk := by rw [h.pbk]
  sound := sound_of_line h.pending h.station h.bounded h.line

theorem StoreKeeps.onward {L : LineId → Prop} {s t : State} (h : StoreKeeps L s t) : Onward L s t := h.glukeeps.onward

theorem BinKeeps.onward {L : LineId → Prop} {s t : State} (h : BinKeeps L s t) : Onward L s t where
  other := h.other
  phase := h.phase
  station := h.station
  pending := h.pending
  fcl := h.fcl
  tku := h.tku
  entry := h.entry
  mgt := h.mgt
  prl := h.prl
  dram := h.dram
  pbk := by rw [show t.pbk = s.pbk from h.pbk]
  sound := sound_of_line h.pending h.station h.bounded (fun l => by rw [show t.line l = _ from h.line l])

namespace Onward

variable {L : LineId → Prop}

theorem refl (s : State) : Onward L s s := (StoreKeeps.refl s).onward

theorem trans {s t u : State} (h : Onward L s t) (k : Onward L t u) : Onward L s u where
  other l hl := by rw [k.other l hl, h.other l hl]
  phase := by rw [k.phase, h.phase]
  station := by rw [k.station, h.station]
  pending := by rw [k.pending, h.pending]
  fcl := by rw [k.fcl, h.fcl]
  tku := by rw [k.tku, h.tku]
  entry := by rw [k.entry, h.entry]
  mgt := by rw [k.mgt, h.mgt]
  prl := by rw [k.prl, h.prl]
  dram w := ⟨(k.dram (h.dram w).2).1.trans (h.dram w).1, (k.dram (h.dram w).2).2⟩
  pbk := by rw [k.pbk, h.pbk]
  sound := h.sound.trans k.sound

theorem elsewhere {s t : State} (h : Onward L s t) : KeepsElsewhere L s t where
  lines := h.other
  phase := h.phase
  station := h.station
  pending := h.pending
  fcl := h.fcl
  tku := h.tku
  storeTable := h.entry
  mgt := h.mgt
  processType := h.prl
  pages := by rw [h.pbk]; exact ⟨rfl, rfl⟩
  pbkCounters := by rw [h.pbk]
  dram w a := by unfold State.cellAt; rw [(h.dram w).1]

theorem glu {s0 s t : State} (h : Onward L s0 s) (k : GluKeeps L s t) : Onward L s0 t := h.trans k.onward
theorem bin {s0 s t : State} (h : Onward L s0 s) (k : BinKeeps L s t) : Onward L s0 t := h.trans k.onward
theorem store {s0 s t : State} (h : Onward L s0 s) (k : StoreKeeps L s t) : Onward L s0 t := h.trans k.onward

theorem forEach {α : Type} {s0 : State} {f : State → α → State}
    (hf : ∀ s a, Onward L s0 s → Onward L s0 (f s a)) (xs : List α) : ∀ s, Onward L s0 s → Onward L s0 (s.forEach xs f) := by
  induction xs with
  | nil => intro s h; exact h
  | cons a xs ih => intro s h; exact ih _ (hf s a h)

/-- A change of one line that keeps it within its bounds and does not lower its axis. -/
theorem updLine {s0 s : State} (h : Onward L s0 s) (l) (hl : L l) (f : Line → Line)
    (hf : LineOk (s.line l) → LineOk (f (s.line l)) ∧ (s.line l).axis ≤ (f (s.line l)).axis) :
    Onward L s0 (s.updLine l f) := by
  refine h.trans ⟨fun k hk => line_updLine_ne _ _ fun e => hk (e ▸ hl), rfl, rfl, rfl, rfl, rfl, rfl, rfl, rfl,
    fun w => ⟨rfl, w⟩, rfl, ⟨rfl, rfl, fun hi => ?_⟩⟩
  rw [inv_iff] at hi
  have hx : ∀ k, LineOk ((s.updLine l f).line k) ∧ (s.line k).axis ≤ ((s.updLine l f).line k).axis := by
    intro k
    rw [line_updLine]
    split
    · rename_i e; subst e; exact hf (hi.2 l)
    · exact ⟨hi.2 k, Nat.le_refl _⟩
  exact ⟨(inv_iff _).2 ⟨hi.1, fun k => (hx k).1⟩, fun k => (hx k).2⟩

/-- A change of one line that leaves its axis and its bounded lists alone. -/
theorem plain {s0 s : State} (h : Onward L s0 s) (l) (hl : L l) (f : Line → Line)
    (ha : (f (s.line l)).axis = (s.line l).axis) (hq : (f (s.line l)).queue = (s.line l).queue)
    (hc : (f (s.line l)).chain = (s.line l).chain) : Onward L s0 (s.updLine l f) := by
  refine h.updLine l hl f fun ⟨a, b, c⟩ => ?_
  refine ⟨⟨?_, ?_, ?_⟩, ?_⟩
  · rw [ha]; exact a
  · rw [hq]; exact b
  · rw [hc]; exact c
  · exact Nat.le_of_eq ha.symm

theorem countLine {s0 s : State} (h : Onward L s0 s) (l) (hl : L l) (f) : Onward L s0 (s.countLine l f) :=
  h.plain l hl _ rfl rfl rfl

theorem raise {s0 s : State} (h : Onward L s0 s) (c l p a) : Onward L s0 (s.raise c l p a) :=
  h.store ((StoreKeeps.refl s).raise c l p a)

/-! ### The axis -/

theorem setAxis {s0 s : State} (h : Onward L s0 s) (l) (hl : L l) (a) (ha : (s.line l).axis ≤ a) :
    Onward L s0 (s.setAxis l a) := by
  refine h.updLine l hl _ fun ⟨b, c, d⟩ => ⟨⟨?_, c, d⟩, ?_⟩
  · exact Nat.min_le_right _ _
  · exact Nat.le_min.2 ⟨ha, b⟩

theorem axisChecks {s0 s : State} (h : Onward L s0 s) (l) (hl : L l) : Onward L s0 (s.axisChecks l) := by
  unfold State.axisChecks
  exact Onward.bin (Onward.plain h l hl _ rfl rfl rfl) ((BinKeeps.refl _).tellStations l hl)

theorem advance {s0 s : State} (h : Onward L s0 s) (l) (hl : L l) (d) : Onward L s0 (s.advance l d) := by
  unfold State.advance
  exact (h.setAxis l hl _ (Nat.le_add_right _ _)).axisChecks l hl

theorem gapClose {s0 s : State} (h : Onward L s0 s) (l) (hl : L l) : Onward L s0 (s.gapClose l) :=
  h.bin ((BinKeeps.refl s).gapClose l hl)

theorem jumpFault {s0 s : State} (h : Onward L s0 s) (l) (hl : L l) : Onward L s0 (s.jumpFault l) :=
  h.store ((StoreKeeps.refl s).jumpFault l hl)

end Onward

theorem axis_gapClose (s : State) (l k : LineId) : ((s.gapClose l).line k).axis = (s.line k).axis := by
  rw [((BinKeeps.refl (L := fun _ => True) s).gapClose l trivial).lineEq k]

theorem sup_gapClose (s : State) (l k : LineId) : ((s.gapClose l).line k).sup = (s.line k).sup := by
  rw [((BinKeeps.refl (L := fun _ => True) s).gapClose l trivial).lineEq k]

namespace Onward

variable {L : LineId → Prop}

theorem jumpTo {s0 s : State} (h : Onward L s0 s) (l) (hl : L l) (a) (ha : (s.line l).axis ≤ a) :
    Onward L s0 (s.jumpTo l a) := by
  unfold State.jumpTo
  exact (((h.gapClose l hl).setAxis l hl a (by rw [axis_gapClose]; exact ha)).jumpFault l hl).axisChecks l hl

/-! ### States and supervision -/

theorem enterRunning {s0 s : State} (h : Onward L s0 s) (l) (hl : L l) : Onward L s0 (s.enterRunning l) :=
  h.plain l hl _ rfl rfl rfl

theorem park {s0 s : State} (h : Onward L s0 s) (l) (hl : L l) : Onward L s0 (s.park l) := by
  unfold State.park
  dsimp only
  have h1 := h.bin ((BinKeeps.refl s).closeBins l hl)
  generalize s.closeBins l = u at h1
  exact h1.plain l hl _ rfl rfl rfl

theorem loseLength {s0 s : State} (h : Onward L s0 s) (l) (hl : L l) : Onward L s0 (s.loseLength l) := by
  unfold State.loseLength
  exact Onward.plain ((h.raise _ _ _ _).countLine l hl _) l hl _ rfl rfl rfl

theorem countSilence {s0 s : State} (h : Onward L s0 s) (l) (hl : L l) : Onward L s0 (s.countSilence l) := by
  unfold State.countSilence
  dsimp only
  split
  · exact (h.plain l hl _ rfl rfl rfl).loseLength l hl
  · exact h.plain l hl _ rfl rfl rfl

theorem afterEvent {s0 s : State} (h : Onward L s0 s) (l) (hl : L l) (b) : Onward L s0 (s.afterEvent l b) := by
  unfold State.afterEvent
  split
  · exact h.countSilence l hl
  · exact h

theorem takeEvent {s0 s : State} (h : Onward L s0 s) (l) (hl : L l) (e) : Onward L s0 (s.takeEvent l e) := by
  unfold State.takeEvent
  have h1 : Onward L s0 (s.updLine l fun x => { x with queue := x.queue.drop 1, lastTaken := e.arrival }) := by
    refine h.updLine l hl _ fun ⟨a, b, c⟩ => ⟨⟨a, ?_, c⟩, Nat.le_refl _⟩
    exact Nat.le_trans (by rw [List.length_drop]; omega) b
  dsimp only
  split
  · exact h1.bin ((BinKeeps.refl _).markBins l _)
  · exact h1

theorem holdLine {s0 s : State} (h : Onward L s0 s) (l) : Onward L s0 (s.holdLine l) := by
  unfold State.holdLine
  split
  · exact h.glu ((GluKeeps.refl _).waitGlu _)
  · exact h

/-- A change of what PBK knows of the numbers taken, and of the bins held. -/
theorem knows {s0 s : State} (h : Onward L s0 s) (v : PBK → Vector Word32 8) (w : PBK → Vector (Option Word32) 8) :
    Onward L s0 (s.updPbk fun k => { k with taken := v k, behindSeal := w k }) :=
  h.trans ⟨fun _ _ => rfl, rfl, rfl, rfl, rfl, rfl, rfl, rfl, rfl, fun w => ⟨rfl, w⟩, rfl,
    ⟨rfl, rfl, fun hi => ⟨hi, fun _ => Nat.le_refl _⟩⟩⟩

theorem noteHeld {s0 s : State} (h : Onward L s0 s) (l e os) : Onward L s0 (s.noteHeld l e os) := by
  unfold State.noteHeld
  split
  · exact h.knows (fun k => k.taken) _
  · exact h

theorem emptyQueue {s0 s : State} (h : Onward L s0 s) (l) (hl : L l) : Onward L s0 (s.emptyQueue l) :=
  (h.updLine l hl _ fun ⟨a, _, c⟩ => ⟨⟨a, Nat.zero_le _, c⟩, Nat.le_refl _⟩).knows _ (fun k => k.behindSeal)

theorem forcePending {s0 s : State} (h : Onward L s0 s) (l) (hl : L l) : Onward L s0 (s.forcePending l) :=
  h.plain l hl _ rfl rfl rfl

theorem settleIdle {s0 s : State} (h : Onward L s0 s) (l) (hl : L l) : Onward L s0 (s.settleIdle l) :=
  ((h.emptyQueue l hl).forcePending l hl).updLine l hl _ fun ⟨a, b, _⟩ => ⟨⟨a, b, Nat.zero_le _⟩, Nat.le_refl _⟩

theorem settleSuspended {s0 s : State} (h : Onward L s0 s) (l) (hl : L l) : Onward L s0 (s.settleSuspended l) :=
  (h.emptyQueue l hl).updLine l hl _ fun ⟨a, b, _⟩ => ⟨⟨a, b, Nat.zero_le _⟩, Nat.le_refl _⟩

theorem leave {s0 s : State} (h : Onward L s0 s) (l) (hl : L l) (k) : Onward L s0 (s.leave l k) := by
  cases k
  · exact h.settleIdle l hl
  · exact h.settleSuspended l hl

/-- The steps that follow the closes, taken at once or waiting, change no line but the one that leaves (R27, R56, R81). -/
theorem leaveAfterCloses {s0 s : State} (h : Onward L s0 s) (l) (hl : L l) (k) : Onward L s0 (s.leaveAfterCloses l k) := by
  unfold State.leaveAfterCloses
  split
  · exact (h.glu ((GluKeeps.refl s).waitGlu _)).glu ((GluKeeps.refl _).waitGlu _)
  · exact h.leave l hl k

theorem openOutputs {s0 s : State} (h : Onward L s0 s) (l k ts a e) (hl : L l) : Onward L s0 (s.openOutputs l k ts a e) := by
  unfold State.openOutputs
  have h1 := h.glu ((GluKeeps.refl (L := L) s).gluOpen l k ts a e hl)
  generalize s.gluOpen l k ts a e = q at h1
  exact (h1.plain l hl _ rfl rfl rfl).countLine l hl _

theorem weldCall {s0 s : State} (h : Onward L s0 s) (l a e t d r) (hl : L l) : Onward L s0 (s.weldCall l a e t d r) := by
  unfold State.weldCall
  have h1 := h.glu ((GluKeeps.refl (L := L) s).gluWeld l a e t d r hl)
  generalize s.gluWeld l a e t d r = q at h1
  refine countLine (Onward.updLine h1 l hl _ fun ⟨x, y, z⟩ => ⟨⟨x, y, ?_⟩, Nat.le_refl _⟩) l hl _
  unfold Line.join
  dsimp only
  split
  · rw [List.length_append, List.length_singleton]
    omega
  · exact z

/-- A call GLU takes changes no line but the one it is made for (R89 to R94, R98). -/
theorem gluTakes {s0 s : State} (h : Onward L s0 s) (c : GluCall) (hl : ∀ l, c.line = some l → L l) :
    Onward L s0 (s.gluTakes c) := by
  cases c with
  | endFeeding l a e => exact h.glu ((GluKeeps.refl s).endFeeding l a e true (hl l rfl))
  | closeOutputs k os => exact h.glu ((GluKeeps.refl s).closeLast k os (hl k.line rfl))
  | weld l a e t d r => exact h.weldCall l a e t d r (hl l rfl)
  | closeCut k os => exact h.glu ((GluKeeps.refl s).gluClose k os)
  | openOutputs l k ts a e => exact h.openOutputs l k ts a e (hl l rfl)
  | releasePin r => exact h.glu ((GluKeeps.refl s).releasePin r)

/-- A call on GLU, taken at once or waiting, changes no line but the one it is made for (R81). -/
theorem callGlu {s0 s : State} (h : Onward L s0 s) (c : GluCall) (hl : ∀ l, c.line = some l → L l) :
    Onward L s0 (s.callGlu c) := by
  unfold State.callGlu
  split
  · exact h.glu ((GluKeeps.refl s).waitGlu _)
  · exact h.gluTakes c hl

theorem closeLinePieces {s0 s : State} (h : Onward L s0 s) (l) (hl : L l) (e) : Onward L s0 (s.closeLinePieces l e) :=
  (h.callGlu _ fun _ e => by cases e; exact hl).callGlu _ fun _ e => by cases e; exact hl

theorem deactivateLine {s0 s : State} (h : Onward L s0 s) (l) (hl : L l) : Onward L s0 (s.deactivateLine l) := by
  unfold State.deactivateLine
  exact ((h.bin ((BinKeeps.refl s).closeBins l hl)).closeLinePieces l hl _).leaveAfterCloses l hl _

theorem dropBins {s0 s : State} (h : Onward L s0 s) (l) (hl : L l) (c) : Onward L s0 (s.dropBins l c) :=
  h.bin ((BinKeeps.refl s).dropBins l c hl)

theorem resetLineState {s0 s : State} (h : Onward L s0 s) (l) (hl : L l) : Onward L s0 (s.resetLineState l) := by
  unfold State.resetLineState
  have h1 : Onward L s0 (s.updLine l fun x => { x with counters := {}, sup := { x.sup with grace := 0 } }) :=
    h.plain l hl _ rfl rfl rfl
  dsimp only
  split
  · exact ((h1.dropBins l hl true).closeLinePieces l hl _).leaveAfterCloses l hl _
  · split
    · exact (h1.settleIdle l hl).plain l hl _ rfl rfl rfl
    · exact h1

theorem warmLine {s0 s : State} (h : Onward L s0 s) (l) (hl : L l) : Onward L s0 (s.warmLine l) := by
  unfold State.warmLine
  have h1 : Onward L s0 (s.updLine l fun x => { x with sup := { x.sup with grace := 0 } }) := h.plain l hl _ rfl rfl rfl
  dsimp only
  split
  · exact h1
  · split
    · exact ((h1.dropBins l hl false).closeLinePieces l hl _).leaveAfterCloses l hl _
    · exact h1.settleIdle l hl

theorem suspend {s0 s : State} (h : Onward L s0 s) (l) (hl : L l) : Onward L s0 (s.suspend l) := by
  unfold State.suspend
  dsimp only
  have h1 := (h.raise .lineSuspended (some l) none (some ((s.line l).axis : Int))).countLine l hl fun c =>
    { c with lineSuspended := sat c.lineSuspended 1 }
  have h2 := h1.bin (((BinKeeps.refl _).markBins l { estimated := true }).closeBins l hl)
  exact (h2.closeLinePieces l hl true).leaveAfterCloses l hl _

theorem countGrace {s0 s : State} (h : Onward L s0 s) (l) (hl : L l) : Onward L s0 (s.countGrace l) := by
  unfold State.countGrace
  dsimp only
  split
  · generalize (if (s.line l).sup.grace = 65535 then 0 else (s.line l).sup.grace + 1) = g
    have h1 : Onward L s0 (s.updLine l fun y => { y with sup := { y.sup with grace := g } }) := h.plain l hl _ rfl rfl rfl
    split
    · exact h1.suspend l hl
    · exact h1
  · exact h

theorem reckonLine {s0 s : State} (h : Onward L s0 s) (l) (hl : L l) (p) : Onward L s0 (s.reckonLine l p) := by
  unfold State.reckonLine
  dsimp only
  split
  · refine countGrace ?_ l hl
    split
    · exact (h.plain l hl _ rfl rfl rfl).advance l hl _
    · exact h.plain l hl _ rfl rfl rfl
  · split
    · exact h.countGrace l hl
    · exact h

theorem testDrain {s0 s : State} (h : Onward L s0 s) (i) : Onward L s0 (s.testDrain i) := by
  unfold State.testDrain
  split
  · refine h.trans ⟨fun _ _ => rfl, rfl, rfl, rfl, rfl, rfl, rfl, rfl, rfl, fun w => ⟨rfl, w⟩, rfl, ?_⟩
    exact ⟨rfl, rfl, fun hi => ⟨hi, fun _ => Nat.le_refl _⟩⟩
  · exact h

theorem testDrains {s0 s : State} (h : Onward L s0 s) : Onward L s0 s.testDrains :=
  forEach (fun _ i h => h.testDrain i) _ _ (h.knows _ (fun k => k.behindSeal))

theorem reckonReaches {s0 s : State} (h : Onward L s0 s) (l) (hl : L l) (p) : Onward L s0 (s.reckonReaches l p) := by
  unfold State.reckonReaches
  split
  · exact h.glu ((GluKeeps.refl s).waitLine l _)
  · exact h.reckonLine l hl p

theorem takeReckon {s0 s : State} (h : Onward L s0 s) (hl : ∀ l, L l) (p) : Onward L s0 (s.takeReckon p) := by
  unfold State.takeReckon
  split
  · exact h
  · exact (forEach (fun _ l h => h.reckonReaches l (hl l) p) _ _ h).testDrains

/-! ### LENGTH -/

theorem refer {s0 s : State} (h : Onward L s0 s) (l) (hl : L l) (c v) : Onward L s0 (s.refer l c v) :=
  h.plain l hl _ rfl rfl rfl

theorem settleLength {s0 s : State} (h : Onward L s0 s) (l) (hl : L l) (d) : Onward L s0 (s.settleLength l d) := by
  unfold State.settleLength
  dsimp only
  split
  · exact h.plain l hl _ rfl rfl rfl
  · split
    · split
      · exact ((h.plain l hl _ rfl rfl rfl).enterRunning l hl).plain l hl _ rfl rfl rfl
      · exact h.plain l hl _ rfl rfl rfl
    · exact h.plain l hl _ rfl rfl rfl

theorem forward {s0 s : State} (h : Onward L s0 s) (l) (hl : L l) (d) : Onward L s0 (s.forward l d) := by
  unfold State.forward
  dsimp only
  split
  · exact h
  · split
    · exact (h.plain l hl _ rfl rfl rfl).advance l hl _
    · split
      · exact h.plain l hl _ rfl rfl rfl
      · exact (h.plain l hl _ rfl rfl rfl).advance l hl _

theorem backward {s0 s : State} (h : Onward L s0 s) (l) (hl : L l) (d) : Onward L s0 (s.backward l d) := by
  unfold State.backward
  split
  · exact (h.plain l hl _ rfl rfl rfl).countLine l hl _
  · exact h.plain l hl _ rfl rfl rfl

theorem jump {s0 s : State} (h : Onward L s0 s) (l) (hl : L l) (d) : Onward L s0 (s.jump l d) := by
  unfold State.jump
  have h1 := h.gapClose l hl
  generalize s.gapClose l = u at h1
  exact (((h1.setAxis l hl _ (Nat.le_add_right _ _)).plain l hl _ rfl rfl rfl).jumpFault l hl).axisChecks l hl

theorem travel {s0 s : State} (h : Onward L s0 s) (l) (hl : L l) (d) : Onward L s0 (s.travel l d) := by
  unfold State.travel
  split
  · exact h.backward l hl _
  · split
    · exact h.forward l hl _
    · exact h.jump l hl _

theorem catchUp {s0 s : State} (h : Onward L s0 s) (l) (hl : L l) (a) (ha : (s.line l).axis ≤ a) :
    Onward L s0 (s.catchUp l a) := by
  unfold State.catchUp
  split
  · exact h.jumpTo l hl a ha
  · exact (h.setAxis l hl a ha).axisChecks l hl

theorem setGap {s0 s : State} (h : Onward L s0 s) (l) (hl : L l) (a) : Onward L s0 (s.setGap l a) :=
  h.plain l hl _ rfl rfl rfl

theorem returnLength {s0 s : State} (h : Onward L s0 s) (l) (hl : L l) (d) : Onward L s0 (s.returnLength l d) := by
  unfold State.returnLength
  dsimp only
  split
  · exact h.enterRunning l hl
  · split
    · exact (h.catchUp l hl _ (by omega)).enterRunning l hl
    · exact (h.setGap l hl _).plain l hl _ rfl rfl rfl

theorem payGap {s0 s : State} (h : Onward L s0 s) (l) (hl : L l) (d) : Onward L s0 (s.payGap l d) := by
  unfold State.payGap
  dsimp only
  split
  · exact (h.plain l hl _ rfl rfl rfl).advance l hl _
  · exact h.plain l hl _ rfl rfl rfl

theorem jumpGap {s0 s : State} (h : Onward L s0 s) (l) (hl : L l) (d) : Onward L s0 (s.jumpGap l d) := by
  unfold State.jumpGap
  dsimp only
  have h0 := h.gapClose l hl
  generalize s.gapClose l = u at h0
  have h1 := ((h0.plain l hl (fun x => { x with sup := { x.sup with gap := 0 } }) rfl rfl rfl).setAxis l hl _
    (Nat.le_add_right _ (d - (u.line l).sup.gap))).jumpFault l hl
  split
  · exact h1.axisChecks l hl
  · exact h1

theorem holdbackStep {s0 s : State} (h : Onward L s0 s) (l) (hl : L l) (d) : Onward L s0 (s.holdbackStep l d) := by
  unfold State.holdbackStep
  split
  · exact h.plain l hl _ rfl rfl rfl
  · split
    · exact h.payGap l hl _
    · exact h.jumpGap l hl _

theorem holdbackLength {s0 s : State} (h : Onward L s0 s) (l) (hl : L l) (d) : Onward L s0 (s.holdbackLength l d) := by
  unfold State.holdbackLength
  dsimp only
  split
  · exact (h.holdbackStep l hl d).enterRunning l hl
  · exact h.holdbackStep l hl d

theorem parkedMissing {s0 s : State} (h : Onward L s0 s) (l) (hl : L l) (d b) : Onward L s0 (s.parkedMissing l d b) := by
  unfold State.parkedMissing
  dsimp only
  split
  · split
    · exact h.catchUp l hl _ (by omega)
    · exact h.setGap l hl _
  · exact h.holdbackStep l hl d

theorem parkedLengthTaken {s0 s : State} (h : Onward L s0 s) (l) (hl : L l) (d) : Onward L s0 (s.parkedLengthTaken l d) := by
  unfold State.parkedLengthTaken
  dsimp only
  split
  · exact (h.plain l hl _ rfl rfl rfl).parkedMissing l hl d _
  · exact (h.plain l hl _ rfl rfl rfl).travel l hl d

theorem takeLength {s0 s : State} (h : Onward L s0 s) (l) (hl : L l) (c v) : Onward L s0 (s.takeLength l c v) := by
  unfold State.takeLength
  dsimp only
  have h1 := h.refer l hl c v
  split
  · exact h1.settleLength l hl _
  · exact (h1.plain l hl _ rfl rfl rfl).travel l hl _
  · exact h1.parkedLengthTaken l hl _
  · exact h1.returnLength l hl _
  · exact h1.holdbackLength l hl _
  · exact h1

/-! ### SAMPLE, WELD, CUT and STATE -/

theorem takeSample {s0 s : State} (h : Onward L s0 s) (l) (hl : L l) (n ps) : Onward L s0 (s.takeSample l n ps) := by
  unfold State.takeSample
  split
  · exact h.countLine l hl _
  · exact h.bin ((BinKeeps.refl _).takePairs _ _ hl)

theorem takeWeld {s0 s : State} (h : Onward L s0 s) (l) (hl : L l) (c d t) : Onward L s0 (s.takeWeld l c d t) := by
  unfold State.takeWeld
  dsimp only
  split
  · exact (h.raise _ _ _ _).countLine l hl _
  · exact (h.callGlu _ fun _ e => by cases e; exact hl).holdLine l

theorem acceptCut {s0 s : State} (h : Onward L s0 s) (l) (hl : L l) (k n ts a e) : Onward L s0 (s.acceptCut l k n ts a e) := by
  unfold State.acceptCut
  dsimp only
  have h1 : Onward L s0 (if (s.line l).outputs.isEmpty then s else s.callGlu (.closeCut
      { line := l, start := (s.line l).boundary.getD 0, stop := a, finished := n, est := e, incomplete := false }
      (s.line l).outputs)) := by
    split
    · exact h
    · exact h.callGlu _ fun _ e => by cases e; exact hl
  generalize (if (s.line l).outputs.isEmpty then s else s.callGlu (.closeCut
      { line := l, start := (s.line l).boundary.getD 0, stop := a, finished := n, est := e, incomplete := false }
      (s.line l).outputs)) = u at h1
  have h2 : Onward L s0 (u.updLine l fun x => { x with chain := x.chain.filter fun j => decide (a < j.axis) }) := by
    refine h1.updLine l hl _ fun ⟨x, y, z⟩ => ⟨⟨x, y, ?_⟩, Nat.le_refl _⟩
    exact Nat.le_trans (List.length_filter_le _ _) z
  generalize (u.updLine l fun x => { x with chain := x.chain.filter fun j => decide (a < j.axis) }) = v at h2
  exact (h2.callGlu _ fun _ e => by cases e; exact hl).holdLine l

theorem takeCut {s0 s : State} (h : Onward L s0 s) (l) (hl : L l) (k n ts) : Onward L s0 (s.takeCut l k n ts) := by
  unfold State.takeCut
  dsimp only
  split
  · exact (h.raise _ _ _ _).countLine l hl _
  · split
    · exact (h.raise _ _ _ _).countLine l hl _
    · exact h.acceptCut l hl _ _ _ _ _

theorem takeStop {s0 s : State} (h : Onward L s0 s) (l) (hl : L l) : Onward L s0 (s.takeStop l) := by
  unfold State.takeStop
  split
  · exact h.park l hl
  · exact h.park l hl
  · exact h.park l hl
  · exact h

theorem enterDegraded {s0 s : State} (h : Onward L s0 s) (l) (hl : L l) (st) : Onward L s0 (s.enterDegraded l st) :=
  h.plain l hl _ rfl rfl rfl

theorem leaveParked {s0 s : State} (h : Onward L s0 s) (l) (hl : L l) : Onward L s0 (s.leaveParked l) := by
  unfold State.leaveParked
  dsimp only
  have h1 : Onward L s0 (s.updLine l fun x => { x with refMissing := false, parkedLength := false }) :=
    h.plain l hl _ rfl rfl rfl
  split
  · exact h1.enterRunning l hl
  · split
    · exact h1.enterDegraded l hl _
    · split
      · exact h1.enterRunning l hl
      · exact (h1.enterDegraded l hl _).plain l hl _ rfl rfl rfl

theorem takeRun {s0 s : State} (h : Onward L s0 s) (l) (hl : L l) : Onward L s0 (s.takeRun l) := by
  unfold State.takeRun
  split
  · exact h.leaveParked l hl
  · exact h

/-- The taking of an event, whatever its effect, touches no line but its own (R12, R13). -/
theorem onEvent {s0 s : State} (h : Onward L s0 s) (l) (hl : L l) (act : Body → Option (State → State))
    (ha : ∀ b f, act b = some f → ∀ t, Onward L s0 t → Onward L s0 (f t)) : Onward L s0 (s.onEvent l act) := by
  unfold State.onEvent
  split
  · exact h
  · split
    · exact h
    · rename_i e _ _ f hf
      exact ((ha _ f hf _ (h.takeEvent l hl e)).noteHeld l e _).testDrains

end Onward

end Sys2Proof.Machine
end

