-- ==== Sys2Proof/Laws/Events.lean ====
section
/-! SUPPORT. What taking an event does, once for every event; and a line's fields, its counters apart, after the shared
movements of its axis. -/

namespace Sys2Proof.Machine

/-- A line without its counters. -/
def Line.uncounted (x : Line) : Line := { x with counters := {} }

theorem line_eq_of_uncounted {a b : Line} (h : a.uncounted = b.uncounted) (hc : a.counters = b.counters) : a = b := by
  cases a
  cases b
  simp [Line.uncounted] at h hc ⊢
  simp_all

theorem uncounted_of_binKeeps {s t : State} {L} (h : BinKeeps L s t) (l) : (t.line l).uncounted = (s.line l).uncounted := by
  rw [h.lineEq l]
  rfl

theorem uncounted_axisChecks (s : State) (l) : ((s.axisChecks l).line l).uncounted =
    { s.line l with stations := (s.line l).stationsAt (s.line l).axis }.uncounted := by
  unfold State.axisChecks
  rw [uncounted_of_binKeeps ((BinKeeps.refl (L := fun _ => True) _).tellStations l trivial) l, line_updLine_same]
  rfl

/-- An advance moves the axis, and the pending contents it reaches come into force (R19, R30, R34). -/
theorem uncounted_advance (s : State) (l d) : ((s.advance l d).line l).uncounted =
    { s.line l with
      axis := min ((s.line l).axis + d) Config.axisMax,
      stations := (s.line l).stationsAt (min ((s.line l).axis + d) Config.axisMax) }.uncounted := by
  unfold State.advance
  rw [uncounted_axisChecks]
  simp only [State.setAxis, line_updLine_same]
  rfl

theorem line_takeEvent (s : State) (l e) : (s.takeEvent l e).line l = (s.line l).took e := by
  unfold State.takeEvent
  dsimp only
  split
  · rw [show (State.markBins _ l { gap := true }).line l =
        (s.updLine l fun x => { x with queue := x.queue.drop 1, lastTaken := e.arrival }).line l from rfl]
    simp [Line.took]
  · simp [Line.took]

theorem line_learnTaken (s : State) (l) : s.learnTaken.line l = s.line l := rfl

theorem line_testDrains (s : State) (l) : s.testDrains.line l = s.line l := by
  have all : ∀ (xs : List CtxId) (s : State), (xs.foldl State.testDrain s).line l = s.line l := by
    intro xs
    induction xs with
    | nil => intro s; rfl
    | cons a xs ih =>
      intro s
      rw [List.foldl_cons, ih]
      unfold State.testDrain
      split <;> rfl
  exact (all _ _).trans (line_learnTaken s l)

theorem line_noteHeld (s : State) (l k e os) : (s.noteHeld l e os).line k = s.line k := by
  unfold State.noteHeld
  split <;> rfl

theorem headEvent_of_awaits {s : State} {l e} (h : Awaits s l e) : s.headEvent l = some e := by
  obtain ⟨a, b, c⟩ := h
  simp [State.headEvent, State.isRunning, a, State.lineHeld, b, c]

theorem gluBusy_of_free {s : State} (h : GluFree s) : s.gluBusy = false := by
  simp [State.gluBusy, h.1, h.2]

/-- An event of a kind at the head of its line's queue leaves it, has its effect, and the drain marks are tested. -/
theorem onEvent_eq {s : State} {l e} (h : Awaits s l e) {act f} (hf : act e.body = some f) :
    s.onEvent l act = ((f (s.takeEvent l e)).noteHeld l e s.stc.heldOffers).testDrains := by
  simp [State.onEvent, headEvent_of_awaits h, hf]

/-- A forward LENGTH pays the reverse debt, forgets one that overflowed, and advances by the rest (R31, R32). -/
theorem uncounted_forward (s : State) (l k) : ((s.forward l k).line l).uncounted =
    (let x := s.line l
     let d := if x.reverseOver then k else k - x.reverseDebt
     { x with
        axis := if d = 0 then x.axis else min (x.axis + d) Config.axisMax
        stations := if d = 0 then x.stations else x.stationsAt (min (x.axis + d) Config.axisMax)
        reverseDebt := if k = 0 then x.reverseDebt else if x.reverseOver then 0 else x.reverseDebt - k
        reverseOver := x.reverseOver && decide (k = 0) }).uncounted := by
  unfold State.forward
  by_cases h0 : k = 0
  · simp [h0]
  · by_cases h1 : (s.line l).reverseOver
    · simp [h0, h1, uncounted_advance]; rfl
    · by_cases h2 : k ≤ (s.line l).reverseDebt
      · have : k - (s.line l).reverseDebt = 0 := by omega
        simp [h0, h1, h2, this]
      · have : ¬ k - (s.line l).reverseDebt = 0 := by omega
        have h3 : (s.line l).reverseDebt - k = 0 := by omega
        simp [h0, h1, h2, this, uncounted_advance, h3]; rfl

end Sys2Proof.Machine
end

