-- ==== Sys2Proof/Laws/Serve.lean ====
section
/-! SUPPORT. What taking a request does, once for every request: dropped, not permitted, answered, or held; what its reply and a
query's draining context leave unchanged. -/

namespace Sys2Proof.Machine

/-- Taking the request at the head of the queue and counting it, as one update. -/
theorem taken_eq (s : State) :
    ((s.updMgt fun m => { m with requests := m.requests.drop 1 }).countMgt fun c =>
      { c with requestsTaken := sat c.requestsTaken 1 }) = s.taken := rfl

theorem headRequest_of_faces {s : State} {r : Request} (h : Faces s r) : s.headRequest = some r := by
  obtain ⟨h1, h2, h3, h4⟩ := h
  simp [State.headRequest, State.isRunning, h1, h2, h3, h4]

/-- A request from a source without an enabled entry is dropped and counted ACCESS_DROP (R173). -/
theorem serve_dropped {α : Type} {s : State} {r : Request} {k : Service α} (h : Faces s r) (hf : k.fits r = true)
    (hn : s.roleOf r.src = none) :
    s.serve k = (s.updMgt fun m => { m with requests := m.requests.drop 1 }).countMgt fun c =>
      { c with accessDrop := sat c.accessDrop 1 } := by
  have hn' : (s.updMgt fun m => { m with requests := m.requests.drop 1 }).roleOf r.src = none := hn
  simp only [State.serve, headRequest_of_faces h, hf, hn', if_true]

/-- A request that asks for more than its source's role is answered NOT_PERMITTED (R171). -/
theorem serve_notPermitted {α : Type} {s : State} {r : Request} {k : Service α} (h : Faces s r) (hf : k.fits r = true)
    (hk : k.role = .engineer) (hv : s.roleOf r.src = some .view) :
    s.serve k = s.taken.answer r { reason := .notPermitted } := by
  have hv' : (s.updMgt fun m => { m with requests := m.requests.drop 1 }).roleOf r.src = some .view := hv
  simp only [State.serve, headRequest_of_faces h, hf, hv', hk, taken_eq, if_true, and_self]

/-- A permitted request is settled by the form of its body: malformed, it is BAD_VALUE at once; else its owner takes it in the state
that has taken it, or it waits there (R171). -/
theorem serve_permitted {α : Type} {s : State} {r : Request} {k : Service α} (h : Faces s r) (hf : k.fits r = true)
    (hv : s.roleOf r.src = some .engineer ∨ (k.role = .view ∧ s.roleOf r.src = some .view)) :
    s.serve k = match k.form r with
      | none => s.taken.answer r { reason := .badValue }
      | some x =>
        if s.taken.engaged (k.taker r x s.taken) then s.taken.pass r (k.taker r x s.taken) else s.taken.settle k r x := by
  obtain ⟨role, hv', hk⟩ : ∃ role, (s.updMgt fun m => { m with requests := m.requests.drop 1 }).roleOf r.src = some role ∧
      ¬ (k.role = .engineer ∧ role = .view) := by
    rcases hv with h1 | ⟨h1, h2⟩
    · exact ⟨.engineer, h1, by simp⟩
    · exact ⟨.view, h2, by simp [h1]⟩
  simp only [State.serve, headRequest_of_faces h, hf, hv', taken_eq, if_true, if_neg hk]; rfl

/-- A permitted request of version 1 whose body is right, and whose owner can take it, as the statements say it. -/
theorem serve_granted {α : Type} {s : State} {r : Request} {k : Service α} {code : Nat} {x : α} (h : Granted s r code k.role)
    (hf : Request.is code r = true → k.fits r = true) (hx : k.form r = some x)
    (hr : s.taken.engaged (k.taker r x s.taken) = false) :
    s.serve k = (k.act r x s.taken).2.reply r (k.act r x s.taken).1 (k.waits r x s.taken (k.act r x s.taken).2) := by
  obtain ⟨h1, h2, h3, h4⟩ := h
  rw [serve_permitted h1 (hf (by simp [Request.is, h2, h3])) h4, hx]
  simp only [hr, Bool.false_eq_true, if_false, State.settle]

/-- A permitted request of version 1 whose owner cannot take it yet waits for it (R81, R171). -/
theorem serve_passed {α : Type} {s : State} {r : Request} {k : Service α} {code : Nat} {x : α} (h : Granted s r code k.role)
    (hf : Request.is code r = true → k.fits r = true) (hx : k.form r = some x)
    (hr : s.taken.engaged (k.taker r x s.taken) = true) :
    s.serve k = s.taken.pass r (k.taker r x s.taken) := by
  obtain ⟨h1, h2, h3, h4⟩ := h
  rw [serve_permitted h1 (hf (by simp [Request.is, h2, h3])) h4, hx]
  simp only [hr, if_true]

/-- A permitted request of version 1 whose body is malformed (R171). -/
theorem serve_malformed {α : Type} {s : State} {r : Request} {k : Service α} {code : Nat} (h : Granted s r code k.role)
    (hf : Request.is code r = true → k.fits r = true) (hx : k.form r = none) :
    s.serve k = s.taken.answer r { reason := .badValue } := by
  obtain ⟨h1, h2, h3, h4⟩ := h
  rw [serve_permitted h1 (hf (by simp [Request.is, h2, h3])) h4, hx]

/-- A LOAD_ENTRY whose contents read as an entry, and whose owner can take it, is judged by its owner, and its reply is handed over or
held (R174). -/
theorem serve_load {α : Type} {s : State} {r : Request} {table width : Nat} {taker : Request → Taker}
    {parse : List Byte → Option α} {load : Nat → α → State → Reason × State} {waits : Request → State → Option ReplyWait} {e : α}
    (h : Loading s r table width) (hr : s.taken.engaged (taker r) = false) (hp : parse r.body = some e) :
    s.serve (loadService table width taker parse load waits) =
      (load r.index e s.taken).2.reply r { reason := (load r.index e s.taken).1 } (waits r (load r.index e s.taken).2) := by
  obtain ⟨hg, h0, h1⟩ := h
  have h2 : ¬ (u8At r.body 0 ≠ table ∨ r.body.length < 3 + width) := by omega
  rw [serve_granted (x := e) (code := 1) hg ?_ ?_ hr]
  · rfl
  · intro hi
    simp [loadService, Request.loads, hi, h0]
  · simp only [loadService, Request.loaded, h2, if_false, hp]

/-- What a line is to take once its call is complete stands right behind the last that waits for the line (R47, R81). -/
theorem waitLine_behind {s : State} {l : LineId} {w x : GluWait} {before after : List GluWait}
    (h : s.glu.waits = before ++ w :: after) (hw : w.concerns l = true) (ha : ∀ v ∈ after, v.concerns l = false) :
    s.waitLine l x = s.updGlu fun g => { g with waits := before ++ w :: x :: after } := by
  have h1 : ((before ++ w :: after).reverse.takeWhile fun y => !y.concerns l).reverse = after := by
    rw [List.reverse_append, List.reverse_cons, List.append_assoc, List.takeWhile_append_of_pos (by simpa using ha)]
    simp [hw]
  have h2 : (before ++ w :: after).length - after.length = (before ++ [w]).length := by simp; omega
  have h3 : before ++ w :: after = (before ++ [w]) ++ after := by simp
  simp only [State.waitLine, State.updGlu, h, h1]
  rw [h2, h3, List.take_left]
  simp

/-- The turn of a passed request whose owner can take it: it is settled, and is passed on no longer (R171). -/
theorem own_free {α : Type} {s : State} {k : Service α} {r : Request} {x : α} (hx : k.form r = some x)
    (hf : s.heldFor (k.taker r x s) = false) :
    s.own k r = (s.settle k r x).updMgt fun m => { m with passed := none } := by
  simp only [State.own, hx, hf, Bool.false_eq_true, if_false]

/-- The turn of a passed request whose line has made a call since: it waits once more (R81, R171). -/
theorem own_held {α : Type} {s : State} {k : Service α} {r : Request} {x : α} (hx : k.form r = some x)
    (hf : s.heldFor (k.taker r x s) = true) : s.own k r = s.pass r (k.taker r x s) := by
  simp only [State.own, hx, hf, if_true]

/-- A reply's effect on the ports, on MGT and on what waits for GLU is settled by those three and the station address alone, and it
leaves the store as it is (R171). -/
theorem reply_outside {s t : State} (hp : t.prl = s.prl) (hm : t.mgt = s.mgt) (hs : t.station = s.station) (r : Request) (x : Reply)
    (k : Option ReplyWait) :
    (t.reply r x k).prl = (s.reply r x k).prl ∧ (t.reply r x k).mgt = (s.reply r x k).mgt
    ∧ (t.glu.waits = s.glu.waits → (t.reply r x k).glu.waits = (s.reply r x k).glu.waits) ∧ (t.reply r x k).stc = t.stc := by
  have hf : t.replyFrame r x = s.replyFrame r x := by simp only [State.replyFrame, State.ownFrame, hs]
  cases k with
  | none =>
    simp only [State.reply, State.answer, hf]
    cases r.port <;> simp [State.transmit, State.updPort, State.countMgt, State.updMgt, State.updPrl, hp, hm]
  | some k =>
    cases k <;>
      exact ⟨hp, by simp only [State.reply, State.updMgt, State.updGlu, State.waitGlu, hm],
        fun hw => by simp only [State.reply, State.updMgt, State.updGlu, State.waitGlu, hw], rfl⟩

/-- A context that enters DRAINING changes what PBK holds and, by its pin, the directory of GLU, and nothing else (R133 to R135). -/
theorem drainContext_outside (s : State) (i : CtxId) (c : Context) (p : PieceRef) :
    s.drainContext i c p = { s with
      pbk := (s.drainContext i c p).pbk, glu := { s.glu with dir := (s.drainContext i c p).glu.dir } } := by
  unfold State.drainContext State.implicitPin State.testDrain
  dsimp only
  repeat' split
  all_goals rfl

/-- With no request of its kind to take, a request command leaves the state as it is (log 1). -/
theorem serve_other {α : Type} {s : State} {k : Service α} (h : ∀ r, s.headRequest = some r → k.fits r = false) :
    s.serve k = s := by
  unfold State.serve
  split
  · rfl
  · rename_i r hr
    simp [h r hr]

end Sys2Proof.Machine
end

