-- ==== Sys2Proof/Laws/WalkKeeps.lean ====
section
/-! SUPPORT. What a read of the store and the assembly engine keep, said once for each: reads correct words and count; the engine
changes nothing but PBK and what its reads change. -/

namespace Sys2Proof.Machine

/-- The change a read may make: words corrected in the DRAM and counted, and blocks found unreadable (R123, R126). -/
def ReadKeeps (s t : State) : Prop :=
  t = { s with stc := { s.stc with dram := t.stc.dram, wrongBits := t.stc.wrongBits, counters := t.stc.counters,
                                   blocks := t.stc.blocks } }

namespace ReadKeeps

theorem refl (s : State) : ReadKeeps s s := rfl

theorem trans {s t u : State} (h : ReadKeeps s t) (k : ReadKeeps t u) : ReadKeeps s u := by
  unfold ReadKeeps at h k ⊢
  rw [k, h]

theorem countStc {s0 s : State} (h : ReadKeeps s0 s) (f) : ReadKeeps s0 (s.countStc f) := h.trans rfl

theorem checkWord {s0 s : State} (h : ReadKeeps s0 s) (a w acc) : ReadKeeps s0 (s.checkWord a w acc).2 := by
  unfold State.checkWord
  dsimp only
  split
  · exact h
  · split
    · exact h.trans rfl
    · exact h
    · exact h.trans rfl

theorem readDram {s0 s : State} (h : ReadKeeps s0 s) (a) : ReadKeeps s0 (s.readDram a).2 := by
  have key : ∀ (ws : List Nat) (r : Option Cell × State), ReadKeeps s0 r.2 →
      ReadKeeps s0 (ws.foldl (fun r w => r.2.checkWord a w r.1) r).2 := by
    intro ws
    induction ws with
    | nil => intro r h; exact h
    | cons w ws ih => intro r h; exact ih _ (h.checkWord a w r.1)
  unfold State.readDram
  split
  · exact h.trans rfl
  · exact key _ _ h

theorem readThrough {s0 s : State} (h : ReadKeeps s0 s) (q a) : ReadKeeps s0 (s.readThrough q a).2 := by
  unfold State.readThrough
  split
  · exact h
  · exact h
  · exact h.readDram a

theorem read {s0 s : State} (h : ReadKeeps s0 s) (a) : ReadKeeps s0 (s.read a).2 := h.readThrough _ a

theorem gluRead {s0 s : State} (h : ReadKeeps s0 s) (a) : ReadKeeps s0 (s.gluRead a).2 := h.readThrough _ a

theorem readUnits {s0 s : State} (h : ReadKeeps s0 s) (rd : State → Nat → Option Cell × State)
    (hr : ∀ s a, ReadKeeps s0 s → ReadKeeps s0 (rd s a).2) (i) : ReadKeeps s0 (s.readUnits rd i).2 := by
  have key : ∀ (us : List Nat) (r : Option (List Cell) × State), ReadKeeps s0 r.2 →
      ReadKeeps s0 (us.foldl (fun (acc : Option (List Cell) × State) u =>
        let (c, s) := rd acc.2 (pieceAddr i u)
        ((match acc.1, c with
          | some cs, some c => some (cs ++ [c])
          | _, _ => none), s)) r).2 := by
    intro us
    induction us with
    | nil => intro r h; exact h
    | cons u us ih => intro r h; exact ih _ (hr r.2 _ h)
  exact key _ (some [], s) h

theorem readRecord {s0 s : State} (h : ReadKeeps s0 s) (i) : ReadKeeps s0 (s.readRecord i).2 :=
  h.readUnits _ (fun _ a h => h.read a) i

theorem gluRecord {s0 s : State} (h : ReadKeeps s0 s) (i) : ReadKeeps s0 (s.gluRecord i).2 :=
  h.readUnits _ (fun _ a h => h.gluRead a) i

theorem readHeader {s0 s : State} (h : ReadKeeps s0 s) (b) : ReadKeeps s0 (s.readHeader b).2 := by
  unfold State.readHeader
  have h1 := h.read (headerAddr b)
  split <;> (rename_i heq; rw [heq] at h1; exact h1)

theorem readPlaces {s0 s : State} (h : ReadKeeps s0 s) (b) : ReadKeeps s0 (s.readPlaces b).2 := by
  unfold State.readPlaces
  have h1 := h.read (dirAddr b)
  split
  · rename_i heq; rw [heq] at h1; exact h1
  · rename_i heq; rw [heq] at h1; exact h1
  · rename_i heq
    rw [heq] at h1
    have h2 := h1.readHeader b
    split <;> (rename_i heq; rw [heq] at h2; exact h2)

theorem readDirEntry {s0 s : State} (h : ReadKeeps s0 s) (b) : ReadKeeps s0 (s.readDirEntry b).2 := by
  unfold State.readDirEntry
  have h1 := h.readPlaces b
  split <;> (rename_i heq; rw [heq] at h1)
  · exact h1
  · exact h1.trans rfl

theorem chanHorizon {s0 s : State} (h : ReadKeeps s0 s) (c l) : ReadKeeps s0 (s.chanHorizon c l).2 := by
  unfold State.chanHorizon
  split
  · exact h
  · rename_i b _ _
    have h1 := h.readDirEntry b
    split <;> (rename_i heq; rw [heq] at h1; exact h1)

theorem lineHorizon {s0 s : State} (h : ReadKeeps s0 s) (l) : ReadKeeps s0 (s.lineHorizon l).2 := by
  have key : ∀ (cs : List ChanId) (r : Option Nat × State), ReadKeeps s0 r.2 →
      ReadKeeps s0 (cs.foldl (fun (acc : Option Nat × State) c =>
        if (acc.2.chan c).on l then
          let (h, s) := acc.2.chanHorizon c l
          (some (match acc.1 with
            | some g => min g h
            | none => h), s)
        else acc) r).2 := by
    intro cs
    induction cs with
    | nil => intro r h; exact h
    | cons c cs ih =>
      intro r h
      rw [List.foldl_cons]
      apply ih
      split
      · exact h.chanHorizon c l
      · exact h
  unfold State.lineHorizon
  generalize allChans = cs
  exact key cs (none, s) h

theorem searchDir (bs : List Nat) {s0 : State} : ∀ s, ReadKeeps s0 s → ReadKeeps s0 (s.searchDir bs).2 := by
  induction bs with
  | nil => intro s h; exact h
  | cons b bs ih => intro s h; exact ih _ (h.readDirEntry b)

theorem blockHead {s0 s : State} (h : ReadKeeps s0 s) (b f p) : ReadKeeps s0 (s.blockHead b f p).2 := by
  unfold State.blockHead
  have h1 := h.readHeader b
  split <;> (rename_i heq; rw [heq] at h1; exact h1)

/-- The answer to a read of an abandoned walk changes what STC's reads change and nothing else (R123, R126, R143). -/
theorem answerDiscarded {s0 s : State} (h : ReadKeeps s0 s) (r) : ReadKeeps s0 (s.answerDiscarded r) := by
  have slots : ∀ (b : Nat) (ks : List Nat) (s : State), ReadKeeps s0 s →
      ReadKeeps s0 (s.forEach ks fun s k => (s.read (slotAddr b k)).2) := by
    intro b ks
    induction ks with
    | nil => intro s h; exact h
    | cons k ks ih => intro s h; exact ih _ (h.read _)
  unfold State.answerDiscarded
  split
  · split
    · exact h.readRecord _
    · exact h
  · rename_i l c
    split
    · exact searchDir _ _ (h.chanHorizon c l)
    · exact h
  · rename_i b f p
    split
    · exact slots b _ _ (h.blockHead b f p)
    · exact h
  · exact h.read _

end ReadKeeps

/-- What the assembly engine keeps: everything outside PBK but what its reads correct, count and find unreadable; bounds that held still
hold. -/
structure WalkKeeps (s t : State) : Prop where
  same : t = { s with stc := { s.stc with dram := t.stc.dram, wrongBits := t.stc.wrongBits, counters := t.stc.counters,
                                          blocks := t.stc.blocks },
                      pbk := t.pbk }
  bounded : Bounded s → Bounded t

namespace WalkKeeps

theorem refl (s : State) : WalkKeeps s s := ⟨rfl, fun h => h⟩

theorem trans {s t u : State} (h : WalkKeeps s t) (k : WalkKeeps t u) : WalkKeeps s u where
  same := by rw [k.same, h.same]
  bounded b := k.bounded (h.bounded b)

theorem reads {s t : State} (h : ReadKeeps s t) (b : Bounded s → Bounded t) : WalkKeeps s t :=
  ⟨by unfold ReadKeeps at h; rw [h], b⟩

theorem read {s0 s : State} (h : WalkKeeps s0 s) (a) : WalkKeeps s0 (s.read a).2 :=
  h.trans (reads ((ReadKeeps.refl s).read a) ((StoreKeeps.refl (L := fun _ => True) s).read a).bounded)

theorem readRecord {s0 s : State} (h : WalkKeeps s0 s) (a) : WalkKeeps s0 (s.readRecord a).2 :=
  h.trans (reads ((ReadKeeps.refl s).readRecord a) ((StoreKeeps.refl (L := fun _ => True) s).readRecord a).bounded)

theorem readHeader {s0 s : State} (h : WalkKeeps s0 s) (a) : WalkKeeps s0 (s.readHeader a).2 :=
  h.trans (reads ((ReadKeeps.refl s).readHeader a) ((StoreKeeps.refl (L := fun _ => True) s).readHeader a).bounded)

theorem readDirEntry {s0 s : State} (h : WalkKeeps s0 s) (a) : WalkKeeps s0 (s.readDirEntry a).2 :=
  h.trans (reads ((ReadKeeps.refl s).readDirEntry a) ((StoreKeeps.refl (L := fun _ => True) s).readDirEntry a).bounded)

theorem chanHorizon {s0 s : State} (h : WalkKeeps s0 s) (c l) : WalkKeeps s0 (s.chanHorizon c l).2 :=
  h.trans (reads ((ReadKeeps.refl s).chanHorizon c l) ((StoreKeeps.refl (L := fun _ => True) s).chanHorizon c l).bounded)

/-- A change of PBK that keeps result memory canonical and the cache within its capacity. -/
theorem pbk {s0 s : State} (h : WalkKeeps s0 s) (f : PBK → PBK)
    (hp : Sparse.wf (0 : Byte) s.pbk.pages = true → Sparse.wf (0 : Byte) (f s.pbk).pages = true)
    (hc : s.pbk.cache.length ≤ Config.cacheCapacity → (f s.pbk).cache.length ≤ Config.cacheCapacity) :
    WalkKeeps s0 (s.updPbk f) := by
  refine h.trans ⟨rfl, ?_⟩
  rintro ⟨hm, a, b, c, d, e⟩
  simp only [Memory.wf, Bool.and_eq_true] at hm
  refine ⟨?_, a, b, c, hc d, e⟩
  simp only [Memory.wf, Bool.and_eq_true]
  exact ⟨hm.1, hp hm.2⟩

theorem updEngine {s0 s : State} (h : WalkKeeps s0 s) (f) : WalkKeeps s0 (s.updEngine f) := h.pbk _ id id

theorem updContext {s0 s : State} (h : WalkKeeps s0 s) (i) (f) : WalkKeeps s0 (s.updContext i f) :=
  h.pbk (fun k => { k with contexts := k.contexts.set i (f k.contexts[i]) }) id id

theorem updWorking {s0 s : State} (h : WalkKeeps s0 s) (f) : WalkKeeps s0 (s.updWorking f) := h.updContext _ f

theorem countPbk {s0 s : State} (h : WalkKeeps s0 s) (f) : WalkKeeps s0 (s.countPbk f) := h.pbk _ id id

theorem pushTasks {s0 s : State} (h : WalkKeeps s0 s) (ts) : WalkKeeps s0 (s.pushTasks ts) := h.updEngine _

theorem build {s0 s : State} (h : WalkKeeps s0 s) (i) : WalkKeeps s0 (s.build i) := h.updEngine _

theorem markOpen {s0 s : State} (h : WalkKeeps s0 s) (b) : WalkKeeps s0 (s.markOpen b) := by
  unfold State.markOpen
  split
  · exact h.updWorking _
  · exact h

/-! ### Result pages -/

theorem newPage {s0 s : State} (h : WalkKeeps s0 s) (bs) : WalkKeeps s0 (s.newPage bs).2 := by
  unfold State.newPage
  split
  · exact h
  · split
    · exact h
    · dsimp only
      exact ((h.updWorking _).pbk _ (fun hw => putBytes_wf _ _ _ (Sparse.clearRange_wf _ _ hw)) id).updEngine _

theorem putRecord {s0 s : State} (h : WalkKeeps s0 s) (bs) : WalkKeeps s0 (s.putRecord bs).2 := by
  unfold State.putRecord
  split
  · exact h.newPage bs
  · dsimp only
    split
    · exact (h.pbk _ (putBytes_wf _ _ _) id).updEngine _
    · exact h.newPage bs

theorem truncate {s0 s : State} (h : WalkKeeps s0 s) : WalkKeeps s0 s.truncate := (h.updWorking _).updEngine _

theorem emitRecord {s0 s : State} (h : WalkKeeps s0 s) (bs) : WalkKeeps s0 (s.emitRecord bs).2 := by
  unfold State.emitRecord
  have h1 := h.putRecord bs
  split <;> (rename_i heq; rw [heq] at h1)
  · exact h1
  · exact h1.truncate

theorem rewriteRun {s0 s : State} (h : WalkKeeps s0 s) (r) : WalkKeeps s0 (s.rewriteRun r) := by
  unfold State.rewriteRun
  generalize r.bytes = bs
  exact (h.pbk _ (putBytes_wf _ _ _) id).updEngine _

theorem lowerRun {s0 s : State} (h : WalkKeeps s0 s) (p) : WalkKeeps s0 (s.lowerRun p) := by
  unfold State.lowerRun
  split
  · split
    · exact h.rewriteRun _
    · exact h
  · exact h

theorem emitInRun {s0 s : State} (h : WalkKeeps s0 s) (p bs) : WalkKeeps s0 (s.emitInRun p bs).2 := by
  unfold State.emitInRun
  have h1 := h.putRecord bs
  split <;> (rename_i heq; rw [heq] at h1)
  · exact h1
  · exact (h1.lowerRun _).truncate

theorem flushHeld {s0 s : State} (h : WalkKeeps s0 s) : WalkKeeps s0 s.flushHeld.2 := by
  unfold State.flushHeld
  split
  · exact h
  · exact (h.updEngine _).emitInRun _ _

theorem emitMarker {s0 s : State} (h : WalkKeeps s0 s) (m) : WalkKeeps s0 (s.emitMarker m).2 := by
  unfold State.emitMarker
  have h1 := h.flushHeld
  split <;> (rename_i heq; rw [heq] at h1)
  · exact (h1.updEngine _).emitRecord _
  · exact h1

theorem emitRunMarker {s0 s : State} (h : WalkKeeps s0 s) (m) : WalkKeeps s0 (s.emitRunMarker m).2 := by
  unfold State.emitRunMarker
  have h1 := h.flushHeld
  split <;> (rename_i heq; rw [heq] at h1)
  · exact h1.emitInRun _ _
  · exact h1

theorem emitBin {s0 s : State} (h : WalkKeeps s0 s) (p b n q g) : WalkKeeps s0 (s.emitBin p b n q g).2 := by
  unfold State.emitBin
  generalize s.working.trend = tr
  obtain ⟨x0, x1, res⟩ := tr
  dsimp only
  split
  · exact h.emitInRun _ _
  · split
    · exact h.updEngine _
    · split
      · exact h.updEngine _
      · have h1 := h.flushHeld
        split <;> (rename_i heq; rw [heq] at h1)
        · exact h1.updEngine _
        · exact h1

theorem openRun {s0 s : State} (h : WalkKeeps s0 s) (r) : WalkKeeps s0 (s.openRun r).2 := by
  unfold State.openRun
  have h1 := h.flushHeld
  split
  · rename_i heq; rw [heq] at h1; exact h1
  · rename_i u heq
    rw [heq] at h1
    have h2 := h1.emitRecord r.bytes
    split
    · rename_i heq2; rw [heq2] at h2; exact h2
    · rename_i heq2; rw [heq2] at h2; exact h2.updEngine _

theorem emitRun {s0 s : State} (h : WalkKeeps s0 s) (r) : WalkKeeps s0 (s.emitRun r).2 := by
  unfold State.emitRun
  split
  · split
    · exact h.rewriteRun _
    · exact h.openRun r
  · exact h.openRun r

/-! ### The walks -/

theorem searchDir (bs : List Nat) {s0 : State} : ∀ s, WalkKeeps s0 s → WalkKeeps s0 (s.searchDir bs).2 := by
  induction bs with
  | nil => intro s h; exact h
  | cons b bs ih =>
    intro s h
    unfold State.searchDir
    exact ih _ (h.trans (reads ((ReadKeeps.refl s).readDirEntry b)
      ((StoreKeeps.refl (L := fun _ => True) s).readDirEntry b).bounded))

theorem answerChannel {s0 s : State} (h : WalkKeeps s0 s) (v c) : WalkKeeps s0 (s.answerChannel v c) := by
  unfold State.answerChannel
  split
  · have h1 := h.chanHorizon c v.span.line
    generalize s.chanHorizon c v.span.line = q at h1
    obtain ⟨hz, u⟩ := q
    have h2 := searchDir (u.chanStore c).dir u h1
    dsimp only
    generalize u.searchDir (u.chanStore c).dir = q2 at h2
    obtain ⟨listed, w⟩ := q2
    have h3 := h2.emitRun (v.run c)
    dsimp only
    split <;> (rename_i heq; rw [heq] at h3)
    · exact h3.pushTasks _
    · exact h3
  · exact h

theorem emitSlots (v : Visit) (b f p : Nat) (g : Gen) (ks : List Nat) {s0 : State} :
    ∀ s, WalkKeeps s0 s → WalkKeeps s0 (s.emitSlots v b f p g ks) := by
  induction ks with
  | nil => intro s h; exact h
  | cons k ks ih =>
    intro s h
    unfold State.emitSlots
    have h1 := h.read (slotAddr b k)
    generalize s.read (slotAddr b k) = q at h1
    obtain ⟨c, u⟩ := q
    dsimp only
    split
    · exact ih _ h1
    · rename_i r _
      have h2 := WalkKeeps.emitBin h1 (v.place (((f + k) * p : Nat) : Int) ((((f + k) * p : Nat) : Int) + p)) r (f + k) p g
      split <;> (rename_i heq; rw [heq] at h2)
      · exact ih _ h2
      · exact h2

theorem blockHead {s0 s : State} (h : WalkKeeps s0 s) (b f p) : WalkKeeps s0 (s.blockHead b f p).2 := by
  unfold State.blockHead
  have h1 := h.readHeader b
  split <;> (rename_i heq; rw [heq] at h1; exact h1)

theorem answerBlock {s0 s : State} (h : WalkKeeps s0 s) (v c b f e) : WalkKeeps s0 (s.answerBlock v c b f e) := by
  unfold State.answerBlock
  split
  · exact emitSlots _ _ _ _ _ _ _ (h.blockHead b f e.pitch)
  · exact h.emitRunMarker _

theorem forEach {α : Type} {s0 : State} {f : State → α → State}
    (hf : ∀ s a, WalkKeeps s0 s → WalkKeeps s0 (f s a)) (xs : List α) : ∀ s, WalkKeeps s0 s → WalkKeeps s0 (s.forEach xs f) := by
  induction xs with
  | nil => intro s h; exact h
  | cons a xs ih => intro s h; exact ih _ (hf s a h)

/-- The bounds hold after the answer to a read of an abandoned walk too. -/
theorem answerDiscarded {s0 s : State} (h : WalkKeeps s0 s) (r) : WalkKeeps s0 (s.answerDiscarded r) := by
  unfold State.answerDiscarded
  split
  · split
    · exact h.readRecord _
    · exact h
  · rename_i l c
    split
    · exact searchDir _ _ (h.chanHorizon c l)
    · exact h
  · rename_i b f p
    split
    · exact forEach (fun _ k h => h.read _) _ _ (h.blockHead b f p)
    · exact h
  · exact h.read _

theorem expandRange {s0 s : State} (h : WalkKeeps s0 s) (r) : WalkKeeps s0 (s.expandRange r) :=
  (h.markOpen _).pushTasks _

theorem nextChannel {s0 s : State} (h : WalkKeeps s0 s) (v) (cs) : WalkKeeps s0 (s.nextChannel v cs) := by
  induction cs with
  | nil => exact h
  | cons c cs ih =>
    unfold State.nextChannel
    split
    · exact h.pushTasks _
    · exact ih

theorem answerRange {s0 s : State} (h : WalkKeeps s0 s) (r) : WalkKeeps s0 (s.answerRange r) := by
  unfold State.answerRange
  dsimp only
  split
  · have h1 := h.readRecord r.piece.idx
    split
    · rename_i heq; rw [heq] at h1; exact h1.build _
    · rename_i heq
      rw [heq] at h1
      split
      · exact h1
      · split
        · exact h1.markOpen _
        · exact (h1.markOpen _).pushTasks _
  · exact h.build _

theorem takeTrend {s0 s : State} (h : WalkKeeps s0 s) (w r b a0 a1 g) : WalkKeeps s0 (s.takeTrend w r b a0 a1 g) := by
  unfold State.takeTrend
  split
  · exact h
  · split
    · exact h.build _
    · split
      · exact h.pushTasks _
      · exact h.build _

theorem answerParent {s0 s : State} (h : WalkKeeps s0 s) (w r b a0 a1 g) :
    WalkKeeps s0 (s.answerParent w r b a0 a1 g) := by
  unfold State.answerParent
  split
  · exact h
  · split
    · have h1 := h.readRecord g.parent.idx
      split
      · rename_i heq; rw [heq] at h1; exact h1.build _
      · rename_i heq
        rw [heq] at h1
        split
        · exact h1.build _
        · split
          · exact h1.build _
          · dsimp only
            split
            · exact h1
            · exact (h1.markOpen _).build _
    · exact h.build _

theorem emitNode {s0 s : State} (h : WalkKeeps s0 s) (r p d) : WalkKeeps s0 (s.emitNode r p d).2 := by
  unfold State.emitNode
  split
  · exact h
  · exact (h.updEngine _).emitRecord _

theorem answerNode {s0 s : State} (h : WalkKeeps s0 s) (r d) : WalkKeeps s0 (s.answerNode r d) := by
  unfold State.answerNode
  split
  · have h1 := h.readRecord r.idx
    split
    · rename_i heq; rw [heq] at h1; exact h1
    · rename_i heq
      rw [heq] at h1
      dsimp only at h1 ⊢
      repeat' split
      all_goals first
        | exact h1
        | exact h1.pushTasks _
  · exact h.emitMarker _

theorem takeEdge {s0 s : State} (h : WalkKeeps s0 s) (w n g) : WalkKeeps s0 (s.takeEdge w n g) := by
  unfold State.takeEdge
  dsimp only
  split
  · exact h.pushTasks _
  · split
    · exact (h.markOpen _).emitMarker _
    · exact (h.markOpen _).emitMarker _

theorem emitEdge {s0 s : State} (h : WalkKeeps s0 s) (n g c p f r) : WalkKeeps s0 (s.emitEdge n g c p f r) := by
  unfold State.emitEdge
  have h1 := (h.markOpen (c.isOpen || p.isOpen)).emitRecord
    (edgeBytes g c.range p.range p.dir (g.est || c.est || p.est))
  dsimp only
  split <;> (rename_i heq; rw [heq] at h1)
  · exact h1.emitNode _ _ _
  · exact h1

theorem answerEdge {s0 s : State} (h : WalkKeeps s0 s) (w n g) : WalkKeeps s0 (s.answerEdge w n g) := by
  unfold State.answerEdge
  dsimp only
  split
  · have h1 := h.readRecord (farEnd w.kind g).idx
    generalize s.readRecord (farEnd w.kind g).idx = q at h1
    obtain ⟨r, u⟩ := q
    dsimp only
    split
    · exact WalkKeeps.emitEdge h1 _ _ _ _ _ _
    · exact (WalkKeeps.markOpen h1 _).emitMarker _
  · exact (h.markOpen _).emitMarker _

theorem stale {s0 s : State} (h : WalkKeeps s0 s) (w) : WalkKeeps s0 (s.stale w) := by
  unfold State.stale
  split
  · exact h.build _
  · exact h.emitMarker _

theorem emitBad {s0 s : State} (h : WalkKeeps s0 s) (w n g c) : WalkKeeps s0 (s.emitBad w n g c) :=
  (h.markOpen _).emitMarker _

theorem takeBad {s0 s : State} (h : WalkKeeps s0 s) (w n g) : WalkKeeps s0 (s.takeBad w n g) := by
  unfold State.takeBad
  split
  · exact h.emitBad _ _ _ _
  · split
    · exact h.pushTasks _
    · exact h.emitBad _ _ _ _

theorem takeGot {s0 s : State} (h : WalkKeeps s0 s) (w x) : WalkKeeps s0 (s.takeGot w x) := by
  unfold State.takeGot
  split
  · exact h.takeTrend _ _ _ _ _ _
  · exact h.takeEdge _ _ _
  · exact h.build _
  · exact h.takeBad _ _ _
  · exact h.stale _

end WalkKeeps

theorem find_hit_drops {q : List CacheEntry} {o : PieceRef} {k : ListKind} {p : Nat} {e : CacheEntry}
    (h : q.find? (fun e => e.hasKey o k p) = some e) : (q.filter fun x => !x.hasKey o k p).length < q.length := by
  have hm := List.mem_of_find?_eq_some h
  have hp := List.find?_some h
  induction q with
  | nil => cases hm
  | cons x q ih =>
    by_cases hx : x.hasKey o k p = true
    · rw [List.filter_cons_of_neg (by simp [hx])]
      exact Nat.lt_succ_of_le (List.length_filter_le _ _)
    · rw [List.filter_cons_of_pos (by simp [hx]), List.length_cons, List.length_cons]
      have h' : q.find? (fun e => e.hasKey o k p) = some e := by
        rw [List.find?_cons_of_neg (by simpa using hx)] at h; exact h
      exact Nat.succ_lt_succ (ih h' (List.mem_of_find?_eq_some h'))

namespace WalkKeeps

theorem cacheHit {s0 s : State} (h : WalkKeeps s0 s) (o k p) : WalkKeeps s0 (s.cacheHit o k p).2 := by
  unfold State.cacheHit
  split
  · dsimp only; exact h.countPbk _
  · rename_i e he
    dsimp only
    refine countPbk (h.pbk _ (fun x => x) fun hl => ?_) _
    have := find_hit_drops he
    simp only [List.length_append, List.length_cons, List.length_nil]
    omega

theorem cacheEnter {s0 s : State} (h : WalkKeeps s0 s) (e) : WalkKeeps s0 (s.cacheEnter e) := by
  refine h.pbk _ id fun hl => ?_
  have h1 : (s.pbk.cache.filter fun x => !x.hasKey e.owner e.kind e.pos).length ≤ s.pbk.cache.length :=
    List.length_filter_le _ _
  simp only [List.length_append, List.length_cons, List.length_nil]
  generalize (s.pbk.cache.filter fun x => !x.hasKey e.owner e.kind e.pos) = rest at h1 ⊢
  split
  · rw [List.length_drop]
    have : 0 < Config.cacheCapacity := by decide
    omega
  · omega

theorem lookupGroup {s0 s : State} (h : WalkKeeps s0 s) (w p n) : WalkKeeps s0 (s.lookupGroup w p n) := by
  unfold State.lookupGroup
  have h1 := h.cacheHit w.owner w.kind p
  split <;> (rename_i heq; rw [heq] at h1; exact h1.pushTasks _)

theorem refetch {s0 s : State} (h : WalkKeeps s0 s) (w p n) : WalkKeeps s0 (s.refetch w p n) :=
  ((h.pbk (fun k => { k with cache := k.cache.filter fun e => !e.hasKey w.owner w.kind p }) id
    fun hl => Nat.le_trans (List.length_filter_le _ _) hl).countPbk _).pushTasks _

theorem answerGroup {s0 s : State} (h : WalkKeeps s0 s) (w p n b d) : WalkKeeps s0 (s.answerGroup w p n b d) := by
  unfold State.answerGroup
  have h1 := h.read (groupAddr n)
  split
  · rename_i heq; rw [heq] at h1; exact h1.stale _
  · rename_i heq
    rw [heq] at h1
    split
    · exact h1.pushTasks _
    · split
      · exact h1.stale _
      · exact h1.refetch _ _ _
  · rename_i heq
    rw [heq] at h1
    split
    · exact h1.stale _
    · exact h1.refetch _ _ _

theorem groupDone {s0 s : State} (h : WalkKeeps s0 s) (g got) : WalkKeeps s0 (s.groupDone g got) := by
  unfold State.groupDone
  split
  · exact h.refetch _ _ _
  · dsimp only
    refine pushTasks ?_ _
    split
    · exact h
    · exact h.cacheEnter _

theorem nextSlot {s0 s : State} (h : WalkKeeps s0 s) (g todo got) : WalkKeeps s0 (s.nextSlot g todo got) := by
  unfold State.nextSlot
  split
  · exact h.groupDone _ _
  · exact h.pushTasks _
  · split
    · exact h.updEngine _
    · exact h.pushTasks _

theorem answerSegment {s0 s : State} (h : WalkKeeps s0 s) (g n todo got) :
    WalkKeeps s0 (s.answerSegment g n todo got) := by
  exact ((h.updWorking _).read _).pushTasks _

theorem turnDepth {s0 s : State} (h : WalkKeeps s0 s) : WalkKeeps s0 s.turnDepth := h.updEngine _

theorem answerQueried {s0 s : State} (h : WalkKeeps s0 s) : WalkKeeps s0 s.answerQueried := by
  unfold State.answerQueried
  dsimp only
  split
  · have h1 := h.readRecord s.working.piece.idx
    generalize s.readRecord s.working.piece.idx = q at h1
    obtain ⟨r, u⟩ := q
    dsimp only
    split
    · have h2 := WalkKeeps.emitNode h1 s.working.piece r 0
      split <;> (rename_i heq; rw [heq] at h2)
      · split
        · exact h2.pushTasks _
        · exact h2
      · exact h2
    · split
      · exact WalkKeeps.emitMarker h1 _
      · split
        · exact h1
        · exact WalkKeeps.pushTasks h1 _
  · split
    · exact h.emitRecord _
    · exact h.emitMarker _

theorem enterReady {s0 s : State} (h : WalkKeeps s0 s) (i) : WalkKeeps s0 (s.enterReady i) := by
  unfold State.enterReady
  dsimp only
  split
  · exact (h.updContext _ _).countPbk _
  · exact h.updContext _ _

theorem finishWalk {s0 s : State} (h : WalkKeeps s0 s) : WalkKeeps s0 s.finishWalk := by
  unfold State.finishWalk
  dsimp only
  refine pbk (enterReady ?_ _) _ id id
  split
  · exact h.flushHeld.updWorking _
  · exact h.flushHeld

theorem answerChild {s0 s : State} (h : WalkKeeps s0 s) (w n g) : WalkKeeps s0 (s.answerChild w n g) := by
  unfold State.answerChild
  split
  · have h1 := h.readRecord g.child.idx
    generalize s.readRecord g.child.idx = q at h1
    exact h1.emitBad _ _ _ _
  · exact h.emitBad _ _ _ _

theorem doTask {s0 s : State} (h : WalkKeeps s0 s) (t) : WalkKeeps s0 (s.doTask t) := by
  unfold State.doTask
  split
  · exact h.answerQueried
  · exact h.nextChannel _ _
  · exact h.expandRange _
  · exact h.emitMarker _
  · exact h.answerChannel _ _
  · exact h.emitRunMarker _
  · exact h.answerBlock _ _ _ _ _
  · exact h.answerRange _
  · exact h.answerNode _ _
  · exact h.lookupGroup _ _ _
  · exact h.answerGroup _ _ _ _ _
  · exact h.nextSlot _ _ _
  · exact h.answerSegment _ _ _ _
  · exact h.takeGot _ _
  · split
    · exact h.answerParent _ _ _ _ _ _
    · exact h.answerEdge _ _ _
  · exact h.answerChild _ _ _
  · exact h.turnDepth

theorem runHead {s0 s : State} (h : WalkKeeps s0 s) (t rest) : WalkKeeps s0 (s.runHead t rest) :=
  (h.updEngine _).doTask t

theorem runEngine (n : Nat) {s0 : State} : ∀ s, WalkKeeps s0 s → WalkKeeps s0 (s.runEngine n) := by
  induction n with
  | zero => intro s h; exact h
  | succ n ih =>
    intro s h
    unfold State.runEngine
    split
    · exact h
    · split
      · exact h.finishWalk
      · split
        · exact h
        · exact ih _ (h.runHead _ _)

theorem startWalk {s0 s : State} (h : WalkKeeps s0 s) : WalkKeeps s0 s.startWalk := by
  unfold State.startWalk
  split
  · rename_i i rest _ _
    dsimp only
    have h1 : WalkKeeps s0 (s.updPbk fun k =>
      { k with asmQueue := rest, engine := some { ctx := i, tasks := [.askQueried], chans := s.selected (s.context i) } }) :=
      h.pbk _ id id
    generalize (s.updPbk fun k =>
      { k with asmQueue := rest, engine := some { ctx := i, tasks := [.askQueried], chans := s.selected (s.context i) } }) = u at h1
    split
    · exact h1
    · exact runEngine _ _ ((h1.updEngine _).answerQueried)
  · exact h

theorem startWalks (n : Nat) {s0 : State} : ∀ s, WalkKeeps s0 s → WalkKeeps s0 (s.startWalks n) := by
  induction n with
  | zero => intro s h; exact h
  | succ n ih => intro s h; exact ih _ h.startWalk

theorem takeNext {s0 s : State} (h : WalkKeeps s0 s) : WalkKeeps s0 s.takeNext := startWalks _ _ h

theorem readAnswered {s0 s : State} (h : WalkKeeps s0 s) : WalkKeeps s0 s.readAnswered := by
  unfold State.readAnswered
  split
  · exact h
  · split
    · refine takeNext (runEngine _ _ ?_)
      split
      · exact h.runHead _ _
      · exact h
    · exact takeNext (runEngine _ _ h)

end WalkKeeps

end Sys2Proof.Machine
end

