-- ==== Sys2Proof/Laws/Sound.lean ====
section
/-! SUPPORT. The invariant is kept and no axis falls: for the operations of PRL, FCL, MGT, PBK and TKU, for the resets, and for every
request served. -/

namespace Sys2Proof.Machine

theorem Onward.toSound {L : LineId → Prop} {s t : State} (h : Onward L s t) : Sound s t := h.sound
theorem GluKeeps.toSound {L : LineId → Prop} {s t : State} (h : GluKeeps L s t) : Sound s t := h.onward.sound
theorem BinKeeps.toSound {L : LineId → Prop} {s t : State} (h : BinKeeps L s t) : Sound s t := h.onward.sound
theorem StoreKeeps.toSound {L : LineId → Prop} {s t : State} (h : StoreKeeps L s t) : Sound s t := h.onward.sound

namespace Sound

/-- A change that touches no line. -/
theorem lines {s t : State} (hl : ∀ l, t.line l = s.line l) (hb : Bounded s → Bounded t)
    (hp : t.pending = s.pending := by rfl) (hs : t.station = s.station := by rfl) : Sound s t := by
  refine ⟨hp, hs, fun h => ?_⟩
  rw [inv_iff] at h ⊢
  exact ⟨⟨hb h.1, fun l => by rw [hl l]; exact h.2 l⟩, fun l => Nat.le_of_eq (congrArg Line.axis (hl l).symm)⟩

/-- A change that touches neither a line nor anything bounded. -/
theorem free {s t : State} (h1 : t.lines = s.lines) (h2 : t.prl.portA.txq = s.prl.portA.txq)
    (h3 : t.prl.portB.txq = s.prl.portB.txq) (h4 : t.mgt.requests = s.mgt.requests) (h5 : t.pbk.cache = s.pbk.cache)
    (h6 : t.stc = s.stc) (h7 : t.pbk.pages = s.pbk.pages) (hp : t.pending = s.pending := by rfl)
    (hs : t.station = s.station := by rfl) : Sound s t := by
  refine lines (fun l => by simp only [State.line, h1]) ?_ hp hs
  unfold Bounded Memory.wf
  rw [h2, h3, h4, h5, h6, h7]
  exact id

theorem walk {s t : State} (h : WalkKeeps s t) : Sound s t :=
  lines (fun l => by rw [h.same]; rfl) h.bounded (by rw [h.same]) (by rw [h.same])

theorem writes {s t : State} (h : StoreWrites s t) : Sound s t := lines h.line h.bounded h.pending h.station

theorem forEach {α : Type} {s0 : State} {f : State → α → State}
    (hf : ∀ s a, Sound s0 s → Sound s0 (f s a)) (xs : List α) : ∀ s, Sound s0 s → Sound s0 (s.forEach xs f) := by
  induction xs with
  | nil => intro s h; exact h
  | cons a xs ih => intro s h; exact ih _ (hf s a h)

theorem glu {s0 s t : State} (h : Sound s0 s) (k : GluKeeps (fun _ => True) s t) : Sound s0 t := h.trans k.toSound
theorem store {s0 s t : State} (h : Sound s0 s) (k : StoreKeeps (fun _ => True) s t) : Sound s0 t := h.trans k.toSound
theorem bin {s0 s t : State} (h : Sound s0 s) (k : BinKeeps (fun _ => True) s t) : Sound s0 t := h.trans k.toSound
theorem line {s0 s t : State} (h : Sound s0 s) (k : Onward (fun _ => True) s t) : Sound s0 t := h.trans k.toSound
theorem toFree {s0 s t : State} (h : Sound s0 s) (h1 : t.lines = s.lines) (h2 : t.prl.portA.txq = s.prl.portA.txq)
    (h3 : t.prl.portB.txq = s.prl.portB.txq) (h4 : t.mgt.requests = s.mgt.requests) (h5 : t.pbk.cache = s.pbk.cache)
    (h6 : t.stc = s.stc) (h7 : t.pbk.pages = s.pbk.pages) (hp : t.pending = s.pending := by rfl)
    (hs : t.station = s.station := by rfl) : Sound s0 t := h.trans (free h1 h2 h3 h4 h5 h6 h7 hp hs)

/-! ### PRL -/

theorem updPort {s0 s : State} (h : Sound s0 s) (p) (f : Port → Port)
    (hf : ∀ q : Port, q.txq.length ≤ Config.txCapacity → (f q).txq.length ≤ Config.txCapacity) :
    Sound s0 (s.updPort p f) := by
  refine h.trans (lines (fun l => line_updPort s p f l) ?_ (by cases p <;> rfl) (by cases p <;> rfl))
  cases p
  · exact fun ⟨a, b, c⟩ => ⟨a, hf _ b, c⟩
  · exact fun ⟨a, b, c, d⟩ => ⟨a, b, hf _ c, d⟩

theorem countMgt {s0 s : State} (h : Sound s0 s) (f) : Sound s0 (s.countMgt f) := h.store ((StoreKeeps.refl s).countMgt f)

theorem intake {s0 s : State} (h : Sound s0 s) (p f) : Sound s0 (s.intake p f) := by
  unfold State.intake
  have h1 : Sound s0 (s.updMgt fun m =>
      if m.alertLoaded && f.src == m.alertAddr then { m with alertPort := some p } else m) := by
    refine h.toFree rfl rfl rfl ?_ rfl rfl rfl
    simp only [mgt_updMgt]
    split <;> rfl
  dsimp only
  generalize (s.updMgt fun m =>
      if m.alertLoaded && f.src == m.alertAddr then { m with alertPort := some p } else m) = u at h1
  split
  · exact h1.countMgt _
  · split
    · exact h1.countMgt _
    · rename_i hn
      refine h1.trans (lines (fun _ => rfl) fun ⟨a, b, c, d, e⟩ => ⟨a, b, c, ?_, e⟩)
      simp only [Bool.or_eq_true, decide_eq_true_eq, not_or] at hn
      simp only [mgt_updMgt, List.length_append, List.length_cons, List.length_nil]
      omega

theorem receive {s0 s : State} (h : Sound s0 s) (p ok f) : Sound s0 (s.receive p ok f) := by
  unfold State.receive
  split
  · exact h
  · split
    · exact h.updPort p _ fun _ hq => hq
    · split
      · exact h.intake p f
      · have h1 := h.store ((StoreKeeps.refl s).transmit (otherPort p) f)
        dsimp only
        split
        · exact h1.toFree rfl rfl rfl rfl rfl rfl rfl
        · exact h1

theorem linkDown {s0 s : State} (h : Sound s0 s) (p) : Sound s0 (s.linkDown p) := by
  unfold State.linkDown
  dsimp only
  have h1 := h.updPort p (fun q => { q with phys := .down }) fun _ hq => hq
  split
  · exact h1
  · exact h1.updPort p _ fun _ _ => Nat.zero_le _

theorem linkUp {s0 s : State} (h : Sound s0 s) (p) : Sound s0 (s.linkUp p) := by
  unfold State.linkUp
  dsimp only
  have h1 := h.updPort p (fun q => { q with phys := .up }) fun _ hq => hq
  split
  · exact h1
  · exact h1.updPort p _ fun _ _ => Nat.zero_le _

theorem transmitted {s0 s : State} (h : Sound s0 s) (p) : Sound s0 (s.updPort p fun q => { q with txq := q.txq.drop 1 }) := by
  refine h.updPort p _ fun q hq => ?_
  simp only [List.length_drop]
  omega

/-! ### FCL -/

theorem updFcl {s0 s : State} (h : Sound s0 s) (f) : Sound s0 (s.updFcl f) := h.toFree rfl rfl rfl rfl rfl rfl rfl

theorem uncheck {s0 s : State} (h : Sound s0 s) (l) : Sound s0 (s.uncheck l) := h.updFcl _

theorem updTku {s0 s : State} (h : Sound s0 s) (f) : Sound s0 (s.updTku f) := h.toFree rfl rfl rfl rfl rfl rfl rfl

theorem place {s0 s : State} (h : Sound s0 s) (l o b g) : Sound s0 (s.place l o b g) := by
  unfold State.place
  split
  · exact h.line (((Onward.refl s).plain l trivial _ rfl rfl rfl).countLine l trivial _)
  · rename_i hn
    refine h.line ((Onward.refl s).updLine l trivial _ fun ⟨a, _, c⟩ => ⟨⟨a, ?_, c⟩, Nat.le_refl _⟩)
    simp only [List.length_append, List.length_cons, List.length_nil]
    omega

theorem countLine {s0 s : State} (h : Sound s0 s) (l f) : Sound s0 (s.countLine l f) :=
  h.line ((Onward.refl s).countLine l trivial f)

theorem believe {s0 s : State} (h : Sound s0 s) (l o b n) : Sound s0 (s.believe l o b n) := by
  unfold State.believe
  dsimp only
  have h1 := h.countLine l fun c => { c with gap := sat c.gap n }
  split
  · exact h1.countLine _ _
  · split
    · exact h1.countLine _ _
    · exact h1.place _ _ _ _

theorem classifyFor {s0 s : State} (h : Sound s0 s) (i q b) : Sound s0 (s.classifyFor i q b) := by
  unfold State.classifyFor
  dsimp only
  split
  · exact h
  · split
    · exact h.countLine _ _
    · split
      · exact h.countLine _ _
      · exact h.countLine _ _
      · exact (h.updFcl _).believe _ _ _ _

theorem classify {s0 s : State} (h : Sound s0 s) (bs) : Sound s0 (s.classify bs) := by
  unfold State.classify
  split
  · exact h.updFcl _
  · split
    · exact h.updFcl _
    · exact h.classifyFor _ _ _

/-! ### PBK -/

theorem updContext {s0 s : State} (h : Sound s0 s) (i f) : Sound s0 (s.updContext i f) := h.toFree rfl rfl rfl rfl rfl rfl rfl
theorem countPbk {s0 s : State} (h : Sound s0 s) (f) : Sound s0 (s.countPbk f) := h.toFree rfl rfl rfl rfl rfl rfl rfl

theorem testDrain {s0 s : State} (h : Sound s0 s) (i) : Sound s0 (s.testDrain i) :=
  h.line ((Onward.refl s).testDrain i)

theorem testDrains {s0 s : State} (h : Sound s0 s) : Sound s0 s.testDrains := h.line (Onward.refl s).testDrains

theorem dropWalk {s0 s : State} (h : Sound s0 s) (i) : Sound s0 (s.dropWalk i) := h.toFree rfl rfl rfl rfl rfl rfl rfl

theorem vacate {s0 s : State} (h : Sound s0 s) (i) : Sound s0 (s.vacate i) := h.toFree rfl rfl rfl rfl rfl rfl rfl

theorem freeContext {s0 s : State} (h : Sound s0 s) (i) : Sound s0 (s.freeContext i) := by
  unfold State.freeContext
  dsimp only
  refine vacate (dropWalk ?_ i) i
  split
  · exact h.glu ((GluKeeps.refl s).callRelease _)
  · exact h

theorem holdContext {s0 s : State} (h : Sound s0 s) (i) : Sound s0 (s.holdContext i) := by
  unfold State.holdContext
  dsimp only
  split
  · split
    · exact ((h.updContext i _).freeContext i).countPbk _
    · exact h.updContext i _
  · exact h

theorem takeHold {s0 s : State} (h : Sound s0 s) : Sound s0 s.takeHold := forEach (fun _ i h => h.holdContext i) _ _ h

theorem failContext {s0 s : State} (h : Sound s0 s) (i c f) : Sound s0 (s.failContext i c f) := (h.updContext i _).countPbk _

theorem drainContext {s0 s : State} (h : Sound s0 s) (i c r) : Sound s0 (s.drainContext i c r) := by
  unfold State.drainContext
  have h1 := h.glu ((GluKeeps.refl s).implicitPin r)
  generalize s.implicitPin r = q at h1
  exact ((h1.updContext i _).countPbk _).testDrain i

/-! ### TKU -/

theorem reckonOwed {s0 s : State} (h : Sound s0 s) : Sound s0 s.reckonOwed := by
  unfold State.reckonOwed
  split
  · exact (h.updTku _).line ((Onward.refl _).takeReckon (fun _ => trivial) _)
  · exact h

theorem takeSweep {s0 s : State} (h : Sound s0 s) : Sound s0 s.takeSweep := by
  unfold State.takeSweep
  split
  · exact h.updTku _
  · exact (h.updTku _).store (StoreKeeps.refl _).startScrub

theorem sweepOwed {s0 s : State} (h : Sound s0 s) : Sound s0 s.sweepOwed := by
  unfold State.sweepOwed
  split
  · exact (h.updTku _).takeSweep
  · exact h

theorem holdOwed {s0 s : State} (h : Sound s0 s) : Sound s0 s.holdOwed := by
  unfold State.holdOwed State.cascadeCount
  split
  · have h1 := (h.updTku fun t => { t with hold := t.hold.expire }).takeHold
    generalize (s.updTku fun t => { t with hold := t.hold.expire }).takeHold = u at h1
    split
    · exact h1.sweepOwed.updTku _
    · exact h1
  · exact h

theorem tick {s0 s : State} (h : Sound s0 s) : Sound s0 s.tick := h.updTku _

theorem scrubDone {s0 s : State} (h : Sound s0 s) (k) : Sound s0 (s.scrubDone k) :=
  (h.trans (writes ((StoreWrites.refl s).finishScrub k))).updTku _

/-! ### Requests -/

theorem answer {s0 s : State} (h : Sound s0 s) (r x) : Sound s0 (s.answer r x) := h.store ((StoreKeeps.refl s).answer r x)

theorem releaseReply {s0 s : State} (h : Sound s0 s) : Sound s0 s.releaseReply := by
  unfold State.releaseReply
  split
  · exact h
  · exact (h.toFree (t := s.updMgt fun m => { m with heldReply := none }) rfl rfl rfl rfl rfl rfl rfl).answer _ _

theorem reply {s0 s : State} (h : Sound s0 s) (r x w) : Sound s0 (s.reply r x w) := by
  unfold State.reply
  split
  · exact h.answer _ _
  · exact h.toFree rfl rfl rfl rfl rfl rfl rfl
  · exact (h.toFree (t := s.updMgt fun m => { m with heldReply := some (r, x) }) rfl rfl rfl rfl rfl rfl rfl).glu
      ((GluKeeps.refl _).updGlu _)
  · exact (h.toFree (t := s.updMgt fun m => { m with heldReply := some (r, x) }) rfl rfl rfl rfl rfl rfl rfl).glu
      ((GluKeeps.refl _).waitGlu _)

theorem pass {s0 s : State} (h : Sound s0 s) (r w) : Sound s0 (s.pass r w) := by
  have h1 : Sound s0 (s.updMgt fun m => { m with passed := some (r, s.freeContext?) }) :=
    h.toFree rfl rfl rfl rfl rfl rfl rfl
  unfold State.pass
  dsimp only
  split
  · exact h1.glu ((GluKeeps.refl _).waitLine _ _)
  · exact h1.glu ((GluKeeps.refl _).waitGlu _)

/-- A request its owner takes keeps the invariant where its effect does. -/
theorem settle {α : Type} {s0 s : State} (h : Sound s0 s) (k : Service α) (hk : ∀ r x t, Sound t (k.act r x t).2) (r x) :
    Sound s0 (s.settle k r x) := (h.trans (hk r x s)).reply _ _ _

/-- A request served keeps the invariant where its effect does. -/
theorem serve {α : Type} {s0 s : State} (h : Sound s0 s) (k : Service α) (hk : ∀ r x t, Sound t (k.act r x t).2) :
    Sound s0 (s.serve k) := by
  unfold State.serve
  split
  · exact h
  · split
    · rename_i r _ _
      have h1 : Sound s0 (s.updMgt fun m => { m with requests := m.requests.drop 1 }) := by
        refine h.trans (lines (fun _ => rfl) fun ⟨a, b, c, d, e⟩ => ⟨a, b, c, ?_, e⟩)
        simp only [mgt_updMgt, List.length_drop]
        omega
      dsimp only
      generalize (s.updMgt fun m => { m with requests := m.requests.drop 1 }) = u at h1
      split
      · exact h1.countMgt _
      · have h2 := h1.countMgt fun c => { c with requestsTaken := sat c.requestsTaken 1 }
        generalize (u.countMgt fun c => { c with requestsTaken := sat c.requestsTaken 1 }) = v at h2
        split
        · exact h2.answer _ _
        · split
          · exact h2.answer _ _
          · split
            · exact h2.pass _ _
            · exact h2.settle k hk r _
    · exact h

/-- A passed request taken in its turn keeps the invariant where its effect does. -/
theorem own {α : Type} {s0 s : State} (h : Sound s0 s) (k : Service α) (hk : ∀ r x t, Sound t (k.act r x t).2) (r) :
    Sound s0 (s.own k r) := by
  unfold State.own
  split
  · exact h
  · split
    · exact h.pass _ _
    · exact (h.settle k hk r _).toFree rfl rfl rfl rfl rfl rfl rfl

/-- What LTK does with a LINE_CONTROL keeps the invariant where its command does. -/
theorem lineAct (cmd) (act : LineId → State → Reason × State) (ha : ∀ l t, Sound t (act l t).2) (r n t) :
    Sound t ((lineService cmd act).act r n t).2 := by
  simp only [Machine.lineService]
  split
  · exact refl t
  · exact ha _ t

theorem loadService {α : Type} {s0 s : State} (h : Sound s0 s) (table width taker) (parse : List Byte → Option α)
    (load : Nat → α → State → Reason × State) (waits) (ha : ∀ n e t, Sound t (load n e t).2) :
    Sound s0 (s.serve (loadService table width taker parse load waits)) :=
  h.serve _ fun r e t => ha r.index e t

theorem activateLine (s : State) (l) : Sound s (s.activateLine l).2 := by
  unfold State.activateLine
  dsimp only
  split
  · exact refl s
  · split
    · exact refl s
    · dsimp only
      refine uncheck ((refl s).line ((Onward.refl s).updLine l trivial _ fun ⟨a, b, _⟩ => ⟨⟨a, b, ?_⟩, ?_⟩)) _
      · exact Nat.zero_le _
      · exact Nat.le_refl _

theorem deactivate (s : State) (l) : Sound s (s.deactivate l).2 := by
  unfold State.deactivate
  split
  · dsimp only
    exact ((Onward.refl (L := fun _ => True) s).deactivateLine l trivial).testDrains.toSound
  · exact refl s

theorem resetLine (s : State) (l) : Sound s (s.resetLine l).2 := by
  unfold State.resetLine
  split
  · exact refl s
  · dsimp only
    exact ((Onward.refl (L := fun _ => True) s).resetLineState l trivial).testDrains.toSound

theorem ackDegraded (s : State) (l) : Sound s (s.ackDegraded l).2 := by
  unfold State.ackDegraded
  split
  · dsimp only
    exact (refl s).line ((Onward.refl s).plain l trivial _ rfl rfl rfl)
  · exact refl s

theorem loadOrigin (n e s) : Sound s (loadOrigin n e s).2 := by
  unfold Machine.loadOrigin
  repeat' split
  all_goals first
    | exact refl s
    | (dsimp only; exact (refl s).updFcl _)

theorem graceLoaded {s0 s : State} (h : Sound s0 s) (l o) : Sound s0 (s.graceLoaded l o) := by
  unfold State.graceLoaded
  dsimp only
  split
  · exact h.line ((Onward.refl s).suspend l trivial).testDrains
  · exact h

theorem loadLine (n e s) : Sound s (loadLine n e s).2 := by
  unfold Machine.loadLine
  split
  · exact refl s
  · dsimp only
    split
    · exact refl s
    · split
      · exact refl s
      · exact graceLoaded ((refl s).line ((Onward.refl s).plain _ trivial _ rfl rfl rfl)) _ _

theorem loadStation (n e s) : Sound s (loadStation n e s).2 := by
  unfold Machine.loadStation
  split
  · exact refl s
  · dsimp only
    repeat' split
    all_goals first
      | exact refl s
      | (dsimp only; exact (refl s).line ((Onward.refl s).plain _ trivial _ rfl rfl rfl))

theorem loadChannelAt (n e s) : Sound s (loadChannelAt n e s).2 := by
  unfold Machine.loadChannelAt
  split
  · exact refl s
  · exact (refl s).bin ((BinKeeps.refl s).loadChannel _ _)

theorem loadAccess (n e s) : Sound s (loadAccess n e s).2 := by
  unfold Machine.loadAccess
  dsimp only
  repeat' split
  all_goals first
    | exact refl s
    | (dsimp only; exact (refl s).toFree rfl rfl rfl rfl rfl rfl rfl)

theorem loadStore (n e s) : Sound s (loadStore n e s).2 := by
  unfold Machine.loadStore
  repeat' split
  all_goals first
    | exact refl s
    | exact lines (fun _ => rfl) fun h => h

theorem loadTick (n e s) : Sound s (loadTick n e s).2 := by
  unfold Machine.loadTick
  repeat' split
  all_goals first
    | exact refl s
    | (dsimp only; exact (refl s).updTku _)

theorem loadAlert (n e s) : Sound s (loadAlert n e s).2 := by
  unfold Machine.loadAlert
  repeat' split
  all_goals first
    | exact refl s
    | (dsimp only; exact (refl s).toFree rfl rfl rfl rfl rfl rfl rfl)

theorem loadEthertype (n e s) : Sound s (loadEthertype n e s).2 := by
  unfold Machine.loadEthertype
  repeat' split
  all_goals first
    | exact refl s
    | (dsimp only; exact (refl s).toFree rfl rfl rfl rfl rfl rfl rfl)

theorem setClock (r t s) : Sound s (setClock r t s).2 := (refl s).updTku fun k => { k with clock := t }

theorem emptyFault (r u s) : Sound s (emptyFault r u s).2 := (refl s).toFree rfl rfl rfl rfl rfl rfl rfl

theorem findPiece {s0 s : State} (h : Sound s0 s) (n) : Sound s0 (s.findPiece n).2 := by
  unfold State.findPiece
  split
  · exact h.glu ((GluKeeps.refl s).lookupTag _)
  · exact h

theorem acceptQuery (s : State) (r n q) : Sound s (s.acceptQuery r n q).2 := by
  unfold State.acceptQuery
  split
  · dsimp only
    exact (refl s).countPbk _
  · dsimp only
    have h1 := (refl s).findPiece n
    split
    · rename_i heq; rw [heq] at h1; exact h1.failContext _ _ _
    · rename_i p u heq
      rw [heq] at h1
      dsimp only at h1
      split
      · exact h1.drainContext _ _ _
      · have h2 := h1.glu ((GluKeeps.refl u).gluRecord p.idx)
        split
        · rename_i heq; rw [heq] at h2; exact h2.drainContext _ _ _
        · rename_i heq; rw [heq] at h2; exact h2.failContext _ _ _

theorem takeQuery (r q s) : Sound s (takeQuery r q s).2 := acceptQuery s _ _ _

theorem takeFetch (r u s) : Sound s (takeFetch r u s).2 := by
  unfold Machine.takeFetch
  split
  · exact refl s
  · split
    · exact refl s
    · exact refl s
    · unfold State.fetchPage
      unfold State.restartHold
      dsimp only
      split
      · dsimp only
        exact (refl s).updContext _ _
      · dsimp only
        exact ((refl s).updContext _ _).countPbk _
    · exact refl s
    · exact refl s

theorem releaseContext {s0 s : State} (h : Sound s0 s) (i) : Sound s0 (s.releaseContext i) := by
  unfold State.releaseContext
  split
  · exact (h.freeContext i).trans (walk ((WalkKeeps.refl _).takeNext))
  · exact h.freeContext i

theorem takeRelease (r u s) : Sound s (takeRelease r u s).2 := by
  unfold Machine.takeRelease
  split
  · exact refl s
  · unfold accepted
    dsimp only
    exact ((refl s).releaseContext _).countPbk _

theorem takeClaim (claim : State → PieceRef → Reason × State) (hc : ∀ s p, Sound s (claim s p).2) (r n s) :
    Sound s (takeClaim claim r n s).2 := by
  unfold Machine.takeClaim
  have h1 := (refl s).findPiece n
  split
  · rename_i heq; rw [heq] at h1; exact h1
  · rename_i p u heq
    rw [heq] at h1
    have h2 := h1.trans (hc u p)
    split
    · rename_i heq; rw [heq] at h2; exact h2
    · rename_i heq; rw [heq] at h2; exact h2

theorem takeRetire (r p s) : Sound s (takeRetire r p s).2 := (refl s).glu ((GluKeeps.refl s).gluRetire _)

theorem readTable (r n s) : Sound s (readTable r n s).2 := by
  unfold Machine.readTable
  split
  · exact refl s
  · exact refl s

theorem takeStatus (r n s) : Sound s (takeStatus r n s).2 := by
  unfold Machine.takeStatus
  dsimp only
  split
  · exact refl s
  · exact refl s
  · split
    · exact refl s
    · rename_i l _
      have h1 := (StoreKeeps.refl (L := fun _ => True) s).lineHorizon l
      generalize s.lineHorizon l = q at h1
      exact (refl s).store h1
  · exact refl s
  · exact refl s
  · exact refl s

/-! ### Waits and resets -/

theorem ownControl {s0 s : State} (h : Sound s0 s) (r) : Sound s0 (s.ownControl r) := by
  unfold State.ownControl
  split
  · exact h.own _ (lineAct 1 _ fun l t => activateLine t l) r
  · exact h.own _ (lineAct 2 _ fun l t => deactivate t l) r
  · exact h.own _ (lineAct 3 _ fun l t => resetLine t l) r
  · exact h.own _ (lineAct 4 _ fun l t => ackDegraded t l) r

theorem takePassed {s0 s : State} (h : Sound s0 s) : Sound s0 s.takePassed := by
  unfold State.takePassed
  split
  · exact h
  · rename_i r _ _
    unfold State.ownerTakes
    split
    · split
      · exact h.own _ (fun r e t => loadLine r.index e t) r
      · exact h.own _ (fun r e t => loadStation r.index e t) r
    · exact h.own _ (fun r n t => readTable r n t) r
    · exact h.ownControl r
    · exact h.own _ (fun r q t => takeQuery r q t) r
    · exact h.own _ (fun r q t => takeQuery r q t) r
    · exact h.own _ (takeClaim _ fun s p => (refl s).glu ((GluKeeps.refl s).gluPin p)) r
    · exact h.own _ (takeClaim _ fun s p => (refl s).glu ((GluKeeps.refl s).gluUnpin p)) r
    · exact h.own _ (fun r p t => takeRetire r p t) r
    · exact h.own _ (fun r n t => takeStatus r n t) r

theorem nextWait {s0 s : State} (h : Sound s0 s) : Sound s0 s.nextWait := by
  unfold State.nextWait
  split
  · exact h
  · rename_i w rest _
    have h1 := h.glu ((GluKeeps.refl s).updGlu fun g => { g with waits := rest })
    dsimp only
    split
    · exact h1.line ((Onward.refl _).gluTakes _ fun _ _ => trivial)
    · exact h1.testDrains
    · exact (h1.line ((Onward.refl _).leave _ trivial _)).testDrains
    · exact h1.releaseReply
    · split
      · exact h1
      · exact (h1.line ((Onward.refl _).reckonReaches _ trivial _)).testDrains
    · exact h1.takePassed

theorem runWaits (n : Nat) {s0 : State} : ∀ s, Sound s0 s → Sound s0 (s.runWaits n) := by
  induction n with
  | zero => intro s h; exact h
  | succ n ih =>
    intro s h
    unfold State.runWaits
    split
    · exact ih _ h.nextWait
    · exact h

theorem gluResumed {s0 s : State} (h : Sound s0 s) : Sound s0 s.gluResumed := by
  unfold State.gluResumed
  have h1 := runWaits (6 * s.glu.waits.length) s h
  generalize s.runWaits (6 * s.glu.waits.length) = u at h1
  dsimp only
  split
  · exact h1.toFree rfl rfl rfl rfl rfl rfl rfl
  · exact h1

theorem offersTaken {s0 s : State} (h : Sound s0 s) (held) : Sound s0 (s.offersTaken held) := by
  unfold State.offersTaken
  split
  · exact h
  · exact (h.line ((Onward.refl s).knows (fun k => k.taken) _)).testDrains

end Sound

/-- A waiting write is queued where the queue has room. -/
theorem GluKeeps.queueWaiting {L : LineId → Prop} {s0 s : State} (h : GluKeeps L s0 s) (w : UnitWrite)
    (hr : s.stc.writeQueue.length < Config.writeCapacity) : GluKeeps L s0 (s.queueWaiting w) := by
  have h1 := h.store ((StoreKeeps.refl (L := L) s).enqueue (.unit w) hr)
  unfold State.queueWaiting
  split
  · exact h1.dropGroup _ _ _
  · exact h1

@[simp] theorem writeQueue_queueWaiting (s : State) (w) :
    (s.queueWaiting w).stc.writeQueue = s.stc.writeQueue ++ [.unit w] := by
  unfold State.queueWaiting
  split
  · exact writeQueue_enqueue s _
  · exact writeQueue_enqueue s _

/-- The writes that find room join the queue within its capacity. -/
theorem queueAll_bound (ws : List UnitWrite) {s0 : State} : ∀ s : State, GluKeeps (fun _ => True) s0 s →
    s.stc.writeQueue.length + ws.length ≤ Config.writeCapacity →
    GluKeeps (fun _ => True) s0 (s.forEach ws State.queueWaiting) := by
  induction ws with
  | nil => intro s h _; exact h
  | cons w ws ih =>
    intro s h hl
    rw [List.length_cons] at hl
    refine ih _ (h.queueWaiting w (by omega)) ?_
    rw [writeQueue_queueWaiting, List.length_append, List.length_singleton]
    omega

namespace Sound

theorem resumeWrites {s0 s : State} (h : Sound s0 s) : Sound s0 s.resumeWrites := by
  unfold State.resumeWrites
  split
  · rename_i rest _
    dsimp only
    generalize hroom : (if rest.isEmpty then Config.writeCapacity - s.stc.writeQueue.length
      else min 1 (Config.writeCapacity - s.stc.writeQueue.length)) = room
    have hle : room ≤ Config.writeCapacity - s.stc.writeQueue.length := by
      subst hroom
      split
      · exact Nat.le_refl _
      · exact Nat.min_le_right _ _
    split
    · exact h
    · rename_i h0
      have h1 : Sound s0 (s.updGlu fun g => { g with waiting := s.glu.waiting.drop room }) :=
        h.glu ((GluKeeps.refl s).updGlu _)
      refine h1.glu (queueAll_bound _ _ ((GluKeeps.refl _).store (StoreKeeps.stc (StoreKeeps.refl _) _ rfl (fun x => x) (fun x => x) fun x => x)) ?_)
      have ht : (s.glu.waiting.take room).length ≤ room := by rw [List.length_take]; exact Nat.min_le_left _ _
      show s.stc.writeQueue.length + _ ≤ _
      omega
  · exact h

theorem beginWarm (s : State) : Sound s s.beginWarm :=
  lines (fun _ => rfl) fun ⟨a, b, c, _, e⟩ => ⟨a, b, c, Nat.zero_le _, e⟩

theorem freeContexts {s0 s : State} (h : Sound s0 s) : Sound s0 s.freeContexts := by
  refine forEach (fun s i h => ?_) _ _ h
  split
  · exact h
  · exact (h.dropWalk i).vacate i

theorem warmClear {s0 s : State} (h : Sound s0 s) : Sound s0 s.warmClear := by
  unfold State.warmClear
  dsimp only
  have h1 := h.freeContexts
  generalize s.freeContexts = u at h1
  have h2 : Sound s0 (u.updPbk fun k => { k with engine := none, asmQueue := [], cache := [] }) :=
    h1.trans (lines (fun _ => rfl) fun ⟨a, b, c, d, _, f⟩ => ⟨a, b, c, d, Nat.zero_le _, f⟩)
  have h3 : Sound s0 ((u.updPbk fun k => { k with engine := none, asmQueue := [], cache := [] }).forEach allLines
      State.warmLine) :=
    forEach (fun s l h => h.line ((Onward.refl s).warmLine l trivial)) _ _ h2
  generalize ((u.updPbk fun k => { k with engine := none, asmQueue := [], cache := [] }).forEach allLines
      State.warmLine) = v at h3
  have h4 := (h3.uncheck none).glu ((GluKeeps.refl _).updGlu fun g => { g with
    dir := g.dir.filterMap fun e =>
      if { e.2 with pins := 0 } = ({} : PieceDir) then none else some (e.1, { e.2 with pins := 0 }) })
  have h5 := (h4.updTku fun t =>
    { t with reckon := t.reckon.warm, hold := t.hold.warm, sweep := t.sweep.warm }).store (StoreKeeps.refl _).startScrub
  exact h5.toFree rfl rfl rfl rfl rfl rfl rfl

theorem formatWord {s0 s : State} (h : Sound s0 s) (w) : Sound s0 (s.formatWord w) := by
  unfold State.formatWord
  dsimp only
  have h1 := h.store (StoreKeeps.refl s).takeFresh
  split
  · exact h1
  · exact h1.trans (writes (StoreWrites.stc (StoreWrites.refl _) _ (fun x => x) (Sparse.put_wf _ _) fun x => x))

theorem wrongWord (s : State) (w bits) : Sound s (s.updStc fun t =>
    { t with wrongBits := Sparse.put [] t.wrongBits w (wrongBitsAfter (Sparse.get [] t.wrongBits w) bits) }) :=
  writes (StoreWrites.stc (StoreWrites.refl _) _ (fun x => x) (Sparse.put_wf _ _) fun x => x)

end Sound

/-- The state of a cold reset is within its bounds. -/
theorem inv_cold (s : State) : Inv s.cold := by
  refine ⟨rfl, fun l => ?_, Nat.zero_le _, Nat.zero_le _, Nat.zero_le _, Nat.zero_le _, Nat.zero_le _⟩
  have h : s.cold.line l = {} := by
    simp [State.cold, State.line, State.reset]
  rw [h]
  exact ⟨Nat.zero_le _, Nat.zero_le _, Nat.zero_le _⟩

end Sys2Proof.Machine
end

