-- ==== Sys2Proof/Tests/Slice0.lean ====
section
/-! SUPPORT. Tests: ill-formed commands, and for every statement that has hypotheses a state and operands that meet them. -/

namespace Sys2Proof.Tests

open Sys2Proof.Machine

-- one theorem at a time: each of these waits for the kernel, and a thread for each would not fit in memory
set_option Elab.async false

/-! ### Small states -/

/-- An event as FCL would have placed it. -/
def ev (b : Body) : Event := { body := b, origin := 1, arrival := 1, gap := false }

/-- The reset state with line 0 as given. -/
def atLine (x : Line) : State := State.reset.updLine 0 fun _ => x

/-- The reset state with line 0 as given and one event in its queue. -/
def offered (x : Line) (b : Body) : State := atLine { x with queue := [ev b] }

/-- A valid entry at the defaults of Fig. 2.1, with station 0 valid. -/
def onLine (st : LineState) : Line :=
  { entry := { valid := true }, stations := (Vector.replicate 12 {}).set 0 { valid := true }, state := st, axis := 100000 }

/-- A request on port A; with no enabled Access Table entry its source is an ENGINEER. -/
def req (code : Byte) (body : List Byte) : Request :=
  { src := 0x0A0000000001, port := .A, version := 1, code := code, tag := 7, body := body }

/-- A state whose request queue holds one request. -/
def asks (s : State) (r : Request) : State := s.updMgt fun m => { m with requests := [r] }

/-- A LOAD_ENTRY of a table (Fig. 11.5). -/
def loads (table : Byte) (n : Nat) (bs : List Byte) : Request := req 1 (table :: be 2 n ++ bs)

/-- The reset state with one VIEW source, the one requests of `req` come from. -/
def viewOnly (a : Address) : State := State.reset.updMgt fun m =>
  { m with access := m.access.set 0 { enabled := true, role := .view, addr := a } }

/-- A management frame, padded to the least length. -/
def mframe : Frame := { dst := 0x020000002400, src := 0x0A0000000001, etype := 0x88B6, payload := List.replicate 46 0 }

/-- A piece made: index 1 in a state of the directory. -/
def withPiece (d : PieceDir) (s : State) : State := s.updGlu fun g =>
  { g with dir := [(1, d)], freePieces := { pushed := [], next := 2, limit := 65536 } }

/-- The reset state with context 0 as given. -/
def withContext (c : Context) : State := State.reset.updContext 0 fun _ => c

/-- A unit write to the record of piece 1. -/
def unitWrite : UnitWrite := { addr := pieceAddr 1 0, cell := .pieceId default }

theorem reset_chan (k : ChanId) : State.reset.chan k = {} := by
  simp [State.chan, State.reset]

/-! ### Ill-formed commands are refused by the checks -/

theorem test_word_outside_the_dram_is_ill_formed : (Instr.dramWordWrongBits 536870912 [0]).wordInDram = false
    ∧ (Instr.dramWordWrongBits 536870912 [0]).wf = false := by decide

theorem test_no_wrong_bit_is_ill_formed : (Instr.dramWordWrongBits 0 []).someBitWrong = false
    ∧ (Instr.dramWordWrongBits 0 []).wf = false := by decide

theorem test_bit_named_twice_is_ill_formed : (Instr.dramWordWrongBits 0 [5, 5]).bitsDistinct = false
    ∧ (Instr.dramWordWrongBits 0 [5, 5]).wf = false := by decide

theorem test_last_word_of_the_dram_is_well_formed : (Instr.dramWordWrongBits 536870911 [0, 71]).wf = true := by decide

theorem test_no_word_spells_a_command : decodeTableWord 8 0 = none := by decide

/-! ### The machine as a whole -/

theorem test_hyp_StepRunsFrontCommand : State.reset.pending = [] := by decide

theorem test_hyp_CommandsCompleteAndKeepTheQueue :
    (Instr.dramWordWrongBits 536870911 [0]).wf = true ∧ (∃ t, exec .baseTick State.reset = .next t)
    ∧ exec (.dramWordWrongBits 536870912 [0]) State.reset = .fault (.noSuchWord 536870912) :=
  ⟨by decide, ⟨_, rfl⟩, rfl⟩

theorem test_hyp_EveryStepKeepsBounds :
    let s := { offered (onLine .settling) (.length 5 10) with pending := [.lengthEvent 0] }
    Inv s ∧ ∃ t, step s = .next t :=
  ⟨⟨by decide +kernel, by simp only [LineOk]; decide +kernel, by decide +kernel⟩, ⟨_, rfl⟩⟩

theorem test_hyp_AxisNeverFalls :
    let s := offered (onLine .running) (.length 5 10)
    Inv s ∧ Instr.lengthEvent 0 ≠ .coldReset ∧ ∃ t, exec (.lengthEvent 0) s = .next t :=
  ⟨⟨by decide +kernel, by simp only [LineOk]; decide +kernel, by decide +kernel⟩, by decide, ⟨_, rfl⟩⟩

/-! ### Resets -/

theorem test_hyp_FormatCompleteOpensThePorts :
    let s : State := { State.reset with phase := .coldReset }
    let u := s.updStc fun t => { t with wrongBits := [(3, [1])] }
    (s.phase = .coldReset ∧ s.stc.wrongBits = []) ∧ u.phase = .coldReset ∧ Memory.wf u = true := by decide +kernel

theorem test_hyp_RestartBeginsTheDrain : Granted (asks State.reset (req 14 [])) (req 14 []) 14 .engineer := by decide +kernel

theorem test_hyp_WarmResetClearsTheBlocks :
    let s : State := { atLine (onLine .running) with phase := .warmDrain }
    let bin (l : Nat) := s.updChan 3 fun _ =>
      { entry := { valid := true, line := l }, openBin := some { num := 5, data := {} } }
    let due := s.updTku fun t => { t with sweep := { t.sweep with count := 0 } }
    (s.phase = .warmDrain ∧ s.drained = true ∧ (s.line 0).state ≠ .vacant ∧ (s.line 1).state = .vacant)
    ∧ ((s.line 0).state ∈ [LineState.settling, .running, .parked, .reckoning, .holdback] ∧ ((bin 0).chan 3).on 0 = true)
    ∧ ((bin 1).drained = true ∧ (∀ l, ((bin 1).line l).state ∈ [LineState.settling, .running, .parked, .reckoning, .holdback] →
        ((bin 1).chan 3).on l = false))
    ∧ (s.pbk.freePages.next ≤ s.pbk.freePages.limit ∧ s.tku.reckon.loadedMode = .reload ∧ s.tku.hold.loadedMode = .reload
        ∧ s.tku.sweep.loadedMode = .reload)
    ∧ (s.tku.hold.count ≠ 0 ∧ s.tku.sweep.count ≠ 0)
    ∧ (due.drained = true ∧ due.tku.hold.count ≠ 0 ∧ due.tku.sweep.running = true ∧ due.tku.sweep.count = 0) := by
  decide +kernel

/-- What the closes of a warm reset meet: an active line with a current output and a feed list, and a part with no active line. -/
theorem test_hyp_Warm_outputs_and_feed :
    let x : Line := { onLine .running with
      outputs := [⟨1, 0⟩], boundary := some 90000, feed := [{ piece := ⟨9, 0⟩, start := 5, stop := none, est := false }] }
    let s := withPiece { state := .opened, pins := 2 } { atLine x with phase := .warmDrain }
    let none' : State := { State.reset with phase := .warmDrain }
    ((s.line 0).state ∈ [LineState.settling, .running, .parked, .reckoning, .holdback] ∧ ⟨1, 0⟩ ∈ (s.line 0).outputs
      ∧ s.isCurrent ⟨1, 0⟩ = true ∧ s.drained = true ∧ s.stc.wrongBits = [] ∧ Sparse.wf {} s.glu.dir = true)
    ∧ (none'.drained = true ∧ ∀ l, (none'.line l).state ∉ [LineState.settling, .running, .parked, .reckoning, .holdback])
    ∧ ∃ t, exec .warmResetClear s = .next t ∧ GluFree t ∧ (t.line 0).feed = [] ∧ (t.pieceDir 1).state = .closed
        ∧ (t.pieceDir 1).pins = 0 ∧ t.glu.closeList = [1] ∧ t.stc.dram = [] :=
  ⟨by decide +kernel, by decide +kernel, _, rfl, by decide +kernel⟩

/-! ### Ports, frames and requests arriving -/

/-- A line met by the clearing phase while the closes of one before it wait: it is IDLE only once its own are complete (R27, R29, R81). -/
theorem test_warm_line_waits_for_its_closes :
    let s : State := { (atLine { onLine .running with queue := [ev .stop] }).updGlu fun g => { g with waiting := [unitWrite] } with
      phase := .warmClear }
    let t := s.warmLine 0
    t.glu.waits.drop 2 = [.leave 0 .idle, .line 0] ∧ (t.line 0).state = .running ∧ (t.line 0).queue = [ev .stop] := by decide +kernel

theorem test_hyp_LinksAndTransmitQueues :
    let up := State.reset
    let down := State.reset.updPort .A fun q => { q with link := .down }
    let last := State.reset.updPort .A fun q => { q with txq := List.replicate 31 mframe }
    let full := State.reset.updPort .A fun q => { q with txq := List.replicate 32 mframe }
    (up.phase ≠ .coldReset ∧ (up.port .A).link = .up) ∧ (down.phase ≠ .coldReset ∧ (down.port .A).link = .down)
    ∧ ((last.port .A).link = .up ∧ (last.port .A).txq.length < 32)
    ∧ ((full.port .A).link = .up ∧ 32 ≤ (full.port .A).txq.length) := by decide +kernel

theorem test_hyp_FramesAreDroppedOrRelayed :
    let f (n : Nat) : Frame := { dst := 1, src := 2, etype := 0x88B5, payload := List.replicate n 0 }
    State.reset.phase ≠ .coldReset ∧ 18 + (f 45).payload.length < 64 ∧ 2000 < 18 + (f 1983).payload.length
    ∧ (64 ≤ 18 + (f 46).payload.length ∧ 18 + (f 46).payload.length ≤ 2000
        ∧ ¬ ((f 46).etype = 0x88B6 ∧ (f 46).dst = State.reset.station))
    ∧ (64 ≤ 18 + (f 1982).payload.length ∧ 18 + (f 1982).payload.length ≤ 2000
        ∧ ¬ ((f 1982).etype = 0x88B6 ∧ (f 1982).dst = State.reset.station)) := by decide +kernel

theorem test_hyp_ManagementFrameIsConsumed :
    let long : Frame := { mframe with payload := List.replicate 1982 0 }
    let s (n : Nat) := State.reset.updMgt fun m => { m with requests := List.replicate n (req 13 []) }
    (∀ f ∈ [mframe, long], 46 ≤ f.payload.length ∧ f.payload.length ≤ 1982 ∧ f.etype = 0x88B6 ∧ f.dst = State.reset.station)
    ∧ ((s 7).phase = .running ∧ (s 7).mgt.requests.length < 8) ∧ ((s 8).phase ≠ .coldReset ∧ 8 ≤ (s 8).mgt.requests.length)
    ∧ ({ State.reset with phase := .warmDrain } : State).phase ≠ .coldReset := by decide +kernel

theorem test_hyp_FramesLeaveInOrder :
    let s := State.reset.updPort .B fun q => { q with txq := [mframe] }
    s.phase ≠ .coldReset ∧ (s.port .B).txq = mframe :: [] := by decide +kernel

/-! ### The Frame Classifier -/

/-- The payload of a LENGTH frame of origin 5 with a sequence number. -/
def lengthFrame (seq : Nat) : List Byte := [1, 1] ++ be 2 5 ++ be 2 seq ++ be 4 7 ++ be 2 100 ++ List.replicate 34 0

/-- An origin of code 5 of line 0, permitted every kind. -/
def origin (checked : Bool) : Origin :=
  { valid := true, code := 5, line := 0, kinds := { length := true, sample := true, joint := true, state := true },
    checked := checked, lastSeq := 10 }

/-- A state with one copy and one origin. -/
def copied (x : Line) (o : Origin) (bs : List Byte) : State :=
  (atLine x).updFcl fun f => { f with copies := [bs], origins := f.origins.set 0 o }

theorem test_process_frame_is_read : (readProcess (lengthFrame 11)).isSome = true
    ∧ (readProcess (lengthFrame 11)).map (fun p => (p.1.origin, p.1.seq, p.2)) = some (5, 11, .length 7 100) := by
  decide +kernel

/-- A process frame's payload: kind, six bytes of origin 5 and sequence 11, and a body, padded. -/
def frameOf (kind : Byte) (body : List Byte) : List Byte := [1, kind] ++ be 2 5 ++ be 2 11 ++ body ++ List.replicate 20 0

theorem test_frames_are_read :
    (readProcess (frameOf 2 ([11, 1, 7] ++ be 4 9))).map Prod.snd = some (.sample 11 [(7, 9)])
    ∧ (readProcess (frameOf 3 (be 4 9 ++ be 4 33554431 ++ blankTag))).map Prod.snd = some (.weld 9 33554431 blankTag)
    ∧ (readProcess (frameOf 4 ([3, 1] ++ be 4 33554431 ++ blankTag))).map Prod.snd = some (.cut .sample 33554431 [blankTag])
    ∧ (readProcess (frameOf 4 ([2, 0] ++ be 4 1))).map Prod.snd = some (.cut .scrap 1 [])
    ∧ (readProcess (frameOf 5 [1])).map Prod.snd = some .run ∧ (readProcess (frameOf 5 [2])).map Prod.snd = some .stop
    ∧ ∀ bs ∈ [frameOf 2 [12, 1], frameOf 2 [0, 0], frameOf 2 [0, 17], frameOf 3 (be 4 9 ++ be 4 33554432), frameOf 4 [2, 1],
        frameOf 4 [4, 0], frameOf 5 [3], frameOf 6 []], readProcess bs = none := by decide +kernel

theorem test_hyp_ClassifierDiscards :
    let h (n : Nat) : ProcessHeader := { kind := 1, origin := 5, seq := BitVec.ofNat 16 n }
    let s (x : LineState) (o : Origin) (n : Nat) := copied (onLine x) o (lengthFrame n)
    (∀ n ∈ [10, 11, 32778, 9], readProcess (lengthFrame n) = some (h n, .length 7 100))
    ∧ (readProcess [] = none)
    ∧ (∀ i : Fin 32, (copied (onLine .running) {} (lengthFrame 11)).fcl.origins[i].valid = true →
        (copied (onLine .running) {} (lengthFrame 11)).fcl.origins[i].code ≠ (h 11).origin)
    ∧ ((s .idle (origin false) 11).findOrigin 5 = some 0 ∧ ((s .idle (origin false) 11).line 0).state = .idle)
    ∧ ((s .running (origin true) 10).findOrigin 5 = some 0 ∧ ((s .running (origin true) 10).line 0).state = .running
        ∧ (h 10).seq = (s .running (origin true) 10).fcl.origins[0].lastSeq)
    ∧ 32768 ≤ ((h 32778).seq - (s .running (origin true) 32778).fcl.origins[0].lastSeq).toNat
    ∧ 32768 ≤ ((h 9).seq - (s .running (origin true) 9).fcl.origins[0].lastSeq).toNat := by decide +kernel

theorem test_hyp_ClassifierPlacesEvents :
    let s (x : Line) (o : Origin) (n : Nat) := copied x o (lengthFrame n)
    let full := { onLine .running with queue := List.replicate 64 (ev .stop) }
    let last := { onLine .running with queue := List.replicate 63 (ev .stop) }
    let dumb := { origin true with kinds := {} }
    (∀ x ∈ [onLine .running, full, last],
      (s x (origin true) 11).phase = .running ∧ (s x (origin true) 11).findOrigin 5 = some 0 ∧ (origin true).line = (0 : LineId).val
      ∧ ((s x (origin true) 11).line 0).state ∉ [LineState.vacant, .idle, .suspended])
    ∧ (origin false).checked = false ∧ (origin true).checked = true ∧ (origin true).lastSeq = 10
    ∧ ((11 : BitVec 16) - 10).toNat = 0 + 1 ∧ ((32777 : BitVec 16) - 10).toNat = 32766 + 1
    ∧ dumb.kinds.length = false ∧ (origin true).kinds.length = true ∧ (origin true).kinds.joint = true
    ∧ (∀ c ∈ blankTag, c = 0x20) ∧ (∃ c ∈ ([0x21] : Tag), c = 0x21) ∧ ([0x20, 0x41] : Tag)[0]? = some 0x20
    ∧ 64 ≤ full.queue.length ∧ last.queue.length < 64 := by decide +kernel

/-! ### Length events: each clause at the ends of its range -/

theorem test_hyp_LengthForwardPaysDebtThenAdvances :
    ∀ n ∈ [0, 1, 50000], ∀ x ∈ [onLine .running, { onLine .running with reverseDebt := 40 },
        { onLine .running with reverseDebt := 1000000, reverseOver := true }, onLine .parked],
      let c : Word32 := BitVec.ofNat 32 n
      Awaits (offered x (.length c 10)) 0 (ev (.length c 10))
      ∧ (x.state = .running ∨ (x.state = .parked ∧ x.refMissing = false))
      ∧ 0 ≤ (c - x.lengthRef).toInt ∧ (c - x.lengthRef).toInt ≤ x.entry.maxStep := by decide +kernel

theorem test_hyp_LengthBackwardGrowsDebt :
    ∀ n ∈ [0xFFFFFFFF, 0x80000000], ∀ x ∈ [onLine .running, { onLine .parked with reverseDebt := 999999 },
        { onLine .running with reverseDebt := 1000000 }],
      let c : Word32 := BitVec.ofNat 32 n
      Awaits (offered x (.length c 10)) 0 (ev (.length c 10))
      ∧ (x.state = .running ∨ (x.state = .parked ∧ x.refMissing = false)) ∧ (c - x.lengthRef).toInt < 0 := by decide +kernel

theorem test_hyp_LengthJumpAdvancesWhole :
    (∀ n ∈ [50001, 0x7FFFFFFF], ∀ x ∈ [onLine .running, onLine .parked],
      let c : Word32 := BitVec.ofNat 32 n
      Awaits (offered x (.length c 10)) 0 (ev (.length c 10))
      ∧ (x.state = .running ∨ (x.state = .parked ∧ x.refMissing = false))
      ∧ (x.entry.maxStep : Int) < (c - x.lengthRef).toInt)
    ∧ (∀ k, ((offered (onLine .running) (.length 50001 10)).chan k).recording 0 = false)
    ∧ (offered (onLine .running) (.length 50001 10)).mgt.fault = none :=
  ⟨by decide +kernel, fun k => (congrArg (Channel.recording · 0) (reset_chan k)).trans rfl, rfl⟩

theorem test_hyp_LengthSettlesTheLine :
    ∀ x ∈ [onLine .settling, { onLine .settling with lengthTaken := true },
        { onLine .settling with lengthTaken := true, settlingRun := 2 },
        { onLine .settling with lengthTaken := true, settlingRun := 3 }],
      ∀ n ∈ [0xFFFFFFFF, 0, 50000, 50001],
        let c : Word32 := BitVec.ofNat 32 n
      Awaits (offered x (.length c 10)) 0 (ev (.length c 10)) ∧ x.state = .settling := by decide +kernel

theorem test_hyp_LengthReturnsTheReference :
    let x := { onLine .reckoning with sup := { anchor := 90000 } }
    (∀ n ∈ [9999, 10000, 10001, 60000, 60001],
      let c : Word32 := BitVec.ofNat 32 n
      Awaits (offered x (.length c 10)) 0 (ev (.length c 10)) ∧ x.state = .reckoning ∧ x.axis ≤ 1099511627775)
    ∧ x.sup.anchor + (10000 : Word32).toInt = x.axis ∧ x.sup.anchor + (9999 : Word32).toInt < x.axis
    ∧ (x.axis : Int) < x.sup.anchor + (10001 : Word32).toInt
    ∧ (x.axis : Int) + x.entry.maxStep < x.sup.anchor + (60001 : Word32).toInt := by decide +kernel

theorem test_hyp_LengthPaysTheHoldbackGap :
    let x := { onLine .holdback with sup := { gap := 500 } }
    ∀ n ∈ [0xFFFFFFFF, 0, 499, 500, 501, 50000, 50001],
      let c : Word32 := BitVec.ofNat 32 n
      Awaits (offered x (.length c 10)) 0 (ev (.length c 10)) ∧ x.state = .holdback ∧ x.axis ≤ 1099511627775 := by
  decide +kernel

theorem test_hyp_LengthInParkedMeetsTheAnchor :
    let x := { onLine .parked with refMissing := true, parkedFrom := .reckoning, sup := { anchor := 90000, gap := 500 } }
    ∀ y ∈ [x, { x with parkedLength := true }, { x with parkedFrom := .holdback }],
      ∀ n ∈ [0xFFFFFFFF, 0, 499, 500, 501, 9999, 10000, 10001, 50000, 50001, 60001],
        let c : Word32 := BitVec.ofNat 32 n
        Awaits (offered y (.length c 10)) 0 (ev (.length c 10)) ∧ y.state = .parked ∧ y.refMissing = true
        ∧ y.axis ≤ 1099511627775 := by decide +kernel

/-- The same state with an open bin in channel 3 of line 0, whose current block is block 4. -/
def recording (s : State) : State :=
  (s.updChan 3 fun c => { c with
    entry := { c.entry with valid := true, line := 0 }, openBin := some { num := 125, data := {} } }).updChanStore 3 fun k =>
    { k with current := some (4, { (default : BlockHeader) with firstBin := 120 }) }

theorem recording_chan {s : State} {j : ChanId} (h : j ≠ 3) : (recording s).chan j = s.chan j := by
  simp only [recording, State.chan, State.updChan, State.updChanStore, Fin.getElem_fin]
  exact Vector.getElem_set_ne _ _ fun e => h (Fin.ext e.symm)

theorem test_hyp_RecordsAlone :
    let gone := { onLine .reckoning with sup := { anchor := 90000 } }
    let last := { onLine .reckoning with sup := { grace := 5999 } }
    let e := Body.length 60001 10
    let s := recording (offered last e)
    (∀ x b, (recording (offered x b)).channels = s.channels ∧ (recording (offered x b)).stc = s.stc)
    ∧ (∀ x ∈ [onLine .running, onLine .parked, gone, onLine .holdback, { onLine .parked with refMissing := true, parkedFrom := .holdback },
        { gone with state := .parked, refMissing := true, parkedFrom := .reckoning }], Awaits (recording (offered x e)) 0 (ev e))
    ∧ RecordsAlone s 0 3 { num := 125, data := {} } 4 { (default : BlockHeader) with firstBin := 120 }
    ∧ (∀ j, j ≠ (0 : LineId) → (s.line j).state ∉ [LineState.reckoning, .holdback])
    ∧ (last.sup.reckonSpeed * 10 + last.sup.remainder) / 1000 = 0 :=
  ⟨fun _ _ => ⟨rfl, rfl⟩, by decide +kernel,
    ⟨by decide +kernel, by decide +kernel, fun j hj => (congrArg (Channel.recording · 0) ((recording_chan hj).trans (reset_chan j))).trans rfl, by decide +kernel⟩,
    by decide +kernel⟩

/-! ### The other process events -/

theorem test_hyp_Sample_silence :
    ∀ n ∈ [30, 31, 255], let s := atLine { onLine .running with sup := { silence := n } }
      s.mgt.fault = none ∧ (min (n + 1) 255 < (s.line 0).entry.silenceLimit ↔ n = 30) := by decide +kernel

theorem test_hyp_SampleIsTakenOrHeldBack :
    ∀ st ∈ [LineState.holdback, .running, .settling, .parked, .reckoning], ∀ gap ∈ [true, false],
      let e := { ev (.sample 0 [(1, 5)]) with gap := gap }
      Awaits (atLine { onLine st with queue := [e] }) 0 e ∧ e.gap = gap := by decide +kernel

/-- A channel of line 0, station 0, point 1 with pitch 10 and limits 0 to 99. -/
def gauge : Channel :=
  { entry := { valid := true, line := 0, station := 0, point := 1, pitch := 10, low := 0, high := 99 } }

/-- A call of a sample at a position. -/
def call (m : Int) : SampleCall := { line := 0, station := 0, pos := m, est := false, debt := false, before := false }

theorem test_hyp_PairIsFiledOrCounted :
    let s (x : Channel) := (atLine { onLine .running with headMark := 50 }).updChan 3 fun _ => x
    State.reset.mapped 0 0 1 = none ∧ (s gauge).mapped 0 0 1 = some 3
    ∧ ((call (-1)).pos < 0 ∧ (call 49).pos < ((s gauge).line 0).headMark
        ∧ 0 ≤ (call 50).pos ∧ (((s gauge).line 0).headMark : Int) ≤ (call 50).pos)
    ∧ ((call 50).pos.toNat < 51 ∧ ((s { gauge with frontier := some 51 }).chan 3).frontier = some 51)
    ∧ ((call 50).pos.toNat ≤ 50 ∧ ((s { gauge with frontier := some 50 }).chan 3).frontier = some 50
        ∧ ((s { gauge with frontier := some 50 }).chan 3).openBin = none)
    ∧ (((s { gauge with lastHanded := some 5 }).chan 3).lastHanded = some 5 ∧ (call 59).pos.toNat / 10 ≤ 5)
    ∧ ((s gauge).chan 3).openBin = none ∧ ((s gauge).chan 3).entry.low ≤ 0 ∧ (99 : Int) ≤ ((s gauge).chan 3).entry.high
    ∧ ((-1 : Int) < ((s gauge).chan 3).entry.low ∧ ((s gauge).chan 3).entry.high < 100) := by decide +kernel

/-- After a discard what stands at the frontier is not recorded again; recording resumes at the next position of the same bin, and an open
bin still takes a second value at its frontier (R67, R76). -/
theorem test_discarded_bin_resumes_beyond_the_frontier :
    let x : Channel := { gauge with frontier := some 52, openBin := some { num := 5, data := {} } }
    let gone := (((atLine (onLine .running)).updChan 3 fun _ => x).discardBins 0).chan 3
    (x.behind 52 false = false ∧ x.behind 52 true = true ∧ x.behind 51 false = true)
    ∧ gone.openBin = none ∧ gone.frontier = some 52 ∧ gone.behind 52 false = true ∧ gone.behind 53 false = false := by decide +kernel

theorem test_hyp_ValueIsAccumulated :
    (∀ n ∈ [0, 1, 16777214, 16777215],
      let b : OpenBin := { num := 5, data := { count := n } }
      let s := (atLine (onLine .running)).updChan 3 fun _ => { gauge with openBin := some b }
      (s.chan 3).openBin = some b ∧ b.num = 50 / (s.chan 3).entry.pitch ∧ b.num = 59 / (s.chan 3).entry.pitch
      ∧ b.num ≠ 60 / (s.chan 3).entry.pitch ∧ s.stc.waitingSeal = none)
    ∧ (State.reset.updStc fun t => { t with waitingSeal := some (.sealing 4 default) }).stc.waitingSeal.isSome = true := by
  decide +kernel

/-- A joint of a chain. -/
def joint (a : Nat) : Joint := { axis := a, piece := ⟨1, 0⟩, est := false }

/-- A tag of one letter. -/
def tagA : Tag := 0x41 :: List.replicate 15 0x20

/-- A cell in the home slot of that tag, and piece 1 in a state of the directory with a record of that tag. -/
def slotted (c : Cell) (d : PieceDir) (k : PieceKind) (use : Option UseSpan) : State :=
  (withPiece d State.reset).updStc fun t =>
    { t with dram := [(pieceAddr 1 0, .pieceId { (default : PieceId) with ref := ⟨1, 0⟩, tag := tagA, kind := k }),
                      (pieceAddr 1 2, .pieceUses use (some ⟨0, 5, some 9, .same, false⟩)), (tagAddr (homeSlot tagA), c)] }

theorem test_hyp_WeldJoinsTheChain :
    let b : Body := .weld 5 0 tagA
    ∀ st ∈ [LineState.settling, .running, .parked, .reckoning, .holdback], ∀ n ∈ [31, 32],
      let x := { onLine st with chain := (List.range n).map joint }
      Awaits (offered x b) 0 (ev b) ∧ GluFree (offered x b) ∧ (offered x b).mgt.fault = none
      ∧ (n = 32 → 32 ≤ x.chain.length) ∧ (n = 31 → x.chain.length < 32) := by decide +kernel

theorem test_hyp_Weld_feeding_and_resolution :
    let f (b : Option Nat) : FeedEntry := { piece := ⟨1, 0⟩, start := 5, stop := b, est := false }
    let used : Cell := .tagUsed tagA ⟨1, 0⟩
    let found (d : PieceState) (k : PieceKind) (use : Option UseSpan) :=
      ((slotted used { state := d } k use).lookupTag tagA).1.map fun x => (x.1, x.2.id.kind, x.2.uses.length)
    ([f none].getLast? = some (f none) ∧ [f (some 9)].getLast? = some (f (some 9)) ∧ (onLine .running).feed = [])
    ∧ ((State.reset.lookupTag tagA).1 = none)
    ∧ found .opened .coil none = some (⟨1, 0⟩, .coil, 1) ∧ found .closed .scrap none = some (⟨1, 0⟩, .scrap, 1)
    ∧ found .closed .coil (some ⟨0, 9, none, .same, false⟩) = some (⟨1, 0⟩, .coil, 2)
    ∧ found .closed .coil none = some (⟨1, 0⟩, .coil, 1) := by decide +kernel

theorem test_hyp_Weld_walks :
    let first (c : Cell) := ((slotted c { state := .closed } .coil none).gluRead (tagAddr (homeSlot tagA))).1
    let s (st : PieceState) := slotted (.tagUsed tagA ⟨1, 0⟩) { state := st } .coil none
    let bad := (s .closed).updStc fun t => { t with wrongBits := [(pieceAddr 1 0 / 8, [3, 4])] }
    first .cleared = some .cleared ∧ first .tagTombstone = some .tagTombstone ∧ first .poisoned = none
    ∧ first (.tagUsed blankTag ⟨1, 0⟩) = some (.tagUsed blankTag ⟨1, 0⟩) ∧ blankTag ≠ tagA
    ∧ (s .retired).isCurrent ⟨1, 0⟩ = false ∧ (bad.isCurrent ⟨1, 0⟩ = true ∧ (bad.gluRecord 1).1 = none)
    ∧ ((s .closed).isCurrent ⟨1, 0⟩ = true ∧ ((s .closed).gluRecord 1).1.isSome = true)
    ∧ (State.reset.enterSlots tagA ⟨1, 0⟩ (probeSlots tagA)).1 = true := by decide +kernel

/-- A FEEDING use span of the piece of `slotted`, and the piece with it ended at axis 12, ESTIMATED (R89). -/
theorem test_hyp_Weld_ends_feeding :
    let y : UseSpan := ⟨0, 9, none, .same, false⟩
    let s (use : Option UseSpan) := slotted (.tagUsed tagA ⟨1, 0⟩) { state := .closed } .coil use
    let bad := (s none).updStc fun t => { t with wrongBits := [(pieceAddr 1 0 / 8, [3, 4])] }
    (bad.gluRecord 1).1 = none
    ∧ ((s none).gluRecord 1).1.map (fun p => p.uses.any fun y => decide (y.line = 0) && y.stop.isNone) = some false
    ∧ (((s (some y)).gluRecord 1).1.bind fun p => p.uses[0]?) = some y
    ∧ (((s (some y)).endUse ⟨1, 0⟩ 0 12 true false).gluRecord 1).1.map (fun p => (p.uses, p.id.flags.estimated))
        = some ([⟨0, 9, some 12, .same, true⟩, ⟨0, 5, some 9, .same, false⟩], true) := by decide +kernel

theorem test_hyp_Weld_index_full :
    let s := State.reset.updStc fun t =>
      { t with writeQueue := (List.range 16).map fun i => .unit ⟨tagAddr (homeSlot tagA + i), .tagUsed blankTag ⟨9, 0⟩⟩ }
    (s.enterSlots tagA ⟨1, 0⟩ ((List.range 16).map fun i => (homeSlot tagA + i) % 131072)).1 = false := by decide +kernel

theorem test_hyp_CutOutOfOrderIsRefused :
    let below := { onLine .running with stations := (Vector.replicate 12 {}).set 0 { valid := true, content := 100001 } }
    let at' := { onLine .running with boundary := some 100000 }
    let coil : Body := .cut .coil 5 [blankTag, blankTag]
    (Awaits (offered below coil) 0 (ev coil) ∧ ((below.axis : Int) - below.content below.entry.shear) = -1)
    ∧ (Awaits (offered at' coil) 0 (ev coil) ∧ ((at'.axis : Int) - at'.content at'.entry.shear) = 100000)
    ∧ (Awaits (offered (onLine .running) coil) 0 (ev coil) ∧ (onLine .running).boundary = none
        ∧ [blankTag, blankTag].length ≠ (onLine .running).entry.strands)
    ∧ (offered below coil).mgt.fault = none := by decide +kernel

theorem test_hyp_CutOpensOutputs :
    let x := { onLine .running with boundary := some 99999 }
    (∀ b ∈ [(CutKind.coil, [blankTag]), (.sample, [blankTag]), (.scrap, [])],
      let e : Body := .cut b.1 5 b.2
      Awaits (offered x e) 0 (ev e) ∧ GluFree (offered x e)
      ∧ 0 ≤ ((x.axis : Int) - x.content x.entry.shear)
      ∧ (99999 : Int) < (x.axis : Int) - x.content x.entry.shear ∧ (b.1 = .scrap ∨ b.2.length = x.entry.strands))
    ∧ State.reset.isCurrent ⟨1, 0⟩ = false ∧ (withPiece { state := .opened } State.reset).isCurrent ⟨1, 0⟩ = true
    ∧ (let f : FeedEntry := { piece := ⟨1, 0⟩, start := 5, stop := some 9, est := false }
       f ∈ [f] ∧ 3 ≤ 5 ∧ 5 < 12 ∧ f.start ≤ 5 ∧ 8 < f.stop.getD 12 ∧ 4 < f.start) := by decide +kernel

/-- A weld and a cut that meet a busy GLU are taken, and their calls wait (R81, R82). -/
theorem test_events_are_taken_while_glu_is_busy :
    let s (b : Body) := (offered { onLine .running with outputs := [⟨1, 0⟩], boundary := some 99000 } b).updGlu fun g =>
      { g with waiting := [unitWrite], waits := [.line 3] }
    let w : Body := .weld 5 0 tagA
    let c : Body := .cut .coil 5 [blankTag]
    (Awaits (s w) 0 (ev w) ∧ ¬ GluFree (s w) ∧ ((s w).line 0).chain.length < 32) ∧ (Awaits (s c) 0 (ev c) ∧ ¬ GluFree (s c))
    ∧ (∃ t, exec (.weldEvent 0) (s w) = .next t ∧ (t.line 0).chain = [] ∧ (t.line 0).sup.silence = 1
        ∧ t.glu.waits = [.line 3, .call (.weld 0 100005 false tagA 0 .same), .line 0])
    ∧ ∃ t, exec (.cutEvent 0) (s c) = .next t ∧ t.glu.waits = [.line 3, .call (.closeCut {
          line := 0, start := 99000, stop := 100000, finished := 5, est := false, incomplete := false } [⟨1, 0⟩]),
        .call (.openOutputs 0 .coil [blankTag] 100000 false), .line 0] :=
  ⟨by decide +kernel, by decide +kernel, ⟨_, rfl, by decide +kernel⟩, _, rfl, by decide +kernel⟩

/-- A cut whose close leaves writes waiting: the opening waits as a call of its own, and the line holds its queue (R39, R81). -/
theorem test_cut_opens_behind_its_close :
    let x := { onLine .running with outputs := [⟨1, 0⟩], boundary := some 99000 }
    let full := ((slotted .cleared { state := .opened } .coil none).updStc fun t =>
      { t with writeQueue := List.replicate 256 (.unit ⟨pieceAddr 7 0, .cleared⟩) }).updLine 0 fun _ =>
      { x with queue := [ev (.cut .coil 5 [blankTag])] }
    Awaits full 0 (ev (.cut .coil 5 [blankTag])) ∧ GluFree full
    ∧ ∃ t, exec (.cutEvent 0) full = .next t
      ∧ t.glu.waits = [.call (.openOutputs 0 .coil [blankTag] 100000 false), .line 0] ∧ t.glu.waiting ≠ []
      ∧ (t.line 0).outputs = [⟨1, 0⟩] ∧ (t.line 0).boundary = some 99000 ∧ (t.line 0).counters.cuts = 0 :=
  ⟨by decide +kernel, by decide +kernel, _, rfl, by decide +kernel⟩

theorem test_hyp_Cut_builds_and_creates :
    let s (n : Nat) := (slotted .cleared { state := .opened } .coil none).updStc fun t =>
      { t with writeQueue := List.replicate n (.unit ⟨pieceAddr 7 0, .cleared⟩) }
    let noSegment := (s 0).updGlu fun g => { g with freeSegments := { next := 524288, limit := 524288 } }
    let noPiece := State.reset.updGlu fun g => { g with freePieces := { next := 65536, limit := 65536 } }
    (∀ u ∈ [s 253, noSegment], u.stc.wrongBits = [] ∧ ((u.gluRecord 1).1.map fun y => y.parents.count) = some 0)
    ∧ noSegment.glu.freeSegments.pop = none
    ∧ ((s 253).glu.freeSegments.pop.map Prod.fst = some 0 ∧ (s 253).glu.freeGroups.pop.map Prod.fst = some 0
        ∧ (s 253).glu.waiting = [] ∧ 3 ≤ (s 253).writeRoom)
    ∧ (noPiece.glu.freePieces.pop = none ∧ noPiece.glu.closeList = [] ∧ noPiece.mgt.fault = none)
    ∧ (∃ rest, (s 248).glu.freePieces.pop = some (2, rest) ∧ 256 ≤ rest.length)
    ∧ Sparse.wf {} (s 248).glu.dir = true ∧ (s 248).glu.waiting = [] ∧ 8 ≤ (s 248).writeRoom :=
  ⟨by decide +kernel, by decide +kernel, by decide +kernel, by decide +kernel, ⟨_, rfl, by decide +kernel⟩, by decide +kernel⟩

theorem test_hyp_Cut_scrap_and_pool :
    let f : FeedEntry := { piece := ⟨1, 0⟩, start := 5, stop := none, est := false }
    let s := (slotted .cleared { state := .closed } .coil none).updLine 0 fun x => { x with feed := [f] }
    let bad (t : State) := t.updStc fun t => { t with wrongBits := [(pieceAddr 1 0 / 8, [3, 4])] }
    let none' := State.reset.updGlu fun g => { g with freePieces := { next := 65536, limit := 65536 } }
    let last := (bad s).updGlu fun g => { g with freePieces := { next := 65536, limit := 65536 }, closeList := [1] }
    ((s.line 0).feed.filter fun f => f.stop.all fun b => decide (7 < b)) = [f] ∧ (State.reset.line 0).feed = []
    ∧ (s.isCurrent f.piece = true ∧ ((s.gluRecord 1).1.map fun p => p.id.tag) = some tagA) ∧ ((bad s).gluRecord 1).1 = none
    ∧ ({ f with piece := .noPiece } : FeedEntry).piece.idx = 0 ∧ s.isCurrent .noPiece = false
    ∧ (none'.glu.freePieces.pop = none ∧ none'.autoRetire.glu.freePieces.pop = none)
    ∧ last.glu.freePieces.pop = none ∧ last.autoRetire.glu.freePieces.pop.map Prod.fst = some 1 := by decide +kernel

/-- Pieces 1 and 2, both current, with records of no lists, and `n` entries on the write queue. -/
def pair (n : Nat) : State := State.reset.updGlu (fun g =>
    { g with dir := [(1, { state := .opened }), (2, { state := .closed })],
             freePieces := { pushed := [], next := 3, limit := 65536 } }) |>.updStc fun t =>
  { t with writeQueue := List.replicate n (.unit ⟨pieceAddr 7 0, .cleared⟩) }

/-- A part fed by piece 2. -/
def part2 : Part := { start := 5, stop := 9, parent := ⟨2, 0⟩, est := false }

theorem test_hyp_Cut_segment_of_a_parent :
    let s := pair 251
    let few := s.updGlu fun g => { g with freeGroups := { next := 262143, limit := 262144 } }
    let none' := s.updGlu fun g => { g with freeGroups := { next := 262144, limit := 262144 } }
    (∀ u ∈ [s, few, none'], u.stc.wrongBits = [] ∧ ((u.gluRecord 1).1.map fun y => y.parents.count) = some 0
      ∧ ((u.gluRecord 2).1.map fun y => y.children.count) = some 0 ∧ u.isCurrent part2.parent = true
      ∧ u.glu.freeSegments.pop.map Prod.fst = some 0)
    ∧ none'.glu.freeGroups.pop = none ∧ few.glu.freeGroups.length < 2
    ∧ s.glu.freeGroups.pop = some (0, { next := 1, limit := 262144 })
    ∧ (FreeList.pop { next := 1, limit := 262144 }).map Prod.fst = some 1 ∧ s.glu.waiting = [] ∧ 5 ≤ s.writeRoom := by decide +kernel

/-- A segment of a current parent stands in both lists (R97). -/
theorem test_segment_joins_both_lists :
    let t := (pair 0).buildSegment 0 ⟨1, 0⟩ 0 false part2
    ((t.gluRecord 1).1.map fun y => y.parents) = some { count := 1, first := 0, last := 0 }
    ∧ ((t.gluRecord 2).1.map fun y => y.children) = some { count := 1, first := 1, last := 1 }
    ∧ (t.gluRead (groupAddr 1)).1 = some (.group ⟨⟨2, 0⟩, .child, 0, none, [some 0]⟩)
    ∧ (t.gluRead (segmentAddr 0)).1 = some (.segment ⟨⟨1, 0⟩, ⟨2, 0⟩, 0, 0, 5, 9, false⟩) := by decide +kernel

theorem test_hyp_Cut_append_to_a_list :
    let g (n : Nat) : Group := ⟨⟨1, 0⟩, .parent, 0, none, List.replicate n (some 5)⟩
    let s (n : Nat) := (pair 0).updStc fun t => { t with dram := [(groupAddr 7, .group (g n))] }
    let l : LinkList := { count := 1, first := 7, last := 7 }
    let bad := (s 1).updStc fun t => { t with wrongBits := [(groupAddr 7 / 8, [1, 2])] }
    (∀ n ∈ [0, 3, 4], ((s n).gluRead (groupAddr l.last)).1 = some (.group (g n)) ∧ (s n).stc.wrongBits = [] ∧ 3 ≤ (s n).writeRoom
      ∧ (s n).glu.waiting = [] ∧ ((s n).gluRecord 1).1.isSome = true)
    ∧ (0 < l.count ∧ (bad.gluRead (groupAddr l.last)).1 = none) ∧ (s 4).glu.freeGroups.pop.map Prod.fst = some 0 := by decide +kernel

theorem test_hyp_StopParksTheLine :
    ∀ st ∈ [LineState.settling, .running, .parked, .reckoning, .holdback],
      Awaits (offered (onLine st) .stop) 0 (ev .stop) := by decide +kernel

theorem test_hyp_RunLeavesParked :
    ∀ x ∈ [onLine .running, onLine .parked, { onLine .parked with refMissing := true, parkedLength := true },
        { onLine .parked with refMissing := true, sup := { gap := 1 } }, { onLine .parked with refMissing := true }],
      Awaits (offered x .run) 0 (ev .run) := by decide +kernel

theorem test_hyp_ReckoningFromParkedIsNotAnnounced :
    let x := { onLine .parked with refMissing := true, parkedFrom := .reckoning, sup := { anchor := 90000 } }
    Awaits (offered x .run) 0 (ev .run) ∧ x.state = .parked ∧ x.refMissing = true ∧ x.sup.gap = 0
    ∧ x.parkedLength = false := by decide +kernel

/-! ### The Tick Unit -/

theorem test_hyp_BaseTickCounts :
    let low := State.reset.updTku fun t => { t with reckon := { t.reckon with count := 1 } }
    let owed := State.reset.updTku fun t => { t with reckon := { t.reckon with count := 0 } }
    owed.phase ≠ .coldReset ∧ ∀ s ∈ [State.reset, low], s.phase ≠ .coldReset ∧
      ∀ c ∈ [s.tku.reckon, s.tku.hold, s.tku.sweep], c.running = true → c.count ≠ 0 := by decide +kernel

theorem test_hyp_ReckonExpiryMovesReckoningLines :
    let s (x : Line) := (atLine x).updTku fun t => { t with reckon := { t.reckon with count := 0 } }
    let fresh := { onLine .reckoning with sup := { grace := 5998 } }
    let last := { onLine .reckoning with sup := { grace := 5999 } }
    let held := { onLine .holdback with sup := { grace := 5999 } }
    (∀ x ∈ [fresh, last, held, onLine .running], (s x).phase = .running ∧ (s x).tku.reckon.running = true
      ∧ (s x).tku.reckon.count = 0 ∧ (s x).tku.reckon.loadedMode = .reload)
    ∧ fresh.sup.grace + 1 ≠ fresh.entry.gracePeriod ∧ last.sup.acked = false ∧ last.entry.gracePeriod ≠ 0
    ∧ last.sup.grace + 1 = last.entry.gracePeriod ∧ held.sup.grace + 1 = held.entry.gracePeriod
    ∧ (∀ x ∈ [fresh, last, held], GluWait.line 0 ∉ (s x).glu.waits)
    ∧ GluWait.line 0 ∈ ((s last).updGlu fun g => { g with waiting := [unitWrite], waits := [.line 0] }).glu.waits := by
  decide +kernel

/-- An expiry that meets a line whose call waits is taken once the call is complete, and then suspends the line (R47, R53). -/
theorem test_expiry_waits_for_the_line :
    let x := { onLine .reckoning with sup := { grace := 5999 } }
    let s := ((atLine x).updTku fun t => { t with reckon := { t.reckon with count := 0 } }).updGlu fun g =>
      { g with waiting := [unitWrite], waits := [.line 0] }
    ∃ t, exec .reckonExpiry s = .next t ∧ (t.line 0).state = .reckoning ∧ t.glu.waits = [.line 0, .reckon 0 10] :=
  ⟨_, rfl, by decide +kernel⟩

/-- A suspension whose closes wait: the line stays in RECKONING with its queue held, and an expiry behind it waits once more (R47, R56, R81). -/
theorem test_suspension_waits_for_its_closes :
    let x := { onLine .reckoning with sup := { grace := 5999 }, queue := [ev .stop] }
    let s := ((atLine x).updTku fun t => { t with reckon := { t.reckon with count := 0 } }).updGlu fun g =>
      { g with waiting := [unitWrite] }
    let behind := s.updGlu fun g => { g with waiting := [], waits := [.reckon 0 10, .line 0] }
    (∃ t, exec .reckonExpiry s = .next t ∧ (t.line 0).state = .reckoning ∧ (t.line 0).queue.length = 1
      ∧ GluWait.leave 0 .suspended ∈ t.glu.waits ∧ t.glu.waits.getLast? = some (.line 0))
    ∧ behind.nextWait.glu.waits = [.line 0, .reckon 0 10] :=
  ⟨⟨_, rfl, by decide +kernel⟩, by decide +kernel⟩

theorem test_hyp_HoldExpiryFreesSpentContexts :
    let s (c : Context) := (withContext c).updTku fun t => { t with hold := { t.hold with count := 0 } }
    ∀ c ∈ [{ state := .ready, hold := 2 }, { state := .failed, hold := 1 }, { state := .draining }],
      (s c).phase ≠ .coldReset ∧ (s c).tku.hold.running = true ∧ (s c).tku.hold.count = 0
      ∧ (s c).tku.hold.loadedMode = .reload ∧ (s c).tku.sweep.cascade = false ∧ (s c).context 0 = c := by decide +kernel

theorem test_hyp_Hold_pins_and_cascade :
    let s (n : Nat) (free : Bool) := ((withPiece { state := .closed, pins := 1 } (withContext {
        state := .ready, hold := 1, piece := ⟨1, 0⟩, pinCounted := true, pages := [9] })).updTku fun t =>
        { t with hold := { t.hold with count := 0 }, sweep := { t.sweep with cascade := true, count := n } }).updGlu fun g =>
        { g with waits := if free then [] else [.line 2] }
    (∀ n ∈ [0, 1], ∀ b ∈ [true, false], (s n b).phase ≠ .coldReset ∧ (s n b).tku.hold.running = true
      ∧ (s n b).tku.hold.count = 0 ∧ (s n b).tku.hold.loadedMode = .reload ∧ (s n b).tku.sweep.cascade = true
      ∧ (s n b).tku.sweep.running = true ∧ (s n b).tku.sweep.count = n ∧ (s n b).tku.sweep.loadedMode = .reload
      ∧ Sparse.wf {} (s n b).glu.dir = true)
    ∧ GluFree (s 0 true) ∧ ¬ GluFree (s 0 false) ∧ (s 0 true).isCurrent ⟨1, 0⟩ = true
    ∧ ∃ t, exec .holdExpiry (s 1 true) = .next t ∧ (t.pieceDir 1).pins = 0 ∧ t.tku.sweep.count = 0
        ∧ t.pbk.freePages = State.reset.pbk.freePages.push 9 ∧ t.pbk.counters.holdExpired = 1 :=
  ⟨by decide +kernel, by decide +kernel, by decide +kernel, by decide +kernel, _, rfl, by decide +kernel⟩

theorem test_hyp_SweepExpirySetsSweepDue :
    let s (due : Bool) (k : Option ScrubStep) := (State.reset.updTku fun t =>
      { t with sweepDue := due, sweep := { t.sweep with count := 0 } }).updStc fun t => { t with scrub := k }
    ∀ x ∈ [s false none, s true none, s false (some { words := [], touched := [] })],
      x.phase ≠ .coldReset ∧ x.tku.sweep.running = true ∧ x.tku.sweep.count = 0 := by decide +kernel

theorem test_hyp_ScrubStepAdvancesThePointer :
    let k : ScrubStep := { words := [], touched := [] }
    let s (k : ScrubStep) (p : Nat) := State.reset.updStc fun t =>
      { t with scrub := some k, scrubPointer := BitVec.ofNat 16 p }
    let wrong (p : Nat) (bits : List Nat) := (s k p).updStc fun t =>
      { t with wrongBits := [(p * 8192, bits)], scrub := some { words := [(p * 8192, some bits)], touched := [] } }
    let poisoned := (s k 0).updStc fun t =>
      { t with dram := [(0, .poisoned)],
               scrub := some { words := [(0, none), (1, none), (2, none), (3, none)], touched := [] } }
    (∀ p ∈ [0, 65535], ∀ run ∈ [true, false],
      let s := (s k p).updTku fun t => { t with sweep := { t.sweep with running := run } }
      s.phase ≠ .coldReset ∧ s.stc.scrub = some k ∧ k.words = [] ∧ s.badWords s.scrubSpan.1 s.scrubSpan.2 = [])
    ∧ (∀ p ∈ [0, 65535], ∀ bits ∈ [[71], [0, 71]], Memory.wf (wrong p bits) = true
        ∧ (wrong p bits).badWords (wrong p bits).scrubSpan.1 (wrong p bits).scrubSpan.2 = [(p * 8192, some bits)])
    ∧ (Memory.wf poisoned = true ∧ poisoned.badWords poisoned.scrubSpan.1 poisoned.scrubSpan.2
        = [(0, none), (1, none), (2, none), (3, none)]) := by decide +kernel

/-! ### The Store Controller -/

theorem test_hyp_WriteReachesTheDram :
    State.reset.stc.writeQueue = [] ∧
    ∀ e ∈ [WriteEntry.unit unitWrite, .binWrite 0 119 {}, .sealing 0 default],
      let s := State.reset.updStc fun t => { t with writeQueue := [e] }
      s.phase ≠ .coldReset ∧ Memory.wf s = true ∧ s.stc.writeQueue = e :: [] := by decide +kernel

theorem test_hyp_WaitingWritesResume :
    let g : UnitWrite := { addr := groupAddr 0, cell := .group ⟨⟨1, 0⟩, .parent, 0, none, []⟩ }
    ∀ n ∈ [0, 254], ∀ held ∈ [none, some (req 10 [], ({ reason := .ok } : Reply))],
      let s := ((State.reset.updGlu fun u => { u with waiting := [unitWrite, g], waits := [.line 2, .reply] }).updStc fun t =>
        { t with waiters := [.glu], writeQueue := List.replicate n (.unit unitWrite) }).updMgt fun m => { m with heldReply := held }
      s.phase = .running ∧ s.glu.waiting ≠ [] ∧ s.stc.waiters = [.glu]
      ∧ (∀ w ∈ s.glu.waits, w = .line 2 ∨ w = .reply) ∧ GluWait.reply ∈ s.glu.waits
      ∧ s.stc.writeQueue.length + s.glu.waiting.length ≤ 256 ∧ s.mgt.heldReply = held := by decide +kernel

/-- The body that names the piece by reference 1. -/
def byRef1 : List Byte := [2] ++ List.replicate 16 0 ++ be 2 1 ++ [0]

/-- A state with the request passed on that is given, and a piece. -/
def passedOn (r : Request) : State := (withPiece { state := .closed } State.reset).updMgt fun m =>
  { m with passed := some (r, some 0) }

theorem test_hyp_Resume_takes_the_request :
    (∀ k ∈ [8, 9], (req (BitVec.ofNat 8 k) byRef1).code.toNat = k ∧ (req (BitVec.ofNat 8 k) byRef1).claims = some (.byRef ⟨1, 0⟩))
    ∧ ((req 10 (be 2 1 ++ [0])).code.toNat = 10 ∧ (req 10 (be 2 1 ++ [0])).retires = some ⟨1, 0⟩)
    ∧ ((passedOn (req 8 byRef1)).context 0).state = .free
    ∧ genealogyOf (byRef1 ++ [1, 1]) = some (.byRef ⟨1, 0⟩, .genealogy true 1)
    ∧ u8At (req 12 [4, 0]).body 0 = 4
    ∧ (∀ c ∈ [1, 4], let r := req 3 [2, BitVec.ofNat 8 c]
        2 ≤ r.body.length ∧ u8At r.body 0 = (2 : LineId).val ∧ u8At r.body 1 = c)
    ∧ GluWait.line 2 ∉ (passedOn (req 3 [2, 1])).glu.waits
    ∧ ((loads 2 2 (LineEntry.bytes { valid := true })).loaded 2 14 parseLine = some { valid := true }
        ∧ (loads 2 2 (LineEntry.bytes { valid := true })).index = (2 : LineId).val)
    ∧ ((loads 3 25 [1, 0, 0, 0, 9]).loaded 3 5 parseStation = some (true, 9)
        ∧ (loads 3 25 [1, 0, 0, 0, 9]).index / 12 = (2 : LineId).val)
    ∧ (∀ x ∈ [(2, 2), (3, 25)], let r := req 2 (BitVec.ofNat 8 x.1 :: be 2 x.2)
        r.reads = some x.1 ∧ (x.1 = 2 → r.index = (2 : LineId).val) ∧ (x.1 = 3 → r.index / 12 = (2 : LineId).val)
        ∧ (State.reset.entryBytes x.1 r.index).isSome = true) := by decide +kernel

/-- A PIN that meets a busy GLU is passed on: eight more requests fit behind it, and it is taken and answered in its turn (R81, R170,
R171). -/
theorem test_passed_pin_is_taken_in_turn :
    let r := req 8 byRef1
    let s := ((asks (withPiece { state := .closed } State.reset) r).updGlu fun g =>
      { g with waiting := [unitWrite], waits := [.line 3] }).updStc fun t => { t with waiters := [.glu] }
    ∃ t, exec .pin s = .next t ∧ t.mgt.requests = [] ∧ t.mgt.passed = some (r, some 0) ∧ t.glu.waits = [.line 3, .request none]
      ∧ ∃ u, exec .gluWriteResumed t = .next u ∧ u.mgt.passed = none ∧ (u.pieceDir 1).pins = 1 ∧ u.prl.portA.txq.length = 1 :=
  ⟨_, rfl, by decide +kernel, by decide +kernel, by decide +kernel, _, rfl, by decide +kernel⟩

/-- A LINE_CONTROL for a line whose call waits is passed on too, and waits behind that call (R81, R171). -/
theorem test_passed_line_control_waits_behind_its_line :
    let s := (asks (atLine (onLine .running)) (req 3 [0, 2])).updGlu fun g =>
      { g with waiting := [unitWrite], waits := [.line 0, .line 3] }
    GluWait.line 0 ∈ s.glu.waits ∧ Controls s (req 3 [0, 2]) 2 0
    ∧ ∃ t, exec .deactivate s = .next t ∧ t.glu.waits = [.line 0, .request (some 0), .line 3] ∧ (t.line 0).state = .running :=
  ⟨by decide +kernel, by decide +kernel, _, rfl, by decide +kernel⟩

theorem test_hyp_WaitingSealIsQueued :
    let e : WriteEntry := .sealing 4 default
    let s := (State.reset.updStc fun t =>
      { t with waitingSeal := some e, waiters := [.reload], writeQueue := List.replicate 255 (.unit unitWrite) }).updMgt
      fun m => { m with heldReply := some (req 1 [], { reason := .ok }) }
    s.phase ≠ .coldReset ∧ s.stc.waitingSeal = some e ∧ s.stc.waiters = .reload :: [] ∧ s.stc.heldOffers = []
    ∧ s.stc.scrub = none ∧ s.stc.writeQueue.length < 256
    ∧ s.mgt.heldReply = some (req 1 [], { reason := .ok }) := by decide +kernel

theorem test_hyp_WordGoesWrongAlone : (536870911 : Nat) < 536870912 ∧ Memory.wf State.reset = true := by decide +kernel

theorem test_hyp_ReadsForwardAndCorrect :
    let a := pieceAddr 1 0
    let queued (c : Cell) := State.reset.updStc fun t => { t with writeQueue := [.unit { addr := a, cell := c }] }
    let wrong (a : Nat) (bits : List Nat) := State.reset.updStc fun t => { t with wrongBits := [(a / 8, bits)] }
    let poisoned := State.reset.updStc fun t => { t with dram := [(a, .poisoned)] }
    (newestAnswer (queued (.pieceId default)).stc.writeQueue a = some (.pieceId default)
      ∧ newestAnswer (queued .poisoned).stc.writeQueue a = some .poisoned)
    ∧ (poisoned.cellAt a = .poisoned ∧ isDirAddr a = false ∧ newestAnswer poisoned.stc.writeQueue a = none
        ∧ (poisoned.gluRead a).1 = none ∧ (State.reset.gluRead a).1 = some .cleared)
    ∧ (∀ a ∈ [pieceAddr 1 0, dirAddr 786431], newestAnswer State.reset.stc.writeQueue a = none
        ∧ State.reset.cellAt a ≠ .poisoned ∧ (∀ w ∈ wordsAt a, Sparse.get [] State.reset.stc.wrongBits w = [])
        ∧ ∀ bits ∈ [[0], [0, 71]], Memory.wf (wrong a bits) = true ∧ a / 8 ∈ wordsAt a
          ∧ Sparse.get [] (wrong a bits).stc.wrongBits (a / 8) = bits
          ∧ (∀ v ∈ wordsAt a, v ≠ a / 8 → Sparse.get [] (wrong a bits).stc.wrongBits v = [])) := by decide +kernel

/-- Block 4 FILLING and current of channel 3, its entry and header written, with two wrong bits at some addresses. -/
def fillingBlock (wrong : List Nat) : State :=
  let h : BlockHeader := { (default : BlockHeader) with firstBin := 120, pitch := 10 }
  (State.reset.updStc fun t =>
    { t with blocks := [(4, { state := .filling, firstBin := 120 })], wrongBits := wrong.map fun a => (a / 8, [1, 2]),
             dram := [(headerAddr 4, .header h), (dirAddr 4, .dirEntry { firstAxis := 1200, line := 0, pitch := 10 })] }).updChanStore 3
    fun _ => { dir := [4], current := some (4, h) }

theorem test_hyp_Reads_of_blocks :
    let e : DirEntry := { firstAxis := 1200, line := 0, pitch := 10 }
    ∀ bad ∈ [[], [dirAddr 4], [headerAddr 4, dirAddr 4]], let s := fillingBlock bad
      (s.blockInfo 4).unreadable = false ∧ (s.chanStore 3).dir = 4 :: []
      ∧ (s.read (dirAddr 4)).1 = (if bad = [] then some (.dirEntry e) else none)
      ∧ ((s.read (dirAddr 4)).2.read (headerAddr 4)).1.isSome = decide (bad.length < 2)
      ∧ (s.readDirEntry 4).1 = (if bad.length < 2 then some e else none)
      ∧ ((s.readDirEntry 4).2.blockInfo 4).unreadable = decide (bad.length = 2) := by decide +kernel

/-- A FILLING block both of whose places fail stays unreadable when its seal has written the header anew (R126). -/
theorem test_sealed_block_stays_unreadable :
    let s := ((fillingBlock [headerAddr 4, dirAddr 4]).channelReloaded 3 true).writeHead
    (s.readHeader 4).1.map (fun h => h.isSealed) = some true ∧ (s.blockInfo 4).state = .sealed
    ∧ (s.readDirEntry 4).1 = none ∧ (s.freeBlock 4).blockInfo 4 = {} := by decide +kernel

/-- A bin of channel 3, number `n`. -/
def offer (n : Nat) : BinOffer := { chan := 3, gen := 0, line := 0, pitch := 10, num := n, data := {} }

theorem test_hyp_BinForCurrentBlockIsQueued :
    let h : BlockHeader := { (default : BlockHeader) with firstBin := 120 }
    let s := (State.reset.updStc fun t => { t with writeQueue := List.replicate 255 (.unit unitWrite) }).updChanStore 3
      fun y => { y with current := some (0, h) }
    0 < s.writeRoom ∧ ∀ n ∈ [120, 239], (s.chanStore 3).current = some (0, h) ∧ h.firstBin = n - n % 120 := by decide +kernel

theorem test_hyp_BinIsLostWholeOrAllocates :
    let s (n : Nat) (cur : Option (Nat × BlockHeader)) := (State.reset.updStc fun t =>
      { t with writeQueue := List.replicate n (.unit unitWrite) }).updChanStore 3 fun y => { y with current := cur }
    let other : BlockHeader := { (default : BlockHeader) with firstBin := 120 }
    (∀ x ∈ [s 255 none, s 256 (some (0, default)), s 254 (some (0, other))], x.stc.waiters = [] ∧ x.mgt.fault = none)
    ∧ (256 - (s 255 none).stc.writeQueue.length < 2) ∧ (256 - (s 256 (some (0, default))).stc.writeQueue.length < 1)
    ∧ (256 - (s 254 (some (0, other))).stc.writeQueue.length < 3)
    ∧ (2 ≤ (s 254 none).writeRoom ∧ ((s 254 none).chanStore 3).current = none
        ∧ (s 254 none).stc.freeBlocks.pop = some (0, { next := 1, limit := 786432 })
        ∧ (s 254 none).stc.entry.lowWater ≤ (FreeList.length { next := 1, limit := 786432 })
        ∧ Sparse.wf {} (s 254 none).stc.blocks = true)
    ∧ (3 ≤ (s 253 (some (0, other))).writeRoom ∧ ((s 253 (some (0, other))).chanStore 3).current = some (0, other)
        ∧ other.firstBin ≠ 5 - 5 % 120)
    ∧ ((s 254 none).updStc fun t => { t with freeBlocks := { next := 9, limit := 9 } }).stc.freeBlocks.pop = none := by
  decide +kernel

/-- Block 7 in the age queue, in a state, and listed second in the directory of channel 3 or not at all. -/
def aged (st : BlockState) (dir : List Nat) : State :=
  (State.reset.updStc fun t => { t with ageQueue := [6, 7], blocks := [(7, { state := st })] }).updChanStore 3
    fun y => { y with dir := dir }

theorem aged_dir (c : ChanId) : ((aged .sealed []).chanStore c).dir = [] := by
  simp only [aged, State.chanStore, State.updChanStore, State.updStc, State.reset, Fin.getElem_fin, Vector.getElem_set]
  split <;> simp

theorem test_hyp_Bin_reclaim_and_pins :
    let pinned := withPiece { state := .closed, pins := 1 } State.reset
    (aged .sealed []).pinnedPieces = [] ∧ (aged .sealed []).stc.ageQueue.take 64 = [6] ++ 7 :: []
    ∧ ((aged .sealed []).blockInfo 6).state ≠ .sealed ∧ ((aged .sealed []).blockInfo 7).state = .sealed
    ∧ ((aged .sealed [7]).chanStore 3).dir.head? = some 7
    ∧ (((aged .sealed [6, 7]).chanStore 3).dir.head? ≠ some 7 ∧ 7 ∈ ((aged .sealed [6, 7]).chanStore 3).dir)
    ∧ ((aged .filling [7]).blockInfo 7).state ≠ .sealed ∧ Sparse.wf {} (aged .sealed []).stc.blocks = true
    ∧ (aged .sealed []).mgt.fault = none
    ∧ (pinned.readDirEntry 7).1 = some default ∧ (pinned.readDirEntry 7).2 = pinned ∧ pinned.pinnedPieces = [1]
    ∧ (pinned.readRecord 1).2 = pinned
    ∧ ∀ c : ChanId, 7 ∉ ((aged .sealed []).chanStore c).dir :=
  ⟨by decide +kernel, rfl, by decide +kernel, by decide +kernel, by decide +kernel, by decide +kernel, by decide +kernel,
    by decide +kernel, rfl, by decide +kernel, rfl, by decide +kernel, rfl, fun c => by rw [aged_dir]; decide⟩

/-! ### Faults and playback -/

theorem test_hyp_FaultFillsTheRecordOnce :
    let f : FaultRecord := { code := .jump, line := some 0, piece := none, axis := some 5, stamp := 0 }
    let s (x : Option FaultRecord) (loaded : Bool) (p : Option PortId) := State.reset.updMgt fun m =>
      { m with fault := x, lost := 254, alertLoaded := loaded, alertAddr := 9, alertPort := p }
    (s (some f) true none).mgt.fault.isSome = true
    ∧ ((s none false none).mgt.fault = none ∧ (s none false none).mgt.alertLoaded = false)
    ∧ ((s none true (some .B)).mgt.alertLoaded = true ∧ (s none true (some .B)).mgt.alertPort = some .B)
    ∧ ((s none true none).mgt.fault = none ∧ (s none true none).mgt.alertPort = none) := by decide +kernel

/-- A trend query of one channel. -/
def trendQuery : Query := .trend 0 10 (.channels [3]) 0 0

/-- The reset state with piece 1 CLOSED, its record written with a length of 0, and context 0 working on it. -/
def askingPiece (st : CtxState) : State :=
  ((withPiece { state := .closed } State.reset).updContext 0 fun _ =>
    { state := st, query := some trendQuery, piece := ⟨1, 0⟩ }).updStc fun t =>
      { t with dram := [(pieceAddr 1 0, .pieceId { (default : PieceId) with ref := ⟨1, 0⟩ }),
                        (pieceAddr 1 1, .pieceBirth { length := some 0, birth := none, closed := some 0 })] }

theorem test_hyp_EngineTakesTheFirstContext :
    let s := (askingPiece .assembling).updPbk fun k => { k with asmQueue := [0] }
    let stale := (withContext { state := .assembling, query := some trendQuery, piece := ⟨1, 5⟩ }).updPbk fun k =>
      { k with asmQueue := [0] }
    (s.phase = .running ∧ s.pbk.engine = none ∧ s.pbk.asmQueue = 0 :: [] ∧ s.isCurrent (s.context 0).piece = true)
    ∧ State.reset.pbk.asmQueue = []
    ∧ (stale.phase = .running ∧ stale.pbk.engine = none ∧ stale.pbk.asmQueue = [0]
        ∧ (stale.context 0).query = some (.trend 0 10 (.channels [3]) 0 0) ∧ stale.isCurrent (stale.context 0).piece = false
        ∧ (stale.context 0).pages = [] ∧ (stale.context 0).truncated = false
        ∧ stale.pbk.freePages.pop = some (0, { next := 1, limit := 1024 }) ∧ Memory.wf stale = true)
    ∧ (stale.updPbk fun k => { k with freePages := { next := 1024, limit := 1024 } }).pbk.freePages.pop = none := by
  decide +kernel

theorem test_hyp_AssemblyWalksAndEndsInReady :
    let e : Engine := { ctx := 0, tasks := [.askQueried], chans := [] }
    let s := (askingPiece .assembling).updPbk fun k => { k with engine := some e }
    let next := (s.updContext 1 fun _ => { state := .assembling, piece := ⟨1, 0⟩ }).updPbk fun k => { k with asmQueue := [1] }
    State.reset.pbk.engine = none
    ∧ (∀ u ∈ [s, next], u.phase = .running ∧ u.pbk.engine = some e ∧ e.held = none ∧ e.budgetOut = false
      ∧ (u.context 0).query = some trendQuery ∧ u.isCurrent (u.context 0).piece = true ∧ (u.context 0).truncated = false
      ∧ (u.context 0).pages = [] ∧ u.stc.wrongBits = []
      ∧ (∀ j, u.pbk.asmQueue.head? = some j → j ≠ e.ctx ∧ u.isCurrent (u.context j).piece = true))
    ∧ ∃ p, (s.readRecord 1).1 = some p ∧ s.queriedRange ⟨1, 0⟩ p 0 10 = none :=
  ⟨by decide, by decide +kernel, _, rfl, by decide +kernel⟩

/-- The engine at work on context 0, which holds some pages and has walked some segments. -/
def working (pages walked : Nat) : State :=
  (withContext { state := .assembling, query := some trendQuery, pages := List.range pages, walkPos := walked }).updPbk
    fun k => { k with engine := some { ctx := 0, tasks := [] } }

theorem test_hyp_Assembly_pages_and_cache :
    let w : ListWalk := { owner := ⟨1, 0⟩, kind := .parent, goal := .genealogy ⟨⟨1, 0⟩, none, [], [], 0⟩ }
    let c : CacheEntry := { owner := ⟨1, 0⟩, kind := .parent, pos := 0, num := 4, slots := [], next := none }
    let key (c : CacheEntry) : Bool := decide (c.owner = w.owner) && decide (c.kind = w.kind) && decide (c.pos = 0)
    (∀ n ∈ [0, 1, 255, 256], (working n 0).pbk.engine.isSome = true ∧ ((working n 0).context 0).pages.length = n)
    ∧ (working 0 0).pbk.freePages.pop.isSome = true ∧ ((working 1 0).context 0).pages.getLast? = some 0
    ∧ (working 0 0).pbk.cache.find? key = none ∧ [c].find? key = some c := by decide +kernel

/-- A walk released with its read in flight leaves it to be answered and discarded: the word is corrected and counted then (R123, R143). -/
theorem test_read_in_flight_is_discarded :
    let r := req 7 [0, 0]
    let s := ((asks (askingPiece .assembling) r).updPbk fun k => { k with engine := some { ctx := 0, tasks := [.askQueried] } }).updStc
      fun t => { t with wrongBits := [(pieceAddr 1 0 / 8, [3])] }
    ∃ t, exec .release (s.updContext 0 fun c => { c with source := r.src }) = .next t ∧ t.pbk.engine = none
      ∧ t.pbk.discarded = [.record ⟨1, 0⟩] ∧ t.stc.counters.corrected = 0
      ∧ ((t.updPieceDir 1 fun d => d).isCurrent ⟨1, 0⟩ = true)
      ∧ ∃ u, exec .storeReadComplete t = .next u ∧ u.pbk.discarded = [] ∧ u.stc.counters.corrected = 1 ∧ u.stc.wrongBits = [] :=
  ⟨_, rfl, by decide +kernel, by decide +kernel, by decide +kernel, by decide +kernel, _, rfl, by decide +kernel⟩

theorem test_hyp_Read_discarded :
    let h : BlockHeader := { (default : BlockHeader) with firstBin := 120, pitch := 10 }
    let s := ((State.reset.updChanStore 3 fun y => { y with dir := [4] }).updPbk fun k =>
      { k with discarded := [.record ⟨1, 0⟩, .cell (groupAddr 7)] }).updStc fun t =>
      { t with blocks := [(4, { firstBin := 120 })], dram := [(headerAddr 4, .header h)] }
    let bad := s.updStc fun t => { t with wrongBits := [(headerAddr 4 / 8, [1, 2])] }
    (s.phase ≠ .coldReset ∧ s.pbk.discarded = .record ⟨1, 0⟩ :: [.cell (groupAddr 7)])
    ∧ (∀ u ∈ [s, bad], 4 ∈ (u.chanStore 3).dir ∧ (u.blockInfo 4).firstBin = 120 ∧ 5 ∉ (u.chanStore 3).dir)
    ∧ (s.readHeader 4).1 = some h ∧ (bad.readHeader 4).1 = none := by decide +kernel

theorem test_hyp_Assembly_channels :
    let s := State.reset.updChan 3 fun x => { x with entry := { x.entry with valid := true, line := 1 } }
    ((s.chan 3).entry.valid = true ∧ (s.chan 3).entry.line = (1 : LineId).val)
    ∧ ¬ ((s.chan 4).entry.valid = true ∧ (s.chan 4).entry.line = (1 : LineId).val) := by decide +kernel

/-- A segment of piece 2 with parent 1 on line 0. -/
def segment1 (parent : PieceRef) : Segment :=
  { child := ⟨2, 0⟩, parent := parent, line := 0, strand := 0, start := 5, stop := 9, est := false }

theorem test_hyp_Assembly_slots :
    let s := (working 0 255).updStc fun t => { t with dram := [(segmentAddr 3, .segment (segment1 ⟨1, 0⟩))] }
    let inUse := s.updGlu fun g => { g with freeSegments := { next := 4, limit := 524288 } }
    let bad := inUse.updStc fun t => { t with wrongBits := [(segmentAddr 3 / 8, [1, 2])] }
    let free := s.updStc fun t => { t with wrongBits := [(segmentAddr 3 / 8, [1, 2])] }
    (free.glu.freeSegments.holds 3 = true ∧ (free.read (segmentAddr 3)).1 = none)
    ∧ (s.read (segmentAddr 5)).1 = some .cleared
    ∧ ((s.context 0).walkPos < 256 ∧ 256 ≤ ((working 0 256).context 0).walkPos)
    ∧ (s.glu.freeSegments.holds 3 = true ∧ inUse.glu.freeSegments.holds 3 = false)
    ∧ (∀ u ∈ [s, inUse], (u.read (segmentAddr 3)).1 = some (.segment (segment1 ⟨1, 0⟩))) ∧ (bad.read (segmentAddr 3)).1 = none := by
  decide +kernel

/-- A group of segments 3 to 5 with the first free and unreadable: each is read and counted before the group is read once more, and on the
second reading the free one is bad for good (R158, R161). -/
theorem test_group_is_read_whole_before_its_refetch :
    let w : ListWalk := { owner := ⟨2, 0⟩, kind := .parent, goal := .genealogy ⟨⟨2, 0⟩, none, [], [], 0⟩ }
    let g (second : Bool) : GroupWalk :=
      { walk := w, pos := 0, num := 7, slots := [some 3, some 4], next := none, second := second, cached := false, dropped := false }
    let x := segment1 ⟨1, 0⟩
    let s := (working 0 0).updGlu fun v => { v with freeSegments := { next := 5, limit := 524288, pushed := [3] } }
    let s := s.updStc fun t => { t with dram := [(segmentAddr 4, .segment x)], wrongBits := [(segmentAddr 3 / 8, [1, 2])] }
    let tasks (s : State) := s.pbk.engine.map fun e => e.tasks
    let one := s.answerSegment (g false) 3 [some 4] []
    let two := (one.updEngine fun e => { e with tasks := [] }).answerSegment (g false) 4 [] [.bad none]
    (tasks one = some [.slots (g false) [some 4] [.bad none]] ∧ tasks two = some [.slots (g false) [] [.bad none, .seg x]]
      ∧ (two.context 0).walkPos = 2)
    ∧ tasks (s.nextSlot (g false) [] [.bad none, .seg x]) = some [.askGroup w 0 7 true false]
    ∧ tasks (s.nextSlot (g true) [] [.bad none, .seg x]) = some [.take w (.bad none), .take w (.seg x)] := by decide +kernel

theorem test_hyp_Assembly_segments_and_bins :
    let m : SpanMap := { line := 0, near := 0, far := 20, len := 20, turned := false, isOpen := false, est := false }
    let s (k : PieceKind) := slotted .cleared { state := .closed } k none
    let h : HeldBin := { num := 2, data := { count := 1 }, low := some 5, high := some 6, gen := 0 }
    (m.empty = false ∧ { m with len := 0 }.empty = true ∧ max 0 5 < min 20 9)
    ∧ (s .coil).isCurrent ⟨1, 0⟩ = true ∧ State.reset.isCurrent (segment1 ⟨1, 0⟩).parent = false
    ∧ ((s .external).readRecord 1).1.map (fun p => (p.id.kind, findUse p.uses 0 5)) = some (.external, some ⟨0, 5, some 9, .same, false⟩)
    ∧ ((s .coil).readRecord 1).1.map (fun p => (p.id.kind, findUse p.uses 0 9)) = some (.coil, none)
    ∧ (((s .coil).updStc fun t => { t with wrongBits := [(pieceAddr 1 0 / 8, [1, 2])] }).readRecord 1).1 = none
    ∧ ((working 0 0).context 0).isGenealogy = false ∧ (working 0 0).pbk.engine.map Engine.held = some none
    ∧ (1 : Nat) ≠ 0 ∧ h.num = ((5 : Int) - 0).tdiv 2 ∧ h.num ≠ ((6 : Int) - 0).tdiv 2
    ∧ ((working 1 0).updEngine fun e => { e with held := some h }).flushHeld.1 = true
    ∧ h.low = some 5 ∧ h.high = some 6 := by decide +kernel

theorem test_hyp_SpansMapBothWays :
    let b : Option Nat := some 200
    let u : UseSpan := ⟨0, 5, some 9, .same, false⟩
    b = some 200 ∧ (some 500 : Option Nat) = some 500 ∧ (100 : Int) < 200 ∧ (none : Option Nat) = none
    ∧ findUse [u] 0 5 = some u ∧ findUse [u] 0 8 = some u ∧ findUse [u] 0 9 = none ∧ findUse [u] 1 5 = none := by decide

/-! ### Requests -/

theorem test_hyp_RequestIsCheckedThenAnswered :
    let v2 := { req 1 [] with version := 2 }
    (Faces (asks State.reset v2) v2 ∧ v2.version ≠ 1 ∧ (asks State.reset v2).roleOf v2.src ≠ none)
    ∧ (∀ c ∈ [req 0 [], req 15 []], Faces (asks State.reset c) c ∧ (c.code = 0 ∨ 14 < c.code.toNat)
        ∧ (asks State.reset c).roleOf c.src ≠ none)
    ∧ (∀ x ∈ [(Instr.unknownRequest, req 0 []), (.loadOriginEntry, req 1 [1]), (.loadLineEntry, req 1 [2]),
        (.loadStationEntry, req 1 [3]), (.loadChannelEntry, req 1 [4]), (.loadAccessEntry, req 1 [5]), (.loadStoreEntry, req 1 [6]),
        (.loadTickEntry, req 1 [7]), (.loadAlertEntry, req 1 [8]), (.loadProcessEthertype, req 1 [9]), (.readEntry, req 2 []),
        (.activate, req 3 [0, 1]), (.deactivate, req 3 [0, 2]), (.resetLine, req 3 [0, 3]), (.ackDegraded, req 3 [0, 4]),
        (.queryTrend, req 4 []), (.queryGenealogy, req 5 []), (.fetch, req 6 []), (.release, req 7 []), (.pin, req 8 []),
        (.unpin, req 9 []), (.retire, req 10 []), (.setTime, req 11 []), (.status, req 12 []), (.clearFault, req 13 []),
        (.restart, req 14 [])],
      takes x.1 x.2 = true ∧ x.2.version = 1 ∧ x.2.src = 0x0A0000000001)
    ∧ ∀ r ∈ [req 1 [], req 3 [], req 10 [], req 11 [], req 13 [], req 14 []], r.code.toNat ∈ engineerCodes := by decide +kernel

/-- With any such request at the head of the queue. -/
theorem test_hyp_Request_sources (r : Request) (h : r.src = 0x0A0000000001) :
    let others := asks (viewOnly 0x0B0000000001) r
    let viewer := asks (viewOnly 0x0A0000000001) r
    (Faces others r ∧ Faces viewer r) ∧ others.roleOf r.src = none ∧ viewer.roleOf r.src = some .view
    ∧ (∃ i : Fin 16, others.mgt.access[i].enabled = true)
    ∧ ∀ i : Fin 16, others.mgt.access[i].enabled = true → others.mgt.access[i].addr ≠ r.src := by
  rw [h]
  have access : (viewOnly 0x0B0000000001).roleOf 0x0A0000000001 = none ∧ (viewOnly 0x0A0000000001).roleOf 0x0A0000000001 = some .view
      ∧ (∃ i : Fin 16, (viewOnly 0x0B0000000001).mgt.access[i].enabled = true)
      ∧ ∀ i : Fin 16, (viewOnly 0x0B0000000001).mgt.access[i].enabled = true →
          (viewOnly 0x0B0000000001).mgt.access[i].addr ≠ 0x0A0000000001 := by decide +kernel
  exact ⟨⟨⟨rfl, rfl, rfl, rfl⟩, rfl, rfl, rfl, rfl⟩, access⟩

theorem test_hyp_Requests_are_passed_on :
    let s (r : Request) := (asks State.reset r).updGlu fun g => { g with waits := [.line 0, .reckon 0 10, .line 1] }
    (∀ k ∈ [8, 9], let r := req (BitVec.ofNat 8 k) byRef1
      Granted (s r) r k .view ∧ ¬ GluFree (s r) ∧ 20 ≤ r.body.length ∧ (pieceNameOf r.body).isSome = true)
    ∧ (let r := req 10 (be 2 1 ++ [0]); Granted (s r) r 10 .engineer ∧ 3 ≤ r.body.length)
    ∧ (let r := req 5 (byRef1 ++ [1, 1])
       Granted (s r) r 5 .view ∧ (genealogyOf r.body).isSome = true ∧ ((s r).context 0).state = .free)
    ∧ (let w : GluWait := .reckon 0 10
       (s (req 8 [])).glu.waits = [.line 0] ++ w :: [.line 1] ∧ w.concerns 0 = true ∧ (GluWait.line 1).concerns 0 = false
       ∧ GluWait.line 0 ∈ (s (req 8 [])).glu.waits) := by decide +kernel

theorem test_hyp_Requests_wait_for_a_line :
    let s (r : Request) := (asks State.reset r).updGlu fun g => { g with waits := [.line 0, .reckon 0 10, .line 1] }
    (∀ sec ∈ [4, 3], let r := req 12 [BitVec.ofNat 8 sec, 0]
       Granted (s r) r 12 .view ∧ 2 ≤ r.body.length ∧ u8At r.body 0 = sec ∧ u8At r.body 1 = 0)
    ∧ (∀ c ∈ [1, 2, 3, 4], Controls (s (req 3 [0, BitVec.ofNat 8 c])) (req 3 [0, BitVec.ofNat 8 c]) c 0) := by decide +kernel

theorem test_hyp_Table_requests_wait_for_a_line :
    let s (r : Request) := (asks State.reset r).updGlu fun g => { g with waits := [.line 0, .reckon 0 10, .line 1] }
    (∀ e ∈ [({} : LineEntry)], let r := loads 2 0 e.bytes; Loading (s r) r 2 14 ∧ (parseLine r.body).isSome = true ∧ r.index = 0)
    ∧ (let r := loads 3 0 [1, 0, 0, 0, 9]; Loading (s r) r 3 5 ∧ (parseStation r.body).isSome = true ∧ r.index = 0)
    ∧ (∀ n ∈ [2, 3], let r := req 2 (BitVec.ofNat 8 n :: be 2 0)
       Granted (s r) r 2 .view ∧ 3 ≤ r.body.length ∧ u8At r.body 0 = n ∧ r.index = 0) := by decide +kernel

theorem test_hyp_ClearFaultEmptiesTheRecord :
    let f : FaultRecord := { code := .jump, line := some 0, piece := none, axis := some 5, stamp := 0 }
    let s := (asks State.reset (req 13 [])).updMgt fun m => { m with fault := some f, alertLoaded := true }
    Granted s (req 13 []) 13 .engineer ∧ s.mgt.fault.isSome = true ∧ s.mgt.alertLoaded = true := by decide +kernel

theorem test_hyp_PlainLoads_short_and_clock :
    let s (r : Request) := asks State.reset r
    (∀ t ∈ [(0 : Nat), 10, 1, 5, 6, 7, 8, 9], let r := req 1 [BitVec.ofNat 8 t]
      Granted (s r) r 1 .engineer ∧ (u8At r.body 0 = 0 ∨ 9 < u8At r.body 0 ∨ (u8At r.body 0 = t ∧ r.body.length < 5)))
    ∧ (Granted (s (req 11 (be 7 1))) (req 11 (be 7 1)) 11 .engineer ∧ (req 11 (be 7 1)).body.length < 8)
    ∧ (Granted (s (req 11 (be 8 1))) (req 11 (be 8 1)) 11 .engineer ∧ 8 ≤ (req 11 (be 8 1)).body.length) := by decide +kernel

theorem test_hyp_PlainLoads_origin :
    let s (r : Request) := asks (State.reset.updFcl fun f => { f with origins := f.origins.set 1 { valid := true, code := 5 } }) r
    let o (code : BitVec 16) (l : Nat) : Origin := { valid := true, code := code, line := l }
    let r (n : Nat) (x : Origin) := loads 1 n x.bytes
    (∀ n ∈ [0, 31, 32], Loading (s (r n (o 6 7))) (r n (o 6 7)) 1 5 ∧ parseOrigin (r n (o 6 7)).body = some (o 6 7)
      ∧ (r n (o 6 7)).index = n)
    ∧ (parseOrigin (r 0 (o 6 8)).body = some (o 6 8) ∧ 7 < (o 6 8).line)
    ∧ (parseOrigin (r 0 (o 5 0)).body = some (o 5 0) ∧ (s (r 0 (o 5 0))).fcl.origins[(1 : Fin 32)].code = 5)
    ∧ Loading (s (loads 1 0 [2, 0, 0, 0, 0])) (loads 1 0 [2, 0, 0, 0, 0]) 1 5
    ∧ parseOrigin (loads 1 0 [2, 0, 0, 0, 0]).body = none := by decide +kernel

theorem test_hyp_PlainLoads_access :
    let s (r : Request) := asks (State.reset.updMgt fun m =>
      { m with access := m.access.set 1 { enabled := true, role := .engineer, addr := 0x0A0000000001 } }) r
    let e (a : Address) : AccessEntry := { enabled := true, role := .view, addr := a }
    let r (n : Nat) (x : AccessEntry) := loads 5 n x.bytes
    (∀ n ∈ [0, 15, 16], Loading (s (r n (e 2))) (r n (e 2)) 5 8 ∧ parseAccess (r n (e 2)).body = some (e 2)
      ∧ (r n (e 2)).index = n)
    ∧ parseAccess (r 0 (e 0)).body = some (e 0) ∧ parseAccess (r 0 (e 0x010000000000)).body = some (e 0x010000000000)
    ∧ (e 0x010000000000).addr.getLsbD 40 = true ∧ parseAccess (r 0 (e 0x0A0000000001)).body = some (e 0x0A0000000001)
    ∧ parseAccess (loads 5 0 ([1, 3] ++ be 6 2)).body = none := by decide +kernel

theorem test_hyp_PlainLoads_store_and_tick :
    let s (r : Request) := asks State.reset r
    let e (a b c : Nat) : StoreEntry := { lowWater := a, scanLength := b, holdCount := c }
    let k (p : Nat) (m : TickMode) (c : Bool) : Counter := { count := 0, period := 0, loaded := p, loadedMode := m, loadedCascade := c }
    (∀ x ∈ [e 16 1 1, e 16 256 1, e 15 1 1, e 16 0 1, e 16 257 1, e 16 1 0], ∀ n ∈ [0, 1],
      Loading (s (loads 6 n x.bytes)) (loads 6 n x.bytes) 6 5 ∧ parseStore (loads 6 n x.bytes).body = some x)
    ∧ (∀ x ∈ [k 1 .reload false, k 4095 .reload false, k 0 .reload false, k 4096 .reload false, k 5 .oneShot false,
        k 5 .reload true], ∀ n ∈ [0, 1, 2, 3],
      Loading (s (loads 7 n x.bytes)) (loads 7 n x.bytes) 7 4 ∧ (loads 7 n x.bytes).index = n
      ∧ parseTick (loads 7 n x.bytes).body = some { period := x.loaded, mode := x.loadedMode, cascade := x.loadedCascade })
    ∧ parseTick (loads 7 0 [0, 5, 3, 0]).body = none := by decide +kernel

theorem test_hyp_PlainLoads_alert_and_ethertype :
    let s (r : Request) := asks State.reset r
    let a (v : Bool) (x : Address) (n : Nat) := loads 8 n (encBool v ++ encAddr x)
    (∀ n ∈ [0, 1], ∀ x ∈ [(true, 2), (true, 0), (false, 0)], let y : Address := BitVec.ofNat 48 x.2
      Loading (s (a x.1 y n)) (a x.1 y n) 8 7 ∧ parseAlert (a x.1 y n).body = some (x.1, y) ∧ (a x.1 y n).index = n)
    ∧ parseAlert (loads 8 0 (2 :: encAddr 2)).body = none
    ∧ ∀ t ∈ [0x88B6, 0x05FF, 0x0600, 0x88B5], ∀ n ∈ [0, 1],
      Loading (s (loads 9 n (be 2 t))) (loads 9 n (be 2 t)) 9 2
      ∧ parseEthertype (loads 9 n (be 2 t)).body = some (BitVec.ofNat 16 t) := by decide +kernel

theorem test_hyp_LineLoadWritesTheEntry :
    let s (x : Line) (r : Request) := asks (atLine x) r
    let e : LineEntry := { valid := true }
    let spent : Line := { onLine .reckoning with sup := { grace := 100 } }
    (∀ n ∈ [0, 7, 8], Loading (s {} (loads 2 n e.bytes)) (loads 2 n e.bytes) 2 14
      ∧ parseLine (loads 2 n e.bytes).body = some e ∧ (loads 2 n e.bytes).index = n)
    ∧ GluWait.line 0 ∉ (atLine {}).glu.waits
    ∧ (let short := req 1 [2]
       let odd := loads 2 0 (LineEntry.bytes e).reverse
       Granted (s {} short) short 1 .engineer ∧ short.body.length < 17 ∧ Granted (s {} odd) odd 1 .engineer
       ∧ parseLine odd.body = none)
    ∧ (∀ x ∈ [{ e with shear := 12 }, { e with strands := 0 }, { e with strands := 9 }, { e with settleCount := 16 },
        { e with maxStep := 1000001 }, { e with maxSpeed := 0 }, { e with silenceLimit := 0 },
        { e with shear := 11, strands := 8, settleCount := 15, maxStep := 1000000, maxSpeed := 1, silenceLimit := 1 }],
        parseLine (loads 2 0 x.bytes).body = some x)
    ∧ ((onLine .running).state ≠ .vacant ∧ (onLine .running).state ≠ .idle
        ∧ parseLine (loads 2 0 (LineEntry.bytes { e with valid := false })).body = some { e with valid := false }
        ∧ parseLine (loads 2 0 (LineEntry.bytes { e with shear := 1 })).body = some { e with shear := 1 })
    ∧ (parseLine (loads 2 0 (LineEntry.bytes { e with gracePeriod := 100 })).body = some { e with gracePeriod := 100 }
        ∧ 100 ≠ spent.entry.gracePeriod ∧ spent.state ∈ [LineState.reckoning, .holdback] ∧ spent.sup.acked = false
        ∧ 100 = spent.sup.grace) := by decide +kernel

/-- A grace period that suspends its line while GLU is busy: the entry is written, and the line is SUSPENDED only after its closes (R54, R56,
R81). -/
theorem test_line_load_suspends_after_the_closes :
    let r := loads 2 0 (LineEntry.bytes { valid := true, gracePeriod := 100 })
    let s := (asks (atLine { onLine .reckoning with sup := { grace := 100 } }) r).updGlu fun g => { g with waiting := [unitWrite] }
    ∃ t, exec .loadLineEntry s = .next t ∧ (t.line 0).entry.gracePeriod = 100 ∧ (t.line 0).state = .reckoning
      ∧ GluWait.leave 0 .suspended ∈ t.glu.waits ∧ t.glu.waits.getLast? = some .reply := ⟨_, rfl, by decide +kernel⟩

theorem test_hyp_StationLoadWritesOrWaits :
    let t (v : Bool) (n : Nat) : Station := { valid := v, content := n }
    let s (x : Line) (r : Request) := asks (atLine x) r
    (∀ x ∈ [onLine .idle, onLine .running], ∀ k ∈ [0, 95, 96], ∀ c ∈ [0, 2000000, 2000001],
      let r := loads 3 k (t true c).bytes
      Loading (s x r) r 3 5 ∧ parseStation r.body = some (true, c) ∧ r.index = k)
    ∧ (onLine .running).stations[(0 : Fin 12)].valid = true ∧ parseStation (loads 3 0 (t false 5).bytes).body = some (false, 5)
    ∧ GluWait.line 0 ∉ (atLine {}).glu.waits
    ∧ (let short := req 1 [3]
       let odd := loads 3 0 [2, 0, 0, 0, 0]
       Granted (s {} short) short 1 .engineer ∧ short.body.length < 8 ∧ Granted (s {} odd) odd 1 .engineer
       ∧ parseStation odd.body = none)
    ∧ 95 = 12 * (7 : LineId).val + (11 : Fin 12).val := by decide +kernel

theorem test_hyp_ChannelLoadSealsAndReplaces :
    let s (st : LineState) (q : Nat) (r : Request) := ((asks (atLine (onLine st)) r).updStc fun t =>
      { t with writeQueue := List.replicate q (.unit unitWrite) }).updChan 4 fun _ => gauge
    let e : ChannelEntry := { valid := true, line := 0, station := 0, point := 2, pitch := 10, low := 0, high := 0 }
    let r (n : Nat) (x : ChannelEntry) := loads 4 n x.bytes
    (∀ n ∈ [0, 255, 256], Loading (s .idle 0 (r n e)) (r n e) 4 14 ∧ parseChannel (r n e).body = some e ∧ (r n e).index = n)
    ∧ (s .idle 0 (r 0 e)).stc.waitingSeal = none
    ∧ (∀ x ∈ [{ e with line := 8 }, { e with station := 12 }, { e with pitch := 9 }, { e with low := 1 }, { e with point := 1 },
        { e with line := 7, station := 11, point := 255, pitch := 65535 }], parseChannel (r 0 x).body = some x)
    ∧ ((s .running 0 (r 0 e)).line 0).state = .running
    ∧ (((s .idle 0 (r 0 e)).chan 4).entry.valid = true ∧ ((s .idle 0 (r 0 e)).chan 4).entry.point = 1)
    ∧ (let short := req 1 [4]
       let odd := loads 4 0 (2 :: List.replicate 13 0)
       Granted (s .idle 0 short) short 1 .engineer ∧ short.body.length < 17 ∧ Granted (s .idle 0 odd) odd 1 .engineer
       ∧ parseChannel odd.body = none)
    ∧ 0 < (s .idle 255 (r 4 e)).writeRoom ∧ (s .idle 256 (r 4 e)).writeRoom = 0 := by decide +kernel

theorem test_hyp_ReadingAnswersAndChangesNothing :
    let s (r : Request) := asks State.reset r
    (∀ t ∈ [0, 10, 1, 9], ∀ n ∈ [0, 1], let r := req 2 (BitVec.ofNat 8 t :: be 2 n)
      Granted (s r) r 2 .view ∧ (s r).glu.waits = [] ∧ 3 ≤ r.body.length)
    ∧ State.reset.entryBytes 9 1 = none ∧ State.reset.entryBytes 9 0 = some (be 2 0x88B5)
    ∧ (∀ sec ∈ [0, 1, 2, 3, 4, 5, 6, 7], ∀ l ∈ [7, 8], let r := req 12 [BitVec.ofNat 8 sec, BitVec.ofNat 8 l]
      Granted (s r) r 12 .view ∧ 2 ≤ r.body.length ∧ GluFree (s r)) := by decide +kernel

theorem test_hyp_LineControlsMoveTheLine :
    let dead : Line := { onLine .idle with stations := Vector.replicate 12 {} }
    let s (x : Line) (c : Nat) := asks (atLine x) (req 3 [0, BitVec.ofNat 8 c])
    (∀ c ∈ [1, 2, 3, 4], ∀ x ∈ [{}, onLine .idle, onLine .settling, onLine .reckoning, onLine .holdback, onLine .suspended, dead],
      Controls (s x c) (req 3 [0, BitVec.ofNat 8 c]) c 0)
    ∧ GluWait.line 0 ∉ (s {} 1).glu.waits ∧ GluFree (s {} 1)
    ∧ (∀ c ∈ [0, 5], takes .activate (req 3 [0, c]) = true ∧ takes .ackDegraded (req 3 [0, c]) = true
        ∧ Granted (s {} c.toNat) (req 3 [0, c]) 3 .engineer)
    ∧ (takes .deactivate (req 3 [0, 2]) = true ∧ 8 ≤ u8At (req 3 [8, 2]).body 0)
    ∧ dead.stationValid dead.entry.shear = false ∧ (onLine .idle).stationValid (onLine .idle).entry.shear = true := by
  decide +kernel

/-- DEACTIVATE with GLU busy: the line keeps its state and its queue until the closes are complete, and then is IDLE, its event discarded
and the reply sent (R13, R27, R81, R171). -/
theorem test_deactivate_waits_for_its_closes :
    let s := ((asks (atLine { onLine .running with queue := [ev .stop] }) (req 3 [0, 2])).updGlu fun g =>
      { g with waiting := [unitWrite] }).updStc fun t => { t with waiters := [.glu] }
    Controls s (req 3 [0, 2]) 2 0 ∧ GluWait.line 0 ∉ s.glu.waits
    ∧ ∃ t, exec .deactivate s = .next t ∧ (t.line 0).state = .running ∧ (t.line 0).queue = [ev .stop] ∧ t.gluBusy = true
      ∧ t.glu.waits.drop 2 = [.leave 0 .idle, .line 0, .reply]
      ∧ ∃ u, exec .gluWriteResumed t = .next u ∧ GluFree u ∧ (u.line 0).state = .idle ∧ (u.line 0).queue = []
          ∧ (u.line 0).counters.queueDiscard = 1 ∧ (u.prl.portA.txq.map fun f => f.payload.take 8) = [[1, 3, 0, 7, 0, 0, 2, 1]] :=
  ⟨by decide +kernel, by decide +kernel, _, rfl, by decide +kernel, by decide +kernel, by decide +kernel, by decide +kernel,
    _, rfl, by decide +kernel⟩

/-- RESET_LINE with GLU busy: the counters and the grace counter are 0 at once, the rest waits for the closes (R28, R81). -/
theorem test_reset_line_waits_for_its_closes :
    let x := { onLine .holdback with queue := [ev .stop], sup := { grace := 7, gap := 9 }, counters := { welds := 3 } }
    let s := (asks (atLine x) (req 3 [0, 3])).updGlu fun g => { g with waiting := [unitWrite] }
    Controls s (req 3 [0, 3]) 3 0 ∧ GluWait.line 0 ∉ s.glu.waits
    ∧ ∃ t, exec .resetLine s = .next t ∧ (t.line 0).state = .holdback ∧ (t.line 0).queue = [ev .stop]
      ∧ (t.line 0).counters = {} ∧ (t.line 0).sup.grace = 0 ∧ (t.line 0).sup.gap = 9 ∧ GluWait.leave 0 .idle ∈ t.glu.waits :=
  ⟨by decide +kernel, by decide +kernel, _, rfl, by decide +kernel⟩

/-- The body of a trend query of channel 3 of the piece by reference 1. -/
def trendBody (x1 : Nat) : List Byte :=
  [2] ++ List.replicate 16 0 ++ be 2 1 ++ [0] ++ be 4 0 ++ be 4 x1 ++ [1, 0, 1, 3] ++ List.replicate 7 0 ++ [0] ++ be 4 0

/-- The body of a genealogy query of the same piece. -/
def genealogyBody (depth : Byte) : List Byte := [2] ++ List.replicate 16 0 ++ be 2 1 ++ [0] ++ [1, depth]

theorem test_hyp_QueryTakesTheLowestFreeContext :
    let p : PieceRef := ⟨1, 0⟩
    let s (r : Request) := asks (askingPiece .free) r
    let full (r : Request) : State := (s r).updPbk fun k => { k with contexts := Vector.replicate 16 { state := .ready } }
    let last (r : Request) : State := (full r).updContext 15 fun _ => {}
    (∀ x ∈ [(4, trendBody 10), (5, genealogyBody 1), (5, genealogyBody 7)], let r := req (BitVec.ofNat 8 x.1) x.2
      Granted (s r) r x.1 .view ∧ GluFree (s r) ∧ GluFree (last r) ∧ (∀ i, ((full r).context i).state ≠ .free)
      ∧ ((last r).context 15).state = .free ∧ (∀ j : CtxId, j < 15 → ((last r).context j).state ≠ .free)
      ∧ (last r).isCurrent p = true ∧ (last r).stc.wrongBits = [] ∧ ((last r).taken.gluRecord p.idx).1.isSome = true
      ∧ Sparse.wf {} (last r).glu.dir = true ∧ (asks State.reset r).isCurrent p = false
      ∧ ∀ l, ((last r).line l).queue = [])
    ∧ trendOf (trendBody 10) = some (.byRef p, trendQuery) ∧ trendOf (trendBody 0) = none
    ∧ genealogyOf (genealogyBody 1) = some (.byRef p, .genealogy true 1) ∧ genealogyOf (genealogyBody 8) = none := by
  decide +kernel

theorem test_hyp_Query_waits_for_events :
    let r := req 4 (trendBody 10)
    let s := (asks (askingPiece .failed) r).updLine 0 fun x => { x with queue := [ev .stop], newest := 1 }
    Granted s r 4 .view ∧ (s.line 0).queue ≠ [] ∧ GluFree s ∧ s.isCurrent ⟨1, 0⟩ = true
    ∧ (s.pbk.taken[(0 : LineId)] - (s.line 0).newest).toInt < 0 := by decide +kernel

theorem test_hyp_Query_drains :
    let c (a : Nat) : Context := { state := .draining, marks := (Vector.replicate 8 none).set 0 (some (BitVec.ofNat 32 a)) }
    let s (a : Nat) := (withContext (c a)).updPbk fun k => { k with taken := k.taken.set 0 5 }
    let held (b : Option Word32) (w : List GluWait) := ((State.reset.updPbk fun k => { k with behindSeal := k.behindSeal.set 0 b }).updGlu
      fun g => { g with waits := w }).updLine 0 fun x => { x with lastTaken := 7 }
    (∀ a ∈ [0, 5, 4294967295], 0 ≤ ((s a).pbk.taken[(0 : LineId)] - BitVec.ofNat 32 a).toInt)
    ∧ ((s 6).pbk.taken[(0 : LineId)] - (6 : Word32)).toInt < 0 ∧ (∀ a ∈ [0, 5, 6], ((s a).context 0).state = .draining)
    ∧ (∀ b w, ((held b w).pbk.taken[(0 : LineId)] - ((held b w).line 0).lastTaken).toInt < 0
        ∧ (held b w).pbk.behindSeal[(0 : LineId)] = b ∧ (held b w).glu.waits = w)
    ∧ ¬ GluFree (held none [.line 0]) ∧ (held none []).phase ≠ .coldReset :=
  ⟨by decide +kernel, by decide +kernel, by decide +kernel,
    fun b w => ⟨(by decide +kernel : ((0 : Word32) - 7).toInt < 0), Vector.getElem_set_self _, rfl⟩, by decide +kernel, by decide +kernel⟩

/-- An event whose bin is held behind a reload seal is not taken whole: a mark on it stays, as do those on later events, and once the
seal is queued all are reached (R120, R135). -/
theorem test_mark_waits_for_a_held_bin :
    let e : WriteEntry := .sealing 4 default
    let c : Context := { state := .draining, marks := (Vector.replicate 8 none).set 0 (some 1) }
    let s := ((recording (offered (onLine .running) .stop)).updContext 0 fun _ => c).updStc fun t =>
      { t with waitingSeal := some e, waiters := [.reload] }
    ∃ t, exec (.stateStopEvent 0) s = .next t
      ∧ (t.stc.heldOffers.length = 1 ∧ t.pbk.behindSeal[0] = some 1 ∧ t.pbk.taken[0] = 0 ∧ (t.context 0).state = .draining)
      ∧ ∃ u, exec .reloadSealQueued t = .next u ∧ u.pbk.taken[0] = 1 ∧ (u.context 0).state = .assembling :=
  ⟨_, rfl, by decide +kernel, _, rfl, by decide +kernel⟩

/-- A mark reached as a line's call is complete puts its context in the assembly queue before the request behind it is taken (R135, R136). -/
theorem test_marks_are_tested_in_turn :
    let c : Context := { state := .draining, marks := (Vector.replicate 8 none).set 0 (some 7) }
    let s := ((passedOn (req 5 (byRef1 ++ [1, 1]))).updContext 1 fun _ => c).updLine 0 fun x => { x with lastTaken := 7 }
    let t := s.updGlu fun g => { g with waits := [.line 0, .request none] }
    (t.testDrains.pbk.asmQueue = []) ∧ t.nextWait.pbk.asmQueue = [1] ∧ t.nextWait.glu.waits = [.request none] := by decide +kernel

theorem test_hyp_Query_damaged_and_parse :
    let r := req 5 (byRef1 ++ [1, 1])
    let s := (asks (askingPiece .free) r).updStc fun t => { t with wrongBits := [(pieceAddr 1 0 / 8, [3, 4])] }
    (Granted s r 5 .view ∧ GluFree s ∧ s.isCurrent ⟨1, 0⟩ = true ∧ (s.taken.gluRecord 1).1 = none)
    ∧ selectionOf (trendBody 10) = some (.channels [3]) ∧ pieceNameOf (1 :: tagA) = some (.byTag tagA)
    ∧ pieceNameOf [0] = none ∧ selectionOf [] = none := by decide +kernel

theorem test_hyp_Query_by_tag :
    let body := [1] ++ tagA ++ [0, 0, 0, 1, 1]
    let r := req 5 (body ++ List.replicate 10 0)
    let s (c : Cell) := (asks (slotted c { state := .closed } .coil none) r).taken
    let full (c next : Cell) := (s c).updStc fun t => { t with
      dram := t.dram ++ [(tagAddr (homeSlot tagA + 1), next)], writeQueue := List.replicate 256 (.unit unitWrite) }
    genealogyOf r.body = some (.byTag tagA, .genealogy true 1)
    ∧ ((s .cleared).lookupTag tagA).1 = none ∧ ((s .cleared).lookupTag tagA).2.glu.waiting = []
    ∧ ((s (.tagUsed tagA ⟨1, 0⟩)).lookupTag tagA).1.map Prod.fst = some ⟨1, 0⟩
    ∧ ((s (.tagUsed tagA ⟨1, 0⟩)).lookupTag tagA).2.glu.waiting = []
    ∧ (∀ next ∈ [Cell.tagTombstone, .tagUsed tagA ⟨1, 0⟩], let u := full (.tagUsed tagA ⟨1, 9⟩) next
        GluFree u ∧ (u.lookupTag tagA).2.glu.waiting ≠ []
        ∧ ((u.lookupTag tagA).1.isSome = true ↔ next = .tagUsed tagA ⟨1, 0⟩)) := by decide +kernel

theorem test_hyp_TicketsFetchAndRelease :
    let c (st : CtxState) : Context := { state := st, gen := 3, source := 0x0A0000000001, pages := [9] }
    let s (st : CtxState) (r : Request) := asks (withContext (c st)) r
    (∀ n ∈ [0, 1], ∀ st ∈ [CtxState.ready, .failed, .draining, .assembling], let r := req 6 [0, 3, BitVec.ofNat 8 n]
      Granted (s st r) r 6 .view ∧ 3 ≤ r.body.length ∧ (s st r).ticketContext r = some 0
      ∧ ((s st r).context 0).pages[0]? = some 9 ∧ ((s st r).context 0).pages.length = 1)
    ∧ (s .ready (req 6 [0, 4, 0])).ticketContext (req 6 [0, 4, 0]) = none
    ∧ Granted (s .ready (req 7 [0, 3])) (req 7 [0, 3]) 7 .view ∧ (s .ready (req 7 [0, 3])).ticketContext (req 7 [0, 3]) = some 0
    ∧ (s .free (req 7 [0, 3])).ticketContext (req 7 [0, 3]) = none
    ∧ (s .ready (req 7 [0, 3])).assembling 0 = false
    ∧ (let u := ((s .assembling (req 7 [0, 3])).updPbk fun k => { k with engine := some { ctx := 0, tasks := [] }, asmQueue := [1] })
       let v := (withPiece { state := .closed, pins := 1 } u).updContext 1 fun _ => { state := .assembling, piece := ⟨1, 0⟩ }
       v.assembling 0 = true ∧ (v.pbk.asmQueue.erase 0).head? = some 1 ∧ v.isCurrent (v.context 1).piece = true
       ∧ Sparse.wf {} v.glu.dir = true ∧ GluFree v) := by decide +kernel

theorem test_hyp_Release_behind_glu :
    let r := req 7 [0, 3]
    let c : Context := { state := .ready, gen := 3, source := 0x0A0000000001, piece := ⟨1, 0⟩, pinCounted := true }
    let s := (asks (withContext c) r).updGlu fun g => { g with waiting := [unitWrite], waits := [.line 3] }
    Granted s r 7 .view ∧ s.ticketContext r = some 0 ∧ ¬ GluFree s ∧ (s.context 0).pinCounted = true ∧ s.assembling 0 = false := by
  decide +kernel

theorem test_hyp_Tickets_short_and_early :
    let s (r : Request) := asks (withContext { state := .assembling, gen := 3, source := 0x0A0000000001 }) r
    (Granted (s (req 6 [0, 3])) (req 6 [0, 3]) 6 .view ∧ (req 6 [0, 3]).body.length < 3)
    ∧ (Granted (s (req 7 [0])) (req 7 [0]) 7 .view ∧ (req 7 [0]).body.length < 2)
    ∧ ([1, 0] : List CtxId).findIdx? (fun j => j == 0) = some 1 ∧ (0 : CtxId) ∉ (s (req 6 [0, 3, 0])).pbk.asmQueue := by
  decide +kernel

theorem test_hyp_PinsAndRetirement :
    let p : PieceRef := ⟨1, 0⟩
    let named := [2] ++ List.replicate 16 0 ++ be 2 1 ++ [0]
    let s (d : PieceDir) (r : Request) := asks (withPiece d (askingPiece .free)) r
    (∀ k ∈ [8, 9], ∀ n ∈ [0, 14, 15], let r := req (BitVec.ofNat 8 k) named
      let t := s { state := .closed, pins := n } r
      Granted t r k .view ∧ 20 ≤ r.body.length ∧ pieceNameOf r.body = some (.byRef p) ∧ t.isCurrent p = true
      ∧ (t.pieceDir 1).pins = n ∧ GluFree t ∧ Sparse.wf {} t.glu.dir = true
      ∧ (asks State.reset r).isCurrent p = false)
    ∧ (∀ d ∈ [{ state := .opened }, { state := .closed, pins := 1 }, { state := .closed, pins := 0 }], let r := req 10 (be 2 1 ++ [0])
      Granted (s d r) r 10 .engineer ∧ 3 ≤ r.body.length ∧ refAt r.body 0 = p ∧ (s d r).isCurrent p = true
      ∧ (s d r).pieceDir 1 = d
      ∧ (((s d r).taken.gluRecord 1).1.map fun x => x.uses.any fun u => u.stop.isNone) = some false) := by decide +kernel

theorem test_hyp_Pins_by_tag :
    let body := [1] ++ tagA ++ [0, 0, 0]
    let s (c : Cell) (n : Nat) (r : Request) := asks (slotted c { state := .closed, pins := n } .coil none) r
    ∀ k ∈ [8, 9], ∀ n ∈ [0, 14, 15], let r := req (BitVec.ofNat 8 k) body
      let t := s (.tagUsed tagA ⟨1, 0⟩) n r
      Granted t r k .view ∧ 20 ≤ r.body.length ∧ pieceNameOf r.body = some (.byTag tagA) ∧ GluFree t ∧ Sparse.wf {} t.glu.dir = true
      ∧ (t.taken.lookupTag tagA).1.map Prod.fst = some ⟨1, 0⟩ ∧ (t.pieceDir 1).pins = n
      ∧ ((s .cleared n r).taken.lookupTag tagA).1 = none := by decide +kernel

theorem test_hyp_Automatic_retirement :
    let s (n : Nat) := (slotted .cleared { state := .closed, pins := n } .coil none).updGlu fun g => { g with closeList := [1] }
    let bad := (s 0).updStc fun t => { t with wrongBits := [(pieceAddr 1 0 / 8, [3, 4])] }
    (State.reset.findRetire (State.reset.glu.closeList.take 64)).1 = none
    ∧ (bad.findRetire (bad.glu.closeList.take 64)).1 = some 1 ∧ (bad.qualifies 1).1 = true ∧ (bad.gluRecord 1).1 = none
    ∧ (0 < ((s 1).pieceDir 1).pins ∧ ((s 1).qualifies 1).1 = false)
    ∧ (((s 0).pieceDir 1).pins = 0 ∧ ((s 0).gluRecord 1).1.isSome = true)
    ∧ (State.reset.lineHorizon 0).1 < (State.reset.lineHorizon 0).1 + 1 := by decide +kernel

theorem test_hyp_Pins_malformed_and_tag_walk :
    let first (c : Cell) := ((slotted c { state := .closed } .coil none).gluRead (tagAddr (homeSlot tagA))).1
    let bad := 3 :: List.replicate 19 0
    (∀ k ∈ [8, 9], ∀ b ∈ [[], bad], let r := req (BitVec.ofNat 8 k) b
      Granted (asks State.reset r) r k .view ∧ (r.body.length < 20 ∨ pieceNameOf r.body = none))
    ∧ (Granted (asks State.reset (req 10 [])) (req 10 []) 10 .engineer ∧ (req 10 []).body.length < 3)
    ∧ first .cleared = some .cleared ∧ first (.tagUsed tagA ⟨1, 0⟩) = some (.tagUsed tagA ⟨1, 0⟩)
    ∧ first .tagTombstone = some .tagTombstone ∧ first .poisoned = none ∧ (⟨1, 0⟩ : PieceRef) ≠ ⟨2, 0⟩ := by decide +kernel

/-- Piece 1 CLOSED with a use span still open: a FEEDING piece. -/
def feedingPiece (r : Request) : State := asks ((askingPiece .free).updStc fun t =>
  { t with dram := t.dram ++ [(pieceAddr 1 2, .pieceUses (some ⟨0, 5, none, .same, false⟩) none)] }) r

theorem test_hyp_Retire_feeding :
    let r := req 10 (be 2 1 ++ [0])
    Granted (feedingPiece r) r 10 .engineer ∧ ((feedingPiece r).pieceDir 1).state = .closed
    ∧ ((feedingPiece r).pieceDir 1).pins = 0
    ∧ (((feedingPiece r).taken.gluRecord 1).1.map fun x => x.uses.any fun u => u.stop.isNone) = some true := by decide +kernel

theorem test_hyp_Retire_lists :
    let gr : Group := ⟨⟨2, 0⟩, .child, 0, some 8, [none, some 3]⟩
    let s := (pair 0).updStc fun t => { t with dram :=
      [(segmentAddr 3, .segment ⟨⟨1, 0⟩, ⟨2, 0⟩, 0, 0, 5, 9, false⟩), (groupAddr 7, .group gr)] }
    let bad := s.updStc fun t => { t with wrongBits := [(segmentAddr 3 / 8, [1, 2]), (groupAddr 7 / 8, [1, 2])] }
    (s.gluRead (groupAddr 7)).2 = s
    ∧ (s.gluRead (groupAddr 7)).1 = some (.group gr) ∧ some 3 ∈ gr.slots ∧ some 4 ∉ gr.slots ∧ gr.next = some 8
    ∧ (s.gluRead (segmentAddr 3)).1 = some (.segment ⟨⟨1, 0⟩, ⟨2, 0⟩, 0, 0, 5, 9, false⟩)
    ∧ s.isCurrent ⟨2, 0⟩ = true ∧ (s.gluRecord 2).1.isSome = true ∧ s.isCurrent ⟨2, 1⟩ = false
    ∧ (bad.gluRead (groupAddr 7)).1 = none ∧ (bad.gluRead (segmentAddr 3)).1 = none
    ∧ ((bad.updStc fun t => { t with wrongBits := [(pieceAddr 2 0 / 8, [1, 2])] }).gluRecord 2).1 = none :=
  ⟨rfl, by decide +kernel⟩

/-- A retired piece gives back its segment and groups, and its segment's slot in the parent's list is empty (R100). -/
theorem test_retirement_frees_the_lists :
    let s := (pair 0).buildSegment 0 ⟨1, 0⟩ 0 false part2
    let t := s.retirePiece ⟨1, 0⟩
    s.glu.freeSegments.next = 1 ∧ t.glu.freeSegments = (pair 0).glu.freeSegments
    ∧ t.glu.freeGroups = { pushed := [0], next := 2, limit := 262144 } ∧ (t.pieceDir 1).state = .retired
    ∧ (t.gluRead (groupAddr 1)).1 = some (.group ⟨⟨2, 0⟩, .child, 0, none, [none]⟩) := by decide +kernel

theorem test_hyp_TableContentsReadBack :
    (65535 : Nat) < 65536
    ∧ (∀ o ∈ [({ line := 255 } : Origin), {}], o.line < 256)
    ∧ (∀ e ∈ [({} : LineEntry), { shear := 255, strands := 255, settleCount := 255, maxStep := 4294967295, maxSpeed := 65535,
                                  silenceLimit := 255, gracePeriod := 65535 }],
        e.shear < 256 ∧ e.strands < 256 ∧ e.settleCount < 256 ∧ e.maxStep < 4294967296 ∧ e.maxSpeed < 65536
        ∧ e.silenceLimit < 256 ∧ e.gracePeriod < 65536)
    ∧ ({ content := 4294967295 } : Station).content < 4294967296
    ∧ (∀ e ∈ [({} : ChannelEntry), { line := 255, station := 255, point := 255, pitch := 65535 }],
        e.line < 256 ∧ e.station < 256 ∧ e.point < 256 ∧ e.pitch < 65536 ∧ -2147483648 ≤ e.low ∧ e.low < 2147483648
        ∧ -2147483648 ≤ e.high ∧ e.high < 2147483648)
    ∧ (∀ e ∈ [({} : StoreEntry), ⟨65535, 65535, 255⟩], e.lowWater < 65536 ∧ e.scanLength < 65536 ∧ e.holdCount < 256)
    ∧ State.reset.tku.sweep.loaded < 65536 := by decide

end Sys2Proof.Tests
end

section
/-! PROOFS. The piece directory and its pins (R79, R98): what an entry reads after a change of one, and the outcome of each claim. -/

namespace Sys2Proof.Machine.PieceRetirement

variable {s t : State} {p : PieceRef}

theorem pieceDir_of_dir (h : t.glu.dir = s.glu.dir) (i : Nat) : t.pieceDir i = s.pieceDir i := by
  simp only [State.pieceDir, h]

/-- Of a canonical directory the entry changed reads as changed, and every other as before. -/
theorem pieceDir_updPieceDir (h : Sparse.wf {} s.glu.dir = true) (i j : Nat) (f : PieceDir → PieceDir) :
    (s.updPieceDir i f).pieceDir j = if j = i then f (s.pieceDir j) else s.pieceDir j := by
  simp only [State.pieceDir, State.updPieceDir, glu_updGlu, Sparse.get_put i j _ h]
  split
  · rename_i e; rw [e]
  · rfl

/-- A change of an entry is settled by what it makes of the entry that stands. -/
theorem updPieceDir_congr {i : Nat} {f g : PieceDir → PieceDir} (h : f (s.pieceDir i) = g (s.pieceDir i)) :
    s.updPieceDir i f = s.updPieceDir i g := by
  simp only [State.pieceDir] at h
  simp only [State.updPieceDir, State.updGlu, h]

/-- The state with the pin count of a piece set, as the statements write it. -/
def setPins (s : State) (i n : Nat) : State := s.updPieceDir i fun d => { d with pins := n }

theorem pins_setPins (h : Sparse.wf {} s.glu.dir = true) (i n : Nat) : ((setPins s i n).pieceDir i).pins = n := by
  rw [setPins, pieceDir_updPieceDir h, if_pos rfl]

/-! ### PIN and UNPIN of a current piece (R98) -/

theorem gluPin_full (hc : s.isCurrent p = true) (h : 15 ≤ (s.pieceDir p.idx).pins) : s.gluPin p = (.pinLimit, s) := by
  simp [State.gluPin, hc, h]

theorem gluPin_raises (hc : s.isCurrent p = true) (h : (s.pieceDir p.idx).pins < 15) :
    s.gluPin p = (.ok, setPins s p.idx ((s.pieceDir p.idx).pins + 1)) := by
  have hset : setPins s p.idx ((s.pieceDir p.idx).pins + 1) = s.updPieceDir p.idx fun d => { d with pins := d.pins + 1 } :=
    updPieceDir_congr rfl
  simp [State.gluPin, hc, Nat.not_le.2 h, hset]

theorem gluUnpin_unpinned (hc : s.isCurrent p = true) (h : (s.pieceDir p.idx).pins = 0) : s.gluUnpin p = (.badState, s) := by
  simp [State.gluUnpin, hc, h]

theorem gluUnpin_lowers (hc : s.isCurrent p = true) (h : 0 < (s.pieceDir p.idx).pins) :
    s.gluUnpin p = (.ok, setPins s p.idx ((s.pieceDir p.idx).pins - 1)) := by
  have hset : setPins s p.idx ((s.pieceDir p.idx).pins - 1) = s.updPieceDir p.idx fun d => { d with pins := d.pins - 1 } :=
    updPieceDir_congr rfl
  simp [State.gluUnpin, hc, Nat.ne_of_gt h, hset]

end Sys2Proof.Machine.PieceRetirement
end

section
/-! PROOFS. Retirement case by case (R86, R99 to R102, R124), and what of GLU's index it changes: the walks over slots, groups and
segments touch the free lists of segments and groups and the waiting writes alone. -/

namespace Sys2Proof.Machine.PieceRetirement

variable {s u v : State} {p : PieceRef}

/-! ### The removal of a tag (R86) -/

section RemoveSlots

variable {k : Nat} {ks : List Nat}

theorem removeSlots_unread (h : s.gluRead (tagAddr k) = (none, u)) : s.removeSlots p (k :: ks) = u.removeSlots p ks := by
  simp only [State.removeSlots, h]

theorem removeSlots_tombstone (h : s.gluRead (tagAddr k) = (some .tagTombstone, u)) :
    s.removeSlots p (k :: ks) = u.removeSlots p ks := by
  simp only [State.removeSlots, h]

theorem removeSlots_used {g : Tag} {q : PieceRef} (h : s.gluRead (tagAddr k) = (some (.tagUsed g q), u)) :
    s.removeSlots p (k :: ks) = if q = p then u.gluWrite (tagAddr k) .tagTombstone else u.removeSlots p ks := by
  simp only [State.removeSlots, h]

theorem removeSlots_empty (h : s.gluRead (tagAddr k) = (some .cleared, u)) : s.removeSlots p (k :: ks) = u := by
  simp only [State.removeSlots, h]

end RemoveSlots

/-! ### A list given back, group by group (R100) -/

section FreeList

variable {segments : Bool} {left g : Nat}

theorem freeList_unread (h : s.gluRead (groupAddr g) = (none, u)) : s.freeList segments (left + 1) g = u.freeGroup g := by
  simp only [State.freeList, h]

/-- The segments in use of a group, detached one after the other where the list is a parent-link list. -/
def detachGroup (s : State) (segments : Bool) (gr : Group) : State :=
  if segments = true then (gr.slots.filterMap fun x => x).foldl State.detachSegment s else s

theorem freeList_last {gr : Group} (h : s.gluRead (groupAddr g) = (some (.group gr), u)) (hn : gr.next = none) :
    s.freeList segments (left + 1) g = (detachGroup u segments gr).freeGroup g := by
  simp only [State.freeList, h, Cell.asGroup, hn]
  rfl

theorem freeList_next {gr : Group} {g' : Nat} (h : s.gluRead (groupAddr g) = (some (.group gr), u)) (hn : gr.next = some g') :
    s.freeList segments (left + 1) g = ((detachGroup u segments gr).freeGroup g).freeList segments left g' := by
  simp only [State.freeList, h, Cell.asGroup, hn]
  rfl

end FreeList

/-! ### A segment detached (R100, R124) -/

section DetachSegment

variable {n : Nat} {x : Segment}

theorem parentRecord_gone (h : p.idx = 0 ∨ s.isCurrent p = false) : s.parentRecord p = (none, s) := by
  rcases h with h | h <;> simp [State.parentRecord, h]

/-- Index 0 is no piece's, so a current parent has its record read (R79). -/
theorem parentRecord_current (h : s.isCurrent p = true) : s.parentRecord p = s.gluRecord p.idx := by
  have hi : p.idx ≠ 0 := by
    rintro h0
    simp [State.isCurrent, h0] at h
  simp [State.parentRecord, h, hi]

theorem detachSegment_unread (h : s.gluRead (segmentAddr n) = (none, u)) : s.detachSegment n = u := by
  simp only [State.detachSegment, h]

theorem detachSegment_alone (h : s.gluRead (segmentAddr n) = (some (.segment x), u))
    (hp : u.parentRecord x.parent = (none, v)) : s.detachSegment n = v.freeSegment n := by
  simp only [State.detachSegment, h, Cell.asSegment, hp]

theorem detachSegment_listed {r : PieceRecord} (h : s.gluRead (segmentAddr n) = (some (.segment x), u))
    (hp : u.parentRecord x.parent = (some r, v)) :
    s.detachSegment n = (v.emptySlot x.parent n r.children.count r.children.first 0).freeSegment n := by
  simp only [State.detachSegment, h, Cell.asSegment, hp]

end DetachSegment

/-! ### A slot of the parent's child-link list emptied (R100) -/

section EmptySlot

variable {n left g pos : Nat} {gr : Group}

theorem emptySlot_unread (h : s.gluRead (groupAddr g) = (none, u)) :
    s.emptySlot p n (left + 1) g pos = u.gluModify (groupAddr g) p fun c => c := by
  simp only [State.emptySlot, h]

theorem gluModify_changes {a : Nat} {c : Cell} {f : Cell → Cell} (h : s.gluRead a = (some c, u)) (hc : f c ≠ c) :
    s.gluModify a p f = u.gluWrite a (f c) := by
  simp only [State.gluModify, h, if_neg hc]

/-- Emptying the slot of a segment the group holds changes the group, so the read-modify-write offers a write. -/
theorem slots_emptied_ne (h : some n ∈ gr.slots) : (gr.slots.map fun x => if x = some n then none else x) ≠ gr.slots := by
  intro he
  rw [← he] at h
  obtain ⟨x, -, hx⟩ := List.mem_map.1 h
  split at hx
  · cases hx
  · contradiction

theorem emptySlot_found (h : s.gluRead (groupAddr g) = (some (.group gr), u)) (hn : some n ∈ gr.slots)
    (hr : u.gluRead (groupAddr g) = (some (.group gr), u)) :
    s.emptySlot p n (left + 1) g pos =
      (u.gluWrite (groupAddr g) (.group { gr with slots := gr.slots.map fun x => if x = some n then none else x })).dropGroup
        p .child pos := by
  have hne : Cell.group { gr with slots := gr.slots.map fun x => if x = some n then none else x } ≠ .group gr :=
    fun e => slots_emptied_ne hn (congrArg Group.slots (Cell.group.inj e))
  simp only [State.emptySlot, h, Cell.asGroup, List.contains_iff_mem, hn, if_true]
  rw [gluModify_changes hr hne]

theorem emptySlot_last (h : s.gluRead (groupAddr g) = (some (.group gr), u)) (hn : some n ∉ gr.slots) (hx : gr.next = none) :
    s.emptySlot p n (left + 1) g pos = u := by
  simp [State.emptySlot, h, Cell.asGroup, hn, hx]

theorem emptySlot_next {g' : Nat} (h : s.gluRead (groupAddr g) = (some (.group gr), u)) (hn : some n ∉ gr.slots)
    (hx : gr.next = some g') : s.emptySlot p n (left + 1) g pos = u.emptySlot p n left g' (pos + 1) := by
  simp [State.emptySlot, h, Cell.asGroup, hn, hx]

end EmptySlot

/-! ### A piece retired (R100, R101) -/

theorem retirePiece_reads {r : PieceRecord} (h : s.gluRecord p.idx = (some r, u)) :
    s.retirePiece p =
      ((((if r.id.flags.unindexed = true then u else u.removeTag r.id.tag p).freeList true r.parents.count r.parents.first).freeList
        false r.children.count r.children.first).retireIndex p) := by
  unfold State.retirePiece
  rw [h]

theorem retirePiece_damaged (h : s.gluRecord p.idx = (none, u)) :
    s.retirePiece p = (u.retireIndex p).writeRecord p.idx (List.replicate 8 .cleared) := by
  unfold State.retirePiece
  rw [h]

/-- A record cleared: its eight units, first to last. -/
theorem writeRecord_cleared (s : State) (i : Nat) : s.writeRecord i (List.replicate 8 .cleared) =
    [0, 1, 2, 3, 4, 5, 6, 7].foldl (fun v k => v.gluWrite (pieceAddr i k) .cleared) s := rfl

/-! ### Automatic retirement (R102) -/

theorem autoRetire_found {i : Nat} (h : s.findRetire (s.glu.closeList.take 64) = (some i, u)) :
    s.autoRetire = (u.retirePiece ⟨i, (u.pieceDir i).gen⟩).countGlu fun c => { c with autoRetired := sat c.autoRetired 1 } := by
  simp only [State.autoRetire, h]

theorem autoRetire_none (h : s.findRetire (s.glu.closeList.take 64) = (none, u)) :
    s.autoRetire = u.countGlu fun c => { c with pieceTableLow := sat c.pieceTableLow 1 } := by
  simp only [State.autoRetire, h]

section FindRetire

variable {i : Nat} {is : List Nat}

theorem findRetire_qualified (h : s.qualifies i = (true, u)) : s.findRetire (i :: is) = (some i, u) := by
  simp only [State.findRetire, h]

theorem findRetire_passed (h : s.qualifies i = (false, u)) : s.findRetire (i :: is) = u.findRetire is := by
  simp only [State.findRetire, h]

theorem qualifies_pinned (h : 0 < (s.pieceDir i).pins) : s.qualifies i = (false, s) := by
  simp [State.qualifies, Nat.ne_of_gt h]

theorem qualifies_damaged (h : (s.pieceDir i).pins = 0) (hr : s.gluRecord i = (none, u)) : s.qualifies i = (true, u) := by
  simp [State.qualifies, h, hr]

theorem qualifies_reads {r : PieceRecord} (h : (s.pieceDir i).pins = 0) (hr : s.gluRecord i = (some r, u)) :
    s.qualifies i = u.spansBelow r.spanEnds := by
  simp [State.qualifies, h, hr]

end FindRetire

theorem spanEnds_eq (r : PieceRecord) : r.spanEnds =
    (r.body.birth.map fun b => (b.line, b.stop)).toList ++ r.uses.map fun y => (y.line, y.stop) := by
  unfold PieceRecord.spanEnds
  cases r.body.birth <;> rfl

section SpansBelow

variable {l : LineId} {b h : Nat} {rest : List (LineId × Option Nat)}

theorem spansBelow_below (hh : s.lineHorizon l = (h, u)) (hb : b ≤ h) :
    s.spansBelow ((l, some b) :: rest) = u.spansBelow rest := by
  simp [State.spansBelow, hh, hb]

theorem spansBelow_above (hh : s.lineHorizon l = (h, u)) (hb : h < b) : s.spansBelow ((l, some b) :: rest) = (false, u) := by
  simp [State.spansBelow, hh, Nat.not_le.2 hb]

end SpansBelow

/-! ### What the walks of a retirement leave of GLU's index -/

/-- From `s` to `t` the directory, the close list, the piece free list and GLU's counters stand. -/
structure IndexKept (s t : State) : Prop where
  dir : t.glu.dir = s.glu.dir
  closeList : t.glu.closeList = s.glu.closeList
  freePieces : t.glu.freePieces = s.glu.freePieces
  counters : t.glu.counters = s.glu.counters

namespace IndexKept

variable {s₀ : State}

theorem of_glu (h : u.glu = s.glu) : IndexKept s u := ⟨by rw [h], by rw [h], by rw [h], by rw [h]⟩

theorem refl (s : State) : IndexKept s s := of_glu rfl

theorem trans (h : IndexKept s u) (k : IndexKept u v) : IndexKept s v :=
  ⟨k.dir.trans h.dir, k.closeList.trans h.closeList, k.freePieces.trans h.freePieces, k.counters.trans h.counters⟩

/-- What leaves GLU as it is, as every reading does, leaves its index. -/
theorem store (h : IndexKept s₀ s) (k : StoreKeeps (fun _ => True) s u) : IndexKept s₀ u := h.trans (of_glu k.glu)

theorem gluRead (h : IndexKept s₀ s) (a : Nat) : IndexKept s₀ (s.gluRead a).2 := h.store ((StoreKeeps.refl s).gluRead a)

theorem gluRecord (h : IndexKept s₀ s) (i : Nat) : IndexKept s₀ (s.gluRecord i).2 := h.store ((StoreKeeps.refl s).gluRecord i)

theorem gluWrite (h : IndexKept s₀ s) (a : Nat) (c : Cell) : IndexKept s₀ (s.gluWrite a c) := by
  have touched (w : State) (e : WriteEntry) : (w.touch e).glu = w.glu := by unfold State.touch; split <;> rfl
  refine h.trans ?_
  unfold State.gluWrite
  split
  · exact of_glu (touched _ _)
  · split <;> exact ⟨rfl, rfl, rfl, rfl⟩

theorem gluModify (h : IndexKept s₀ s) (a : Nat) (o : PieceRef) (f : Cell → Cell) : IndexKept s₀ (s.gluModify a o f) := by
  have hr := h.gluRead a
  unfold State.gluModify
  split <;> (rename_i heq; rw [heq] at hr)
  · split
    · exact hr
    · exact hr.gluWrite _ _
  · exact (hr.gluWrite _ _).store (((StoreKeeps.refl _).countStc _).raise _ _ _ _)

theorem removeSlots (ks : List Nat) : ∀ s, IndexKept s₀ s → IndexKept s₀ (s.removeSlots p ks) := by
  induction ks with
  | nil => exact fun _ h => h
  | cons k ks ih =>
    intro s h
    have hr := h.gluRead (tagAddr k)
    unfold State.removeSlots
    split <;> (rename_i heq; rw [heq] at hr)
    · exact ih _ hr
    · exact ih _ hr
    · split
      · exact hr.gluWrite _ _
      · exact ih _ hr
    · exact hr

theorem emptySlot (n left : Nat) : ∀ s g pos, IndexKept s₀ s → IndexKept s₀ (s.emptySlot p n left g pos) := by
  induction left with
  | zero => exact fun _ _ _ h => h
  | succ left ih =>
    intro s g pos h
    have hr := h.gluRead (groupAddr g)
    unfold State.emptySlot
    split <;> (rename_i heq; rw [heq] at hr)
    · exact hr.gluModify _ _ _
    · split
      · exact (hr.gluModify _ _ _).trans (of_glu rfl)
      · split
        · exact ih _ _ _ hr
        · exact hr

theorem freeSegment (h : IndexKept s₀ s) (n : Nat) : IndexKept s₀ (s.freeSegment n) := h.trans ⟨rfl, rfl, rfl, rfl⟩

theorem freeGroup (h : IndexKept s₀ s) (g : Nat) : IndexKept s₀ (s.freeGroup g) := h.trans ⟨rfl, rfl, rfl, rfl⟩

theorem parentRecord (h : IndexKept s₀ s) (q : PieceRef) : IndexKept s₀ (s.parentRecord q).2 := by
  unfold State.parentRecord
  split
  · exact h.gluRecord _
  · exact h

theorem detachSegment (h : IndexKept s₀ s) (n : Nat) : IndexKept s₀ (s.detachSegment n) := by
  have hr := h.gluRead (segmentAddr n)
  unfold State.detachSegment
  split <;> (rename_i heq; rw [heq] at hr)
  · exact hr
  · rename_i c t
    have hp := hr.parentRecord (Cell.asSegment c).parent
    dsimp only
    split <;> (rename_i heq'; rw [heq'] at hp)
    · exact (emptySlot _ _ _ _ _ hp).freeSegment n
    · exact hp.freeSegment n

theorem forEach {α : Type} {f : State → α → State} (hf : ∀ s a, IndexKept s₀ s → IndexKept s₀ (f s a)) (xs : List α) :
    ∀ s, IndexKept s₀ s → IndexKept s₀ (s.forEach xs f) := by
  induction xs with
  | nil => exact fun _ h => h
  | cons a xs ih => exact fun s h => ih _ (hf s a h)

theorem freeList (segments : Bool) (left : Nat) : ∀ s g, IndexKept s₀ s → IndexKept s₀ (s.freeList segments left g) := by
  induction left with
  | zero => exact fun _ _ h => h
  | succ left ih =>
    intro s g h
    have hr := h.gluRead (groupAddr g)
    unfold State.freeList
    split <;> (rename_i heq; rw [heq] at hr)
    · exact hr.freeGroup g
    · rename_i c t
      have hd : IndexKept s₀ (if segments then t.forEach ((Cell.asGroup c).slots.filterMap fun x => x) State.detachSegment else t) := by
        split
        · exact forEach (fun _ n h => h.detachSegment n) _ _ hr
        · exact hr
      dsimp only at hd ⊢
      split
      · exact ih _ _ (hd.freeGroup g)
      · exact hd.freeGroup g

theorem retireIndex (h : IndexKept s u) (p : PieceRef) : IndexKept (s.retireIndex p) (u.retireIndex p) := by
  obtain ⟨hd, hc, hf, hn⟩ := h
  constructor <;>
    simp only [State.retireIndex, State.dropPiece, State.dropEntries, State.updPieceDir, glu_updPbk, glu_updGlu, hd, hc, hf, hn]

end IndexKept

/-- Of GLU's index a retirement changes what taking the piece out of it changes: its entry, the close list and the piece free list. -/
theorem retirePiece_index (s : State) (p : PieceRef) : IndexKept (s.retireIndex p) (s.retirePiece p) := by
  have hr := (IndexKept.refl s).gluRecord p.idx
  rcases h : s.gluRecord p.idx with ⟨_ | r, u⟩ <;> rw [h] at hr
  · rw [retirePiece_damaged h]
    exact IndexKept.forEach (fun _ _ h => h.gluWrite _ _) _ _ (hr.retireIndex p)
  · rw [retirePiece_reads h]
    refine (IndexKept.freeList _ _ _ _ (IndexKept.freeList _ _ _ _ ?_)).retireIndex p
    split
    · exact hr
    · exact IndexKept.removeSlots _ _ hr

theorem pieceDir_retireIndex (h : Sparse.wf {} s.glu.dir = true) (p : PieceRef) (j : Nat) : (s.retireIndex p).pieceDir j =
    if j = p.idx then { s.pieceDir j with state := .retired, gen := (s.pieceDir j).gen + 1 } else s.pieceDir j :=
  pieceDir_updPieceDir (s := s.updGlu fun g =>
    { g with closeList := g.closeList.erase p.idx, freePieces := g.freePieces.push p.idx }) h p.idx j
    fun d => { d with state := .retired, gen := d.gen + 1 }

/-! ### RETIRE as GLU checks it (R99) -/

/-- A retirement counted RETIRED. -/
def countRetired (s : State) : State := s.countGlu fun c => { c with retired := sat c.retired 1 }

section GluRetire

theorem gluRetire_stale (hc : s.isCurrent p = false) : s.gluRetire p = (.noPiece, s) := by
  simp [State.gluRetire, hc]

theorem gluRetire_open (hc : s.isCurrent p = true) (hs : (s.pieceDir p.idx).state = .opened) : s.gluRetire p = (.badState, s) := by
  simp [State.gluRetire, hc, hs]

theorem gluRetire_pinned (hc : s.isCurrent p = true) (hs : (s.pieceDir p.idx).state = .closed) (hp : 0 < (s.pieceDir p.idx).pins) :
    s.gluRetire p = (.pinned, s) := by
  simp [State.gluRetire, hc, hs, hp]

/-- A CLOSED piece without a pin is judged by its record: one that feeds is refused, any other, a DAMAGED one too, is retired. -/
theorem gluRetire_closed (hc : s.isCurrent p = true) (hs : (s.pieceDir p.idx).state = .closed) (hp : (s.pieceDir p.idx).pins = 0) :
    s.gluRetire p = if (s.gluRecord p.idx).1.any PieceRecord.feeding then (.badState, (s.gluRecord p.idx).2)
      else (.ok, countRetired ((s.gluRecord p.idx).2.retirePiece p)) := by
  simp [State.gluRetire, hc, hs, hp, countRetired]

theorem gluRetire_feeding {r : PieceRecord} (hc : s.isCurrent p = true) (hs : (s.pieceDir p.idx).state = .closed)
    (hp : (s.pieceDir p.idx).pins = 0) (hr : s.gluRecord p.idx = (some r, u)) (hf : r.feeding = true) :
    s.gluRetire p = (.badState, u) := by
  rw [gluRetire_closed hc hs hp, hr]
  exact if_pos hf

theorem gluRetire_retires (hc : s.isCurrent p = true) (hs : (s.pieceDir p.idx).state = .closed)
    (hp : (s.pieceDir p.idx).pins = 0) (hf : ∀ r, (s.gluRecord p.idx).1 = some r → r.feeding = false) :
    s.gluRetire p = (.ok, countRetired ((s.gluRecord p.idx).2.retirePiece p)) := by
  have hany : (s.gluRecord p.idx).1.any PieceRecord.feeding = false := by
    cases hr : (s.gluRecord p.idx).1 with
    | none => rfl
    | some r => exact hf r hr
  rw [gluRetire_closed hc hs hp, hany]
  rfl

end GluRetire

end Sys2Proof.Machine.PieceRetirement
end

section
/-! PROOFS. PIN, UNPIN and RETIRE from the request to the reply (R98, R99, R144, R171), and the statement they make up with the rules of
retirement. -/

namespace Sys2Proof.Machine.PieceRetirement

variable {s u v : State} {r : Request} {n : PieceName} {p : PieceRef} {y : Reply} {w : Option ReplyWait}

/-! ### A request taken by GLU (R81, R171) -/

/-- What the reply of a request taken by GLU waits for, from the state the request leaves. -/
def writesWait (s : State) : Option ReplyWait := if s.glu.waiting = [] then none else some .writes

theorem writesWait_setPins (u : State) (i n : Nat) : writesWait (setPins u i n) = writesWait u := rfl

theorem writesWait_none (h : u.glu.waiting = []) : writesWait u = none := if_pos h

/-- A permitted request that GLU is free to take is replied to by what its act gives. -/
theorem serve_throughGlu {α : Type} {code : Nat} {role : Role} {form : Request → Option α}
    {act : Request → α → State → Reply × State} {x : α} (hg : Granted s r code role) (hf : GluFree s) (hx : form r = some x)
    (ha : act r x s.taken = (y, u)) (hw : writesWait u = w) : s.serve (throughGlu code role form act) = u.reply r y w := by
  have hserve := serve_granted (k := throughGlu code role form act) hg (fun h => h) hx (gluBusy_of_free (s := s.taken) hf)
  rw [hserve, ← hw]
  simp only [throughGlu, ha, writesWait, List.isEmpty_iff]

/-- Handing over or holding a reply changes nothing but ports, MGT and what waits behind GLU's writes. -/
theorem reply_keeps (u : State) (r : Request) (y : Reply) (w : Option ReplyWait) :
    (u.reply r y w).glu = { u.glu with waits := (u.reply r y w).glu.waits } ∧ (u.reply r y w).stc = u.stc
    ∧ (u.reply r y w).lines = u.lines ∧ (u.reply r y w).tku = u.tku ∧ (u.reply r y w).fcl = u.fcl := by
  cases w with
  | none =>
    simp only [State.reply, State.answer, State.transmit]
    cases r.port <;> exact ⟨rfl, rfl, rfl, rfl, rfl⟩
  | some w => cases w <;> exact ⟨rfl, rfl, rfl, rfl, rfl⟩

/-! ### PIN and UNPIN (R98, R144) -/

theorem findPiece_current (h : s.isCurrent p = true) : s.findPiece (.byRef p) = (some p, s) := by
  simp [State.findPiece, h]

theorem findPiece_stale (h : s.isCurrent p = false) : s.findPiece (.byRef p) = (none, s) := by
  simp [State.findPiece, h]

theorem findPiece_byTag (s : State) (g : Tag) : s.findPiece (.byTag g) = ((s.lookupTag g).1.map Prod.fst, (s.lookupTag g).2) := rfl

/-- The reply of an accepted claim: the reference and the pin count (R144). -/
def claimReply (p : PieceRef) (n : Nat) : Reply := { reason := .ok, contents := encRef p ++ be 1 n }

section TakeClaim

variable {claim : State → PieceRef → Reason × State}

theorem takeClaim_missing (h : s.findPiece n = (none, u)) : takeClaim claim r n s = ({ reason := .noPiece }, u) := by
  simp only [takeClaim, h, refuse]

theorem takeClaim_refused {x : Reason} (h : s.findPiece n = (some p, u)) (hc : claim u p = (x, v)) (hx : x ≠ .ok) :
    takeClaim claim r n s = ({ reason := x }, v) := by
  cases x <;> simp_all [takeClaim, refuse]

theorem takeClaim_counted {k : Nat} (h : s.findPiece n = (some p, u)) (hwf : Sparse.wf {} u.glu.dir = true)
    (hc : claim u p = (.ok, setPins u p.idx k)) : takeClaim claim r n s = (claimReply p k, setPins u p.idx k) := by
  simp only [takeClaim, h, hc, claimReply, pins_setPins hwf]

end TakeClaim

theorem claims_eq (hl : 20 ≤ r.body.length) : r.claims = pieceNameOf r.body := if_neg (Nat.not_lt.2 hl)

theorem claims_malformed (h : r.body.length < 20 ∨ pieceNameOf r.body = none) : r.claims = none := by
  rcases h with h | h <;> simp [Request.claims, h]

theorem exec_pin (hg : Granted s r 8 .view) (hf : GluFree s) (hn : r.claims = some n)
    (ht : takeClaim State.gluPin r n s.taken = (y, u)) (hw : writesWait u = w) : exec .pin s = .next (u.reply r y w) :=
  congrArg _ (serve_throughGlu hg hf hn ht hw)

theorem exec_unpin (hg : Granted s r 9 .view) (hf : GluFree s) (hn : r.claims = some n)
    (ht : takeClaim State.gluUnpin r n s.taken = (y, u)) (hw : writesWait u = w) : exec .unpin s = .next (u.reply r y w) :=
  congrArg _ (serve_throughGlu hg hf hn ht hw)

section Found

variable (hf : GluFree s) (hwf : Sparse.wf {} s.glu.dir = true) (hn : r.claims = some n)
  (hfind : s.taken.findPiece n = (some p, u)) (hdir : u.glu.dir = s.glu.dir) (hw : writesWait u = w)
  (hc : s.isCurrent p = true)
include hf hwf hn hfind hdir hw hc

/-- PIN of a piece found: refused at 15 pins, and else one more pin (R98). -/
theorem exec_pin_found (hg : Granted s r 8 .view) :
    (15 ≤ (s.pieceDir p.idx).pins → exec .pin s = .next (u.reply r { reason := .pinLimit } w))
    ∧ ((s.pieceDir p.idx).pins < 15 → exec .pin s = .next
        ((setPins u p.idx ((s.pieceDir p.idx).pins + 1)).reply r (claimReply p ((s.pieceDir p.idx).pins + 1)) w)) := by
  have hcu : u.isCurrent p = true := (isCurrent_of_dir hdir p).trans hc
  rw [← pieceDir_of_dir hdir]
  exact ⟨fun h => exec_pin hg hf hn (takeClaim_refused hfind (gluPin_full hcu h) nofun) hw,
    fun h => exec_pin hg hf hn (takeClaim_counted hfind (hdir ▸ hwf) (gluPin_raises hcu h)) ((writesWait_setPins ..).trans hw)⟩

/-- UNPIN of a piece found: refused without a pin, and else one pin fewer (R98). -/
theorem exec_unpin_found (hg : Granted s r 9 .view) :
    ((s.pieceDir p.idx).pins = 0 → exec .unpin s = .next (u.reply r { reason := .badState } w))
    ∧ (0 < (s.pieceDir p.idx).pins → exec .unpin s = .next
        ((setPins u p.idx ((s.pieceDir p.idx).pins - 1)).reply r (claimReply p ((s.pieceDir p.idx).pins - 1)) w)) := by
  have hcu : u.isCurrent p = true := (isCurrent_of_dir hdir p).trans hc
  rw [← pieceDir_of_dir hdir]
  exact ⟨fun h => exec_unpin hg hf hn (takeClaim_refused hfind (gluUnpin_unpinned hcu h) nofun) hw,
    fun h => exec_unpin hg hf hn (takeClaim_counted hfind (hdir ▸ hwf) (gluUnpin_lowers hcu h)) ((writesWait_setPins ..).trans hw)⟩

end Found

/-! ### RETIRE (R99) -/

theorem retires_eq (hl : 3 ≤ r.body.length) : r.retires = some (refAt r.body 0) := if_neg (Nat.not_lt.2 hl)

theorem exec_retire (hg : Granted s r 10 .engineer) (hf : GluFree s) (hn : r.retires = some p) {x : Reason}
    (ht : s.taken.gluRetire p = (x, u)) (hw : writesWait u = w) : exec .retire s = .next (u.reply r { reason := x } w) := by
  have ha : takeRetire r p s.taken = ({ reason := x }, u) := by simp only [takeRetire, ht, refuse]
  exact congrArg _ (serve_throughGlu hg hf hn ha hw)

/-- A refusal that GLU gives without a write is answered at once. -/
theorem exec_retire_refused (hg : Granted s r 10 .engineer) (hf : GluFree s) (hn : r.retires = some p) {x : Reason}
    (ht : s.taken.gluRetire p = (x, u)) (hu : u.glu = s.glu) : exec .retire s = .next (u.answer r { reason := x }) :=
  exec_retire hg hf hn ht (writesWait_none (by rw [hu]; exact hf.1))

/-- The effects of an accepted RETIRE (R99, R100, R101). -/
theorem exec_retire_retires (hg : Granted s r 10 .engineer) (hf : GluFree s) (hwf : Sparse.wf {} s.glu.dir = true)
    (hn : r.retires = some p) (hc : s.isCurrent p = true) (hs : (s.pieceDir p.idx).state = .closed)
    (hp : (s.pieceDir p.idx).pins = 0)
    (hu : ∀ x, (s.taken.gluRecord p.idx).1 = some x → x.feeding = false) :
    ∃ t, exec .retire s = .next t
      ∧ t.pieceDir p.idx = { state := .retired, gen := (s.pieceDir p.idx).gen + 1, pins := 0 }
      ∧ (∀ j, j ≠ p.idx → t.pieceDir j = s.pieceDir j)
      ∧ t.glu.closeList = s.glu.closeList.erase p.idx ∧ t.glu.freePieces = s.glu.freePieces.push p.idx
      ∧ t.glu.counters.retired = sat s.glu.counters.retired 1
      ∧ (let v := (s.taken.gluRecord p.idx).2.retirePiece p
         t = State.reply (v.countGlu fun c => { c with retired := sat c.retired 1 }) r { reason := .ok }
           (if v.glu.waiting = [] then none else some .writes)
         ∧ t.glu.freeSegments = v.glu.freeSegments ∧ t.glu.freeGroups = v.glu.freeGroups ∧ t.stc = v.stc)
      ∧ (∀ l, t.line l = s.line l) ∧ t.tku = s.tku ∧ t.fcl = s.fcl := by
  have hkeeps : GluKeeps (fun _ => False) s.taken ((s.taken.gluRecord p.idx).2.retirePiece p) :=
    ((GluKeeps.refl s.taken).gluRecord p.idx).retirePiece p
  have hindex : IndexKept (s.taken.retireIndex p) ((s.taken.gluRecord p.idx).2.retirePiece p) :=
    (((IndexKept.refl s.taken).gluRecord p.idx).retireIndex p).trans (retirePiece_index _ p)
  have hexec := exec_retire hg hf hn (gluRetire_retires (s := s.taken) hc hs hp hu) rfl
  generalize (s.taken.gluRecord p.idx).2.retirePiece p = v at hexec hkeeps hindex ⊢
  obtain ⟨hglu, hstc, hlines, htku, hfcl⟩ := reply_keeps (countRetired v) r { reason := .ok } (writesWait (countRetired v))
  obtain ⟨t, ht⟩ : ∃ t, t = (countRetired v).reply r { reason := .ok } (writesWait (countRetired v)) := ⟨_, rfl⟩
  rw [← ht] at hexec hglu hstc hlines htku hfcl
  have hdir (j : Nat) : t.pieceDir j = if j = p.idx then
      { s.pieceDir j with state := .retired, gen := (s.pieceDir j).gen + 1 } else s.pieceDir j :=
    (pieceDir_of_dir ((congrArg GLU.dir hglu).trans hindex.dir) j).trans (pieceDir_retireIndex (s := s.taken) hwf p j)
  refine ⟨t, hexec, ?_, ?_, ?_, ?_, ?_, ⟨ht, ?_, ?_, hstc⟩, ?_, htku.trans hkeeps.tku, hfcl.trans hkeeps.fcl⟩
  · simp [hdir, hp]
  · exact fun j hj => by rw [hdir, if_neg hj]
  · exact (congrArg GLU.closeList hglu).trans hindex.closeList
  · exact (congrArg GLU.freePieces hglu).trans hindex.freePieces
  · exact (congrArg (fun g => g.counters.retired) hglu).trans
      (congrArg (fun c : GluCounters => sat c.retired 1) hindex.counters)
  · rw [hglu]; rfl
  · rw [hglu]; rfl
  · exact fun l => (congrArg (fun ls => ls[l]) hlines).trans (hkeeps.other l id)

/-! ### The statement -/

/-- Settles O59. The requests are followed from the queue to the reply, each claim and each refusal of a retirement by its own lemma;
the rules of retirement are the branches of its walks. -/
theorem pinsAndRetirement : Obligations.PinsAndRetirement := by
  unfold Obligations.PinsAndRetirement
  refine ⟨?malformed, ?requests, ?retirePiece, ?freeList, ?detach, ?emptySlot, ?auto, ?find, ?spans, ?tag⟩
  case malformed =>
    intro s r
    refine ⟨?_, fun hg hl => congrArg _ (serve_malformed (k := retireService) hg (fun h => h) (if_pos hl))⟩
    simp only [List.forall_mem_cons, List.not_mem_nil, false_implies, implies_true, and_true]
    exact ⟨fun hg hb => congrArg _ (serve_malformed (k := pinService) hg (fun h => h) (claims_malformed hb)),
      fun hg hb => congrArg _ (serve_malformed (k := unpinService) hg (fun h => h) (claims_malformed hb))⟩
  case requests =>
    intro s r hf hwf
    refine ⟨?_, ?_, ?_⟩
    · intro p hl hname
      have hn := (claims_eq hl).trans hname
      have found (hc : s.isCurrent p = true) : s.taken.findPiece (.byRef p) = (some p, s.taken) := findPiece_current hc
      have missing (hc : s.isCurrent p = false) : s.taken.findPiece (.byRef p) = (none, s.taken) := findPiece_stale hc
      have now : writesWait s.taken = none := writesWait_none hf.1
      exact ⟨fun hg => ⟨fun hc => exec_pin hg hf hn (takeClaim_missing (missing hc)) now,
          fun hc => (exec_pin_found hf hwf hn (found hc) rfl now hc hg).1,
          fun hc => (exec_pin_found hf hwf hn (found hc) rfl now hc hg).2⟩,
        fun hg => ⟨fun hc => exec_unpin hg hf hn (takeClaim_missing (missing hc)) now,
          fun hc => (exec_unpin_found hf hwf hn (found hc) rfl now hc hg).1,
          fun hc => (exec_unpin_found hf hwf hn (found hc) rfl now hc hg).2⟩⟩
    · intro g hl hname
      have hn := (claims_eq hl).trans hname
      obtain ⟨hdir, hcurrent⟩ := lookupTag_match s.taken g
      have found (p y) (h : (s.taken.lookupTag g).1 = some (p, y)) :
          s.taken.findPiece (.byTag g) = (some p, (s.taken.lookupTag g).2) := by rw [findPiece_byTag, h]; rfl
      have missing (h : (s.taken.lookupTag g).1 = none) :
          s.taken.findPiece (.byTag g) = (none, (s.taken.lookupTag g).2) := by rw [findPiece_byTag, h]; rfl
      exact ⟨fun hg => ⟨fun h => exec_pin hg hf hn (takeClaim_missing (missing h)) rfl,
          fun p y h => exec_pin_found hf hwf hn (found p y h) hdir rfl (hcurrent p y h) hg⟩,
        fun hg => ⟨fun h => exec_unpin hg hf hn (takeClaim_missing (missing h)) rfl,
          fun p y h => exec_unpin_found hf hwf hn (found p y h) hdir rfl (hcurrent p y h) hg⟩⟩
    · intro hg hl
      have hn := retires_eq hl
      dsimp only
      refine ⟨?_, ?_, ?_, ?_, ?_⟩
      · exact fun hc => exec_retire_refused hg hf hn (gluRetire_stale (s := s.taken) hc) rfl
      · exact fun hc hs => exec_retire_refused hg hf hn (gluRetire_open (s := s.taken) hc hs) rfl
      · exact fun hc hs hp => exec_retire_refused hg hf hn (gluRetire_pinned (s := s.taken) hc hs hp) rfl
      · intro hc hs hp rec u hr hfeed
        have hglu : u.glu = s.glu := by
          have h := ((StoreKeeps.refl (L := fun _ => True) s.taken).gluRecord (refAt r.body 0).idx).glu
          rwa [hr] at h
        exact exec_retire_refused hg hf hn (gluRetire_feeding (s := s.taken) hc hs hp hr hfeed) hglu
      · exact fun hc hs hp hu => exec_retire_retires hg hf hwf hn hc hs hp hu
  case retirePiece =>
    exact fun s u p => ⟨fun r h => retirePiece_reads h, fun h => (retirePiece_damaged h).trans (writeRecord_cleared _ _)⟩
  case freeList =>
    exact fun s u segments left g => ⟨rfl, fun h => freeList_unread h,
      fun gr h => ⟨fun hn => freeList_last h hn, fun g' hn => freeList_next h hn⟩⟩
  case detach =>
    intro s u n
    refine ⟨fun h => detachSegment_unread h, fun x h => ⟨?_, ?_, ?_⟩⟩
    · exact fun hp => detachSegment_alone h (parentRecord_gone hp)
    · exact fun v hc hr => detachSegment_alone h ((parentRecord_current hc).trans hr)
    · exact fun r v hc hr => detachSegment_listed h ((parentRecord_current hc).trans hr)
  case emptySlot =>
    exact fun s u p n left g pos => ⟨rfl, fun h => emptySlot_unread h, fun gr h =>
      ⟨fun hn hr => emptySlot_found h hn hr, fun hn hx => emptySlot_last h hn hx, fun g' hn hx => emptySlot_next h hn hx⟩⟩
  case auto =>
    exact fun s u => ⟨fun h => autoRetire_none h, fun i h => autoRetire_found h⟩
  case find =>
    intro s u i is
    refine ⟨rfl, findRetire_qualified, findRetire_passed, qualifies_pinned, qualifies_damaged, ?_⟩
    intro r hp hr
    rw [qualifies_reads hp hr, spanEnds_eq]
  case spans =>
    exact fun s u l b h rest => ⟨rfl, rfl, fun hh hb => spansBelow_below hh hb, fun hh hb => spansBelow_above hh hb⟩
  case tag =>
    intro s p k ks
    have read {x : Option Cell} (h : (s.gluRead (tagAddr k)).1 = x) :
        s.gluRead (tagAddr k) = (x, (s.gluRead (tagAddr k)).2) := by rw [← h]
    dsimp only
    refine ⟨rfl, ?_, ?_, ?_⟩
    · exact fun h => removeSlots_empty (read h)
    · exact fun g h => (removeSlots_used (read h)).trans (if_pos rfl)
    · rintro (h | h | ⟨g, q, h, hq⟩)
      · exact removeSlots_unread (read h)
      · exact removeSlots_tombstone (read h)
      · exact (removeSlots_used (read h)).trans (if_neg hq)

end Sys2Proof.Machine.PieceRetirement
end
